-- ==== Sys2Proof/Word.lean ====
section
/-! DEFINITION. The word types of the part (a byte of the host link, a drop level) and the two plain accessors of a fixed-size table. -/

namespace Sys2Proof

/-- One byte of the host link (R152). -/
abbrev Byte := BitVec 8

/-- A drop level: a whole number from 0 to 3 (00_scope.md 1.5). -/
abbrev Level := Fin 4

/-- Entry `i` of a table, or `d` where the table has no entry `i`. -/
def look {α : Type} {n : Nat} (t : Vector α n) (i : Nat) (d : α) : α := (t[i]?).getD d

/-- The table with entry `i` replaced; a number beyond the table changes nothing. -/
def put {α : Type} {n : Nat} (t : Vector α n) (i : Nat) (x : α) : Vector α n :=
  t.setIfInBounds i x

/-- The table of `g` of every entry. -/
def mapTable {α β : Type} {n : Nat} (g : α → β) (t : Vector α n) : Vector β n :=
  Vector.ofFn fun i => g t[i]

end Sys2Proof
end

