-- ==== Sys2Proof/Syntax.lean ====
section
/-! DEFINITION. The commands of the part: one constructor for each row of spec/opcode_table.json. -/

namespace Sys2Proof

/-- The 36 steps of the part. A REQUEST row (identify … band, unknownCode) is the request handler dealing with
the frame that it has taken (R157, R158), when that frame is a request of the row; its operands stand in the
body of that frame (R165, R166), so the constructor carries none (log 1). -/
inductive Instr where
  /-- Power is applied (R32). -/
  | powerOn
  /-- The soft reset of R169, due once the RESET's reply has been sent in full (R168). -/
  | softReset
  /-- Bytes arriving on the host link, taken by the receiver in order (R153). -/
  | hostFrameArrival (bytes : List Byte)
  /-- The transmit path finishes a frame and begins the one at the head of the outgoing order (R162). -/
  | frameSent
  | identify
  | statusQuery
  | statsRead
  | reset
  | setPlaneSet
  | setPlaneRemove
  | setHeadSet
  | setHeadRemove
  | setLane
  | setMotion
  | setCue
  | engineStart
  | engineStop
  | engineHalt
  | pageOpen
  | pageCancel
  | nozzleMark
  | nozzleClear
  | waveErase
  | waveLoad
  | waveSelect
  | headRestore
  | band
  /-- The storing of a BAND ends (R60). -/
  | storingEnd
  /-- The encoder inputs now show the pair (A, B) (R4). -/
  | encoderChange (a b : Bool)
  /-- The pace timer expires (R7). -/
  | paceExpiry
  /-- The CUE input goes from inactive to active (R20), alone or together with an edge of the substrate (R28). -/
  | cueEdge
  /-- The SENDING phase of the head's transfer ends (R140). -/
  | sendingEnd (head : Nat)
  /-- An answer of 32 bits, first bit sent the most significant, arrives on a lane (R137, R140). -/
  | headAnswer (lane : Nat) (bits : BitVec 32)
  /-- The acknowledgement timeout of the head's transfer runs out (R140). -/
  | ackTimeout (head : Nat)
  /-- The fire window of a row of a head ends (R114). -/
  | windowEnd (head row : Nat)
  | unknownCode
deriving DecidableEq, Repr

end Sys2Proof
end

