-- ==== Sys2Proof/Decode.lean ====
section
/-! DEFINITION. What a word of the command table spells: no row of spec/opcode_table.json gives bits. -/

namespace Sys2Proof

/-- The table gives no row any bits (its rows have neither "fixed" nor "fields"), so no word spells a command. The
bits of a request stand in the frame that carries it (R152, R158), which HOST_FRAME_ARRIVAL takes. -/
def decodeTableWord (_nbits _w : Nat) : Option Instr := none

end Sys2Proof
end

