-- ==== Sys2Proof/Machine/Bytes.lean ====
section
/-! DEFINITION. Byte order and bit order: the little-endian fields of the host link (R152, R166, R170) and the most-significant-first fields of the head lanes (R137). -/

namespace Sys2Proof.Machine

/-- The `n` bytes of a field, least significant first (R152). -/
def leBytes : Nat → Nat → List Byte
  | 0, _ => []
  | n + 1, x => BitVec.ofNat 8 x :: leBytes n (x / 256)

/-- The number that bytes spell, least significant first (R152). -/
def leNat : List Byte → Nat
  | [] => 0
  | b :: bs => b.toNat + 256 * leNat bs

/-- The little-endian field of `n` bytes at offset `off` of a body (R166). -/
def field (body : List Byte) (off n : Nat) : Nat := leNat ((body.drop off).take n)

/-- A signed quantity as 8 bytes of two's complement (R170). -/
def int64Bytes (e : Int) : List Byte := leBytes 8 (e % 18446744073709551616).toNat

/-- The `n` bits of a field in the order sent on a head lane: most significant first (R137). -/
def msbBits (n x : Nat) : List Bool := (List.range n).map fun i => x.testBit (n - 1 - i)

end Sys2Proof.Machine
end

