-- ==== Sys2Proof/Machine/Crc.lean ====
section
/-! DEFINITION. The three cyclic redundancy checks: host link (R152), head lanes and answers (R137). -/

namespace Sys2Proof.Machine

/-- One bit of the reflected 32-bit CRC: 0xEDB88320 is 0x04C11DB7 with its bits reversed (DEDUCED, log 17). -/
def hostCrcShift (c : BitVec 32) : BitVec 32 :=
  if c.getLsbD 0 then (c >>> 1) ^^^ 0xEDB88320#32 else c >>> 1

/-- One byte of the host link CRC. -/
def hostCrcByte (c : BitVec 32) (b : Byte) : BitVec 32 :=
  (List.range 8).foldl (fun c _ => hostCrcShift c) (c ^^^ b.setWidth 32)

/-- The host link CRC over bytes in the order sent: reflected, started from all ones, complemented (R152). -/
def hostCrc (bytes : List Byte) : BitVec 32 :=
  ~~~ (bytes.foldl hostCrcByte 0xFFFFFFFF#32)

/-- One bit of an unreflected CRC of `w` bits, taken in the order sent (R137). -/
def laneCrcBit {w : Nat} (poly c : BitVec w) (bit : Bool) : BitVec w :=
  if c.msb != bit then (c <<< 1) ^^^ poly else c <<< 1

/-- The 32-bit check of LOAD, FIRE and PROBE frames: from all ones, complemented, not reflected (R137). -/
def laneCrc32 (bits : List Bool) : BitVec 32 :=
  ~~~ (bits.foldl (laneCrcBit 0x04C11DB7#32) 0xFFFFFFFF#32)

/-- The 8-bit check of an answer: polynomial 0x07, from 0, not complemented (R137). -/
def laneCrc8 (bits : List Bool) : BitVec 8 :=
  bits.foldl (laneCrcBit 0x07#8) 0#8

end Sys2Proof.Machine
end

