-- ==== Sys2Proof/Config.lean ====
section
/-! DEFINITION. What is fixed for the part (the capacities of 00_scope.md 1.6), and its one free value. -/

namespace Sys2Proof.Config

/-- Receive slots for data frames (R154). -/
@[simp] def dataSlots : Nat := 28
/-- Receive slots for control frames (R154). -/
@[simp] def controlSlots : Nat := 4
/-- Refusals at arrival kept until sent (R155). -/
@[simp] def arrivalRefusals : Nat := 8
/-- Events the event queue holds (R163). -/
@[simp] def eventSlots : Nat := 64
/-- The longest frame body in bytes (R152). -/
@[simp] def maxBody : Nat := 65536
/-- Where every counter saturates (00_scope.md 1.5, R173). -/
@[simp] def counterMax : Nat := 4294967295
/-- Where P_raw saturates: 2^60 − 1 (R8). -/
@[simp] def positionMax : Nat := 1152921504606846975
/-- Pages the queue holds (R39). -/
@[simp] def pageSlots : Nat := 4
/-- The longest page in lines (R40). -/
@[simp] def maxPageLength : Nat := 1048576
/-- Line memory in bytes (R34). -/
@[simp] def lineMemory : Nat := 268435456
/-- Consecutive acknowledgements that prove a link (R148). -/
@[simp] def probesToPass : Nat := 16

/-- DESIGN CHOICE, free (log 12): what byte `i` of a BAND header reads as when the body ends before it.
The spec gives the body's length its own place in the Line Store's order (R57, R158) and does not say
what the earlier checks then read. No body: nothing can be proved of the value. -/
opaque absentByte (i : Nat) : Byte

end Sys2Proof.Config
end

