-- ==== Sys2Proof/Machine/State.lean ====
section
/-! DEFINITION. The state of the part as plain data: every register, table, queue, buffer, mode and counter the spec gives it, and its values after power-on. -/

namespace Sys2Proof.Machine

/-- Why the part stops: never. No rule of the spec gives the part a state in which it stops; a request it
cannot carry out is answered with a status (R158, R161). Safe: nothing raises a fault. -/
inductive Fault where
deriving DecidableEq, Repr

/-- Why a command has no meaning. -/
inductive Refusal where
  /-- A row of the command table that has no meaning yet: raised by an arm of `exec` only, and by none
  of the present arms. Safe: the machine stops where the hardware goes on. -/
  | notModelled (mnemonic : String)
deriving DecidableEq, Repr

/-! ### Link Port -/

/-- The two kinds of request (R152): control 0x01, data 0x02. -/
inductive FrameKind where
  | control
  | data
deriving DecidableEq, Repr

/-- A good request as a slot holds it (R154). -/
structure HostFrame where
  kind : FrameKind
  code : Byte
  tag  : BitVec 16
  body : List Byte
deriving DecidableEq, Repr

/-- The receiver (R153). -/
inductive Rx where
  /-- Hunting: whether a byte has been skipped in this hunt, and whether the last byte was the first
  sync byte and so may open a sync pair. -/
  | hunting (skipped sync1 : Bool)
  /-- The next frame is expected to begin at the next byte. -/
  | expecting
  /-- The first sync byte of an expected frame has arrived. -/
  | second
  /-- Past the sync bytes, within Kind to Length: the bytes so far, the last first. -/
  | header (got : List Byte)
  /-- Past the Length field: Kind to Length in order, the body and check bytes so far, the last first,
  and how many are still to come (at least 1). -/
  | rest (head got : List Byte) (left : Nat)
deriving DecidableEq, Repr

/-- The reply statuses (R161). -/
inductive Status where
  | ok | busy | noCredit | unknown | wrongState | badArgument | geometry | lanes | storeSize
  | incomplete | queueFull | noSuchPage | order | noSpace | isProtected | notErased | notOffline
deriving DecidableEq, Repr

/-- A reply produced and not yet begun (R159, R160). `slot` is the kind of receive slot its request still
holds; a refusal at arrival holds none, and so `none` is origin 1. -/
structure Reply where
  status : Status
  code   : Byte
  tag    : BitVec 16
  slot   : Option FrameKind
  body   : List Byte
deriving DecidableEq, Repr

/-! ### Enumerated values of several blocks (R170) -/

inductive EngineState where
  | setup
  | run
deriving DecidableEq, Repr

inductive LockState where
  | unlocked
  | locked
deriving DecidableEq, Repr

inductive PageState where
  | queued
  | bound
  | firing
deriving DecidableEq, Repr

inductive HealthState where
  | active
  | warned
  | degraded
  | offline
  | probing
deriving DecidableEq, Repr

/-- The eight retirement kinds (R100). -/
inductive Kind where
  | fired | empty | underrun | skipped | linkLoss | overspeed | withdrawn | cut
deriving DecidableEq, Repr

/-- Page status in PAGE_DONE (R47, R37). -/
inductive PageStatus where
  | complete | damaged | cancelled | halted
deriving DecidableEq, Repr

inductive CueKind where
  | edge
  | synthesized
deriving DecidableEq, Repr

inductive MotionSource where
  | external
  | internal
deriving DecidableEq, Repr

inductive PageMode where
  | onCue
  | follow
deriving DecidableEq, Repr

inductive LaneFunction where
  | off
  | data
  | ret
deriving DecidableEq, Repr

/-- Nozzle map entries from better to worse (R97). -/
inductive NozzleStatus where
  | good
  | weak
  | dead
deriving DecidableEq, Repr

/-- An event with the values its owning rule names (R175). -/
inductive Event where
  | reverseLimit (pInt hInt limit : Nat)
  | cueLocked (smoothed predicted : Nat)
  | cueRelock (pc predicted : Nat) (error : Int)
  | cueLost (predicted hInt : Nat)
  | cueUnused (origin : Nat) (kind : CueKind)
  | cueEarly (page origin least : Nat)
  | pageBound (page origin : Nat)
  | pageStarted (page head row line : Nat) (kind : Kind) (hInt : Nat)
  | underrun (page plane line head row hInt : Nat)
  | pageDone (page : Nat) (status : PageStatus) (length : Nat) (counts : Vector Nat 8)
  | headState (head : Nat) (old new : HealthState) (counter : Nat)
deriving DecidableEq, Repr

/-- A frame of the outgoing order (R162): a reply, or an event with its sequence number and Lost field
as they were when it joined (R163, R164). -/
inductive OutFrame where
  | reply (r : Reply)
  | event (seq : BitVec 16) (lost : Nat) (e : Event)
deriving DecidableEq, Repr

/-- The frame on the transmit path; a reply with its Credits and Control free (R156, R159, R160). -/
inductive SentFrame where
  | reply (r : Reply) (credits controlFree : Nat)
  | event (seq : BitVec 16) (lost : Nat) (e : Event)
deriving DecidableEq, Repr

/-- The storing of a BAND in progress (R60). -/
structure Storing where
  tag      : BitVec 16
  page     : Nat
  plane    : Nat
  first    : Nat
  lines    : List (List Level)
  reserved : Nat
deriving DecidableEq, Repr

/-- The request handler (R157): free; with a frame that it has taken out of its arrival queue and that its row
of the table is to deal with (R158, log 3); busy with a storing (R60); or stopped by a RESET until the soft
reset (R168). -/
inductive Handler where
  | free
  | taken (f : HostFrame)
  | storing (op : Storing)
  | stopped
deriving DecidableEq, Repr

/-! ### Motion Unit -/

/-- An encoder input pair (A, B) (R1, R4). -/
structure EncPair where
  a : Bool
  b : Bool
deriving DecidableEq, Repr

/-- The configured values of R1. -/
structure MotionCfg where
  source       : MotionSource
  invert       : Bool
  stepInt      : Nat
  stepFrac     : Nat
  paceInterval : Nat
  lateLimit    : Nat
  reverseLimit : Nat
deriving DecidableEq, Repr

/-- The pace timer (R1): `left` is the time to its next expiry in 0.1 µs, as it was when the timer last
started (no clock counts it down, log 2). -/
inductive PaceTimer where
  | stopped
  | running (left : Nat)
deriving DecidableEq, Repr

/-- The reverse condition (R1, R13). -/
inductive RevCond where
  | armed
  | raised
deriving DecidableEq, Repr

/-! ### Cue Tracker -/

/-- The configured values of R17. -/
structure CueCfg where
  offset  : Nat
  pitch   : Nat
  jump    : Nat
  window  : Nat
  holdOff : Nat
  minGap  : Nat
deriving DecidableEq, Repr

/-! ### Page Queue -/

/-- A page record (R39), with its arrival pointer for each plane (R54; of use for the planes of its mask)
and, for each row of its heads, the row's next-line index: how many of its lines the row has retired
(R49, R59). A head whose plane the mask does not hold has no rows here. -/
structure Page where
  id        : Nat
  length    : Nat
  mask      : BitVec 8
  mode      : PageMode
  gap       : Nat
  pstate    : PageState
  origin    : Option Nat
  cancelled : Bool
  unretired : Nat
  counts    : Vector Nat 8
  underrun  : Vector Bool 8
  arrival   : Vector Nat 8
  passed    : Vector (List Nat) 24
deriving DecidableEq, Repr

/-! ### Line Store and Line Composer -/

/-- One column of a composed record: output level and assignee head, or none (R83). -/
structure ComposedCol where
  level    : Level
  assignee : Option Nat
deriving DecidableEq, Repr

/-- A stored line (R51). -/
structure StoredLine where
  page      : Nat
  line      : Nat
  raw       : List Level
  consumers : Nat
  composed  : Option (List ComposedCol)
deriving DecidableEq, Repr

/-- A plane's region of line memory as ENGINE_START allocated it (R52): line slots, and bytes a slot. -/
structure Region where
  slots     : Nat
  footprint : Nat
deriving DecidableEq, Repr

/-- A configured entry of the plane table (R69). -/
structure PlaneCfg where
  width    : Nat
  capacity : Nat
deriving DecidableEq, Repr

/-- A configured entry of the head table (R71). -/
structure HeadCfg where
  plane   : Nat
  x       : Nat
  n       : Nat
  r       : Nat
  offset  : Nat
  offsets : List Nat
  rate    : Nat
  timeout : Nat
deriving DecidableEq, Repr

/-- A head's span of columns (R74). -/
structure Span where
  head : Nat
  x    : Nat
  n    : Nat
deriving DecidableEq, Repr

/-- A plane's column decode (R78) as its width and its heads' spans in order of start column. -/
structure PlaneDecode where
  width : Nat
  spans : List Span
deriving DecidableEq, Repr

/-! ### Row Scheduler and Lane Controller -/

/-- An entry of a given row: a page and a line of it (R80). -/
structure Entry where
  page : Nat
  line : Nat
deriving DecidableEq, Repr

/-- A load buffer (R102); a FULL one with the sequence number of the LOAD that filled it (R137). -/
inductive LoadBuf where
  | empty
  | loading (e : Entry) (spent : Bool)
  | full (e : Entry) (seq : BitVec 8)
deriving DecidableEq, Repr

/-- A WRITTEN level record (R122). -/
structure LevelRec where
  pre  : Nat
  gap  : Nat
  main : Nat
deriving DecidableEq, Repr

/-- A FIRE frame (R137); an ERASED record, which no fire start finds (R128), would be sent as zeros. -/
structure FireFrame where
  seq  : BitVec 8
  row  : Nat
  page : Nat
  line : Nat
  recs : Vector (Option LevelRec) 3
deriving DecidableEq, Repr

/-- The fire state of a row (R102): the window's length in 0.1 µs from its fire start (R131), and the
FIRE frame sent at that fire start (R113). -/
inductive FireState where
  | idle
  | firing (window : Nat) (frame : FireFrame)
deriving DecidableEq, Repr

/-- A nozzle row (R102); its next entry is a function of the pages and the buffer (R101). -/
structure Row where
  buf  : LoadBuf
  fire : FireState
deriving DecidableEq, Repr

/-- A lane table entry (R134). -/
structure Lane where
  function : LaneFunction
  owner    : Nat
deriving DecidableEq, Repr

/-- A head's lanes as derived at ENGINE_START (R136): DATA lanes in increasing number, RETURN lane. -/
structure HeadLink where
  dataLanes  : List Nat
  returnLane : Nat
deriving DecidableEq, Repr

/-- What a transfer carries (R138, R148): a LOAD with its row, entry and share, or a PROBE with the
probe count before it. -/
inductive Carry where
  | load (row : Nat) (entry : Entry) (share : List Level)
  | probe (count : Nat)
deriving DecidableEq, Repr

/-- The phase of a transfer (R138): SENDING for its transfer time in ns, WAITING with the
acknowledgement timeout in 0.1 µs. -/
inductive Phase where
  | sending (ns : Nat)
  | waiting (timeout : Nat)
deriving DecidableEq, Repr

structure Transfer where
  seq   : BitVec 8
  carry : Carry
  phase : Phase
deriving DecidableEq, Repr

/-- A head's loader: the head's transfer sequence number, and the transfer in progress if it is busy
(R138). -/
structure Loader where
  seq  : BitVec 8
  xfer : Option Transfer
deriving DecidableEq, Repr

/-- A configured head's health (R143). -/
structure Health where
  state   : HealthState
  counter : Nat
  probes  : Nat
deriving DecidableEq, Repr

/-- A waveform bank (R122): settle, and the records of levels 1, 2, 3; `none` is ERASED. -/
structure Bank where
  settle : Nat
  recs   : Vector (Option LevelRec) 3
deriving DecidableEq, Repr

/-- What one party does at an event at which several act (R11, R105, R108): the Cue Tracker or a row acts once, or as
often as it has to; a head's loader chooses (log 8). -/
inductive SchedAct where
  | cueOnce
  | cue
  | rowOnce (head row : Nat)
  | row (head row : Nat)
  | load (head : Nat)
deriving DecidableEq, Repr

/-- What an edge of the CUE input arrives together with, the Cue Tracker taking it first: nothing, or an edge of the
substrate whose advance of H_int the tracker takes only after it (R12, R28, log 33). -/
inductive CueWith where
  | nothing
  | encoder (a b : Bool)
  | pace
deriving DecidableEq, Repr

/-- The whole state of the part. -/
structure State where
  rx          : Rx
  ctlWaiting  : List HostFrame
  dataWaiting : List HostFrame
  handler     : Handler
  outgoing    : List OutFrame
  sending     : Option SentFrame
  resetSent   : Bool
  eventSeq    : BitVec 16
  lostCount   : Nat
  engine      : EngineState
  motionCfg   : MotionCfg
  pRaw        : Nat
  hRaw        : Nat
  decRef      : EncPair
  encPins     : EncPair
  pace        : PaceTimer
  revCond     : RevCond
  cueCfg       : CueCfg
  lock         : LockState
  smoothed     : Nat
  predicted    : Nat
  flywheel     : Nat
  lastAccepted : Option Nat
  pages    : List Page
  tailEnd  : Option Nat
  tailPage : Option Nat
  lines   : Vector (List StoredLine) 8
  regions : Vector (Option Region) 8
  planes  : Vector (Option PlaneCfg) 8
  heads   : Vector (Option HeadCfg) 24
  decode  : Vector (Option PlaneDecode) 8
  nozzles : Vector (List (Nat × NozzleStatus)) 24
  rows    : Vector (List Row) 24
  lanes   : Vector Lane 72
  links   : Vector (Option HeadLink) 24
  loaders : Vector (Option Loader) 24
  health  : Vector (Option Health) 24
  banks      : Vector Bank 2
  activeBank : Nat
  linkCtrs   : Vector Nat 5
  motionCtrs : Vector Nat 8
  planeCtrs  : Vector (Vector Nat 7) 8
  headCtrs   : Vector (Vector Nat 11) 24
  sched   : List (List SchedAct)
  cueWith : List CueWith
  pending : List Instr
deriving DecidableEq, Repr

/-- The power-on motion configuration (R1). -/
def MotionCfg.powerOn : MotionCfg := ⟨.external, false, 1, 0, 100, 16, 4096⟩

/-- The power-on cue configuration (R17). -/
def CueCfg.powerOn : CueCfg := ⟨0, 0, 0, 0, 0, 0⟩

/-- The part right after power-on: R3, R19, R32, R39, R41, R53, R69, R71, R97, R102, R123, R134, R143, R153,
R154, R156, R157, R162, R163, R164, R173. The encoder pair present is an outside level, taken as 00 (DESIGN
CHOICE, unsafe, log 13); `sched` and `cueWith` are the model's own (DESIGN CHOICE, log 8, log 33). -/
def State.reset : State where
  rx := .hunting false false
  ctlWaiting := []
  dataWaiting := []
  handler := .free
  outgoing := []
  sending := none
  resetSent := false
  eventSeq := 0
  lostCount := 0
  engine := .setup
  motionCfg := MotionCfg.powerOn
  pRaw := 0
  hRaw := 0
  decRef := ⟨false, false⟩
  encPins := ⟨false, false⟩
  pace := .stopped
  revCond := .armed
  cueCfg := CueCfg.powerOn
  lock := .unlocked
  smoothed := 0
  predicted := 0
  flywheel := 0
  lastAccepted := none
  pages := []
  tailEnd := none
  tailPage := none
  lines := Vector.replicate 8 []
  regions := Vector.replicate 8 none
  planes := Vector.replicate 8 none
  heads := Vector.replicate 24 none
  decode := Vector.replicate 8 none
  nozzles := Vector.replicate 24 []
  rows := Vector.replicate 24 []
  lanes := Vector.replicate 72 ⟨.off, 0⟩
  links := Vector.replicate 24 none
  loaders := Vector.replicate 24 none
  health := Vector.replicate 24 none
  banks := Vector.replicate 2 ⟨0, Vector.replicate 3 none⟩
  activeBank := 0
  linkCtrs := Vector.replicate 5 0
  motionCtrs := Vector.replicate 8 0
  planeCtrs := Vector.replicate 8 (Vector.replicate 7 0)
  headCtrs := Vector.replicate 24 (Vector.replicate 11 0)
  sched := []
  cueWith := []
  pending := []

end Sys2Proof.Machine
end

