-- ==== Sys2Proof/Machine/Frames.lean ====
section
/-! DEFINITION. The frames on the head lanes bit by bit (R137), how they are dealt out over the DATA lanes (R136), their transfer time (R139), and how an answer is read (R140). -/

namespace Sys2Proof.Machine

/-- Kind, Sequence, Row, Page id and Line: the first 64 bits of LOAD, FIRE and PROBE (R137). -/
def laneHeader (kind : Nat) (seq : BitVec 8) (row page line : Nat) : List Bool :=
  msbBits 8 kind ++ msbBits 8 seq.toNat ++ msbBits 8 row ++ msbBits 16 page ++ msbBits 24 line

/-- A frame's fields followed by its Check (R137). -/
def withCheck (fields : List Bool) : List Bool := fields ++ msbBits 32 (laneCrc32 fields).toNat

/-- The bits of a LOAD or PROBE frame (R137, R148). -/
def Transfer.bits (t : Transfer) : List Bool :=
  match t.carry with
  | .load row e share =>
    withCheck (laneHeader 1 t.seq row e.page e.line ++ share.flatMap fun l => msbBits 2 l.val)
  | .probe count => withCheck (laneHeader 3 t.seq 0 0 count)

/-- The 24 bits of a level record in a FIRE frame (R137). -/
def recBits : Option LevelRec → List Bool
  | some l => msbBits 8 l.pre ++ msbBits 8 l.gap ++ msbBits 8 l.main
  | none => msbBits 24 0

/-- The bits of a FIRE frame (R132, R137). -/
def FireFrame.bits (f : FireFrame) : List Bool :=
  withCheck (laneHeader 2 f.seq f.row f.page f.line ++ f.recs.toList.flatMap recBits)

/-- The bits at places 0, 2, 4, … and at places 1, 3, 5, …. -/
def dealTwo : List Bool → List Bool × List Bool
  | [] => ([], [])
  | b :: bs => let d := dealTwo bs; (b :: d.2, d.1)

/-- What goes out on each DATA lane of a head for a frame: all of it on one lane, or dealt out
alternately, bit 0 on the lower-numbered of two (R136). -/
def laneStreams (dataLanes : List Nat) (bits : List Bool) : List (Nat × List Bool) :=
  match dataLanes with
  | [l] => [(l, bits)]
  | [l0, l1] => [(l0, (dealTwo bits).1), (l1, (dealTwo bits).2)]
  | _ => []

/-- The length of a LOAD or PROBE frame in bits (R137): 64 + 2 for each level + 32, or 96. -/
def Carry.frameBits : Carry → Nat
  | .load _ _ share => 64 + 2 * share.length + 32
  | .probe _ => 96

/-- ceil(bits × 1000 / (data lanes × rate)) ns, at half the lane rate while DEGRADED (R139). -/
def transferTime (bits dataLanes rate : Nat) (degraded : Bool) : Nat :=
  let d := dataLanes * (if degraded then rate / 2 else rate)
  (bits * 1000 + (d - 1)) / d

/-- What an answer does to the WAITING transfer (R140). -/
inductive Verdict where
  | acknowledged
  | failed
  | stale
deriving DecidableEq, Repr

/-- The kind byte of a transfer's frame (R137). -/
def Carry.kindCode : Carry → BitVec 8
  | .load _ _ _ => 0x01#8
  | .probe _ => 0x03#8

/-- An answer read by the table of R140, its fields Code, Sequence, Kind, Check from the first bit sent. -/
def judge (t : Transfer) (bits : BitVec 32) : Verdict :=
  let code := bits.extractLsb' 24 8
  let seq := bits.extractLsb' 16 8
  let kind := bits.extractLsb' 8 8
  let check := bits.extractLsb' 0 8
  if laneCrc8 (msbBits 24 (bits.extractLsb' 8 24).toNat) ≠ check then .failed
  else if code ≠ 0xA5#8 ∧ code ≠ 0x5A#8 then .failed
  else if seq ≠ t.seq then .stale
  else if kind ≠ t.carry.kindCode then .failed
  else if code = 0x5A#8 then .failed
  else .acknowledged

end Sys2Proof.Machine
end

