-- ==== Sys2Proof/Machine/Messages.lean ====
section
/-! DEFINITION. The codes of R161 and R170, the bodies of the events (R175), and the bytes of every frame the part sends (R152, R159, R164). -/

namespace Sys2Proof.Machine

/-- R161. -/
def Status.code : Status → Nat
  | .ok => 0x00 | .busy => 0x01 | .noCredit => 0x02 | .unknown => 0x03 | .wrongState => 0x04
  | .badArgument => 0x05 | .geometry => 0x06 | .lanes => 0x07 | .storeSize => 0x08
  | .incomplete => 0x09 | .queueFull => 0x0A | .noSuchPage => 0x0B | .order => 0x0C
  | .noSpace => 0x0D | .isProtected => 0x0E | .notErased => 0x0F | .notOffline => 0x10

/-! The codes of R170. -/

def EngineState.code : EngineState → Nat | .setup => 0 | .run => 1
def LockState.code : LockState → Nat | .unlocked => 0 | .locked => 1
def PageState.code : PageState → Nat | .queued => 0 | .bound => 1 | .firing => 2
def HealthState.code : HealthState → Nat
  | .active => 0 | .warned => 1 | .degraded => 2 | .offline => 3 | .probing => 4
def Kind.code : Kind → Nat
  | .fired => 0 | .empty => 1 | .underrun => 2 | .skipped => 3 | .linkLoss => 4 | .overspeed => 5
  | .withdrawn => 6 | .cut => 7
def PageStatus.code : PageStatus → Nat | .complete => 0 | .damaged => 1 | .cancelled => 2 | .halted => 3
def CueKind.code : CueKind → Nat | .edge => 0 | .synthesized => 1
def NozzleStatus.code : NozzleStatus → Nat | .good => 0 | .weak => 1 | .dead => 2

/-- R170: motion source codes; any other code is refused by the owning rule. -/
def MotionSource.ofCode : Nat → Option MotionSource | 0 => some .external | 1 => some .internal | _ => none
/-- R170: off and on. -/
def boolOfCode : Nat → Option Bool | 0 => some false | 1 => some true | _ => none
def PageMode.ofCode : Nat → Option PageMode | 0 => some .onCue | 1 => some .follow | _ => none
def LaneFunction.ofCode : Nat → Option LaneFunction
  | 0 => some .off | 1 => some .data | 2 => some .ret | _ => none
def NozzleStatus.ofCode : Nat → Option NozzleStatus
  | 0 => some .good | 1 => some .weak | 2 => some .dead | _ => none

/-- R175. -/
def Event.code : Event → Nat
  | .reverseLimit .. => 0x01 | .cueLocked .. => 0x02 | .cueRelock .. => 0x03 | .cueLost .. => 0x04
  | .cueUnused .. => 0x05 | .cueEarly .. => 0x06 | .pageBound .. => 0x07 | .pageStarted .. => 0x08
  | .underrun .. => 0x09 | .pageDone .. => 0x0A | .headState .. => 0x0B

/-- The body after the event header (R175), positions 8 bytes, lines and lengths 4, page ids 2, numbers of
heads, rows and planes and codes 1 (R170). -/
def Event.body : Event → List Byte
  | .reverseLimit p h l => leBytes 8 p ++ leBytes 8 h ++ leBytes 4 l
  | .cueLocked sm pr => leBytes 8 sm ++ leBytes 8 pr
  | .cueRelock pc pr e => leBytes 8 pc ++ leBytes 8 pr ++ int64Bytes e
  | .cueLost pr h => leBytes 8 pr ++ leBytes 8 h
  | .cueUnused o k => leBytes 8 o ++ leBytes 1 k.code
  | .cueEarly pg o l => leBytes 2 pg ++ leBytes 8 o ++ leBytes 8 l
  | .pageBound pg o => leBytes 2 pg ++ leBytes 8 o
  | .pageStarted pg hd r n k h =>
    leBytes 2 pg ++ leBytes 1 hd ++ leBytes 1 r ++ leBytes 4 n ++ leBytes 1 k.code ++ leBytes 8 h
  | .underrun pg p n hd r h =>
    leBytes 2 pg ++ leBytes 1 p ++ leBytes 4 n ++ leBytes 1 hd ++ leBytes 1 r ++ leBytes 8 h
  | .pageDone pg st len c =>
    leBytes 2 pg ++ leBytes 1 st.code ++ leBytes 4 len ++ c.toList.flatMap (leBytes 4)
  | .headState hd o n c => leBytes 1 hd ++ leBytes 1 o.code ++ leBytes 1 n.code ++ leBytes 2 c

/-- A frame of the host link: sync, Kind, Code, Tag, Length, Body, Check over Kind through Body (R152). -/
def wireFrame (kind code : Nat) (tag : BitVec 16) (body : List Byte) : List Byte :=
  let covered := leBytes 1 kind ++ leBytes 1 code ++ leBytes 2 tag.toNat ++ leBytes 4 body.length ++ body
  [0xD4#8, 0x2B#8] ++ covered ++ leBytes 4 (hostCrc covered).toNat

/-- The body of the frame on the transmit path: reply header (R159) or event header (R164) first. -/
def SentFrame.body : SentFrame → List Byte
  | .reply r credits ctl =>
    r.code :: leBytes 1 (if r.slot.isSome then 0 else 1) ++ leBytes 1 credits ++ leBytes 1 ctl ++ r.body
  | .event _ lost e => leBytes 4 lost ++ e.body

/-- The bytes on the host link of the frame on the transmit path (R152, R159, R164). -/
def SentFrame.wire (f : SentFrame) : List Byte :=
  match f with
  | .reply r _ _ => wireFrame 0x81 r.status.code r.tag f.body
  | .event seq _ e => wireFrame 0x82 e.code seq f.body

/-- The bytes of a request as the host sends it (R152). -/
def HostFrame.wire (f : HostFrame) : List Byte :=
  wireFrame (match f.kind with | .control => 0x01 | .data => 0x02) f.code.toNat f.tag f.body

end Sys2Proof.Machine
end

