-- ==== Sys2Proof/Machine/Ops.lean ====
section
/-! DEFINITION. The named operations over the state that every family shares: positions, counters, events, replies, and the reads and writes of pages, rows, line lists, loaders and health. -/

namespace Sys2Proof.Machine

/-- What a meaning answers. -/
abbrev Out := Host.Outcome State Fault Refusal

/-! ### Positions (R1) -/

/-- P_int, in sub-lines. -/
def State.pInt (s : State) : Nat := s.pRaw / 4096
/-- H_int, in sub-lines. -/
def State.hInt (s : State) : Nat := s.hRaw / 4096
/-- S_raw. -/
def MotionCfg.stepRaw (c : MotionCfg) : Nat := 4096 * c.stepInt + c.stepFrac

/-! ### Counters (R173) -/

/-- A counter after a rise: 32 bits, saturating (R173). -/
def satAdd (c n : Nat) : Nat := min (c + n) Config.counterMax

inductive LinkCtr where
  | goodFrames | badFrames | busyRefusals | noCreditRefusals | eventsLost
deriving DecidableEq, Repr

inductive MotionCtr where
  | glitches | cuesAccepted | ignoredHoldOff | ignoredReverse | synthesized | relocks | unusedCues
  | earlyCues
deriving DecidableEq, Repr

inductive PlaneCtr where
  | linesStored | discardedLate | noSpace | peakOccupancy | releases | occupancySum | dropsLost
deriving DecidableEq, Repr

inductive HeadCtr where
  | retired (k : Kind)
  | transfers | failures | probes
deriving DecidableEq, Repr

/-! Positions in the order of R173. -/

def LinkCtr.pos : LinkCtr → Nat
  | .goodFrames => 0 | .badFrames => 1 | .busyRefusals => 2 | .noCreditRefusals => 3 | .eventsLost => 4
def MotionCtr.pos : MotionCtr → Nat
  | .glitches => 0 | .cuesAccepted => 1 | .ignoredHoldOff => 2 | .ignoredReverse => 3
  | .synthesized => 4 | .relocks => 5 | .unusedCues => 6 | .earlyCues => 7
def PlaneCtr.pos : PlaneCtr → Nat
  | .linesStored => 0 | .discardedLate => 1 | .noSpace => 2 | .peakOccupancy => 3 | .releases => 4
  | .occupancySum => 5 | .dropsLost => 6
def HeadCtr.pos : HeadCtr → Nat
  | .retired k => k.code | .transfers => 8 | .failures => 9 | .probes => 10

/-- The LINK counter rises. -/
def bumpLink (c : LinkCtr) (n : Nat) (s : State) : State :=
  { s with linkCtrs := put s.linkCtrs c.pos (satAdd (look s.linkCtrs c.pos 0) n) }

/-- The MOTION counter rises. -/
def bumpMotion (c : MotionCtr) (n : Nat) (s : State) : State :=
  { s with motionCtrs := put s.motionCtrs c.pos (satAdd (look s.motionCtrs c.pos 0) n) }

/-- The counters of plane `p`. -/
def planeGroup (s : State) (p : Nat) : Vector Nat 7 := look s.planeCtrs p (Vector.replicate 7 0)

/-- A counter of plane `p` takes a value. -/
def setPlaneCtr (p : Nat) (c : PlaneCtr) (x : Nat) (s : State) : State :=
  { s with planeCtrs := put s.planeCtrs p (put (planeGroup s p) c.pos x) }

/-- A counter of plane `p` rises. -/
def bumpPlane (p : Nat) (c : PlaneCtr) (n : Nat) (s : State) : State :=
  setPlaneCtr p c (satAdd (look (planeGroup s p) c.pos 0) n) s

/-- The counters of head `h`. -/
def headGroup (s : State) (h : Nat) : Vector Nat 11 := look s.headCtrs h (Vector.replicate 11 0)

/-- A counter of head `h` rises. -/
def bumpHead (h : Nat) (c : HeadCtr) (n : Nat) (s : State) : State :=
  { s with headCtrs := put s.headCtrs h (put (headGroup s h) c.pos (satAdd (look (headGroup s h) c.pos 0) n)) }

/-! ### Outgoing order and event queue -/

def OutFrame.isEvent : OutFrame → Bool
  | .event .. => true
  | .reply _ => false

/-- The events in the event queue (R163). -/
def State.eventCount (s : State) : Nat := s.outgoing.countP OutFrame.isEvent

/-- A block raises an event: it joins the outgoing order with the next sequence number and the lost count,
or, with 64 events in the queue, is dropped and counted (R163, R164). -/
def raise (e : Event) (s : State) : State :=
  if s.eventCount < Config.eventSlots then
    { s with outgoing := s.outgoing ++ [.event s.eventSeq s.lostCount e]
             eventSeq := s.eventSeq + 1
             lostCount := 0 }
  else
    bumpLink .eventsLost 1 { s with lostCount := satAdd s.lostCount 1 }

/-- The request handler produces the reply to a held frame, which keeps its slot (R159, R160, R162). -/
def answer (f : HostFrame) (status : Status) (body : List Byte) (s : State) : State :=
  { s with outgoing := s.outgoing ++ [.reply ⟨status, f.code, f.tag, some f.kind, body⟩] }

/-! ### Tables -/

/-- The plane a head prints, if the head is configured. -/
def headPlane (s : State) (h : Nat) : Option Nat := (look s.heads h none).map HeadCfg.plane

/-- Whether a head can take part in composition and loading: ACTIVE, WARNED or DEGRADED (R85, R143). -/
def HealthState.inService : HealthState → Bool
  | .active | .warned | .degraded => true
  | .offline | .probing => false

/-- Whether head `h` is available (R85); a head without health is not. -/
def available (s : State) (h : Nat) : Bool :=
  match look s.health h none with
  | some k => k.state.inService
  | none => false

/-! ### Rows (R102) -/

def rowsOf (s : State) (h : Nat) : List Row := look s.rows h []

def rowAt (s : State) (h r : Nat) : Option Row := (rowsOf s h)[r]?

def setRow (h r : Nat) (row : Row) (s : State) : State :=
  { s with rows := put s.rows h ((rowsOf s h).set r row) }

/-- Every row that exists, by increasing head and row. -/
def allRows (s : State) : List (Nat × Nat) :=
  (List.range 24).flatMap fun h => (List.range (rowsOf s h).length).map fun r => (h, r)

/-- The unretired entry that a load buffer holds (R100, R104). -/
def LoadBuf.held : LoadBuf → Option Entry
  | .empty => none
  | .loading e spent => if spent then none else some e
  | .full e _ => some e

/-! ### Pages (R39) -/

def pageById (s : State) (id : Nat) : Option Page := s.pages.find? fun p => p.id == id

/-- The record with the same id is replaced. -/
def setPage (p : Page) (s : State) : State :=
  { s with pages := s.pages.map fun q => if q.id = p.id then p else q }

/-- The page leaves the queue; the tail end keeps its value (R41, R47). -/
def dropPage (id : Nat) (s : State) : State :=
  { s with pages := s.pages.filter fun q => q.id ≠ id
           tailPage := if s.tailPage = some id then none else s.tailPage }

def Page.holdsPlane (p : Page) (plane : Nat) : Bool := p.mask.getLsbD plane

/-- The rows of a page's heads: T (R40). -/
def Page.rowCount (p : Page) : Nat := (p.passed.toList.map List.length).sum

/-- A row's next-line index in a page (R49), if the page has entries for the row. -/
def Page.nextLine (p : Page) (h r : Nat) : Option Nat := (look p.passed h [])[r]?

/-- Where the page ends: origin + 32 × length (R39). -/
def Page.endAt (p : Page) : Nat := p.origin.getD 0 + 32 * p.length

/-- The front page: the oldest QUEUED page (R41). -/
def frontPage (s : State) : Option Page := s.pages.find? fun p => p.pstate = .queued

/-- A count of a page rises. -/
def Page.count (k : Kind) (n : Nat) (p : Page) : Page :=
  { p with counts := put p.counts k.code (look p.counts k.code 0 + n) }

/-! ### Line lists (R51) -/

def linesOf (s : State) (p : Nat) : List StoredLine := look s.lines p []

def setLines (p : Nat) (ls : List StoredLine) (s : State) : State :=
  { s with lines := put s.lines p ls }

/-- The occupancy of a plane (R51). -/
def occupancy (s : State) (p : Nat) : Nat := (linesOf s p).length

def StoredLine.is (e : Entry) (l : StoredLine) : Bool := l.page = e.page && l.line = e.line

/-- The stored line of an entry on a plane. -/
def storedLine (s : State) (p : Nat) (e : Entry) : Option StoredLine :=
  (linesOf s p).find? (StoredLine.is e)

/-! ### Loaders and health -/

def setLoader (h : Nat) (l : Loader) (s : State) : State :=
  { s with loaders := put s.loaders h (some l) }

def setHealth (h : Nat) (k : Health) (s : State) : State :=
  { s with health := put s.health h (some k) }

def transferOf (s : State) (h : Nat) : Option Transfer := (look s.loaders h none).bind Loader.xfer

end Sys2Proof.Machine
end

