-- ==== Sys2Proof/Machine/Flags.lean ====
section
/-! DEFINITION. The conditions and counts of the state that rules test or report: slots and credits, quietness, free slots, complete and protected banks, health bands. -/

namespace Sys2Proof.Machine

/-! ### Receive slots and credits -/

/-- The slot a frame of the outgoing order still holds (R154, R160). -/
def OutFrame.slot : OutFrame → Option FrameKind
  | .reply r => r.slot
  | .event .. => none

/-- Whether a frame of the outgoing order is a refusal at arrival (R155). -/
def OutFrame.isRefusal : OutFrame → Bool
  | .reply r => r.slot.isNone
  | .event .. => false

/-- The frames of a kind that the handler holds: the one it has taken, or the BAND being stored (R154). -/
def Handler.held (k : FrameKind) : Handler → Nat
  | .taken f => if f.kind = k then 1 else 0
  | .storing _ => if k = .data then 1 else 0
  | .free | .stopped => 0

/-- Data frames held: waiting, at the handler, or with a reply not yet begun (R154). -/
def State.dataHeld (s : State) : Nat :=
  s.dataWaiting.length + s.handler.held .data + s.outgoing.countP fun o => o.slot = some .data

/-- Control frames held (R154). -/
def State.controlHeld (s : State) : Nat :=
  s.ctlWaiting.length + s.handler.held .control + s.outgoing.countP fun o => o.slot = some .control

/-- The credit count (R156). -/
def State.credits (s : State) : Nat := Config.dataSlots - s.dataHeld

/-- Control slots not held (R159). -/
def State.controlFree (s : State) : Nat := Config.controlSlots - s.controlHeld

/-- Refusals at arrival produced and not yet sent (R155; log 6). -/
def State.refusalsWaiting (s : State) : Nat := s.outgoing.countP OutFrame.isRefusal

/-! ### Quietness (R36) -/

def Row.isFiring (row : Row) : Bool :=
  match row.fire with
  | .firing .. => true
  | .idle => false

def Loader.busy (l : Loader) : Bool := l.xfer.isSome

/-- No transfer in progress, no head PROBING, no fire window running (R36). -/
def State.quiet (s : State) : Bool :=
  s.loaders.toList.all (fun l => !(l.any Loader.busy))
    && s.health.toList.all (fun k => !(k.any fun k => k.state = .probing))
    && s.rows.toList.all (fun rs => rs.all fun row => !row.isFiring)

/-! ### Line store -/

/-- Slots reserved on a plane by a storing in progress (R51, R60). -/
def reservedOn (s : State) (p : Nat) : Nat :=
  match s.handler with
  | .storing op => if op.plane = p then op.reserved else 0
  | _ => 0

/-- A plane's free slots: its slots minus the occupancy minus the reserved slots (R51, R53). -/
def freeSlots (s : State) (p : Nat) : Nat :=
  ((look s.regions p none).map Region.slots).getD 0 - occupancy s p - reservedOn s p

/-- Slot footprint of a plane of width w in bytes: 64 × ceil(3 × w / 256) (R52). -/
def footprint (w : Nat) : Nat := 64 * ((3 * w + 255) / 256)

/-- Bytes of one line in a BAND: ceil(w / 4) (R57). -/
def lineBytes (w : Nat) : Nat := (w + 3) / 4

/-! ### Banks -/

/-- A bank is complete when all three level records are WRITTEN (R122). -/
def Bank.complete (b : Bank) : Bool := b.recs.toList.all Option.isSome

def bankAt (s : State) (b : Nat) : Bank := look s.banks b ⟨0, Vector.replicate 3 none⟩

/-- The active bank (R122). -/
def activeBankOf (s : State) : Bank := bankAt s s.activeBank

/-- A bank both active and complete (R128). -/
def isProtectedBank (s : State) (b : Nat) : Bool := b = s.activeBank && (bankAt s b).complete

/-- Level length of a record: pre + gap + main, or main alone when there is no pre-pulse (R124). -/
def LevelRec.length (l : LevelRec) : Nat := if l.pre = 0 then l.main else l.pre + l.gap + l.main

/-- The window length for the levels present in a share: settle plus the greatest level length among them
(R131). -/
def windowLength (b : Bank) (share : List Level) : Nat :=
  b.settle + ((share.filter (· ≠ 0)).map fun l =>
    ((look b.recs (l.val - 1) none).map LevelRec.length).getD 0).foldl max 0

/-! ### Pages -/

/-- Whether some page is BOUND or FIRING (R129). -/
def anyBound (s : State) : Bool := s.pages.any fun p => p.pstate ≠ .queued

/-- PAGE_DONE's status for a page that completes (R47). -/
def Page.doneStatus (p : Page) : PageStatus :=
  if p.cancelled then .cancelled
  else if look p.counts Kind.underrun.code 0 = 0 ∧ look p.counts Kind.skipped.code 0 = 0
      ∧ look p.counts Kind.linkLoss.code 0 = 0 ∧ look p.counts Kind.overspeed.code 0 = 0 then .complete
  else .damaged

/-! ### Health -/

/-- The health state of a counter for a head in service (R143). -/
def healthBand (c : Nat) : HealthState :=
  if c ≤ 95 then .active else if c ≤ 127 then .warned else if c ≤ 255 then .degraded else .offline

end Sys2Proof.Machine
end

