-- ==== Sys2Proof/Machine/Operands.lean ====
section
/-! DEFINITION. The operands of the requests: which row a held frame is (R158), the engine states it is handled in (R33), the lengths its layout gives (R166), and the values each body carries with the range checks of the owning rule. -/

namespace Sys2Proof.Machine

/-- The request rows of the command table. -/
inductive Req where
  | identify | statusQuery | statsRead | reset
  | setPlaneSet | setPlaneRemove | setHeadSet | setHeadRemove | setLane | setMotion | setCue
  | engineStart | engineStop | engineHalt | pageOpen | pageCancel
  | nozzleMark | nozzleClear | waveErase | waveLoad | waveSelect | headRestore | band
  | unknownCode
deriving DecidableEq, Repr

/-- The byte at offset `i` of a body. -/
def byteAt (body : List Byte) (i : Nat) : Nat := field body i 1

/-- Which row the frame is (R158, request catalogue). A SET_PLANE or SET_HEAD whose operation byte is 1 is
its REMOVE row, any other its SET row, which then refuses what is neither (log 22). -/
def reqOf (f : HostFrame) : Req :=
  match f.kind with
  | .data => if f.code = 0x80#8 then .band else .unknownCode
  | .control =>
    match f.code.toNat with
    | 0x01 => .identify | 0x02 => .statusQuery | 0x03 => .statsRead | 0x04 => .reset
    | 0x10 => if byteAt f.body 1 = 1 then .setPlaneRemove else .setPlaneSet
    | 0x11 => if byteAt f.body 1 = 1 then .setHeadRemove else .setHeadSet
    | 0x12 => .setLane | 0x13 => .setMotion | 0x14 => .setCue
    | 0x20 => .engineStart | 0x21 => .engineStop | 0x22 => .engineHalt
    | 0x30 => .pageOpen | 0x31 => .pageCancel
    | 0x40 => .nozzleMark | 0x41 => .nozzleClear
    | 0x50 => .waveErase | 0x51 => .waveLoad | 0x52 => .waveSelect
    | 0x60 => .headRestore
    | _ => .unknownCode

/-- The engine states a request is handled in (R33); an unknown code is answered in either (R158). -/
def Req.handledIn (q : Req) (e : EngineState) : Bool :=
  match q with
  | .setPlaneSet | .setPlaneRemove | .setHeadSet | .setHeadRemove | .setLane | .setMotion | .setCue
  | .engineStart => e = .setup
  | .engineStop | .engineHalt | .pageOpen | .pageCancel | .band | .headRestore => e = .run
  | .identify | .statusQuery | .statsRead | .reset | .nozzleMark | .nozzleClear
  | .waveErase | .waveLoad | .waveSelect | .unknownCode => true

/-- Whether the body length fits the layout (R158 step 3, R166); a BAND's length is the Line Store's to
test (R57). -/
def Req.lengthOk (q : Req) (body : List Byte) : Bool :=
  match q with
  | .identify | .statusQuery | .reset | .engineStart | .engineStop | .engineHalt => body.length = 0
  | .statsRead => body.length = 3
  | .setPlaneSet | .setPlaneRemove => body.length = 6
  | .setHeadSet => byteAt body 1 = 0 && body.length = 17 + 2 * byteAt body 12
  | .setHeadRemove => body.length = 2
  | .setLane => body.length = 3
  | .setMotion => body.length = 14
  | .setCue => body.length = 22
  | .pageOpen => body.length = 12
  | .pageCancel => body.length = 2
  | .nozzleMark => 3 ≤ body.length && body.length = 3 + 3 * field body 1 2
  | .nozzleClear => body.length = 1
  | .waveErase => body.length = 3
  | .waveLoad => body.length = 5
  | .waveSelect => body.length = 1
  | .headRestore => body.length = 1
  | .band | .unknownCode => true

/-! Each `parse…` reads the fields in the order of R166 and answers `none` where the owning rule refuses the
values with BAD_ARGUMENT whatever the state. -/

/-- SET_PLANE, SET: plane and entry (R70). -/
def parsePlaneSet (b : List Byte) : Option (Nat × PlaneCfg) :=
  let plane := byteAt b 0; let op := byteAt b 1; let width := field b 2 2; let cap := field b 4 2
  if plane ≤ 7 ∧ op = 0 ∧ 1 ≤ width ∧ width ≤ 32768 ∧ 2 ≤ cap ∧ cap ≤ 16384 then
    some (plane, ⟨width, cap⟩)
  else none

/-- SET_PLANE, REMOVE: the plane; width and capacity are not examined (R70). -/
def parsePlaneRemove (b : List Byte) : Option Nat :=
  if byteAt b 0 ≤ 7 then some (byteAt b 0) else none

/-- The k row offsets of SET_HEAD, from offset 13. -/
def headOffsets (b : List Byte) : List Nat :=
  (List.range (byteAt b 12)).map fun i => field b (13 + 2 * i) 2

/-- SET_HEAD, SET: head and entry; a timeout of 0 selects 20 (R72). -/
def parseHeadSet (b : List Byte) : Option (Nat × HeadCfg) :=
  let head := byteAt b 0; let plane := byteAt b 2; let x := field b 3 2; let n := field b 5 2
  let r := byteAt b 7; let d := field b 8 4; let k := byteAt b 12; let offs := headOffsets b
  let rate := field b (13 + 2 * k) 2; let timeout := field b (15 + 2 * k) 2
  if head ≤ 23 ∧ plane ≤ 7 ∧ x ≤ 32767 ∧ 64 ≤ n ∧ n ≤ 2048 ∧ (r = 1 ∨ r = 2 ∨ r = 4)
      ∧ d ≤ 16777215 ∧ 1 ≤ k ∧ k ≤ 4 ∧ (∀ o ∈ offs, o ≤ 4095)
      ∧ (rate = 400 ∨ rate = 800 ∨ rate = 1200 ∨ rate = 1600) ∧ timeout ≤ 255 then
    some (head, ⟨plane, x, n, r, d, offs, rate, if timeout = 0 then 20 else timeout⟩)
  else none

/-- SET_HEAD, REMOVE: the head (R72). -/
def parseHeadRemove (b : List Byte) : Option Nat :=
  if byteAt b 0 ≤ 23 then some (byteAt b 0) else none

/-- SET_LANE: lane and entry; for OFF an owner beyond 23 is stored as 0 (R135). -/
def parseLane (b : List Byte) : Option (Nat × Lane) :=
  let lane := byteAt b 0; let owner := byteAt b 2
  match LaneFunction.ofCode (byteAt b 1) with
  | none => none
  | some .off => if lane ≤ 71 then some (lane, ⟨.off, if owner ≤ 23 then owner else 0⟩) else none
  | some fn => if lane ≤ 71 ∧ owner ≤ 23 then some (lane, ⟨fn, owner⟩) else none

/-- SET_MOTION (R2). -/
def parseMotion (b : List Byte) : Option MotionCfg :=
  let int := field b 2 2; let frac := field b 4 2; let pace := field b 6 2; let late := field b 8 2
  let rev := field b 10 4
  match MotionSource.ofCode (byteAt b 0), boolOfCode (byteAt b 1) with
  | some source, some invert =>
    if int ≤ 255 ∧ frac ≤ 4095 ∧ 4096 * int + frac ≠ 0 ∧ pace ≠ 0 ∧ late ≤ 1023 ∧ rev ≤ 1048575 then
      some ⟨source, invert, int, frac, pace, late, rev⟩
    else none
  | _, _ => none

/-- SET_CUE (R18). -/
def parseCue (b : List Byte) : Option CueCfg :=
  let oc := field b 0 4; let q := field b 4 4; let j := field b 8 2; let wc := field b 10 4
  let hold := field b 14 4; let gmin := field b 18 4
  if oc ≤ 16777215 ∧ (q = 0 ∨ (64 ≤ q ∧ q ≤ 16777215)) ∧ j ≤ 1023 ∧ j ≤ wc ∧ wc ≤ 65535
      ∧ hold ≤ 65535 ∧ gmin ≤ 65535 then
    some ⟨oc, q, j, wc, hold, gmin⟩
  else none

/-- What PAGE_OPEN carries (R40). -/
structure OpenArgs where
  id     : Nat
  length : Nat
  mask   : BitVec 8
  mode   : PageMode
  gap    : Nat
deriving DecidableEq, Repr

/-- PAGE_OPEN: the checks of R40 that need no state; the mask's planes and the id are tested against the
tables by the meaning. -/
def parseOpen (b : List Byte) : Option OpenArgs :=
  let length := field b 2 4; let gap := field b 8 4
  match PageMode.ofCode (byteAt b 7) with
  | none => none
  | some mode =>
    if 1 ≤ length ∧ length ≤ Config.maxPageLength ∧ byteAt b 6 ≠ 0
        ∧ (mode = .follow → gap ≤ 16777215) then
      some ⟨field b 0 2, length, BitVec.ofNat 8 (byteAt b 6), mode, gap⟩
    else none

/-- The pairs of NOZZLE_MARK, nozzle and requested status code. -/
def markPairs (b : List Byte) : List (Nat × Nat) :=
  (List.range (field b 1 2)).map fun i => (field b (3 + 3 * i) 2, byteAt b (5 + 3 * i))

/-- A pair of NOZZLE_MARK with its values in range (R98). -/
def checkPair (p : Nat × Nat) : Option (Nat × NozzleStatus) :=
  if p.1 < 2048 then (NozzleStatus.ofCode p.2).map fun st => (p.1, st) else none

/-- NOZZLE_MARK: head and pairs (R98). -/
def parseMark (b : List Byte) : Option (Nat × List (Nat × NozzleStatus)) :=
  let pairs := markPairs b
  if byteAt b 0 < 24 ∧ 1 ≤ pairs.length ∧ pairs.length ≤ 256
      ∧ (pairs.all fun p => (checkPair p).isSome) then
    some (byteAt b 0, pairs.filterMap checkPair)
  else none

/-- NOZZLE_CLEAR: the head (R99). -/
def parseClear (b : List Byte) : Option Nat :=
  if byteAt b 0 < 24 then some (byteAt b 0) else none

/-- WAVE_ERASE: bank and settle (R126, first check). -/
def parseErase (b : List Byte) : Option (Nat × Nat) :=
  if byteAt b 0 ≤ 1 ∧ field b 1 2 ≤ 255 then some (byteAt b 0, field b 1 2) else none

/-- WAVE_LOAD: bank, level and record (R127, first check). -/
def parseLoad (b : List Byte) : Option (Nat × Nat × LevelRec) :=
  let bank := byteAt b 0; let level := byteAt b 1; let pre := byteAt b 2; let gap := byteAt b 3
  let main := byteAt b 4
  if bank ≤ 1 ∧ 1 ≤ level ∧ level ≤ 3 ∧ pre ≤ 63 ∧ gap ≤ 63 ∧ 1 ≤ main then
    some (bank, level, ⟨pre, gap, main⟩)
  else none

/-- WAVE_SELECT: the bank (R129, first check). -/
def parseSelect (b : List Byte) : Option Nat :=
  if byteAt b 0 ≤ 1 then some (byteAt b 0) else none

/-- The counter groups of R173. -/
inductive Group where
  | link
  | motion
  | plane (p : Nat)
  | head (h : Nat)
deriving DecidableEq, Repr

/-- STATS_READ: group and clear flag (R174). -/
def parseStats (b : List Byte) : Option (Group × Bool) :=
  let index := byteAt b 1
  match boolOfCode (byteAt b 2), byteAt b 0 with
  | some clear, 0 => if index = 0 then some (.link, clear) else none
  | some clear, 1 => if index = 0 then some (.motion, clear) else none
  | some clear, 2 => if index ≤ 7 then some (.plane index, clear) else none
  | some clear, 3 => if index ≤ 23 then some (.head index, clear) else none
  | _, _ => none

/-- A byte of a BAND header; one the body does not hold is free (log 12). -/
def bandByte (b : List Byte) (i : Nat) : Nat := ((b[i]?).getD (Config.absentByte i)).toNat

/-- The BAND header (R165). -/
structure BandHead where
  page  : Nat
  plane : Nat
  count : Nat
  first : Nat
deriving DecidableEq, Repr

def bandHead (b : List Byte) : BandHead where
  page := bandByte b 0 + 256 * bandByte b 1
  plane := bandByte b 2
  count := bandByte b 3
  first := bandByte b 4 + 256 * bandByte b 5 + 65536 * bandByte b 6 + 16777216 * bandByte b 7

/-- The two-bit level of a column in its line's bytes: column 4k in the low two bits of byte k (R165). -/
def levelAt (bytes : List Byte) (c : Nat) : Level :=
  Fin.ofNat 4 (((bytes[c / 4]?).getD 0).toNat / 4 ^ (c % 4))

/-- Line `i` of a BAND for a plane of width `w` (R57, R165). -/
def bandLine (b : List Byte) (w i : Nat) : List Level :=
  let bytes := (b.drop (8 + i * lineBytes w)).take (lineBytes w)
  (List.range w).map (levelAt bytes)

end Sys2Proof.Machine
end

