-- ==== Sys2Proof/Machine/Handler.lean ====
section
/-! DEFINITION. The request handler: when it takes a frame and which (R157), and the steps of R158 up to the owning rule. -/

namespace Sys2Proof.Machine

/-- The handler, if it is free and a frame is waiting, takes the oldest waiting control frame, or with none
waiting the oldest waiting data frame, out of its arrival queue (R157). This is part of every act that accepts
a frame or leaves the handler free. -/
def takeNext (s : State) : State :=
  match s.handler, s.ctlWaiting, s.dataWaiting with
  | .free, f :: rest, _ => { s with handler := .taken f, ctlWaiting := rest }
  | .free, [], f :: rest => { s with handler := .taken f, dataWaiting := rest }
  | _, _, _ => s

/-- The state of one level record in a bank summary (R166). -/
def recordBits (b : Bank) : Nat :=
  (if (look b.recs 0 none).isSome then 1 else 0) + (if (look b.recs 1 none).isSome then 2 else 0)
    + (if (look b.recs 2 none).isSome then 4 else 0)

/-- The three bytes of a bank in a bank summary (R166). -/
def bankBytes (b : Bank) : List Byte :=
  leBytes 1 (recordBits b) ++ leBytes 1 (if b.complete then 1 else 0) ++ leBytes 1 b.settle

/-- The bank summary as sent (R125, R166). -/
def bankSummary (s : State) : List Byte :=
  leBytes 1 s.activeBank ++ bankBytes (bankAt s 0) ++ bankBytes (bankAt s 1)

/-- The body of a BAD_ARGUMENT made at the body-length step: the bank summary for a WAVE request, none
otherwise (R125, R159, R166). -/
def Req.lengthRefusalBody (q : Req) (s : State) : List Byte :=
  match q with
  | .waveErase | .waveLoad | .waveSelect => bankSummary s
  | _ => []

/-- The steps of R158 for a frame that the handler has taken and whose code names request `q`: engine state,
body length, then the owning rule `act`. -/
def handleFrame (q : Req) (act : HostFrame → State → State) (f : HostFrame) (s : State) : State :=
  if q.handledIn s.engine = false then answer f .wrongState [] s
  else if q.lengthOk f.body = false then answer f .badArgument (q.lengthRefusalBody s) s
  else act f s

/-- One step of the request handler for row `q`: the frame it has taken, if that is a request of this row, is dealt
with, and the handler, if that leaves it free, takes its next frame at once (R157). Otherwise the row's step does
not come about and the state stands (log 1, log 3). -/
def handleRequest (q : Req) (act : HostFrame → State → State) (s : State) : State :=
  match s.handler with
  | .taken f => if reqOf f = q then takeNext (handleFrame q act f { s with handler := .free }) else s
  | _ => s

end Sys2Proof.Machine
end

