-- ==== Sys2Proof/Machine/Geometry.lean ====
section
/-! DEFINITION. Print geometry (chapter 5): the plane and head tables and their requests, coverage (R75, R76), the column decode (R78), due positions (R79). -/

namespace Sys2Proof.Machine

/-- The configured planes by increasing number. -/
def configuredPlanes (s : State) : List (Nat × PlaneCfg) :=
  (List.range 8).filterMap fun p => (look s.planes p none).map fun c => (p, c)

/-- The configured heads by increasing number. -/
def configuredHeads (s : State) : List (Nat × HeadCfg) :=
  (List.range 24).filterMap fun h => (look s.heads h none).map fun c => (h, c)

/-- Places a span among spans ordered by start column. -/
def insertSpan (a : Span) : List Span → List Span
  | [] => [a]
  | b :: bs => if b.x ≤ a.x then b :: insertSpan a bs else a :: b :: bs

/-- The spans of the heads of plane `p` in order of increasing start column (R75). -/
def planeSpans (s : State) (p : Nat) : List Span :=
  ((configuredHeads s).filter fun hc => hc.2.plane = p).foldl
    (fun acc hc => insertSpan ⟨hc.1, hc.2.x, hc.2.n⟩ acc) []

/-- The column after a span's last (R74). -/
def Span.fin (a : Span) : Nat := a.x + a.n

/-- Whether a span covers a column (R74). -/
def Span.covers (a : Span) (c : Nat) : Bool := a.x ≤ c && c < a.fin

/-- The overlap width of two neighbours (R75). -/
def overlapWidth (a b : Span) : Nat := a.fin - b.x

/-- Conditions 2, 3 and 6 of R76 over neighbours: start columns differ, B extends past A, W at most 64. -/
def neighboursHold : List Span → Bool
  | a :: b :: rest =>
    a.x ≠ b.x && a.fin < b.fin && overlapWidth a b ≤ 64 && neighboursHold (b :: rest)
  | _ => true

/-- The coverage rules of R76 for a plane of width `w`. -/
def coverageHolds (w : Nat) (spans : List Span) : Bool :=
  !spans.isEmpty && neighboursHold spans
    && (List.range w).all fun c =>
      let k := spans.countP fun a => a.covers c
      1 ≤ k && k ≤ 2

/-- A column of the decode (R78). -/
inductive ColForm where
  /-- No head covers the column: never on a plane that R76 accepts. -/
  | uncovered
  | single (head nozzle : Nat)
  | pair (headA nozA headB nozB width j : Nat)
deriving DecidableEq, Repr

/-- The form the column decode gives column `c` (R78). -/
def colForm (spans : List Span) (c : Nat) : ColForm :=
  match spans.filter fun a => a.covers c with
  | [] => .uncovered
  | [a] => .single a.head (c - a.x)
  | a :: b :: _ => .pair a.head (c - a.x) b.head (c - b.x) (overlapWidth a b) (c - b.x)

/-- The decode ENGINE_START derives for plane `p` (R78). -/
def derivedDecode (s : State) (p : Nat) : Option PlaneDecode :=
  (look s.planes p none).map fun c => ⟨c.width, planeSpans s p⟩

/-- The due position of an entry of row `r` of head `h`, once its page is bound (R79). -/
def dueOf (s : State) (h r : Nat) (e : Entry) : Option Nat :=
  match pageById s e.page, look s.heads h none with
  | some p, some c => p.origin.map fun o => o + 32 * e.line + c.offset + c.offsets.getD r 0
  | _, _ => none

/-- T_p: the rows of all configured heads of plane `p` (R51). -/
def planeRowCount (s : State) (p : Nat) : Nat :=
  (((configuredHeads s).filter fun hc => hc.2.plane = p).map fun hc => hc.2.r).sum

/-! ### SET_PLANE and SET_HEAD -/

/-- SET_PLANE with SET (R70). -/
def setPlaneSet (f : HostFrame) (s : State) : State :=
  match parsePlaneSet f.body with
  | some (p, c) => answer f .ok [] { s with planes := put s.planes p (some c) }
  | none => answer f .badArgument [] s

/-- SET_PLANE with REMOVE (R70). -/
def setPlaneRemove (f : HostFrame) (s : State) : State :=
  match parsePlaneRemove f.body with
  | some p => answer f .ok [] { s with planes := put s.planes p none }
  | none => answer f .badArgument [] s

/-- SET_HEAD with SET: the entry, and the head's health ACTIVE, counter 0, probe count 0 (R72, R143). -/
def setHeadSet (f : HostFrame) (s : State) : State :=
  match parseHeadSet f.body with
  | some (h, c) =>
    answer f .ok [] { s with heads := put s.heads h (some c)
                             health := put s.health h (some ⟨.active, 0, 0⟩) }
  | none => answer f .badArgument [] s

/-- SET_HEAD with REMOVE: the entry and the head's health are discarded (R72, R143). What an earlier run left of the
head's rows and loader, all idle in SETUP, stands until the next ENGINE_START makes them anew: no rule says when
they go (DESIGN CHOICE, safe, log 32). -/
def setHeadRemove (f : HostFrame) (s : State) : State :=
  match parseHeadRemove f.body with
  | some h => answer f .ok [] { s with heads := put s.heads h none, health := put s.health h none }
  | none => answer f .badArgument [] s

/-- SET_PLANE_SET: SET_PLANE with operation SET configures a plane (R70). -/
def execSetPlaneSet (s : State) : Out := .next (handleRequest .setPlaneSet setPlaneSet s)

/-- SET_PLANE_REMOVE: SET_PLANE with operation REMOVE (R70). -/
def execSetPlaneRemove (s : State) : Out := .next (handleRequest .setPlaneRemove setPlaneRemove s)

/-- SET_HEAD_SET: SET_HEAD with operation SET (R72). -/
def execSetHeadSet (s : State) : Out := .next (handleRequest .setHeadSet setHeadSet s)

/-- SET_HEAD_REMOVE: SET_HEAD with operation REMOVE (R72). -/
def execSetHeadRemove (s : State) : Out := .next (handleRequest .setHeadRemove setHeadRemove s)

end Sys2Proof.Machine
end

