-- ==== Sys2Proof/Machine/Compose.lean ====
section
/-! DEFINITION. Line composition (chapter 6): the nozzle map and its requests, the stitch, the override, compensation, the composed record and the shares. -/

namespace Sys2Proof.Machine

/-! ### Nozzle map (R97) -/

/-- The entry of nozzle `i` of head `h`; what the map does not list is GOOD. -/
def nozzleStatus (s : State) (h i : Nat) : NozzleStatus :=
  match (look s.nozzles h []).find? fun m => m.1 = i with
  | some m => m.2
  | none => .good

/-- The worse of two statuses, GOOD < WEAK < DEAD (R97). -/
def NozzleStatus.worse : NozzleStatus → NozzleStatus → NozzleStatus
  | .dead, _ => .dead
  | _, .dead => .dead
  | .weak, _ => .weak
  | _, .weak => .weak
  | .good, .good => .good

/-- A head's map with nozzle `i` at `st`, nozzle numbers strictly rising and no entry GOOD. -/
def putMark (i : Nat) (st : NozzleStatus) : List (Nat × NozzleStatus) → List (Nat × NozzleStatus)
  | [] => if st = .good then [] else [(i, st)]
  | m :: ms =>
    if m.1 < i then m :: putMark i st ms
    else if m.1 = i then (if st = .good then ms else (i, st) :: ms)
    else (if st = .good then m :: ms else (i, st) :: m :: ms)

/-- One pair of NOZZLE_MARK: the entry becomes the worse of itself and the request (R98). -/
def markNozzle (h : Nat) (pair : Nat × NozzleStatus) (s : State) : State :=
  let marks := putMark pair.1 ((nozzleStatus s h pair.1).worse pair.2) (look s.nozzles h [])
  { s with nozzles := put s.nozzles h marks }

/-- The pairs in list order, and the entries as they stand after each (R98). -/
def markAll (h : Nat) : List (Nat × NozzleStatus) → State → State × List NozzleStatus
  | [], s => (s, [])
  | pair :: rest, s =>
    let s1 := markNozzle h pair s
    let out := markAll h rest s1
    (out.1, nozzleStatus s1 h pair.1 :: out.2)

/-- NOZZLE_MARK (R98). -/
def nozzleMark (f : HostFrame) (s : State) : State :=
  match parseMark f.body with
  | some (h, pairs) =>
    let out := markAll h pairs s
    answer f .ok (leBytes 2 pairs.length ++ out.2.flatMap fun st => leBytes 1 st.code) out.1
  | none => answer f .badArgument [] s

/-- NOZZLE_CLEAR: all 2048 entries of the head become GOOD (R99). -/
def nozzleClear (f : HostFrame) (s : State) : State :=
  match parseClear f.body with
  | some h => answer f .ok [] { s with nozzles := put s.nozzles h [] }
  | none => answer f .badArgument [] s

/-- NOZZLE_MARK (R98). -/
def execNozzleMark (s : State) : Out := .next (handleRequest .nozzleMark nozzleMark s)

/-- NOZZLE_CLEAR (R99). -/
def execNozzleClear (s : State) : Out := .next (handleRequest .nozzleClear nozzleClear s)

/-! ### Statuses, stitch and override -/

/-- The effective status of a nozzle and the column status (R83, R85). -/
inductive ColStatus where
  | good
  | weak
  | unavailable
deriving DecidableEq, Repr

/-- The effective status of nozzle `i` of head `h` (R85). -/
def effStatus (s : State) (h i : Nat) : ColStatus :=
  if available s h = false then .unavailable
  else match nozzleStatus s h i with
    | .good => .good
    | .weak => .weak
    | .dead => .unavailable

/-- The ramp value w_j (R89). -/
def rampValue (w j : Nat) : Nat := (j + 1) * 256 / (w + 1)

/-- The threshold table T (R89). -/
def thresholdTable : List Nat :=
  [8, 136, 72, 200, 40, 168, 104, 232, 24, 152, 88, 216, 56, 184, 120, 248]

/-- The threshold of position `j` on line `n` (R89). -/
def threshold (n j : Nat) : Nat := thresholdTable.getD ((n + 7 * j) % 16) 0

/-- Whether the stitch choice on line `n` is the right head B (R89). -/
def choosesB (n w j : Nat) : Bool := threshold n j < rampValue w j

/-- The override (R90): given the chosen and the other nozzle's status, whether the chosen one prints, and
the column status; `none` is assignee none. -/
def overrideChoice : ColStatus → ColStatus → Option Bool × ColStatus
  | .unavailable, .unavailable => (none, .unavailable)
  | .unavailable, other => (some false, other)
  | .weak, .good => (some false, .good)
  | .weak, _ => (some true, .weak)
  | .good, _ => (some true, .good)

/-- The assignee and status of a column on line `n`, from the effective statuses (R88, R89, R90). -/
def assignColumn (eff : Nat → Nat → ColStatus) (n : Nat) : ColForm → Option Nat × ColStatus
  | .uncovered => (none, .unavailable)
  | .single h i =>
    match eff h i with
    | .unavailable => (none, .unavailable)
    | st => (some h, st)
  | .pair a i b k w j =>
    if choosesB n w j then
      let o := overrideChoice (eff b k) (eff a i)
      (o.1.map fun chosen => if chosen then b else a, o.2)
    else
      let o := overrideChoice (eff a i) (eff b k)
      (o.1.map fun chosen => if chosen then a else b, o.2)

/-! ### Compensation -/

/-- A column before compensation: raw level, status, assignee. -/
structure Column where
  raw      : Level
  status   : ColStatus
  assignee : Option Nat
deriving DecidableEq, Repr

/-- Base level (R91). -/
def Column.base (c : Column) : Nat :=
  match c.status with
  | .good => c.raw.val
  | .weak => min c.raw.val 1
  | .unavailable => 0

/-- Excess (R91). -/
def Column.excess (c : Column) : Nat := c.raw.val - c.base

/-- Only a GOOD column that exists can receive (R92). -/
def Column.usable (c : Column) : Bool := c.status = .good

/-- What stands beyond either edge of the plane: no usable neighbour (R92). -/
def Column.beyond : Column := ⟨0, .unavailable, none⟩

/-- What a column hands out: to its left, to its right, and units not placed (R92). -/
structure Shares where
  left  : Nat
  right : Nat
  lost  : Nat
deriving DecidableEq, Repr

/-- The shares of an excess by which neighbours are usable (R92). -/
def giveExcess (leftUsable rightUsable : Bool) (e : Nat) : Shares :=
  match leftUsable, rightUsable with
  | true, true => ⟨(e + 1) / 2, e - (e + 1) / 2, 0⟩
  | true, false => ⟨e, 0, 0⟩
  | false, true => ⟨0, e, 0⟩
  | false, false => ⟨0, 0, e⟩

/-- Each element with the one before it and the one after it, `d` beyond the edges; `p` precedes the list. -/
def withNeighbours {α : Type} (d : α) : α → List α → List (α × α × α)
  | _, [] => []
  | p, x :: xs => (p, x, xs.headD d) :: withNeighbours d x xs

/-- The shares every column gives (R92), all from raw levels and statuses. -/
def allShares (cols : List Column) : List Shares :=
  (withNeighbours Column.beyond Column.beyond cols).map fun t =>
    giveExcess t.1.usable t.2.2.usable t.2.1.excess

/-- What each column's output would be without the limit of 3: its base and the shares it receives (R93). -/
def wantedLevels (cols : List Column) : List Nat :=
  let none : Shares := ⟨0, 0, 0⟩
  ((withNeighbours none none (allShares cols)).zip cols).map fun t =>
    t.2.base + t.1.1.right + t.1.2.2.left

/-- The lesser of 3 and a wanted level (R93). -/
def outLevel (x : Nat) : Level := ⟨min 3 x, by omega⟩

/-- The composed record of a line's columns (R83, R93). -/
def composedRecord (cols : List Column) : List ComposedCol :=
  ((wantedLevels cols).zip cols).map fun t => ⟨outLevel t.1, t.2.assignee⟩

/-- The units a composed line loses: not placed, or above 3 (R93). -/
def unitsLost (cols : List Column) : Nat :=
  ((allShares cols).map Shares.lost).sum + ((wantedLevels cols).map fun x => x - 3).sum

/-- The columns of a line before compensation: the composition's reading of raw levels, decode, map and
availability, all at one moment (R85). -/
def readColumns (s : State) (d : PlaneDecode) (n : Nat) (raw : List Level) : List Column :=
  (raw.zip (List.range d.width)).map fun t =>
    let a := assignColumn (effStatus s) n (colForm d.spans t.2)
    ⟨t.1, a.2, a.1⟩

/-- Composes a stored line of plane `p`: the record is written once and the units lost are counted (R84,
R86, R94). A line already composed is left as it is. -/
def composeLine (p : Nat) (l : StoredLine) (s : State) : State :=
  match l.composed, look s.decode p none with
  | none, some d =>
    let cols := readColumns s d l.line l.raw
    let done : StoredLine := { l with composed := some (composedRecord cols) }
    bumpPlane p .dropsLost (unitsLost cols)
      (setLines p ((linesOf s p).map fun k => if k.is ⟨l.page, l.line⟩ then done else k) s)
  | _, _ => s

/-! ### Shares -/

/-- The share of row `r` of head `h` in a composed record (R95): nozzles r, r + R, r + 2R, … (R73). -/
def shareOf (h : Nat) (c : HeadCfg) (r : Nat) (record : List ComposedCol) : List Level :=
  (List.range (c.n / c.r)).map fun k =>
    match record[c.x + r + c.r * k]? with
    | some col => if col.assignee = some h then col.level else 0
    | none => 0

/-- A share is empty when every level in it is 0 (R96). -/
def shareEmpty (share : List Level) : Bool := share.all fun l => l = 0

/-- The share of row `r` of head `h` in a stored line, if the line is composed (R95). -/
def lineShare (s : State) (h r : Nat) (l : StoredLine) : Option (List Level) :=
  match l.composed, look s.heads h none with
  | some record, some c => some (shareOf h c r record)
  | _, _ => none

end Sys2Proof.Machine
end

