-- ==== Sys2Proof/Machine/Rows.lean ====
section
/-! DEFINITION. Row scheduling and firing (chapter 7): retirement and its reports, the next entry, composition on an advance, the decision at due, the fire start, the loader's choice, the end of a window. -/

namespace Sys2Proof.Machine

/-! ### Retirement (R100, R116) -/

/-- The Line Store takes a retirement on plane `p`: the line's consumer count falls, and at 0 the line is
released (R63, R64). -/
def retireLine (p : Nat) (e : Entry) (s : State) : State :=
  match storedLine s p e with
  | none => s
  | some l =>
    if l.consumers ≤ 1 then
      bumpPlane p .releases 1 (bumpPlane p .occupancySum (occupancy s p)
        (setLines p ((linesOf s p).filter fun k => !k.is e) s))
    else
      setLines p ((linesOf s p).map fun k =>
        if k.is e then { k with consumers := k.consumers - 1 } else k) s

/-- The page leaves the queue when its unretired count is 0, with PAGE_DONE (R47). -/
def finishPage (id : Nat) (s : State) : State :=
  match pageById s id with
  | none => s
  | some p =>
    if p.unretired = 0 then raise (.pageDone p.id p.doneStatus p.length p.counts) (dropPage id s) else s

/-- The page record after a report of the Row Scheduler: count, unretired count, state, the row's next-line
index (R46, R49). -/
def Page.report (k : Kind) (h r : Nat) (line : Nat) (p : Page) : Page :=
  let q := p.count k 1
  { q with unretired := p.unretired - 1
           pstate := if p.pstate = .bound then .firing else p.pstate
           passed := put p.passed h ((look p.passed h []).set r (line + 1)) }

/-- PAGE_STARTED, when the report changes the page from BOUND to FIRING (R46, R117). -/
def raiseStarted (p : Page) (k : Kind) (h r line : Nat) (s : State) : State :=
  if p.pstate = .bound then raise (.pageStarted p.id h r line k s.hInt) s else s

/-- UNDERRUN, once for each plane of each page (R106). -/
def raiseUnderrun (p : Page) (k : Kind) (plane h r line : Nat) (s : State) : State :=
  if k = .underrun ∧ look p.underrun plane false = false then
    raise (.underrun p.id plane line h r s.hInt) s
  else s

/-- The underrun-reported flag after a report (R106). -/
def Page.flagUnderrun (k : Kind) (plane : Nat) (p : Page) : Page :=
  if k = .underrun then { p with underrun := put p.underrun plane true } else p

/-- The Row Scheduler retires an entry of row `r` of head `h` and reports it to the Page Queue, the Line
Store and the head's counter (R116), with the events in the order of R117. An entry of a page that is not
in the queue is no entry of the part, and nothing happens. -/
def retire (k : Kind) (h r : Nat) (e : Entry) (s : State) : State :=
  match pageById s e.page, headPlane s h with
  | some p, some plane =>
    let s1 := setPage ((p.report k h r e.line).flagUnderrun k plane) s
    let s2 := raiseStarted p k h r e.line s1
    let s3 := raiseUnderrun p k plane h r e.line s2
    let s4 := bumpHead h (.retired k) 1 (retireLine plane e s3)
    finishPage e.page s4
  | _, _ => s

/-! ### The next entry (R101) -/

/-- The earliest unretired entry of a row outside its load buffer, over pages in queue order, if its page is
bound. `held` is the unretired entry in the buffer. -/
def nextIn (held : Option Entry) (h r : Nat) : List Page → Option Entry
  | [] => none
  | p :: ps =>
    match p.nextLine h r with
    | none => nextIn held h r ps
    | some n =>
      let first := if held.any fun e => e.page = p.id then n + 1 else n
      if first < p.length then
        if p.origin.isSome then some ⟨p.id, first⟩ else none
      else nextIn held h r ps

/-- The next entry of a row (R101, R103). -/
def nextEntry (s : State) (h r : Nat) : Option Entry :=
  match rowAt s h r with
  | some row => nextIn row.buf.held h r s.pages
  | none => none

/-- Composes the line of a row's next entry, if it is stored and not yet composed (R84). -/
def composeNext (h r : Nat) (s : State) : State :=
  match nextEntry s h r, headPlane s h with
  | some e, some p =>
    match storedLine s p e with
    | some l => composeLine p l s
    | none => s
  | _, _ => s

/-! ### The decision at due (R104, R105) -/

/-- The next entry of a ripe row (R104). -/
def ripeEntry (s : State) (h r : Nat) : Option Entry :=
  match rowAt s h r, nextEntry s h r with
  | some row, some e =>
    match dueOf s h r e with
    | some d => if d ≤ s.hInt ∧ row.buf.held = none then some e else none
    | none => none
  | _, _ => none

/-- The decision at due for a ripe row's next entry: how it is retired, or `none` if it is pending (R104). -/
def decisionAtDue (s : State) (h r : Nat) (e : Entry) : Option Kind :=
  if available s h = false then some .skipped
  else
    match (headPlane s h).bind fun p => storedLine s p e with
    | none => some .underrun
    | some l =>
      match lineShare s h r l with
      | some share => if shareEmpty share then some .empty else none
      | none => none

/-- The entries a row has not retired, over all pages: more than this many decisions cannot follow one
another. -/
def rowRemaining (s : State) (h r : Nat) : Nat :=
  (s.pages.map fun p => p.length - ((p.nextLine h r).getD p.length)).sum

/-- Decides a row at due until it is no longer ripe or its next entry is pending (R105), composing the line of
each next entry as it is reached (R84). -/
def decideRow : Nat → Nat → Nat → State → State
  | 0, h, r, s => composeNext h r s
  | fuel + 1, h, r, s =>
    let s1 := composeNext h r s
    match ripeEntry s1 h r with
    | none => s1
    | some e =>
      match decisionAtDue s1 h r e with
      | none => s1
      | some k => decideRow fuel h r (retire k h r e s1)

/-! ### The fire start (R112, R113) -/

/-- The fire start of a row whose buffer is FULL, whose fire state is IDLE and whose entry is due: FIRED with
its window and FIRE frame, or OVERSPEED beyond the late limit (R112, R113, R131, R132). -/
def fireStart (h r : Nat) (s : State) : State :=
  match rowAt s h r with
  | some ⟨.full e seq, .idle⟩ =>
    match dueOf s h r e with
    | none => s
    | some d =>
      if s.hInt < d then s
      else if s.hInt - d ≤ s.motionCfg.lateLimit then
        let bank := activeBankOf s
        let share := (((headPlane s h).bind fun p => storedLine s p e).bind (lineShare s h r)).getD []
        let frame : FireFrame := ⟨seq, r, e.page, e.line, bank.recs⟩
        retire .fired h r e (setRow h r ⟨.empty, .firing (windowLength bank share) frame⟩ s)
      else retire .overspeed h r e (setRow h r ⟨.empty, .idle⟩ s)
  | _ => s

/-- A row takes an event as far as it goes: a fire start of its buffered entry first, then the decision at due, made
again until the row is not ripe or its entry is pending (R105). Its run of retirements is one act here; R105 leaves open
whether those of another row come in between, and the free order makes them so by `rowOnce` (DESIGN CHOICE, safe,
log 8). -/
def rowTurn (h r : Nat) (s : State) : State :=
  let s1 := fireStart h r s
  decideRow (rowRemaining s1 h r) h r s1

/-- A row takes one act of an event: the fire start of its buffered entry, or with no buffered entry one decision at due
(R105); what is left of its turn comes later (log 8). -/
def rowOnce (h r : Nat) (s : State) : State :=
  match rowAt s h r with
  | some ⟨.full _ _, _⟩ => composeNext h r (fireStart h r s)
  | _ => decideRow 1 h r s

/-! ### The loader's choice (R108, R109) -/

/-- An eligible entry with its due and share. -/
structure Candidate where
  due   : Nat
  row   : Nat
  entry : Entry
  share : List Level
deriving DecidableEq, Repr

/-- The eligible entry of row `r`, if any: next entry, buffer EMPTY, line stored, share not empty (R108). -/
def candidate (s : State) (h r : Nat) : Option Candidate :=
  match rowAt s h r, nextEntry s h r with
  | some ⟨.empty, _⟩, some e =>
    match dueOf s h r e, ((headPlane s h).bind fun p => storedLine s p e).bind (lineShare s h r) with
    | some d, some share => if shareEmpty share then none else some ⟨d, r, e, share⟩
    | _, _ => none
  | _, _ => none

/-- The candidate of least due; of equal dues the lower row's, which comes first (R108). -/
def leastDue : List Candidate → Option Candidate
  | [] => none
  | c :: cs =>
    match leastDue cs with
    | some d => if d.due < c.due then some d else some c
    | none => some c

/-- Whether a head is DEGRADED, which halves its rate (R139). -/
def isDegraded (s : State) (h : Nat) : Bool :=
  (look s.health h none).any fun k => k.state = .degraded

/-- A head's transfer begins: it takes the sequence number, which rises, and enters SENDING for its transfer
time (R138, R139). -/
def beginTransfer (h : Nat) (carry : Carry) (l : Loader) (s : State) : State :=
  let lanes := ((look s.links h none).map fun k => k.dataLanes.length).getD 0
  let rate := ((look s.heads h none).map HeadCfg.rate).getD 0
  let time := transferTime carry.frameBits lanes rate (isDegraded s h)
  setLoader h ⟨l.seq + 1, some ⟨l.seq, carry, .sending time⟩⟩ s

/-- The loader begins a LOAD: the buffer becomes LOADING, the next entry moves on, and the line it moves to is
composed if need be (R109, R84). -/
def beginLoad (h : Nat) (c : Candidate) (l : Loader) (s : State) : State :=
  match rowAt s h c.row with
  | some row =>
    composeNext h c.row (beginTransfer h (.load c.row c.entry c.share) l
      (setRow h c.row { row with buf := .loading c.entry false } s))
  | none => s

/-- The loader of a head takes an event: idle, with the head in service and an entry eligible, it chooses and
begins a LOAD (R108). -/
def loaderTurn (h : Nat) (s : State) : State :=
  match look s.loaders h none with
  | some ⟨seq, none⟩ =>
    if available s h then
      match leastDue ((List.range (rowsOf s h).length).filterMap (candidate s h)) with
      | some c => beginLoad h c ⟨seq, none⟩ s
      | none => s
    else s
  | _ => s

/-! ### Parties to one event -/

/-- The next scheduling order of the free value `sched`, used up (log 8). -/
def popSched (s : State) : List SchedAct × State :=
  match s.sched with
  | [] => ([], s)
  | acts :: rest => (acts, { s with sched := rest })

/-- Every row, then every loader, by increasing number. -/
def allTurns (s : State) : List SchedAct :=
  (allRows s).map (fun t => .row t.1 t.2) ++ (List.range 24).map .load

/-- A row or a loader takes its turn; the tracker's part in an arrival is the Cue Tracker's. -/
def turn (a : SchedAct) (s : State) : State :=
  match a with
  | .cueOnce | .cue => s
  | .rowOnce h r => rowOnce h r s
  | .row h r => rowTurn h r s
  | .load h => loaderTurn h s

/-- Composes every line that is the next entry of some row and stored (R84). -/
def composeAll (s : State) : State :=
  (allRows s).foldl (fun s t => composeNext t.1 t.2 s) s

/-- What follows a change of next entries, stored lines, buffers, heads or loaders: composition, then each row
and each loader takes its turn. Rows and loaders act in the free order first, in whole turns or single acts (R11, R105,
R108, R116), and every one of them has had its turn at the end; a second turn finds nothing left to do (log 8). -/
def settle (s : State) : State :=
  let popped := popSched s
  let s1 := composeAll popped.2
  (popped.1 ++ allTurns s1).foldl (fun s a => turn a s) s1

/-! ### The end of a window -/

/-- The row's window ends: IDLE, and a fire start, a decision and a LOAD may follow (R114). -/
def windowEnd (h r : Nat) (s : State) : State :=
  match rowAt s h r with
  | some ⟨buf, .firing _ _⟩ => settle (setRow h r ⟨buf, .idle⟩ s)
  | _ => s

/-- WINDOW_END (R114). With no window running it is no event of the part. -/
def execWindowEnd (head row : Nat) (s : State) : Out := .next (windowEnd head row s)

end Sys2Proof.Machine
end

