-- ==== Sys2Proof/Machine/Pages.lean ====
section
/-! DEFINITION. The page queue (chapter 3): opening, binding, cue offers, cancellation and halt. -/

namespace Sys2Proof.Machine

/-! ### Binding (R41 to R44) -/

/-- The origin of a FOLLOW front page (R42). -/
def followOrigin (p : Page) (s : State) : Nat :=
  let least := s.tailEnd.getD 0 + max p.gap s.cueCfg.minGap
  if anyBound s then least
  else match s.tailEnd with
    | none => s.hInt + p.gap
    | some _ => max least (s.hInt + p.gap)

/-- A page binds: origin, state, tail end and PAGE_BOUND; then the entries already due are reached and the
loaders choose (R44, R121). That is done for every row and loader, not for the rows of the page alone. Where the binding
comes of an arrival of H_int, all of them so take the new H_int here, before what the tracker or the chain of FOLLOW pages
does next; R11 leaves that order open (DESIGN CHOICE, unsafe, log 36). -/
def bindPage (p : Page) (origin : Nat) (s : State) : State :=
  let q := { p with origin := some origin, pstate := .bound }
  settle (raise (.pageBound p.id origin)
    { setPage q s with tailEnd := some q.endAt, tailPage := some p.id })

/-- Binds FOLLOW pages as long as one is the front page (R42, R44); `fuel` is at least the QUEUED pages. -/
def bindFollows : Nat → State → State
  | 0, s => s
  | fuel + 1, s =>
    match frontPage s with
    | some p => if p.mode = .follow then bindFollows fuel (bindPage p (followOrigin p s) s) else s
    | none => s

/-- A cue offer reaches the Page Queue (R43). -/
def takeOffer (origin : Nat) (kind : CueKind) (s : State) : State :=
  match frontPage s with
  | none => raise (.cueUnused origin kind) (bumpMotion .unusedCues 1 s)
  | some p =>
    let least := s.tailEnd.map fun t => t + s.cueCfg.minGap
    if least.any fun l => origin < l then
      raise (.cueEarly p.id origin (least.getD 0)) (bumpMotion .earlyCues 1 s)
    else bindFollows s.pages.length (bindPage p origin s)

/-! ### PAGE_OPEN (R40) -/

/-- The mask names a configured plane or planes only (R40). -/
def maskConfigured (mask : BitVec 8) (s : State) : Bool :=
  (List.range 8).all fun p => !mask.getLsbD p || (look s.planes p none).isSome

/-- For each head of a plane of the mask, its rows at next-line index 0 (R49, R80). -/
def freshRows (mask : BitVec 8) (s : State) : Vector (List Nat) 24 :=
  mapTable (fun c : Option HeadCfg =>
    match c with
    | some c => if mask.getLsbD c.plane then List.replicate c.r 0 else []
    | none => []) s.heads

/-- The record PAGE_OPEN appends (R40). -/
def newPage (a : OpenArgs) (s : State) : Page :=
  let rows := freshRows a.mask s
  { id := a.id, length := a.length, mask := a.mask, mode := a.mode, gap := a.gap
    pstate := .queued, origin := none, cancelled := false
    unretired := a.length * (rows.toList.map List.length).sum
    counts := Vector.replicate 8 0, underrun := Vector.replicate 8 false
    arrival := Vector.replicate 8 0, passed := rows }

/-- PAGE_OPEN (R40). -/
def pageOpen (f : HostFrame) (s : State) : State :=
  match parseOpen f.body with
  | none => answer f .badArgument [] s
  | some a =>
    if maskConfigured a.mask s = false ∨ (pageById s a.id).isSome then answer f .badArgument [] s
    else if Config.pageSlots ≤ s.pages.length then answer f .queueFull [] s
    else
      let s1 := { s with pages := s.pages ++ [newPage a s] }
      answer f .ok [] (bindFollows s1.pages.length s1)

/-- PAGE_OPEN (R40). -/
def execPageOpen (s : State) : Out := .next (handleRequest .pageOpen pageOpen s)

/-! ### PAGE_CANCEL (R48 to R50) -/

/-- A number of entries for each row, counted in each head's group under a kind (R116). -/
def countEntries (k : Kind) (p : Page) (entries : Nat → Nat) (s : State) : State :=
  (List.range 24).foldl
    (fun s h => bumpHead h (.retired k) ((look p.passed h []).map entries).sum s) s

/-- Every stored line of the page at or above line `m` is freed, in every plane of its mask (R65). -/
def freeLinesFrom (p : Page) (m : Nat) (s : State) : State :=
  (List.range 8).foldl (fun s plane =>
    if p.holdsPlane plane then
      setLines plane ((linesOf s plane).filter fun l => !(l.page = p.id && m ≤ l.line)) s
    else s) s

/-- A load buffer when entries of page `id` from line `m` on are withdrawn (R50). -/
def LoadBuf.withdraw (id m : Nat) : LoadBuf → LoadBuf
  | .full e seq => if e.page = id ∧ m ≤ e.line then .empty else .full e seq
  | .loading e spent => if e.page = id ∧ m ≤ e.line then .loading e true else .loading e spent
  | .empty => .empty

/-- Every row's load buffer changes. -/
def mapBufs (g : LoadBuf → LoadBuf) (s : State) : State :=
  { s with rows := mapTable (fun rs => rs.map fun row => { row with buf := g row.buf }) s.rows }

/-- The cut line m: the greatest next-line index of the page over its rows (R49). -/
def cutLine (p : Page) : Nat := (p.passed.toList.flatten).foldl max 0

/-- The record after a cancellation at `m` (R49, R50). -/
def Page.cutAt (m : Nat) (p : Page) : Page :=
  let w := p.length - m
  { p.count .withdrawn w with
    unretired := p.unretired - w * p.rowCount
    length := m
    cancelled := true
    arrival := mapTable (fun a => min a m) p.arrival }

/-- PAGE_CANCEL of a BOUND or FIRING page (R49, R50): the cut, the withdrawals in the rows and the Line Store,
the tail end, and the page's departure if nothing of it is left. Its PAGE_DONE comes before what the rows then make
of the pages behind it, for which no rule gives an order (R50, R119; DESIGN CHOICE, unsafe, log 35). -/
def cancelBound (p : Page) (s : State) : State :=
  let m := cutLine p
  let w := p.length - m
  let q := p.cutAt m
  let s1 := freeLinesFrom p m (mapBufs (LoadBuf.withdraw p.id m) (countEntries .withdrawn p (fun _ => w) s))
  let s2 := setPage q s1
  let s3 := if s.tailPage = some p.id then { s2 with tailEnd := some q.endAt } else s2
  settle (finishPage p.id s3)

/-- PAGE_CANCEL of a QUEUED page (R48). Its entries are counted WITHDRAWN in the head groups as R100 and R116
have it (DEDUCED, log 10). -/
def cancelQueued (p : Page) (s : State) : State :=
  let q := { p.cutAt 0 with unretired := 0 }
  let s1 := freeLinesFrom p 0 (countEntries .withdrawn p (fun _ => p.length) s)
  let s2 := raise (.pageDone p.id .cancelled 0 q.counts) (dropPage p.id s1)
  bindFollows s2.pages.length s2

/-- PAGE_CANCEL (R48, R49). -/
def pageCancel (f : HostFrame) (s : State) : State :=
  match pageById s (field f.body 0 2) with
  | none => answer f .noSuchPage [] s
  | some p =>
    if p.pstate = .queued then
      answer f .ok (leBytes 4 0 ++ leBytes 4 p.length) (cancelQueued p s)
    else
      answer f .ok (leBytes 4 (cutLine p) ++ leBytes 4 (p.length - cutLine p)) (cancelBound p s)

/-- PAGE_CANCEL (R48 to R50). -/
def execPageCancel (s : State) : Out := .next (handleRequest .pageCancel pageCancel s)

/-! ### ENGINE_HALT (R37, R38) -/

/-- One page of a halt: its unretired entries are retired CUT and PAGE_DONE says HALTED (R37). -/
def haltPage (s : State) (p : Page) : State :=
  let q := p.count .cut p.unretired
  raise (.pageDone p.id .halted p.length q.counts)
    (dropPage p.id (countEntries .cut p (fun n => p.length - n) s))

/-- A load buffer after a halt: FULL becomes EMPTY, LOADING is spent (R38). -/
def LoadBuf.cut : LoadBuf → LoadBuf
  | .full _ _ => .empty
  | .loading e _ => .loading e true
  | .empty => .empty

/-- ENGINE_HALT: every page dropped in queue order, line lists emptied, tail end absent, buffers cut (R37, R38,
R66); the reply with the number of pages follows the events. -/
def engineHalt (f : HostFrame) (s : State) : State :=
  let s1 := s.pages.foldl haltPage s
  answer f .ok (leBytes 1 s.pages.length)
    { mapBufs LoadBuf.cut s1 with
      pages := [], tailEnd := none, tailPage := none, lines := Vector.replicate 8 [] }

/-- ENGINE_HALT (R37, R38). -/
def execEngineHalt (s : State) : Out := .next (handleRequest .engineHalt engineHalt s)

end Sys2Proof.Machine
end

