-- ==== Sys2Proof/Machine/Lanes.lean ====
section
/-! DEFINITION. Head lanes and link health (chapter 9): SET_LANE, transfers and their ends, health, probe runs, HEAD_RESTORE. -/

namespace Sys2Proof.Machine

/-- SET_LANE (R135). -/
def setLane (f : HostFrame) (s : State) : State :=
  match parseLane f.body with
  | some (l, e) => answer f .ok [] { s with lanes := put s.lanes l e }
  | none => answer f .badArgument [] s

/-- SET_LANE (R135). -/
def execSetLane (s : State) : Out := .next (handleRequest .setLane setLane s)

/-- The lanes of head `h` with a function, in increasing number (R136). -/
def lanesOf (s : State) (fn : LaneFunction) (h : Nat) : List Nat :=
  (List.range 72).filter fun l =>
    let e := look s.lanes l ⟨.off, 0⟩
    e.function = fn && e.owner = h

/-! ### Phases (R138, R140) -/

/-- SENDING ends: the transfer enters WAITING and the head's timeout starts (R140). -/
def sendingEnd (h : Nat) (s : State) : State :=
  match look s.loaders h none with
  | some ⟨seq, some ⟨tseq, carry, .sending _⟩⟩ =>
    let timeout := ((look s.heads h none).map HeadCfg.timeout).getD 0
    setLoader h ⟨seq, some ⟨tseq, carry, .waiting timeout⟩⟩ s
  | _ => s

/-- SENDING_END (R140). -/
def execSendingEnd (head : Nat) (s : State) : Out := .next (sendingEnd head s)

/-! ### Health (R143, R144) -/

/-- A head's health takes a value; a change of state raises HEAD_STATE (R144, R147, R149). -/
def changeHealth (h : Nat) (old new : Health) (s : State) : State :=
  let s1 := setHealth h new s
  if old.state = new.state then s1 else raise (.headState h old.state new.state new.counter) s1

/-- The health after a LOAD transfer: down 1, or up 8, within 0 to 256 (R144). -/
def Health.afterLoad (acked : Bool) (k : Health) : Health :=
  let c := if acked then k.counter - 1 else min 256 (k.counter + 8)
  ⟨healthBand c, c, k.probes⟩

/-- The end of a LOAD counts toward health (R144). -/
def countHealth (h : Nat) (acked : Bool) (s : State) : State :=
  match look s.health h none with
  | some k => changeHealth h k (k.afterLoad acked) s
  | none => s

/-! ### The end of a LOAD (R110, R111, R145) -/

/-- A row whose buffer is FULL has its entry retired LINK_LOSS and the buffer becomes EMPTY (R111). -/
def loseFull (h r : Nat) (s : State) : State :=
  match rowAt s h r with
  | some ⟨.full e _, fire⟩ => retire .linkLoss h r e (setRow h r ⟨.empty, fire⟩ s)
  | _ => s

/-- The FULL buffers of a head that has entered OFFLINE are lost, by increasing row (R111). -/
def enterOffline (h : Nat) (s : State) : State :=
  (List.range (rowsOf s h).length).foldl (fun s r => loseFull h r s) s

/-- The row's buffer at the end of an acknowledged LOAD of sequence `seq` (R110). -/
def bufferAcked (h r : Nat) (seq : BitVec 8) (s : State) : State :=
  match rowAt s h r with
  | some ⟨.loading e spent, fire⟩ =>
    setRow h r ⟨if spent then .empty else .full e seq, fire⟩ s
  | _ => s

/-- The row's buffer at the end of a failed LOAD: EMPTY, its entry LINK_LOSS unless it is spent (R110). -/
def bufferFailed (h r : Nat) (s : State) : State :=
  match rowAt s h r with
  | some ⟨.loading e spent, fire⟩ =>
    let s1 := setRow h r ⟨.empty, fire⟩ s
    if spent then s1 else retire .linkLoss h r e s1
  | _ => s

/-- Whether a head is OFFLINE. -/
def isOffline (s : State) (h : Nat) : Bool :=
  (look s.health h none).any fun k => k.state = .offline

/-- An acknowledged LOAD: FULL and any fire start, health, then the loader (R110, R145). That the row's decision at due
comes before the health change too is DEDUCED (log 11). -/
def loadAcked (h r : Nat) (seq : BitVec 8) (s : State) : State :=
  settle (countHealth h true (rowTurn h r (bufferAcked h r seq (bumpHead h .transfers 1 s))))

/-- A failed LOAD: LINK_LOSS, health, the FULL buffers of a head gone OFFLINE, then the ripe rows and the loader
(R110, R111, R145; the order of the last is DEDUCED, log 11). -/
def loadFailed (h r : Nat) (s : State) : State :=
  let s1 := countHealth h false
    (bufferFailed h r (bumpHead h .failures 1 (bumpHead h .transfers 1 s)))
  settle (if isOffline s1 h then enterOffline h s1 else s1)

/-! ### Probe runs (R148, R149) -/

/-- The next PROBE of a run begins, carrying the probe count (R148). -/
def beginProbe (h : Nat) (count : Nat) (s : State) : State :=
  match look s.loaders h none with
  | some l => beginTransfer h (.probe count) l s
  | none => s

/-- An acknowledged PROBE: the next one begins, or the sixteenth brings the head back (R148, R149). -/
def probeAcked (h : Nat) (s : State) : State :=
  match look s.health h none with
  | some k =>
    if Config.probesToPass ≤ k.probes + 1 then settle (changeHealth h k ⟨.active, 0, 0⟩ s)
    else beginProbe h (k.probes + 1) (setHealth h { k with probes := k.probes + 1 } s)
  | none => s

/-- A failed PROBE: the run fails and the head is OFFLINE again (R149). -/
def probeFailed (h : Nat) (s : State) : State :=
  match look s.health h none with
  | some k => changeHealth h k ⟨.offline, 256, 0⟩ s
  | none => s

/-! ### The end of a transfer (R140) -/

/-- A transfer of head `h` ends: the loader is idle, and the outcome counts (R140, R151). -/
def endTransfer (h : Nat) (t : Transfer) (acked : Bool) (s : State) : State :=
  match look s.loaders h none with
  | none => s
  | some l =>
    let s1 := setLoader h ⟨l.seq, none⟩ s
    match t.carry with
    | .load r _ _ => if acked then loadAcked h r t.seq s1 else loadFailed h r s1
    | .probe _ =>
      let s2 := bumpHead h .probes 1 s1
      if acked then probeAcked h s2 else probeFailed h s2

/-- The head whose RETURN lane a lane is (R136). -/
def answeringHead (s : State) (lane : Nat) : Option Nat :=
  let e := look s.lanes lane ⟨.off, 0⟩
  match e.function, look s.links e.owner none with
  | .ret, some k => if k.returnLane = lane then some e.owner else none
  | _, _ => none

/-- An answer arrives on a lane: ignored in SETUP and on a lane that is no RETURN lane (R136), without effect
when no transfer is WAITING, otherwise judged by the table of R140. -/
def headAnswer (lane : Nat) (bits : BitVec 32) (s : State) : State :=
  match s.engine, answeringHead s lane with
  | .run, some h =>
    match transferOf s h with
    | some ⟨seq, carry, .waiting timeout⟩ =>
      let t : Transfer := ⟨seq, carry, .waiting timeout⟩
      match judge t bits with
      | .stale => s
      | .acknowledged => endTransfer h t true s
      | .failed => endTransfer h t false s
    | _ => s
  | _, _ => s

/-- HEAD_ANSWER (R140). -/
def execHeadAnswer (lane : Nat) (bits : BitVec 32) (s : State) : Out := .next (headAnswer lane bits s)

/-- The timeout runs out: a WAITING transfer ends failed (R140); an expiry that finds none has no effect
(R141). -/
def ackTimeout (h : Nat) (s : State) : State :=
  match transferOf s h with
  | some ⟨seq, carry, .waiting timeout⟩ => endTransfer h ⟨seq, carry, .waiting timeout⟩ false s
  | _ => s

/-- ACK_TIMEOUT (R140, R141). -/
def execAckTimeout (head : Nat) (s : State) : Out := .next (ackTimeout head s)

/-! ### HEAD_RESTORE (R147) -/

/-- HEAD_RESTORE: an OFFLINE head becomes PROBING and its first PROBE begins; HEAD_STATE precedes the reply
(R147). -/
def headRestore (f : HostFrame) (s : State) : State :=
  let h := byteAt f.body 0
  match look s.heads h none, look s.health h none with
  | some _, some k =>
    if k.state = .offline then
      answer f .ok [] (beginProbe h 0 (changeHealth h k ⟨.probing, 256, 0⟩ s))
    else answer f .notOffline [] s
  | _, _ => answer f .badArgument [] s

/-- HEAD_RESTORE (R147). -/
def execHeadRestore (s : State) : Out := .next (handleRequest .headRestore headRestore s)

end Sys2Proof.Machine
end

