-- ==== Sys2Proof/Machine/Engine.lean ====
section
/-! DEFINITION. Engine states (chapter 3): ENGINE_START with its six checks, ENGINE_STOP. -/

namespace Sys2Proof.Machine

/-- What the reply of ENGINE_START names (R34, R170). -/
inductive StartFault where
  | none
  | plane (p : Nat)
  | head (h : Nat)
  | lane (l : Nat)
  | bank (b : Nat)
deriving DecidableEq, Repr

/-- Fault kind and number of the object at fault, one byte each (R166, R170). -/
def StartFault.bytes : StartFault → List Byte
  | .none => leBytes 1 0 ++ leBytes 1 0
  | .plane p => leBytes 1 1 ++ leBytes 1 p
  | .head h => leBytes 1 2 ++ leBytes 1 h
  | .lane l => leBytes 1 3 ++ leBytes 1 l
  | .bank b => leBytes 1 4 ++ leBytes 1 b

/-- The first of numbered objects that fails a test, by its number. -/
def firstFailing {α : Type} (ok : Nat → α → Bool) : List (Nat × α) → Option Nat
  | [] => none
  | t :: ts => if ok t.1 t.2 then firstFailing ok ts else some t.1

/-- Check 1: a plane exists (R34). -/
def checkPlanes (s : State) : Option (Status × StartFault) :=
  if (configuredPlanes s).isEmpty then some (.badArgument, .none) else none

/-- Check 2: N a multiple of R, exactly R row offsets (R34). -/
def checkHeads (s : State) : Option (Status × StartFault) :=
  (firstFailing (fun _ (c : HeadCfg) => c.n % c.r = 0 && c.offsets.length = c.r) (configuredHeads s)).map
    fun h => (.badArgument, .head h)

/-- Check 3, first pass: the head's plane is configured and the head lies within it (R77). -/
def checkHeadsPlaced (s : State) : Option (Status × StartFault) :=
  (firstFailing (fun _ (c : HeadCfg) =>
    match look s.planes c.plane none with
    | some p => c.x + c.n ≤ p.width
    | none => false) (configuredHeads s)).map fun h => (.geometry, .head h)

/-- Check 3, second pass: the coverage rules (R76, R77). -/
def checkCoverage (s : State) : Option (Status × StartFault) :=
  (firstFailing (fun p (c : PlaneCfg) => coverageHolds c.width (planeSpans s p)) (configuredPlanes s)).map
    fun p => (.geometry, .plane p)

/-- Check 4, first part: one or two DATA lanes and exactly one RETURN lane for each head (R34). -/
def checkHeadLanes (s : State) : Option (Status × StartFault) :=
  (firstFailing (fun h (_ : HeadCfg) =>
    let d := (lanesOf s .data h).length
    1 ≤ d && d ≤ 2 && (lanesOf s .ret h).length = 1) (configuredHeads s)).map fun h => (.lanes, .head h)

/-- Check 4, second part: each DATA or RETURN lane has a configured owner (R34). -/
def checkLaneOwners (s : State) : Option (Status × StartFault) :=
  (firstFailing (fun _ (e : Lane) => e.function = .off || (look s.heads e.owner none).isSome)
    ((List.range 72).map fun l => (l, look s.lanes l ⟨.off, 0⟩))).map fun l => (.lanes, .lane l)

/-- The plane at which the running sum of slot capacity × footprint first exceeds line memory (R34). -/
def firstOver : Nat → List (Nat × PlaneCfg) → Option Nat
  | _, [] => none
  | sum, t :: ts =>
    let sum' := sum + t.2.capacity * footprint t.2.width
    if Config.lineMemory < sum' then some t.1 else firstOver sum' ts

/-- Check 5: the line store fits (R34). -/
def checkStore (s : State) : Option (Status × StartFault) :=
  (firstOver 0 (configuredPlanes s)).map fun p => (.storeSize, .plane p)

/-- Check 6: the active bank is complete (R34). -/
def checkBank (s : State) : Option (Status × StartFault) :=
  if (activeBankOf s).complete then none else some (.incomplete, .bank s.activeBank)

/-- The six checks in order; the first that fails decides (R34). -/
def startFault (s : State) : Option (Status × StartFault) :=
  (checkPlanes s).or <| (checkHeads s).or <| (checkHeadsPlaced s).or <| (checkCoverage s).or <|
    (checkHeadLanes s).or <| (checkLaneOwners s).or <| (checkStore s).or (checkBank s)

/-- A head's lanes as derived from the table (R136). -/
def derivedLink (s : State) (h : Nat) : Option HeadLink :=
  (look s.heads h none).map fun _ => ⟨lanesOf s .data h, (lanesOf s .ret h).headD 0⟩

/-- The state a successful ENGINE_START sets (R3, R19, R35, R41, R53, R78, R102, R136, R138, R143). -/
def startRun (s : State) : State :=
  { s with
    engine := .run
    pRaw := 0, hRaw := 0, decRef := s.encPins, revCond := .armed
    pace := match s.motionCfg.source with
      | .internal => .running s.motionCfg.paceInterval
      | .external => .stopped
    lock := .unlocked, smoothed := 0, predicted := 0, flywheel := 0, lastAccepted := none
    pages := [], tailEnd := none, tailPage := none
    lines := Vector.replicate 8 []
    regions := mapTable (fun c => c.map fun c : PlaneCfg => ⟨c.capacity, footprint c.width⟩) s.planes
    decode := Vector.ofFn fun p => derivedDecode s p.val
    rows := mapTable (fun c : Option HeadCfg =>
      match c with
      | some c => List.replicate c.r ⟨.empty, .idle⟩
      | none => []) s.heads
    links := Vector.ofFn fun h => derivedLink s h.val
    loaders := mapTable (fun c => c.map fun _ => ⟨0, none⟩) s.heads
    health := mapTable (fun c => c.map fun _ => ⟨.active, 0, 0⟩) s.heads }

/-- ENGINE_START (R34, R35). -/
def engineStart (f : HostFrame) (s : State) : State :=
  match startFault s with
  | some (status, fault) => answer f status fault.bytes s
  | none => answer f .ok StartFault.none.bytes (startRun s)

/-- ENGINE_START (R34, R35). -/
def execEngineStart (s : State) : Out := .next (handleRequest .engineStart engineStart s)

/-- ENGINE_STOP: SETUP if the queue is empty and the part quiet, else BUSY (R36). -/
def engineStop (f : HostFrame) (s : State) : State :=
  if s.pages.isEmpty && s.quiet then answer f .ok [] { s with engine := .setup, pace := .stopped }
  else answer f .busy [] s

/-- ENGINE_STOP (R36). -/
def execEngineStop (s : State) : Out := .next (handleRequest .engineStop engineStop s)

end Sys2Proof.Machine
end

