-- ==== Sys2Proof/Machine/Link.lean ====
section
/-! DEFINITION. The Link Port (chapter 10): the receiver, acceptance and refusal at arrival, the transmit path, IDENTIFY, RESET, the answer to an unknown code. -/

namespace Sys2Proof.Machine

/-! ### Acceptance (R155) -/

/-- A refusal at arrival, or a bad frame when 8 refusals already wait (R155). -/
def refuseArrival (f : HostFrame) (status : Status) (c : LinkCtr) (s : State) : State :=
  if s.refusalsWaiting < Config.arrivalRefusals then
    bumpLink c 1 (bumpLink .goodFrames 1
      { s with outgoing := s.outgoing ++ [.reply ⟨status, f.code, f.tag, none, []⟩] })
  else bumpLink .badFrames 1 s

/-- A good request is accepted into a slot of its kind, and taken at once by a handler that is free (R157), or it is
refused at arrival (R155). -/
def acceptFrame (f : HostFrame) (s : State) : State :=
  match f.kind with
  | .control =>
    if s.controlHeld < Config.controlSlots then
      bumpLink .goodFrames 1 (takeNext { s with ctlWaiting := s.ctlWaiting ++ [f] })
    else refuseArrival f .busy .busyRefusals s
  | .data =>
    if s.dataHeld < Config.dataSlots then
      bumpLink .goodFrames 1 (takeNext { s with dataWaiting := s.dataWaiting ++ [f] })
    else refuseArrival f .noCredit .noCreditRefusals s

/-! ### The receiver (R153) -/

/-- A frame that has arrived whole: `covered` is Kind through Body, `check` the Check field (R153). -/
def frameArrived (covered check : List Byte) (s : State) : State :=
  let s1 := { s with rx := .expecting }
  if leNat check ≠ (hostCrc covered).toNat then bumpLink .badFrames 1 s1
  else
    let kind : Option FrameKind :=
      match field covered 0 1 with
      | 1 => some .control
      | 2 => some .data
      | _ => none
    match kind with
    | none => bumpLink .badFrames 1 s1
    | some k =>
      acceptFrame ⟨k, (covered.getD 1 0), BitVec.ofNat 16 (field covered 2 2), covered.drop 8⟩ s1

/-- A byte while hunting (R153): a sync pair ends the hunt, and the run of bytes skipped before it, if any, is
one bad frame (counted here, log 5). -/
def huntByte (skipped sync1 : Bool) (b : Byte) (s : State) : State :=
  if sync1 && b = 0x2B#8 then
    let s1 := { s with rx := .header [] }
    if skipped then bumpLink .badFrames 1 s1 else s1
  else if b = 0xD4#8 then { s with rx := .hunting (skipped || sync1) true }
  else { s with rx := .hunting true false }

/-- The receiver takes one byte (R153). -/
def rxByte (b : Byte) (s : State) : State :=
  match s.rx with
  | .hunting skipped sync1 => huntByte skipped sync1 b s
  | .expecting => if b = 0xD4#8 then { s with rx := .second } else huntByte false false b s
  | .second => if b = 0x2B#8 then { s with rx := .header [] } else huntByte false false b s
  | .header got =>
    let got' := b :: got
    if got'.length < 8 then { s with rx := .header got' }
    else
      let head := got'.reverse
      let len := field head 4 4
      if Config.maxBody < len then bumpLink .badFrames 1 { s with rx := .hunting false false }
      else { s with rx := .rest head [] (len + 4) }
  | .rest head got left =>
    let got' := b :: got
    if left ≤ 1 then
      let all := head ++ got'.reverse
      frameArrived (all.take (all.length - 4)) (all.drop (all.length - 4)) s
    else { s with rx := .rest head got' (left - 1) }

/-- HOST_FRAME_ARRIVAL: the receiver takes the bytes in order (R153 to R155). -/
def execHostFrameArrival (bytes : List Byte) (s : State) : Out :=
  .next (bytes.foldl (fun s b => rxByte b s) s)

/-! ### The transmit path (R160, R162) -/

/-- The RESET's own reply: OK to code 0x04 from the request handler (R168). -/
def Reply.isReset (r : Reply) : Bool := r.status = .ok && r.code = 0x04#8 && r.slot = some .control

/-- The frame on the transmit path has been sent; after the RESET's reply the soft reset is due (R162, R168). -/
def finishSending (s : State) : State :=
  match s.sending with
  | some (.reply r _ _) => { s with sending := none, resetSent := s.resetSent || r.isReset }
  | _ => { s with sending := none }

/-- The transmit path begins the frame at the head of the outgoing order: a reply frees its slot, and Credits
and Control free are taken after that (R156, R160, R162). Nothing is begun while a soft reset is due (R168). -/
def beginSending (s : State) : State :=
  if s.resetSent then s
  else match s.outgoing with
    | [] => s
    | .reply r :: rest =>
      let s1 := { s with outgoing := rest }
      { s1 with sending := some (.reply r s1.credits s1.controlFree) }
    | .event seq lost e :: rest => { s with outgoing := rest, sending := some (.event seq lost e) }

/-- FRAME_SENT (R162; on an idle path it begins the next frame, log 4). -/
def execFrameSent (s : State) : Out := .next (beginSending (finishSending s))

/-! ### IDENTIFY, RESET and unknown codes -/

/-- The values of IDENTIFY's reply (R167). -/
def identity : List Byte :=
  leBytes 2 0x7A06 ++ leBytes 2 2408 ++ leBytes 1 1 ++ leBytes 1 0 ++ leBytes 1 8 ++ leBytes 1 24
    ++ leBytes 1 72 ++ leBytes 1 4 ++ leBytes 1 28 ++ leBytes 1 4 ++ leBytes 1 64 ++ leBytes 1 64
    ++ leBytes 1 2 ++ leBytes 2 2048 ++ leBytes 4 268435456 ++ leBytes 4 65536

/-- IDENTIFY (R167). -/
def identify (f : HostFrame) (s : State) : State := answer f .ok identity s

/-- IDENTIFY (R167). -/
def execIdentify (s : State) : Out := .next (handleRequest .identify identify s)

/-- RESET: the reply, and the handler takes no further frame (R168). -/
def resetRequest (f : HostFrame) (s : State) : State := answer f .ok [] { s with handler := .stopped }

/-- RESET (R168). -/
def execReset (s : State) : Out := .next (handleRequest .reset resetRequest s)

/-- A code that names no request of the frame's kind is answered UNKNOWN in either engine state (R158). -/
def unknownCode (f : HostFrame) (s : State) : State := answer f .unknown [] s

/-- UNKNOWN_CODE (R158). -/
def execUnknownCode (s : State) : Out := .next (handleRequest .unknownCode unknownCode s)

end Sys2Proof.Machine
end

