-- ==== Sys2Proof/Machine/Cue.lean ====
section
/-! DEFINITION. Product cue tracking (chapter 2): SET_CUE, cue edges, synchronising, correcting, relocking, the flywheel, offers. -/

namespace Sys2Proof.Machine

/-- SET_CUE (R18). -/
def setCue (f : HostFrame) (s : State) : State :=
  match parseCue f.body with
  | some c => answer f .ok [] { s with cueCfg := c }
  | none => answer f .badArgument [] s

/-- SET_CUE (R18). -/
def execSetCue (s : State) : Out := .next (handleRequest .setCue setCue s)

/-- The tracker offers its smoothed cue plus Oc to the Page Queue (R29). -/
def offer (kind : CueKind) (s : State) : State := takeOffer (s.smoothed + s.cueCfg.offset) kind s

/-- The tracker takes a cue at `smoothed`, counts no miss, and, with Q above 0, predicts the next one (R23,
R24, R25). -/
def takeCue (smoothed : Nat) (s : State) : State :=
  { s with smoothed := smoothed, lastAccepted := some smoothed, flywheel := 0
           predicted := smoothed + s.cueCfg.pitch }

/-- A hard sync at `pc` (R23, R31). -/
def hardSync (pc : Nat) (s : State) : State :=
  if s.cueCfg.pitch = 0 then { s with smoothed := pc, lastAccepted := some pc }
  else raise (.cueLocked pc (pc + s.cueCfg.pitch)) { takeCue pc s with lock := .locked }

/-- An error limited to −J to +J (R24). -/
def limitError (j : Nat) (e : Int) : Int := max (-(j : Int)) (min (j : Int) e)

/-- An accepted cue in LOCKED: a correcting cue inside the capture window, a relock outside (R24, R25). -/
def followCue (pc : Nat) (s : State) : State :=
  let e : Int := (pc : Int) - s.predicted
  if e.natAbs ≤ s.cueCfg.window then
    takeCue ((s.predicted : Int) + limitError s.cueCfg.jump e).toNat s
  else raise (.cueRelock pc s.predicted e) (bumpMotion .relocks 1 (takeCue pc s))

/-- An accepted cue at `pc`: the tracker's own changes, then the offer (R22, R29). -/
def acceptCue (pc : Nat) (s : State) : State :=
  let s1 := bumpMotion .cuesAccepted 1 s
  offer .edge (match s1.lock with
    | .unlocked => hardSync pc s1
    | .locked => followCue pc s1)

/-- Whether a cue position falls within the hold-off (R22). -/
def inHoldOff (pc : Nat) (s : State) : Bool :=
  s.lastAccepted.any fun l => pc < l + s.cueCfg.holdOff

/-- A cue edge: not taken in SETUP; in RUN through the reverse filter and the hold-off filter (R20, R21, R22). -/
def cueEdge (s : State) : State :=
  match s.engine with
  | .setup => s
  | .run =>
    if s.pRaw < s.hRaw then bumpMotion .ignoredReverse 1 s
    else if inHoldOff s.pInt s then bumpMotion .ignoredHoldOff 1 s
    else acceptCue s.pInt s

/-- The flywheel point (R26). -/
def flywheelPoint (s : State) : Nat := s.predicted + s.cueCfg.window + 1

/-- A cue is synthesized at the prediction and offered (R26, R29). -/
def synthesize (s : State) : State :=
  offer .synthesized (bumpMotion .synthesized 1
    { s with smoothed := s.predicted, lastAccepted := some s.predicted
             flywheel := s.flywheel + 1, predicted := s.predicted + s.cueCfg.pitch })

/-- The lock is lost at the third consecutive miss (R27). -/
def loseLock (s : State) : State :=
  raise (.cueLost s.predicted s.hInt) { s with lock := .unlocked, flywheel := 0 }

/-- The tracker takes an arrival of H_int: it synthesizes or loses the lock until H_int lies below the flywheel
point or it is UNLOCKED (R26, R27). Two syntheses and a loss are the most one arrival can bring. -/
def flywheelTurn : Nat → State → State
  | 0, s => s
  | fuel + 1, s =>
    if s.lock = .locked ∧ flywheelPoint s ≤ s.hInt then
      if s.flywheel ≤ 1 then flywheelTurn fuel (synthesize s) else loseLock s
    else s

/-- A party to an arrival of H_int takes its turn (R11). -/
def arrivalTurn (a : SchedAct) (s : State) : State :=
  match a with
  | .cueOnce => flywheelTurn 1 s
  | .cue => flywheelTurn 3 s
  | .rowOnce h r => rowOnce h r s
  | .row h r => rowTurn h r s
  | .load h => loaderTurn h s

/-- An arrival of H_int at the Cue Tracker and the Row Scheduler, which take it independently of each other
(R11): tracker, rows and loaders act in the free order first, in whole turns or single acts, and each has had its turn at the
end (log 8). A page that the tracker's offer binds lets every row and loader go within the tracker's turn (log 36). -/
def arrival (s : State) : State :=
  let popped := popSched s
  let s1 := popped.2
  (popped.1 ++ .cue :: allTurns s1).foldl (fun s a => arrivalTurn a s) s1

end Sys2Proof.Machine
end

