-- ==== Sys2Proof/Machine/Motion.lean ====
section
/-! DEFINITION. Substrate position (chapter 1): SET_MOTION, quadrature decoding, edges, the high-water position, the reverse limit, the pace timer; and a cue edge, alone or together with an edge of the substrate (R28). -/

namespace Sys2Proof.Machine

/-- SET_MOTION (R2). -/
def setMotion (f : HostFrame) (s : State) : State :=
  match parseMotion f.body with
  | some c => answer f .ok [] { s with motionCfg := c }
  | none => answer f .badArgument [] s

/-- SET_MOTION (R2). -/
def execSetMotion (s : State) : Out := .next (handleRequest .setMotion setMotion s)

/-- The class of a change of the encoder pair (R5). -/
inductive EdgeClass where
  | same
  | forward
  | reverse
  | glitch
deriving DecidableEq, Repr

/-- The place of a pair in the cycle 00, 01, 11, 10 (R5). -/
def EncPair.place (p : EncPair) : Nat :=
  match p.a, p.b with
  | false, false => 0
  | false, true => 1
  | true, true => 2
  | true, false => 3

/-- A new pair against the decoder reference, with invert off (R5). -/
def classify (ref new : EncPair) : EdgeClass :=
  match (new.place + 4 - ref.place) % 4 with
  | 0 => .same
  | 1 => .forward
  | 2 => .glitch
  | _ => .reverse

/-- With invert on, forward and reverse change places (R6). -/
def EdgeClass.inverted (invert : Bool) (c : EdgeClass) : EdgeClass :=
  match invert, c with
  | true, .forward => .reverse
  | true, .reverse => .forward
  | _, c => c

/-- The deficit H_int − P_int (R1). -/
def deficit (s : State) : Nat := s.hInt - s.pInt

/-- The deficit test made after every edge (R13). -/
def testDeficit (s : State) : State :=
  match s.revCond with
  | .armed =>
    if s.motionCfg.reverseLimit < deficit s then
      raise (.reverseLimit s.pInt s.hInt s.motionCfg.reverseLimit) { s with revCond := .raised }
    else s
  | .raised =>
    if deficit s ≤ s.motionCfg.reverseLimit then { s with revCond := .armed } else s

/-- P moves to `p`: the high-water update (R10), then the deficit test (R13). -/
def moveTo (p : Nat) (s : State) : State := testDeficit { s with pRaw := p, hRaw := max s.hRaw p }

/-- A forward edge: P_raw rises by S_raw, saturating (R8). -/
def forwardEdge (s : State) : State :=
  moveTo (min (s.pRaw + s.motionCfg.stepRaw) Config.positionMax) s

/-- A reverse edge: P_raw falls by S_raw, clamped at 0 (R9). -/
def reverseEdge (s : State) : State := moveTo (s.pRaw - s.motionCfg.stepRaw) s

/-- A decoded change (R5, R6, R16). -/
def takeEdge (c : EdgeClass) (s : State) : State :=
  match c with
  | .same => s
  | .forward => forwardEdge s
  | .reverse => reverseEdge s
  | .glitch => bumpMotion .glitches 1 s

/-- The Motion Unit takes the pair `new` that the encoder inputs now show (R4), up to the presentation of H_int. The
same pair as before is no change of the inputs. -/
def encoderStep (new : EncPair) (s : State) : State :=
  if new = s.encPins then s
  else
    let s1 := { s with encPins := new }
    match s.engine, s.motionCfg.source with
    | .setup, _ => { s1 with decRef := new }
    | .run, .internal => s1
    | .run, .external =>
      takeEdge ((classify s.decRef new).inverted s.motionCfg.invert) { s1 with decRef := new }

/-- The pace timer expires: it starts again with a full interval, and the expiry is one forward edge (R7), up to the
presentation of H_int. A timer that is STOPPED does not expire. -/
def paceStep (s : State) : State :=
  match s.pace with
  | .stopped => s
  | .running _ => forwardEdge { s with pace := .running s.motionCfg.paceInterval }

/-- An edge has taken `s` to `moved`: H_int is presented if it rose (R11). -/
def present (s moved : State) : State := if s.hInt < moved.hInt then arrival moved else moved

/-- ENCODER_CHANGE (R4). -/
def execEncoderChange (a b : Bool) (s : State) : Out := .next (present s (encoderStep ⟨a, b⟩ s))

/-- PACE_EXPIRY (R7). -/
def execPaceExpiry (s : State) : Out := .next (present s (paceStep s))

/-! ### A cue edge and an edge of the substrate together (R28) -/

/-- What the Motion Unit makes of the edge of the substrate that a cue edge arrives together with, up to the
presentation of H_int. -/
def stepTogether (together : CueWith) (s : State) : State :=
  match together with
  | .nothing => s
  | .encoder a b => encoderStep ⟨a, b⟩ s
  | .pace => paceStep s

/-- Rows and loaders named by the free order take an arrival before the Cue Tracker takes the cue edge that came
with it (R11, log 8). -/
def rowsFirst (s : State) : State :=
  let popped := popSched s
  popped.1.foldl (fun s a => turn a s) popped.2

/-- The cue edge is taken first: the tracker reads the position that the edge of the substrate has reached, and takes
the arrival of H_int, if there is one, only then (R12, R28, log 33). If its offer binds a page, every row and loader takes
the new H_int at the binding (log 36). -/
def cueThenArrival (s moved : State) : State :=
  if s.hInt < moved.hInt then arrival (cueEdge (rowsFirst moved)) else cueEdge moved

/-- What the free value `cueWith` says of this cue edge, used up (log 33). -/
def popCueWith (s : State) : CueWith × State := (s.cueWith.headD .nothing, { s with cueWith := s.cueWith.tail })

/-- CUE_EDGE (R20), alone or together with an edge of the substrate (R28). -/
def execCueEdge (s : State) : Out :=
  let (together, s1) := popCueWith s
  .next (cueThenArrival s1 (stepTogether together s1))

end Sys2Proof.Machine
end

