-- ==== Sys2Proof/Machine/Reset.lean ====
section
/-! DEFINITION. The reset occasions: power-on (R32) and soft reset (R169). -/

namespace Sys2Proof.Machine

/-- POWER_ON: every block takes its power-on values. The decoder reference takes the encoder pair present (R3);
that pair, the waiting commands and the free values `sched` and `cueWith` are not the part's to reset (log 18). -/
def powerOn (s : State) : State :=
  { State.reset with
    decRef := s.encPins, encPins := s.encPins, sched := s.sched, cueWith := s.cueWith, pending := s.pending }

/-- POWER_ON (R32). -/
def execPowerOn (s : State) : Out := .next (powerOn s)

/-- The soft-reset values of R169: those of power-on, but for the waveform banks, the active bank selection and
the nozzle map, which are kept. -/
def softReset (s : State) : State :=
  { powerOn s with banks := s.banks, activeBank := s.activeBank, nozzles := s.nozzles }

/-- SOFT_RESET: performed once the RESET's reply has been sent in full (R168, R169). Before that it is no event of
the part (log 19). -/
def execSoftReset (s : State) : Out := .next (if s.resetSent then softReset s else s)

end Sys2Proof.Machine
end

