-- ==== Sys2Proof/Machine/Status.lean ====
section
/-! DEFINITION. What the host reads back (chapter 11): STATUS_QUERY and STATS_READ. -/

namespace Sys2Proof.Machine

/-- A page record of STATUS_QUERY; a QUEUED page's origin is sent as 0 (R171). -/
def pageRecord (p : Page) : List Byte :=
  leBytes 2 p.id ++ leBytes 1 p.pstate.code ++ leBytes 8 (p.origin.getD 0)

/-- A head record of STATUS_QUERY (R171). -/
def headRecord (s : State) (h : Nat) : List Byte :=
  let k := (look s.health h none).getD ⟨.active, 0, 0⟩
  leBytes 1 h ++ leBytes 1 k.state.code ++ leBytes 2 k.counter

/-- A plane record of STATUS_QUERY (R171). -/
def planeRecord (s : State) (t : Nat × PlaneCfg) : List Byte :=
  leBytes 1 t.1 ++ leBytes 2 (occupancy s t.1) ++ leBytes 2 t.2.capacity

/-- The body of STATUS_QUERY's reply (R171). -/
def statusBody (s : State) : List Byte :=
  leBytes 1 s.engine.code ++ leBytes 1 s.lock.code ++ leBytes 1 s.pages.length
    ++ leBytes 1 (configuredHeads s).length ++ leBytes 1 (configuredPlanes s).length
    ++ leBytes 8 s.pInt ++ leBytes 8 s.hInt
    ++ s.pages.flatMap pageRecord
    ++ (configuredHeads s).flatMap (fun t => headRecord s t.1)
    ++ (configuredPlanes s).flatMap (planeRecord s)

/-- STATUS_QUERY changes no state (R171). -/
def statusQuery (f : HostFrame) (s : State) : State := answer f .ok (statusBody s) s

/-- STATUS_QUERY (R171). -/
def execStatusQuery (s : State) : Out := .next (handleRequest .statusQuery statusQuery s)

/-- Group code and index as sent (R170, R174). -/
def Group.bytes : Group → List Byte
  | .link => leBytes 1 0 ++ leBytes 1 0
  | .motion => leBytes 1 1 ++ leBytes 1 0
  | .plane p => leBytes 1 2 ++ leBytes 1 p
  | .head h => leBytes 1 3 ++ leBytes 1 h

/-- The counters of a group in the order of R173. -/
def groupValues (s : State) : Group → List Nat
  | .link => s.linkCtrs.toList
  | .motion => s.motionCtrs.toList
  | .plane p => (planeGroup s p).toList
  | .head h => (headGroup s h).toList

/-- Every counter of a group becomes 0 (R174). -/
def clearGroup (g : Group) (s : State) : State :=
  match g with
  | .link => { s with linkCtrs := Vector.replicate 5 0 }
  | .motion => { s with motionCtrs := Vector.replicate 8 0 }
  | .plane p => { s with planeCtrs := put s.planeCtrs p (Vector.replicate 7 0) }
  | .head h => { s with headCtrs := put s.headCtrs h (Vector.replicate 11 0) }

/-- STATS_READ: the group's values, then the clear if asked for, in one act (R174). -/
def statsRead (f : HostFrame) (s : State) : State :=
  match parseStats f.body with
  | none => answer f .badArgument [] s
  | some (g, clear) =>
    let vs := groupValues s g
    let body := g.bytes ++ leBytes 1 vs.length ++ vs.flatMap (leBytes 4)
    answer f .ok body (if clear then clearGroup g s else s)

/-- STATS_READ (R174). -/
def execStatsRead (s : State) : Out := .next (handleRequest .statsRead statsRead s)

end Sys2Proof.Machine
end

