-- ==== Sys2Proof/Machine/Store.lean ====
section
/-! DEFINITION. The line store (chapter 4): the checks of a BAND, consumer counts, the storing and its end. -/

namespace Sys2Proof.Machine

/-- The rows of a page's heads on plane `p` that have not passed line `n` (R59). -/
def pageConsumers (s : State) (g : Page) (p n : Nat) : Nat :=
  ((List.range 24).map fun h =>
    if headPlane s h = some p then (look g.passed h []).countP fun k => k ≤ n else 0).sum

/-- The consumer count of a line not yet stored; 0 for a page that has left the queue (R59). -/
def consumerCount (s : State) (page p n : Nat) : Nat :=
  match pageById s page with
  | some g => pageConsumers s g p n
  | none => 0

/-- A plane of a page is fully received (R54). -/
def Page.fullyReceived (p : Nat) (g : Page) : Bool := look g.arrival p 0 = g.length

/-- The first page ahead of page `id` in the queue that holds plane `p` and is not fully received for it
(R56). -/
def blockingPage (id p : Nat) : List Page → Option Page
  | [] => none
  | g :: gs =>
    if g.id = id then none
    else if g.holdsPlane p && !g.fullyReceived p then some g
    else blockingPage id p gs

/-- The lines of a BAND that some row can still use: the slots it needs (R58). -/
def slotsNeeded (s : State) (b : BandHead) : Nat :=
  (List.range b.count).countP fun i => 0 < consumerCount s b.page b.plane (b.first + i)

/-- The width of a plane; 0 if it is not configured. -/
def planeWidth (s : State) (p : Nat) : Nat := ((look s.planes p none).map PlaneCfg.width).getD 0

/-- What the Line Store makes of a BAND by its five checks in order (R55). -/
inductive BandVerdict where
  | noSuchPage
  | badArgument
  | order (pointer : Nat) (blocking : Option Nat)
  | noSpace (free needed : Nat)
  | accepted (needed : Nat)
deriving DecidableEq, Repr

/-- The five checks of R55 to R58, in order. A page whose id has been reused and that does not hold the plane fails check
2, BAD_ARGUMENT, as the table of R55 has it, although the text after the table can be read as giving it the result of
check 1 (DESIGN CHOICE, unsafe, log 34). When check 3 fails on both its conditions, the first line not the arrival
pointer and a page ahead not fully received, R56 does not say whether the failure "lies with a page ahead"; it is
taken to, and the reply carries that page's id (DESIGN CHOICE, unsafe, log 31). -/
def checkBand (s : State) (b : BandHead) (bodyLength : Nat) : BandVerdict :=
  match pageById s b.page with
  | none => .noSuchPage
  | some g =>
    if (b.plane ≤ 7 && g.holdsPlane b.plane) = false then .badArgument
    else
      let ptr := look g.arrival b.plane 0
      let block := (blockingPage b.page b.plane s.pages).map Page.id
      if b.first ≠ ptr ∨ block.isSome then .order ptr block
      else if 1 ≤ b.count ∧ b.count ≤ 64 ∧ b.first + b.count ≤ g.length
          ∧ bodyLength = 8 + b.count * lineBytes (planeWidth s b.plane) then
        let needed := slotsNeeded s b
        if needed ≤ freeSlots s b.plane then .accepted needed
        else .noSpace (freeSlots s b.plane) needed
      else .badArgument

/-- A BAND taken by the handler in RUN: refused whole, or its storing begins with its slots reserved and the
handler busy (R55 to R60). -/
def band (f : HostFrame) (s : State) : State :=
  let b := bandHead f.body
  match checkBand s b f.body.length with
  | .noSuchPage => answer f .noSuchPage [] s
  | .badArgument => answer f .badArgument [] s
  | .order ptr block =>
    answer f .order (leBytes 4 ptr ++ leBytes 1 (if block.isSome then 1 else 0)
      ++ leBytes 2 (block.getD 0)) s
  | .noSpace free needed =>
    answer f .noSpace (leBytes 2 free ++ leBytes 1 needed) (bumpPlane b.plane .noSpace 1 s)
  | .accepted needed =>
    let lines := (List.range b.count).map (bandLine f.body (planeWidth s b.plane))
    { s with handler := .storing ⟨f.tag, b.page, b.plane, b.first, lines, needed⟩ }

/-- BAND (R55 to R58). -/
def execBand (s : State) : Out := .next (handleRequest .band band s)

/-! ### The end of a storing (R60) -/

/-- The lines of a storing that still have a consumer, as they join the list (R60). -/
def joiningLines (s : State) (op : Storing) : List StoredLine :=
  (op.lines.zipIdx.map fun t =>
    (⟨op.page, op.first + t.2, t.1, consumerCount s op.page op.plane (op.first + t.2), none⟩ : StoredLine)).filter
      fun l => 0 < l.consumers

/-- The arrival pointer of the BAND's plane and page advances, if it still exists (R60). -/
def advancePointer (op : Storing) (s : State) : State :=
  match pageById s op.page with
  | some g =>
    setPage { g with arrival := put g.arrival op.plane (look g.arrival op.plane 0 + op.lines.length) } s
  | none => s

/-- Peak occupancy becomes the present occupancy if that is greater (R68). -/
def updatePeak (p : Nat) (s : State) : State :=
  setPlaneCtr p .peakOccupancy (max (look (planeGroup s p) PlaneCtr.peakOccupancy.pos 0)
    (min (occupancy s p) Config.counterMax)) s

/-- The lines join at the tail, late ones are discarded, the pointer and the counters move (R60, R68). -/
def joinLines (op : Storing) (joined : List StoredLine) (s : State) : State :=
  let s1 := setLines op.plane (linesOf s op.plane ++ joined) s
  let s2 := bumpPlane op.plane .discardedLate (op.lines.length - joined.length)
    (bumpPlane op.plane .linesStored joined.length s1)
  updatePeak op.plane (advancePointer op s2)

/-- The frame of a BAND as its reply needs it. -/
def Storing.frame (op : Storing) : HostFrame := ⟨.data, 0x80#8, op.tag, []⟩

/-- The storing ends, in one act: join or discard, reserved slots returned, reply, compositions, and what the
rows and loaders make of the new lines (R60, R84, R108); any event of the act precedes the reply (R162). The
handler, free again, takes its next frame (R157). -/
def storingEnd (s : State) : State :=
  match s.handler with
  | .storing op =>
    let joined := joiningLines s op
    takeNext (answer op.frame .ok (leBytes 1 joined.length ++ leBytes 1 (op.lines.length - joined.length))
      (settle (joinLines op joined { s with handler := .free })))
  | _ => s

/-- STORING_END (R60). With no storing in progress it is no event of the part. -/
def execStoringEnd (s : State) : Out := .next (storingEnd s)

end Sys2Proof.Machine
end

