-- ==== Sys2Proof/Machine/Waves.lean ====
section
/-! DEFINITION. Drop waveforms (chapter 8): WAVE_ERASE, WAVE_LOAD, WAVE_SELECT. -/

namespace Sys2Proof.Machine

/-- The reply to a WAVE request, with the bank summary as it stands afterwards (R125). -/
def answerBanks (f : HostFrame) (status : Status) (s : State) : State :=
  answer f status (bankSummary s) s

/-- WAVE_ERASE, its checks in order (R126). -/
def waveErase (f : HostFrame) (s : State) : State :=
  match parseErase f.body with
  | none => answerBanks f .badArgument s
  | some (b, settleTime) =>
    if isProtectedBank s b then answerBanks f .isProtected s
    else answerBanks f .ok { s with banks := put s.banks b ⟨settleTime, Vector.replicate 3 none⟩ }

/-- WAVE_LOAD, its checks in order (R127). -/
def waveLoad (f : HostFrame) (s : State) : State :=
  match parseLoad f.body with
  | none => answerBanks f .badArgument s
  | some (b, level, l) =>
    let bank := bankAt s b
    if isProtectedBank s b then answerBanks f .isProtected s
    else if (look bank.recs (level - 1) none).isSome then answerBanks f .notErased s
    else
      let written : Bank := { bank with recs := put bank.recs (level - 1) (some l) }
      answerBanks f .ok { s with banks := put s.banks b written }

/-- WAVE_SELECT, its checks in order (R129). -/
def waveSelect (f : HostFrame) (s : State) : State :=
  match parseSelect f.body with
  | none => answerBanks f .badArgument s
  | some b =>
    if (bankAt s b).complete = false then answerBanks f .incomplete s
    else if s.engine = .run ∧ anyBound s then answerBanks f .busy s
    else answerBanks f .ok { s with activeBank := b }

/-- WAVE_ERASE (R126). -/
def execWaveErase (s : State) : Out := .next (handleRequest .waveErase waveErase s)

/-- WAVE_LOAD (R127). -/
def execWaveLoad (s : State) : Out := .next (handleRequest .waveLoad waveLoad s)

/-- WAVE_SELECT (R129). -/
def execWaveSelect (s : State) : Out := .next (handleRequest .waveSelect waveSelect s)

end Sys2Proof.Machine
end

