-- ==== Sys2Proof/Machine/Dispatch.lean ====
section
/-! DEFINITION. One arm for each command. -/

namespace Sys2Proof.Machine

/-- The meaning of a command. -/
def exec (i : Instr) (s : State) : Host.Outcome State Fault Refusal :=
  match i with
  | .powerOn => Sys2Proof.Machine.execPowerOn s
  | .softReset => Sys2Proof.Machine.execSoftReset s
  | .hostFrameArrival bytes => Sys2Proof.Machine.execHostFrameArrival bytes s
  | .frameSent => Sys2Proof.Machine.execFrameSent s
  | .identify => Sys2Proof.Machine.execIdentify s
  | .statusQuery => Sys2Proof.Machine.execStatusQuery s
  | .statsRead => Sys2Proof.Machine.execStatsRead s
  | .reset => Sys2Proof.Machine.execReset s
  | .setPlaneSet => Sys2Proof.Machine.execSetPlaneSet s
  | .setPlaneRemove => Sys2Proof.Machine.execSetPlaneRemove s
  | .setHeadSet => Sys2Proof.Machine.execSetHeadSet s
  | .setHeadRemove => Sys2Proof.Machine.execSetHeadRemove s
  | .setLane => Sys2Proof.Machine.execSetLane s
  | .setMotion => Sys2Proof.Machine.execSetMotion s
  | .setCue => Sys2Proof.Machine.execSetCue s
  | .engineStart => Sys2Proof.Machine.execEngineStart s
  | .engineStop => Sys2Proof.Machine.execEngineStop s
  | .engineHalt => Sys2Proof.Machine.execEngineHalt s
  | .pageOpen => Sys2Proof.Machine.execPageOpen s
  | .pageCancel => Sys2Proof.Machine.execPageCancel s
  | .nozzleMark => Sys2Proof.Machine.execNozzleMark s
  | .nozzleClear => Sys2Proof.Machine.execNozzleClear s
  | .waveErase => Sys2Proof.Machine.execWaveErase s
  | .waveLoad => Sys2Proof.Machine.execWaveLoad s
  | .waveSelect => Sys2Proof.Machine.execWaveSelect s
  | .headRestore => Sys2Proof.Machine.execHeadRestore s
  | .band => Sys2Proof.Machine.execBand s
  | .storingEnd => Sys2Proof.Machine.execStoringEnd s
  | .encoderChange a b => Sys2Proof.Machine.execEncoderChange a b s
  | .paceExpiry => Sys2Proof.Machine.execPaceExpiry s
  | .cueEdge => Sys2Proof.Machine.execCueEdge s
  | .sendingEnd head => Sys2Proof.Machine.execSendingEnd head s
  | .headAnswer lane bits => Sys2Proof.Machine.execHeadAnswer lane bits s
  | .ackTimeout head => Sys2Proof.Machine.execAckTimeout head s
  | .windowEnd head row => Sys2Proof.Machine.execWindowEnd head row s
  | .unknownCode => Sys2Proof.Machine.execUnknownCode s

end Sys2Proof.Machine
end

