-- ==== Sys2Proof/Safety.lean ====
section
/-! DEFINITION. What claims are stated in: the handler taking and leaving a frame, a state after a reply, what one command may leave alone, and the invariants of the part. -/

namespace Sys2Proof.Machine

/-! ### The request handler -/

/-- The handler done with a frame: it takes the oldest waiting control frame, with none waiting the oldest waiting
data frame, and with nothing waiting it is free (R157). -/
def movedOn (s : State) : State :=
  match s.ctlWaiting, s.dataWaiting with
  | f :: rest, _ => { s with handler := .taken f, ctlWaiting := rest }
  | [], f :: rest => { s with handler := .taken f, dataWaiting := rest }
  | [], [] => { s with handler := .free }

/-- The handler has taken a control frame; `s1` is the state when it is done with it and has moved on (R157). -/
def TakesControl (s : State) (code : Byte) (tag : BitVec 16) (body : List Byte) (s1 : State) : Prop :=
  s.handler = .taken ⟨.control, code, tag, body⟩ ∧ s1 = movedOn s

/-- The handler has taken a data frame; `s1` is the state when it is done with it and has moved on (R157). -/
def TakesData (s : State) (code : Byte) (tag : BitVec 16) (body : List Byte) (s1 : State) : Prop :=
  s.handler = .taken ⟨.data, code, tag, body⟩ ∧ s1 = movedOn s

/-- The reply to a held frame joins the tail of the outgoing order, the frame keeping its slot (R160, R162), and
nothing else changes. -/
def replied (kind : FrameKind) (code : Byte) (tag : BitVec 16) (status : Status) (body : List Byte)
    (s : State) : State :=
  { s with outgoing := s.outgoing ++ [.reply ⟨status, code, tag, some kind, body⟩] }

/-- An event that finds room in the event queue: it joins with the next number and the lost count (R163). -/
def joined (e : Event) (s : State) : State :=
  { s with outgoing := s.outgoing ++ [.event s.eventSeq s.lostCount e]
           eventSeq := s.eventSeq + 1
           lostCount := 0 }

/-- An event offered to the event queue: with fewer than 64 events there it joins; at 64 it is dropped, taking no number,
and the lost count and the events-lost counter rise by 1, saturating (R163). -/
def offered (e : Event) (s : State) : State :=
  if s.eventCount < 64 then joined e s
  else { s with lostCount := min (s.lostCount + 1) 4294967295
                linkCtrs := put s.linkCtrs 4 (min (look s.linkCtrs 4 0 + 1) 4294967295) }

/-- The event queue of `t` has gone the way of that of `u`: the numbering, the lost count and the LINK counters. -/
def SameEvents (u t : State) : Prop :=
  t.eventSeq = u.eventSeq ∧ t.lostCount = u.lostCount ∧ t.linkCtrs = u.linkCtrs

/-- The command of the table that a request row is. -/
def Req.instr : Req → Instr
  | .identify => .identify | .statusQuery => .statusQuery | .statsRead => .statsRead | .reset => .reset
  | .setPlaneSet => .setPlaneSet | .setPlaneRemove => .setPlaneRemove | .setHeadSet => .setHeadSet
  | .setHeadRemove => .setHeadRemove | .setLane => .setLane | .setMotion => .setMotion | .setCue => .setCue
  | .engineStart => .engineStart | .engineStop => .engineStop | .engineHalt => .engineHalt
  | .pageOpen => .pageOpen | .pageCancel => .pageCancel | .nozzleMark => .nozzleMark
  | .nozzleClear => .nozzleClear | .waveErase => .waveErase | .waveLoad => .waveLoad
  | .waveSelect => .waveSelect | .headRestore => .headRestore | .band => .band
  | .unknownCode => .unknownCode

/-- The free value `cueWith` has the next cue edge come together with `together`; `s1` is the state with that used up
(R28, log 33). -/
def CueComes (together : CueWith) (s s1 : State) : Prop :=
  s.cueWith.headD .nothing = together ∧ s1 = { s with cueWith := s.cueWith.tail }

/-! ### What a command leaves alone -/

/-- What retirements, compositions, loads and bindings leave alone: everything but the outgoing order with its
numbering, the event-loss counters, pages, tail end, line lists, rows, loaders, the plane and head counters, and
the free order `sched`. -/
structure RowFrame (s t : State) : Prop where
  rx : t.rx = s.rx
  ctlWaiting : t.ctlWaiting = s.ctlWaiting
  dataWaiting : t.dataWaiting = s.dataWaiting
  handler : t.handler = s.handler
  sending : t.sending = s.sending
  resetSent : t.resetSent = s.resetSent
  engine : t.engine = s.engine
  motionCfg : t.motionCfg = s.motionCfg
  pRaw : t.pRaw = s.pRaw
  hRaw : t.hRaw = s.hRaw
  decRef : t.decRef = s.decRef
  encPins : t.encPins = s.encPins
  pace : t.pace = s.pace
  revCond : t.revCond = s.revCond
  cueCfg : t.cueCfg = s.cueCfg
  lock : t.lock = s.lock
  smoothed : t.smoothed = s.smoothed
  predicted : t.predicted = s.predicted
  flywheel : t.flywheel = s.flywheel
  lastAccepted : t.lastAccepted = s.lastAccepted
  regions : t.regions = s.regions
  planes : t.planes = s.planes
  heads : t.heads = s.heads
  decode : t.decode = s.decode
  nozzles : t.nozzles = s.nozzles
  lanes : t.lanes = s.lanes
  links : t.links = s.links
  health : t.health = s.health
  banks : t.banks = s.banks
  activeBank : t.activeBank = s.activeBank
  motionCtrs : t.motionCtrs = s.motionCtrs
  cueWith : t.cueWith = s.cueWith
  pending : t.pending = s.pending

/-- Nothing joins the outgoing order but events, and no more of them than the event queue holds (R162, R163). -/
def EventsOnly (s t : State) : Prop :=
  (∃ evs, t.outgoing = s.outgoing ++ evs ∧ ∀ o ∈ evs, o.isEvent = true)
    ∧ (s.eventCount ≤ Config.eventSlots → t.eventCount ≤ Config.eventSlots)

/-- What no event of the part changes but requests, resets, the link itself and the ends of LOADs and probe runs:
`RowFrame` without the position, the tracker and the MOTION counters. -/
structure CoreFrame (s t : State) : Prop where
  rx : t.rx = s.rx
  ctlWaiting : t.ctlWaiting = s.ctlWaiting
  dataWaiting : t.dataWaiting = s.dataWaiting
  handler : t.handler = s.handler
  sending : t.sending = s.sending
  resetSent : t.resetSent = s.resetSent
  engine : t.engine = s.engine
  motionCfg : t.motionCfg = s.motionCfg
  cueCfg : t.cueCfg = s.cueCfg
  regions : t.regions = s.regions
  planes : t.planes = s.planes
  heads : t.heads = s.heads
  decode : t.decode = s.decode
  nozzles : t.nozzles = s.nozzles
  lanes : t.lanes = s.lanes
  links : t.links = s.links
  health : t.health = s.health
  banks : t.banks = s.banks
  activeBank : t.activeBank = s.activeBank
  cueWith : t.cueWith = s.cueWith
  pending : t.pending = s.pending

/-- What a cue, an offer and an arrival of H_int leave alone: `CoreFrame`, the position and the decoder. -/
structure TrackerFrame (s t : State) : Prop where
  core : CoreFrame s t
  pRaw : t.pRaw = s.pRaw
  hRaw : t.hRaw = s.hRaw
  decRef : t.decRef = s.decRef
  encPins : t.encPins = s.encPins
  pace : t.pace = s.pace
  revCond : t.revCond = s.revCond

/-! ### The entries of a row -/

/-- The unretired entries of a row: over the pages in queue order that have entries for it, the lines from its next-line
index on, rising (R80, R101). -/
def rowEntries (s : State) (h r : Nat) : List Entry :=
  s.pages.flatMap fun p =>
    match p.nextLine h r with
    | some n => (List.range (p.length - n)).map fun i => ⟨p.id, n + i⟩
    | none => []

/-! ### FOLLOW pages bound one behind the other -/

/-- The pages that bind one behind the other with their origins, the first behind the tail end `te`: each at the end of
the one before plus the greater of its gap and Gmin (R42, R44). -/
def followBindings (minGap : Nat) : Nat → List Page → List (Page × Nat)
  | _, [] => []
  | te, f :: fs =>
    (f, te + max f.gap minGap) :: followBindings minGap (te + max f.gap minGap + 32 * f.length) fs

/-- The tail end after them. -/
def lastEnd (te : Nat) (bound : List (Page × Nat)) : Nat :=
  (bound.map fun b => b.2 + 32 * b.1.length).getLastD te

/-- Every page of the list is in the queue, BOUND at its origin. -/
def areBound (bound : List (Page × Nat)) (t : State) : Prop :=
  ∀ b ∈ bound, ∃ q ∈ t.pages, q.id = b.1.id ∧ q.origin = some b.2 ∧ q.pstate = .bound ∧ q.length = b.1.length

/-! ### Bits of a frame -/

/-- The number that bits spell, most significant first (R137). -/
def bitsNat (bits : List Bool) : Nat := bits.foldl (fun n b => 2 * n + b.toNat) 0

/-! ### Answers of a head -/

/-- An answer that ends a WAITING transfer of a sequence and a kind as failed: its check is bad or its code is neither
ACK nor NAK, or, with the sequence the transfer's, its kind is not the transfer's or it is a NAK (R140). -/
def answerFails (seq kind : BitVec 8) (bits : BitVec 32) : Prop :=
  let code := bits.extractLsb' 24 8
  let formed := laneCrc8 (msbBits 24 (bits.extractLsb' 8 24).toNat) = bits.extractLsb' 0 8
    ∧ (code = 0xA5#8 ∨ code = 0x5A#8)
  ¬ formed ∨ (bits.extractLsb' 16 8 = seq ∧ (bits.extractLsb' 8 8 ≠ kind ∨ code = 0x5A#8))

/-! ### The request catalogue -/

/-- The body length that R166 gives a request whose body holds no list, by its code. -/
def requestLength : Nat → Option Nat
  | 0x01 | 0x02 | 0x04 | 0x20 | 0x21 | 0x22 => some 0
  | 0x03 | 0x12 | 0x50 => some 3
  | 0x10 => some 6
  | 0x13 => some 14
  | 0x14 => some 22
  | 0x30 => some 12
  | 0x31 => some 2
  | 0x41 | 0x52 | 0x60 => some 1
  | 0x51 => some 5
  | _ => none

/-- The codes of the control requests refused with WRONG_STATE in an engine state (R33). -/
def refusedCodes : EngineState → List Nat
  | .run => [0x10, 0x11, 0x12, 0x13, 0x14, 0x20]
  | .setup => [0x21, 0x22, 0x30, 0x31, 0x60]

/-- The codes of the catalogue's control requests (R158). -/
def controlCodes : List Nat :=
  [0x01, 0x02, 0x03, 0x04, 0x10, 0x11, 0x12, 0x13, 0x14, 0x20, 0x21, 0x22, 0x30, 0x31, 0x40, 0x41, 0x50,
   0x51, 0x52, 0x60]

/-! ### Invariants -/

/-- The receive buffer, the refusals at arrival and the event queue hold no more than their room, and each arrival
queue holds frames of its kind (R154, R155, R163). -/
def slotsInv (s : State) : Prop :=
  s.dataHeld ≤ 28 ∧ s.controlHeld ≤ 4 ∧ s.refusalsWaiting ≤ 8 ∧ s.eventCount ≤ 64
    ∧ (∀ f ∈ s.ctlWaiting, f.kind = .control) ∧ (∀ f ∈ s.dataWaiting, f.kind = .data)

/-- The handler is never free while a frame waits: it takes one at the moment it becomes free or a frame is accepted
(R157). -/
def handlerInv (s : State) : Prop := s.handler = .free → s.ctlWaiting = [] ∧ s.dataWaiting = []

/-- P lies at or behind H, and H within its range (R1, R8, R10). -/
def positionInv (s : State) : Prop := s.pRaw ≤ s.hRaw ∧ s.hRaw ≤ 1152921504606846975

/-- A head's health state follows from its counter while it is in service, and the counter is 256 exactly when it
is OFFLINE or PROBING (R143). -/
def healthInv (s : State) : Prop :=
  ∀ h k, look s.health h none = some k →
    k.counter ≤ 256 ∧ k.probes ≤ 16
    ∧ (k.state = .active ↔ k.counter ≤ 95)
    ∧ (k.state = .warned ↔ 96 ≤ k.counter ∧ k.counter ≤ 127)
    ∧ (k.state = .degraded ↔ 128 ≤ k.counter ∧ k.counter ≤ 255)
    ∧ (k.state = .offline ∨ k.state = .probing ↔ k.counter = 256)

/-- In RUN the three level records of the active bank are WRITTEN (R128). -/
def runBankInv (s : State) : Prop :=
  s.engine = .run → ∀ i, i < 3 → (look (bankAt s s.activeBank).recs i none).isSome = true

/-- In RUN a LOCKED tracker's flywheel point lies ahead of H_int: every miss already reached has been covered or
has ended the lock (R26, R27). -/
def flywheelInv (s : State) : Prop :=
  s.engine = .run → s.lock = .locked → s.hInt < s.predicted + s.cueCfg.window + 1

/-- No counter and no lost count is above its saturation value (R163, R173). -/
def countersInv (s : State) : Prop :=
  (∀ c ∈ s.linkCtrs.toList, c ≤ 4294967295) ∧ (∀ c ∈ s.motionCtrs.toList, c ≤ 4294967295)
    ∧ (∀ g ∈ s.planeCtrs.toList, ∀ c ∈ g.toList, c ≤ 4294967295)
    ∧ (∀ g ∈ s.headCtrs.toList, ∀ c ∈ g.toList, c ≤ 4294967295) ∧ s.lostCount ≤ 4294967295

/-- The canonical form of the nozzle map: nozzle numbers of the map's range strictly rising, no entry GOOD (R97). -/
def nozzlesWf (s : State) : Prop :=
  ∀ m ∈ s.nozzles.toList, m.Pairwise (fun a b => a.1 < b.1)
    ∧ ∀ e ∈ m, e.1 < 2048 ∧ e.2 ≠ .good

/-- The page queue: at most 4 records with ids that differ; a page has an origin exactly when it is not QUEUED;
every page ahead of a QUEUED one's front is BOUND or FIRING; no FOLLOW page stands as the front page (R39, R41,
R43). -/
def queueInv (s : State) : Prop :=
  s.pages.length ≤ 4 ∧ (s.pages.map Page.id).Nodup
    ∧ (∀ p ∈ s.pages, p.origin = none ↔ p.pstate = .queued)
    ∧ s.pages.Pairwise (fun a b => a.pstate = .queued → b.pstate = .queued)
    ∧ ∀ p, s.pages.find? (fun q => q.pstate = .queued) = some p → p.mode = .onCue

/-- The sum of a page's counts of entries: every kind but WITHDRAWN, which counts lines (R47). -/
def Page.entryCounts (p : Page) : Nat := p.counts.toList.sum - look p.counts 6 0

/-- The entries of a page that its rows have still to retire: for each row, its lines from its next-line index on. -/
def Page.entriesLeft (p : Page) : Nat :=
  (p.passed.toList.flatten.map fun n => p.length - n).sum

/-- Every entry of every page is accounted for (R176 with the unretired count, R39): no row is past the page's
length; the unretired count is what the rows have still to retire; the counts of entries, that count, and T for
every withdrawn line make up the opened length times T; and an entry in a load buffer is its row's earliest
unretired entry of a page that is bound (R101). -/
def entriesInv (s : State) : Prop :=
  (∀ p ∈ s.pages, (∀ n ∈ p.passed.toList.flatten, n ≤ p.length) ∧ p.unretired = p.entriesLeft
    ∧ p.entryCounts + p.unretired + look p.counts 6 0 * p.rowCount
        = (p.length + look p.counts 6 0) * p.rowCount)
  ∧ ∀ h r row e, rowAt s h r = some row → row.buf.held = some e →
      ∃ p, pageById s e.page = some p ∧ p.pstate ≠ .queued ∧ p.nextLine h r = some e.line
        ∧ e.line < p.length

end Sys2Proof.Machine
end

