-- ==== Sys2Proof/Certificates/Slice0/Obligations.lean ====
section
/-! DEFINITION. The statements about the part that are to be proved. -/

open Sys2Proof Sys2Proof.Machine

/-! ## The queue of commands and the reset occasions -/

/-- Step runs the command at the front of the queue on the state with the queue's rest, and idles on an empty queue;
no command changes the queue of the commands behind it (the model's own frame: log 2). -/
def Obligations.StepRunsTheFrontCommand : Prop :=
  (∀ (c : Instr) (rest : List Instr) (s : State), s.pending = c :: rest →
    Machine.step s = exec c { s with pending := rest }) ∧
  (∀ s : State, s.pending = [] → Machine.step s = .next s) ∧
  (∀ (c : Instr) (s t : State), exec c s = .next t → t.pending = s.pending)

/-- POWER_ON gives every block its power-on values, whatever the state before; the decoder reference takes the
encoder pair present (R3, R17, R19, R32, R41, R53, R69, R71, R97, R123, R134, R173). The inputs' present pair and
the model's own fields stay, being no state of the part (log 13, log 18). -/
def Obligations.PowerOnSetsEveryBlock : Prop :=
  ∀ s : State, ∃ t, exec .powerOn s = .next t
    ∧ t.encPins = s.encPins ∧ t.sched = s.sched ∧ t.cueWith = s.cueWith ∧ t.pending = s.pending
    ∧ t.engine = .setup ∧ t.rx = .hunting false false ∧ t.ctlWaiting = [] ∧ t.dataWaiting = []
    ∧ t.handler = .free ∧ t.outgoing = [] ∧ t.sending = none ∧ t.eventSeq = 0 ∧ t.lostCount = 0
    ∧ t.credits = 28 ∧ t.controlFree = 4
    ∧ t.motionCfg = ⟨.external, false, 1, 0, 100, 16, 4096⟩ ∧ t.pRaw = 0 ∧ t.hRaw = 0
    ∧ t.decRef = s.encPins ∧ t.pace = .stopped ∧ t.revCond = .armed
    ∧ t.cueCfg = ⟨0, 0, 0, 0, 0, 0⟩ ∧ t.lock = .unlocked ∧ t.smoothed = 0 ∧ t.predicted = 0
    ∧ t.flywheel = 0 ∧ t.lastAccepted = none
    ∧ t.pages = [] ∧ t.tailEnd = none
    ∧ (∀ p, p < 8 → linesOf t p = [] ∧ look t.regions p none = none ∧ look t.planes p none = none
        ∧ ∀ i, i < 7 → look (planeGroup t p) i 0 = 0)
    ∧ (∀ h, h < 24 → look t.heads h none = none ∧ look t.health h none = none
        ∧ look t.loaders h none = none ∧ rowsOf t h = [] ∧ (∀ i, i < 2048 → nozzleStatus t h i = .good)
        ∧ ∀ i, i < 11 → look (headGroup t h) i 0 = 0)
    ∧ (∀ l, l < 72 → look t.lanes l ⟨.data, 99⟩ = ⟨.off, 0⟩)
    ∧ (∀ b, b < 2 → bankAt t b = ⟨0, Vector.replicate 3 none⟩) ∧ t.activeBank = 0
    ∧ (∀ i, i < 5 → look t.linkCtrs i 1 = 0) ∧ (∀ i, i < 8 → look t.motionCtrs i 1 = 0)

/-- SOFT_RESET, once the RESET's reply has been sent, sets the whole part as R169's table has it: every block as
after power-on, but for the banks, the active bank selection and the nozzle map, which are kept. -/
def Obligations.SoftResetSetsThePart : Prop :=
  ∀ s : State, s.resetSent = true → ∃ t, exec .softReset s = .next t
    ∧ t.rx = .hunting false false ∧ t.ctlWaiting = [] ∧ t.dataWaiting = [] ∧ t.credits = 28
    ∧ t.outgoing = [] ∧ t.lostCount = 0 ∧ t.eventSeq = 0 ∧ t.handler = .free
    ∧ t.engine = .setup
    ∧ t.motionCfg = ⟨.external, false, 1, 0, 100, 16, 4096⟩ ∧ t.pRaw = 0 ∧ t.hRaw = 0
    ∧ t.decRef = s.encPins ∧ t.pace = .stopped ∧ t.revCond = .armed
    ∧ t.cueCfg = ⟨0, 0, 0, 0, 0, 0⟩ ∧ t.lock = .unlocked ∧ t.smoothed = 0 ∧ t.predicted = 0
    ∧ t.flywheel = 0 ∧ t.lastAccepted = none
    ∧ t.pages = [] ∧ t.tailEnd = none
    ∧ (∀ p, p < 8 → linesOf t p = [] ∧ look t.regions p none = none ∧ look t.planes p none = none
        ∧ ∀ i, i < 7 → look (planeGroup t p) i 0 = 0)
    ∧ (∀ h, h < 24 → look t.heads h none = none ∧ look t.health h none = none
        ∧ look t.loaders h none = none ∧ rowsOf t h = []
        ∧ ∀ i, i < 11 → look (headGroup t h) i 0 = 0)
    ∧ (∀ l, l < 72 → look t.lanes l ⟨.data, 99⟩ = ⟨.off, 0⟩)
    ∧ (∀ i, i < 5 → look t.linkCtrs i 1 = 0) ∧ (∀ i, i < 8 → look t.motionCtrs i 1 = 0)
    ∧ t.nozzles = s.nozzles ∧ t.banks = s.banks ∧ t.activeBank = s.activeBank

/-! ## The host link -/

/-- Decode and encode agree on the host link: the bytes of any request of a length that R152 allows, arriving where
a frame is expected or at the start of a hunt, give the acceptance that very request, with every bit of its
code, tag and body, and no other effect. -/
def Obligations.RequestFrameRoundTrip : Prop :=
  ∀ (f : HostFrame) (s : State), f.body.length ≤ 65536 →
    (s.rx = .expecting ∨ s.rx = .hunting false false) →
    exec (.hostFrameArrival f.wire) s = .next (acceptFrame f { s with rx := .expecting })

/-- A good request is accepted into a slot of its kind, and taken at once by a handler that is free; or it is refused at
arrival, or, when a ninth refusal would be needed, discarded as a bad frame (R155, R157, with the counts of R153).
What waits unsent is read as log 6 has it. -/
def Obligations.GoodRequestAcceptedOrRefused : Prop :=
  ∀ (code : Byte) (tag : BitVec 16) (body : List Byte) (s : State), body.length ≤ 65536 → s.rx = .expecting →
    let taken := fun t : State => if s.handler = .free then movedOn t else t
    (exec (.hostFrameArrival (HostFrame.wire ⟨.control, code, tag, body⟩)) s = .next
      (if s.controlHeld < 4 then
        bumpLink .goodFrames 1 (taken { s with ctlWaiting := s.ctlWaiting ++ [⟨.control, code, tag, body⟩] })
      else if s.refusalsWaiting < 8 then
        bumpLink .busyRefusals 1 (bumpLink .goodFrames 1
          { s with outgoing := s.outgoing ++ [.reply ⟨.busy, code, tag, none, []⟩] })
      else bumpLink .badFrames 1 s)) ∧
    (exec (.hostFrameArrival (HostFrame.wire ⟨.data, code, tag, body⟩)) s = .next
      (if s.dataHeld < 28 then
        bumpLink .goodFrames 1 (taken { s with dataWaiting := s.dataWaiting ++ [⟨.data, code, tag, body⟩] })
      else if s.refusalsWaiting < 8 then
        bumpLink .noCreditRefusals 1 (bumpLink .goodFrames 1
          { s with outgoing := s.outgoing ++ [.reply ⟨.noCredit, code, tag, none, []⟩] })
      else bumpLink .badFrames 1 s))

/-- A frame with a wrong check or of a kind the host does not send is one bad frame and nothing more, and the next frame is expected; a length above 65,536 is one bad frame and a hunt; a run of bytes skipped while hunting, up to the
first sync pair, is one bad frame, counted when the pair ends it, and a pair without such a run is none. Where a frame is
expected, a byte that is not the first sync byte, or behind it one that is not the second, begins a hunt from that byte
(R153; the moment of the count, so that a run still open counts nothing, is log 5's). -/
def Obligations.BadFramesAreCountedAndDropped : Prop :=
  (∀ (kind code : Nat) (tag : BitVec 16) (body check : List Byte) (s : State), kind < 256 → code < 256 →
    body.length ≤ 65536 → check.length = 4 → s.rx = .expecting →
    let covered := leBytes 1 kind ++ leBytes 1 code ++ leBytes 2 tag.toNat ++ leBytes 4 body.length ++ body
    (leNat check ≠ (hostCrc covered).toNat ∨ (kind ≠ 1 ∧ kind ≠ 2)) →
    exec (.hostFrameArrival ([0xD4#8, 0x2B#8] ++ covered ++ check)) s = .next (bumpLink .badFrames 1 s)) ∧
  (∀ (kind code : Nat) (tag : BitVec 16) (len : Nat) (s : State), 65536 < len → len < 4294967296 →
    s.rx = .expecting →
    exec (.hostFrameArrival ([0xD4#8, 0x2B#8] ++ leBytes 1 kind ++ leBytes 1 code ++ leBytes 2 tag.toNat
      ++ leBytes 4 len)) s = .next (bumpLink .badFrames 1 { s with rx := .hunting false false })) ∧
  (∀ (skipped : List Byte) (s : State), ¬ [0xD4#8, 0x2B#8] <:+: skipped → s.rx = .hunting false false →
    exec (.hostFrameArrival (skipped ++ [0xD4#8, 0x2B#8])) s
      = .next (if skipped = [] then { s with rx := .header [] }
          else bumpLink .badFrames 1 { s with rx := .header [] }) ∧
    ∃ rx, exec (.hostFrameArrival skipped) s = .next { s with rx := rx }) ∧
  (∀ (b : Byte) (bytes : List Byte) (s : State), s.rx = .expecting →
    (b ≠ 0xD4#8 → exec (.hostFrameArrival (b :: bytes)) s
      = exec (.hostFrameArrival (b :: bytes)) { s with rx := .hunting false false }) ∧
    (b ≠ 0x2B#8 → exec (.hostFrameArrival (0xD4#8 :: b :: bytes)) s
      = exec (.hostFrameArrival (b :: bytes)) { s with rx := .hunting false false }) ∧
    exec (.hostFrameArrival (0xD4#8 :: 0x2B#8 :: bytes)) s
      = exec (.hostFrameArrival bytes) { s with rx := .header [] })

/-- FRAME_SENT: the transmit path takes the head of the outgoing order. A reply that begins to be sent frees its slot,
and its Credits and Control free are those after that freeing; with an empty order the path falls idle; after
the RESET's own reply the soft reset is due and nothing more is begun (R156, R160, R162, R168; on an idle path
log 4). The bytes of the frame being sent are those of R152 with the reply header of R159 or the event header of R164,
the status codes of R161, the event bodies of R175 and the codes of R170. -/
def Obligations.FrameSentBeginsTheNext : Prop :=
  (∀ s : State, s.resetSent = false → (∀ r c k, s.sending = some (.reply r c k) → r.isReset = false) →
    (s.outgoing = [] → exec .frameSent s = .next { s with sending := none }) ∧
    (∀ seq lost e rest, s.outgoing = .event seq lost e :: rest →
      exec .frameSent s = .next { s with outgoing := rest, sending := some (.event seq lost e) }) ∧
    (∀ r rest, s.outgoing = .reply r :: rest → s.dataHeld ≤ 28 → s.controlHeld ≤ 4 →
      ∃ credits control, exec .frameSent s
          = .next { s with outgoing := rest, sending := some (.reply r credits control) }
        ∧ credits + s.dataHeld = 28 + (if r.slot = some .data then 1 else 0)
        ∧ control + s.controlHeld = 4 + (if r.slot = some .control then 1 else 0))) ∧
  (∀ (s : State) (tag : BitVec 16) (c k : Nat),
    s.sending = some (.reply ⟨.ok, 0x04#8, tag, some .control, []⟩ c k) →
    exec .frameSent s = .next { s with sending := none, resetSent := true }) ∧
  (let byte := BitVec.ofNat 8
    let frame := fun (kind code : Nat) (tag : BitVec 16) (body : List Byte) =>
      let covered := [byte kind, byte code] ++ leBytes 2 tag.toNat ++ leBytes 4 body.length ++ body
      [0xD4#8, 0x2B#8] ++ covered ++ leBytes 4 (hostCrc covered).toNat
    ([Status.ok, .busy, .noCredit, .unknown, .wrongState, .badArgument, .geometry, .lanes, .storeSize, .incomplete,
      .queueFull, .noSuchPage, .order, .noSpace, .isProtected, .notErased, .notOffline].map Status.code = List.range 17) ∧
    (∀ (r : Reply) (credits control : Nat), SentFrame.wire (.reply r credits control) =
      frame 0x81 r.status.code r.tag
        ([r.code, if r.slot = none then 1 else 0, byte credits, byte control] ++ r.body)) ∧
    (∀ (seq : BitVec 16) (lost : Nat),
      let sent := fun (e : Event) (code : Nat) (body : List Byte) =>
        SentFrame.wire (.event seq lost e) = frame 0x82 code seq (leBytes 4 lost ++ body)
      let health := fun k : HealthState =>
        byte (match k with | .active => 0 | .warned => 1 | .degraded => 2 | .offline => 3 | .probing => 4)
      (∀ p h l, sent (.reverseLimit p h l) 0x01 (leBytes 8 p ++ leBytes 8 h ++ leBytes 4 l)) ∧
      (∀ a b, sent (.cueLocked a b) 0x02 (leBytes 8 a ++ leBytes 8 b)) ∧
      (∀ pc pr (e : Int), 0 ≤ e → e < 9223372036854775808 →
        sent (.cueRelock pc pr e) 0x03 (leBytes 8 pc ++ leBytes 8 pr ++ leBytes 8 e.toNat)) ∧
      (∀ pc pr (e : Int), e < 0 → -9223372036854775808 ≤ e →
        sent (.cueRelock pc pr e) 0x03
          (leBytes 8 pc ++ leBytes 8 pr ++ leBytes 8 (18446744073709551616 - e.natAbs))) ∧
      (∀ a b, sent (.cueLost a b) 0x04 (leBytes 8 a ++ leBytes 8 b)) ∧
      (∀ o, sent (.cueUnused o .edge) 0x05 (leBytes 8 o ++ [0])
        ∧ sent (.cueUnused o .synthesized) 0x05 (leBytes 8 o ++ [1])) ∧
      (∀ g o l, sent (.cueEarly g o l) 0x06 (leBytes 2 g ++ leBytes 8 o ++ leBytes 8 l)) ∧
      (∀ g o, sent (.pageBound g o) 0x07 (leBytes 2 g ++ leBytes 8 o)) ∧
      (∀ g h r n k p, sent (.pageStarted g h r n k p) 0x08
        (leBytes 2 g ++ [byte h, byte r] ++ leBytes 4 n ++ [byte (match k with
          | .fired => 0 | .empty => 1 | .underrun => 2 | .skipped => 3 | .linkLoss => 4 | .overspeed => 5
          | .withdrawn => 6 | .cut => 7)] ++ leBytes 8 p)) ∧
      (∀ g pl n h r p, sent (.underrun g pl n h r p) 0x09
        (leBytes 2 g ++ [byte pl] ++ leBytes 4 n ++ [byte h, byte r] ++ leBytes 8 p)) ∧
      (∀ g st n c, sent (.pageDone g st n c) 0x0A
        (leBytes 2 g ++ [byte (match st with | .complete => 0 | .damaged => 1 | .cancelled => 2 | .halted => 3)]
          ++ leBytes 4 n ++ c.toList.flatMap (leBytes 4))) ∧
      (∀ h a b n, sent (.headState h a b n) 0x0B ([byte h, health a, health b] ++ leBytes 2 n))))

/-! ## The request handler -/

/-- A request that the table of R33 refuses in the present engine state is answered WRONG_STATE whatever its body,
and nothing else changes (R33, R158). -/
def Obligations.RefusedInTheWrongEngineState : Prop :=
  (∀ (s s1 : State) (code : Byte) (tag : BitVec 16) (body : List Byte), TakesControl s code tag body s1 →
    code.toNat ∈ refusedCodes s.engine →
    exec (reqOf ⟨.control, code, tag, body⟩).instr s
      = .next (replied .control code tag .wrongState [] s1)) ∧
  (∀ (s s1 : State) (tag : BitVec 16) (body : List Byte), TakesData s 0x80#8 tag body s1 →
    s.engine = .setup → exec .band s = .next (replied .data 0x80#8 tag .wrongState [] s1))

/-- A request handled in the present engine state whose body is not of the length its layout gives is refused with
BAD_ARGUMENT and nothing else changes; the refusal of a WAVE request carries the bank summary (R125, R158, R166). -/
def Obligations.WrongBodyLengthIsRefused : Prop :=
  (∀ (s s1 : State) (code : Byte) (tag : BitVec 16) (body : List Byte) (n : Nat),
    TakesControl s code tag body s1 → code.toNat ∉ refusedCodes s.engine →
    requestLength code.toNat = some n → body.length ≠ n →
    exec (reqOf ⟨.control, code, tag, body⟩).instr s
      = .next (replied .control code tag .badArgument
          (if code.toNat = 0x50 ∨ code.toNat = 0x51 ∨ code.toNat = 0x52 then bankSummary s else []) s1))

/-- A code that names no request of the frame's kind is answered UNKNOWN in either engine state, and nothing else
changes (R158). -/
def Obligations.UnknownCodesAreAnswered : Prop :=
  (∀ (s s1 : State) (code : Byte) (tag : BitVec 16) (body : List Byte), TakesControl s code tag body s1 →
    code.toNat ∉ controlCodes → exec .unknownCode s = .next (replied .control code tag .unknown [] s1)) ∧
  (∀ (s s1 : State) (code : Byte) (tag : BitVec 16) (body : List Byte), TakesData s code tag body s1 →
    code ≠ 0x80#8 → exec .unknownCode s = .next (replied .data code tag .unknown [] s1))

/-- Control before data, each kind oldest first: when the handler has dealt with a frame at once, and when a storing
ends, it takes the oldest waiting control frame, with none waiting the oldest data frame, or is free; a BAND that
begins its storing and a RESET take nothing. It is never free while a frame waits, and no frame that arrives
overtakes one that it has taken (R157, R168). The row of the table that deals with the frame taken is a step of
its own, and a row whose turn it is not leaves the state as it stands (the model's reading: log 1, log 3). -/
def Obligations.HandlerTakesControlFirst : Prop :=
  (∀ (f : HostFrame) (s t : State), s.handler = .taken f → exec (reqOf f).instr s = .next t →
    (t.handler = (movedOn s).handler ∧ t.ctlWaiting = (movedOn s).ctlWaiting
      ∧ t.dataWaiting = (movedOn s).dataWaiting) ∨
    (((reqOf f = .band ∧ ∃ op, t.handler = .storing op) ∨ (reqOf f = .reset ∧ t.handler = .stopped))
      ∧ t.ctlWaiting = s.ctlWaiting ∧ t.dataWaiting = s.dataWaiting)) ∧
  (∀ (op : Storing) (s t : State), s.handler = .storing op → exec .storingEnd s = .next t →
    t.handler = (movedOn s).handler ∧ t.ctlWaiting = (movedOn s).ctlWaiting
      ∧ t.dataWaiting = (movedOn s).dataWaiting) ∧
  (∀ s t : State, handlerInv s → Machine.step s = .next t → handlerInv t) ∧
  (∀ (c : Instr) (f : HostFrame) (s t : State), s.handler = .taken f → c ≠ (reqOf f).instr → c ≠ .powerOn →
    c ≠ .softReset → exec c s = .next t → t.handler = .taken f) ∧
  (∀ (q : Req) (s : State), (∀ f, s.handler = .taken f → reqOf f ≠ q) → exec q.instr s = .next s)

/-- IDENTIFY is answered OK with the values of R167's table in either engine state and changes nothing else. RESET with
an empty body is answered OK in either engine state, and the handler takes no further frame: it takes none of those
that wait (R168). That every request row then leaves the state as it stands is the model's reading of rows whose turn it
is not (log 1). Either with a body that is not empty is refused with BAD_ARGUMENT. -/
def Obligations.IdentifyAndResetAnswer : Prop :=
  (∀ (s s1 : State) (tag : BitVec 16), TakesControl s 0x01#8 tag [] s1 →
    exec .identify s = .next (replied .control 0x01#8 tag .ok
      [0x06, 0x7A, 0x68, 0x09, 0x01, 0x00, 8, 24, 72, 4, 28, 4, 64, 64, 2, 0x00, 0x08,
       0x00, 0x00, 0x00, 0x10, 0x00, 0x00, 0x01, 0x00] s1)) ∧
  (∀ (s s1 : State) (tag : BitVec 16) (body : List Byte), body ≠ [] → TakesControl s 0x01#8 tag body s1 →
    exec .identify s = .next (replied .control 0x01#8 tag .badArgument [] s1)) ∧
  (∀ (s s1 : State) (tag : BitVec 16) (body : List Byte), body ≠ [] → TakesControl s 0x04#8 tag body s1 →
    exec .reset s = .next (replied .control 0x04#8 tag .badArgument [] s1)) ∧
  (∀ (s s1 : State) (tag : BitVec 16), TakesControl s 0x04#8 tag [] s1 →
    ∃ t, exec .reset s = .next t
      ∧ t = replied .control 0x04#8 tag .ok [] { s with handler := .stopped }
      ∧ ∀ q : Req, exec q.instr t = .next t)

/-- STATUS_QUERY is answered OK in either engine state with a body of R171's layout, and changes nothing else; with a
body that is not empty it is refused with BAD_ARGUMENT. -/
def Obligations.StatusQueryReportsTheState : Prop :=
  (∀ (s s1 : State) (tag : BitVec 16), TakesControl s 0x02#8 tag [] s1 →
    ∃ body, exec .statusQuery s = .next (replied .control 0x02#8 tag .ok body s1)
      ∧ body.take 21 = leBytes 1 (match s.engine with | .setup => 0 | .run => 1)
          ++ leBytes 1 (match s.lock with | .unlocked => 0 | .locked => 1)
          ++ leBytes 1 s.pages.length ++ leBytes 1 (configuredHeads s).length
          ++ leBytes 1 (configuredPlanes s).length ++ leBytes 8 (s.pRaw / 4096) ++ leBytes 8 (s.hRaw / 4096)
      ∧ body.length = 21 + 11 * s.pages.length + 4 * (configuredHeads s).length
          + 5 * (configuredPlanes s).length
      ∧ (body.drop 21).take (11 * s.pages.length) = s.pages.flatMap (fun p => leBytes 2 p.id
          ++ leBytes 1 (match p.pstate with | .queued => 0 | .bound => 1 | .firing => 2)
          ++ leBytes 8 (p.origin.getD 0))
      ∧ (∀ health : Nat → Health,
          (∀ h c, look s.heads h none = some c → look s.health h none = some (health h)) →
          (body.drop (21 + 11 * s.pages.length)).take (4 * (configuredHeads s).length)
            = (configuredHeads s).flatMap (fun t => leBytes 1 t.1
                ++ leBytes 1 (match (health t.1).state with
                    | .active => 0 | .warned => 1 | .degraded => 2 | .offline => 3 | .probing => 4)
                ++ leBytes 2 (health t.1).counter))
      ∧ body.drop (21 + 11 * s.pages.length + 4 * (configuredHeads s).length)
          = (configuredPlanes s).flatMap (fun t => leBytes 1 t.1 ++ leBytes 2 (linesOf s t.1).length
              ++ leBytes 2 t.2.capacity)) ∧
  (∀ (s s1 : State) (tag : BitVec 16) (body : List Byte), body ≠ [] → TakesControl s 0x02#8 tag body s1 →
    exec .statusQuery s = .next (replied .control 0x02#8 tag .badArgument [] s1))

/-- STATS_READ answers OK with the group, the index, the number of counters and their values as read, and, with the
clear flag, sets every counter of that group to 0 and no other; anything else in its three bytes, and a body that is
not three bytes long, is refused with BAD_ARGUMENT (R174). -/
def Obligations.StatsReadReadsAndClears : Prop :=
  (∀ (s s1 : State) (tag : BitVec 16) (body : List Byte), body.length ≠ 3 → TakesControl s 0x03#8 tag body s1 →
    exec .statsRead s = .next (replied .control 0x03#8 tag .badArgument [] s1)) ∧
  ∀ (s s1 : State) (tag : BitVec 16) (group index flag : Nat), group < 256 → index < 256 → flag < 256 →
    TakesControl s 0x03#8 tag (leBytes 1 group ++ leBytes 1 index ++ leBytes 1 flag) s1 →
    let ok := fun (values : List Nat) (t : State) =>
      exec .statsRead s = .next (replied .control 0x03#8 tag .ok
        (leBytes 1 group ++ leBytes 1 index ++ leBytes 1 values.length ++ values.flatMap (leBytes 4))
        (if flag = 1 then t else s1))
    (flag ≤ 1 → group = 0 → index = 0 →
      ok s.linkCtrs.toList { s1 with linkCtrs := Vector.replicate 5 0 }) ∧
    (flag ≤ 1 → group = 1 → index = 0 →
      ok s.motionCtrs.toList { s1 with motionCtrs := Vector.replicate 8 0 }) ∧
    (flag ≤ 1 → group = 2 → index ≤ 7 → ok (planeGroup s index).toList
      { s1 with planeCtrs := put s.planeCtrs index (Vector.replicate 7 0) }) ∧
    (flag ≤ 1 → group = 3 → index ≤ 23 → ok (headGroup s index).toList
      { s1 with headCtrs := put s.headCtrs index (Vector.replicate 11 0) }) ∧
    ((1 < flag ∨ 3 < group ∨ (group ≤ 1 ∧ index ≠ 0) ∨ (group = 2 ∧ 7 < index)
        ∨ (group = 3 ∧ 23 < index)) →
      exec .statsRead s = .next (replied .control 0x03#8 tag .badArgument [] s1))

/-! ## Configuration -/

/-- SET_PLANE in SETUP: SET writes the entry, REMOVE makes it unconfigured without examining width and capacity, and
values out of range are refused with BAD_ARGUMENT; in RUN it is refused with WRONG_STATE; nothing else changes
(R70). -/
def Obligations.SetPlaneWritesThePlaneTable : Prop :=
  ∀ (s s1 : State) (tag : BitVec 16) (plane op width cap : Nat), plane < 256 → op < 256 → width < 65536 →
    cap < 65536 →
    TakesControl s 0x10#8 tag (leBytes 1 plane ++ leBytes 1 op ++ leBytes 2 width ++ leBytes 2 cap) s1 →
    (s.engine = .setup → op = 0 → plane ≤ 7 → 1 ≤ width → width ≤ 32768 → 2 ≤ cap → cap ≤ 16384 →
      exec .setPlaneSet s = .next (replied .control 0x10#8 tag .ok []
        { s1 with planes := put s.planes plane (some ⟨width, cap⟩) })) ∧
    (s.engine = .setup → op = 1 → plane ≤ 7 →
      exec .setPlaneRemove s = .next (replied .control 0x10#8 tag .ok []
        { s1 with planes := put s.planes plane none })) ∧
    (s.engine = .setup → (7 < plane ∨ 1 < op ∨ (op = 0 ∧ (width = 0 ∨ 32768 < width ∨ cap < 2 ∨ 16384 < cap))) →
      exec (if op = 1 then .setPlaneRemove else .setPlaneSet) s
        = .next (replied .control 0x10#8 tag .badArgument [] s1)) ∧
    (s.engine = .run → exec (if op = 1 then .setPlaneRemove else .setPlaneSet) s
        = .next (replied .control 0x10#8 tag .wrongState [] s1))

/-- SET_HEAD in SETUP: SET writes the entry whole, a timeout of 0 stored as 20, and gives the head health ACTIVE,
counter 0, probe count 0; REMOVE makes the entry unconfigured and discards the health; values out of range, any
other operation and a body that does not fit its k are refused with BAD_ARGUMENT; in RUN it is refused with
WRONG_STATE; nothing else changes (R72, R143). -/
def Obligations.SetHeadWritesTheHeadTable : Prop :=
  (∀ (s s1 : State) (tag : BitVec 16) (head plane x n r d rate timeout : Nat) (offs : List Nat),
    head < 256 → plane < 256 → x < 65536 → n < 65536 → r < 256 → d < 4294967296 → rate < 65536 →
    timeout < 65536 → offs.length < 256 → (∀ o ∈ offs, o < 65536) → s.engine = .setup →
    TakesControl s 0x11#8 tag (leBytes 1 head ++ leBytes 1 0 ++ leBytes 1 plane ++ leBytes 2 x ++ leBytes 2 n
      ++ leBytes 1 r ++ leBytes 4 d ++ leBytes 1 offs.length ++ offs.flatMap (leBytes 2) ++ leBytes 2 rate
      ++ leBytes 2 timeout) s1 →
    let good := head ≤ 23 ∧ plane ≤ 7 ∧ x ≤ 32767 ∧ 64 ≤ n ∧ n ≤ 2048 ∧ (r = 1 ∨ r = 2 ∨ r = 4)
      ∧ d ≤ 16777215 ∧ 1 ≤ offs.length ∧ offs.length ≤ 4 ∧ (∀ o ∈ offs, o ≤ 4095)
      ∧ (rate = 400 ∨ rate = 800 ∨ rate = 1200 ∨ rate = 1600) ∧ timeout ≤ 255
    (good → exec .setHeadSet s = .next (replied .control 0x11#8 tag .ok []
      { s1 with
        heads := put s.heads head
          (some ⟨plane, x, n, r, d, offs, rate, if timeout = 0 then 20 else timeout⟩)
        health := put s.health head (some ⟨.active, 0, 0⟩) })) ∧
    (¬ good → exec .setHeadSet s = .next (replied .control 0x11#8 tag .badArgument [] s1))) ∧
  (∀ (s s1 : State) (tag : BitVec 16) (head : Nat), head < 256 → s.engine = .setup →
    TakesControl s 0x11#8 tag (leBytes 1 head ++ leBytes 1 1) s1 →
    (head ≤ 23 → exec .setHeadRemove s = .next (replied .control 0x11#8 tag .ok []
      { s1 with heads := put s.heads head none, health := put s.health head none })) ∧
    (23 < head → exec .setHeadRemove s = .next (replied .control 0x11#8 tag .badArgument [] s1))) ∧
  (∀ (s s1 : State) (tag : BitVec 16) (body : List Byte), TakesControl s 0x11#8 tag body s1 →
    let row := if byteAt body 1 = 1 then Instr.setHeadRemove else .setHeadSet
    (s.engine = .run → exec row s = .next (replied .control 0x11#8 tag .wrongState [] s1)) ∧
    (s.engine = .setup →
      (body.length < 2 ∨ 1 < byteAt body 1 ∨ (byteAt body 1 = 0 ∧ body.length ≠ 17 + 2 * byteAt body 12)
        ∨ (byteAt body 1 = 1 ∧ body.length ≠ 2)) →
      exec row s = .next (replied .control 0x11#8 tag .badArgument [] s1)))

/-- SET_LANE in SETUP writes the entry (for OFF an owner above 23 is stored as 0) or is refused with BAD_ARGUMENT;
in RUN it is refused with WRONG_STATE; nothing else changes (R135). -/
def Obligations.SetLaneWritesTheLaneTable : Prop :=
  ∀ (s s1 : State) (tag : BitVec 16) (lane fn owner : Nat), lane < 256 → fn < 256 → owner < 256 →
    TakesControl s 0x12#8 tag (leBytes 1 lane ++ leBytes 1 fn ++ leBytes 1 owner) s1 →
    (s.engine = .setup → lane ≤ 71 → fn = 0 → exec .setLane s = .next (replied .control 0x12#8 tag .ok []
      { s1 with lanes := put s.lanes lane ⟨.off, if owner ≤ 23 then owner else 0⟩ })) ∧
    (s.engine = .setup → lane ≤ 71 → fn = 1 → owner ≤ 23 →
      exec .setLane s = .next (replied .control 0x12#8 tag .ok []
        { s1 with lanes := put s.lanes lane ⟨.data, owner⟩ })) ∧
    (s.engine = .setup → lane ≤ 71 → fn = 2 → owner ≤ 23 →
      exec .setLane s = .next (replied .control 0x12#8 tag .ok []
        { s1 with lanes := put s.lanes lane ⟨.ret, owner⟩ })) ∧
    (s.engine = .setup → (71 < lane ∨ 2 < fn ∨ (1 ≤ fn ∧ 23 < owner)) →
      exec .setLane s = .next (replied .control 0x12#8 tag .badArgument [] s1)) ∧
    (s.engine = .run → exec .setLane s = .next (replied .control 0x12#8 tag .wrongState [] s1))

/-- SET_MOTION in SETUP replaces all seven values at once or is refused with BAD_ARGUMENT; in RUN it is refused with
WRONG_STATE; position, decoder reference, pace timer, reverse condition and everything else stay (R2). -/
def Obligations.SetMotionReplacesTheConfiguration : Prop :=
  ∀ (s s1 : State) (tag : BitVec 16) (source invert int frac pace late reverse : Nat),
    source < 256 → invert < 256 → int < 65536 → frac < 65536 → pace < 65536 → late < 65536 →
    reverse < 4294967296 →
    TakesControl s 0x13#8 tag (leBytes 1 source ++ leBytes 1 invert ++ leBytes 2 int ++ leBytes 2 frac
      ++ leBytes 2 pace ++ leBytes 2 late ++ leBytes 4 reverse) s1 →
    let good := source ≤ 1 ∧ invert ≤ 1 ∧ int ≤ 255 ∧ frac ≤ 4095 ∧ 4096 * int + frac ≠ 0 ∧ pace ≠ 0
      ∧ late ≤ 1023 ∧ reverse ≤ 1048575
    (s.engine = .setup → good → exec .setMotion s = .next (replied .control 0x13#8 tag .ok []
      { s1 with motionCfg := ⟨if source = 1 then .internal else .external, decide (invert = 1), int, frac,
          pace, late, reverse⟩ })) ∧
    (s.engine = .setup → ¬ good →
      exec .setMotion s = .next (replied .control 0x13#8 tag .badArgument [] s1)) ∧
    (s.engine = .run → exec .setMotion s = .next (replied .control 0x13#8 tag .wrongState [] s1))

/-- SET_CUE in SETUP replaces all six values at once or is refused with BAD_ARGUMENT; in RUN it is refused with
WRONG_STATE; the tracker's working values and everything else stay (R18). -/
def Obligations.SetCueReplacesTheConfiguration : Prop :=
  ∀ (s s1 : State) (tag : BitVec 16) (oc q j wc hold gmin : Nat), oc < 4294967296 → q < 4294967296 →
    j < 65536 → wc < 4294967296 → hold < 4294967296 → gmin < 4294967296 →
    TakesControl s 0x14#8 tag (leBytes 4 oc ++ leBytes 4 q ++ leBytes 2 j ++ leBytes 4 wc ++ leBytes 4 hold
      ++ leBytes 4 gmin) s1 →
    let good := oc ≤ 16777215 ∧ (q = 0 ∨ (64 ≤ q ∧ q ≤ 16777215)) ∧ j ≤ 1023 ∧ j ≤ wc ∧ wc ≤ 65535
      ∧ hold ≤ 65535 ∧ gmin ≤ 65535
    (s.engine = .setup → good → exec .setCue s = .next (replied .control 0x14#8 tag .ok []
      { s1 with cueCfg := ⟨oc, q, j, wc, hold, gmin⟩ })) ∧
    (s.engine = .setup → ¬ good →
      exec .setCue s = .next (replied .control 0x14#8 tag .badArgument [] s1)) ∧
    (s.engine = .run → exec .setCue s = .next (replied .control 0x14#8 tag .wrongState [] s1))

/-! ## Engine states -/

/-- ENGINE_START in SETUP, when none of the six checks finds a fault, sets what R35, R3, R19 and R136 name, answers
OK with fault kind NONE, and keeps banks, nozzle map, counters and configuration; when one does, the reply names
the first fault and nothing else changes. The checks come in this order, and each names its first failing object: a plane
exists; heads are well-formed; each head lies within its plane; each plane meets the six conditions of R76; each head
has its lanes; each lane in use has a configured owner; the slots fit line memory; the active bank is complete. With
none failing the start succeeds, and each plane's column decode gives each column its one head, or its left and right
head with overlap width and position (R34, R35, R76, R77, R78). -/
def Obligations.EngineStartEntersRun : Prop :=
  ∀ (s s1 : State) (tag : BitVec 16), TakesControl s 0x20#8 tag [] s1 → s.engine = .setup →
    (startFault s = none → ∃ t, exec .engineStart s = .next t
      ∧ t.engine = .run ∧ t.pRaw = 0 ∧ t.hRaw = 0 ∧ t.decRef = s.encPins ∧ t.revCond = .armed
      ∧ (s.motionCfg.source = .internal → t.pace = .running s.motionCfg.paceInterval)
      ∧ (s.motionCfg.source = .external → t.pace = .stopped)
      ∧ t.lock = .unlocked ∧ t.smoothed = 0 ∧ t.predicted = 0 ∧ t.flywheel = 0 ∧ t.lastAccepted = none
      ∧ t.pages = [] ∧ t.tailEnd = none
      ∧ (∀ p c, look s.planes p none = some c → linesOf t p = [] ∧ freeSlots t p = c.capacity)
      ∧ (∀ h c, look s.heads h none = some c → rowsOf t h = List.replicate c.r ⟨.empty, .idle⟩
          ∧ look t.health h none = some ⟨.active, 0, 0⟩ ∧ look t.loaders h none = some ⟨0, none⟩
          ∧ look t.links h none = some ⟨lanesOf s .data h, (lanesOf s .ret h).headD 0⟩)
      ∧ t.outgoing = s.outgoing ++ [.reply ⟨.ok, 0x20#8, tag, some .control, [0, 0]⟩]
      ∧ t.banks = s.banks ∧ t.activeBank = s.activeBank ∧ t.nozzles = s.nozzles ∧ t.linkCtrs = s.linkCtrs
      ∧ t.motionCtrs = s.motionCtrs ∧ t.planeCtrs = s.planeCtrs ∧ t.headCtrs = s.headCtrs
      ∧ t.motionCfg = s.motionCfg ∧ t.cueCfg = s.cueCfg ∧ t.planes = s.planes ∧ t.heads = s.heads
      ∧ t.lanes = s.lanes ∧ t.handler = s1.handler ∧ t.ctlWaiting = s1.ctlWaiting
      ∧ t.dataWaiting = s1.dataWaiting ∧ t.sending = s.sending ∧ t.rx = s.rx ∧ t.eventSeq = s.eventSeq
      ∧ t.lostCount = s.lostCount) ∧
    (∀ status fault, startFault s = some (status, fault) →
      exec .engineStart s = .next (replied .control 0x20#8 tag status fault.bytes s1)) ∧
    (let fault := fun (status : Status) (kind number : Nat) => exec .engineStart s
        = .next (replied .control 0x20#8 tag status [BitVec.ofNat 8 kind, BitVec.ofNat 8 number] s1)
      let plane := fun p c => look s.planes p none = some c
      let head := fun h c => look s.heads h none = some c
      let on := fun p h c => head h c ∧ c.plane = p
      let covers := fun p col h => ∃ c, on p h c ∧ c.x ≤ col ∧ col < c.x + c.n
      let formed := fun c : HeadCfg => c.n % c.r = 0 ∧ c.offsets.length = c.r
      let placed := fun c : HeadCfg => ∃ q, plane c.plane q ∧ c.x + c.n ≤ q.width
      let covered := fun p w => (∃ h c, on p h c)
        ∧ (∀ a ca b cb, on p a ca → on p b cb → a ≠ b → ca.x ≠ cb.x)
        ∧ (∀ a ca b cb, on p a ca → on p b cb → ca.x < cb.x → (∀ m cm, on p m cm → cm.x ≤ ca.x ∨ cb.x ≤ cm.x) →
            ca.x + ca.n < cb.x + cb.n ∧ ca.x + ca.n - cb.x ≤ 64)
        ∧ (∀ col, col < w → ∃ a b, covers p col a ∧ covers p col b ∧ ∀ m, covers p col m → m = a ∨ m = b)
      let lanes := fun fn h => (List.range 72).countP fun l => look s.lanes l ⟨.off, 0⟩ = ⟨fn, h⟩
      let laned := fun h => 1 ≤ lanes .data h ∧ lanes .data h ≤ 2 ∧ lanes .ret h = 1
      let owned := fun l => (look s.lanes l ⟨.off, 0⟩).function ≠ .off →
        look s.heads (look s.lanes l ⟨.off, 0⟩).owner none ≠ none
      let room := fun n => ((List.range n).map fun p => match look s.planes p none with
        | some c => c.capacity * (64 * ((3 * c.width + 255) / 256))
        | none => 0).sum
      let written := fun i => look (bankAt s s.activeBank).recs i none ≠ none
      ((∀ p c, ¬ plane p c) → fault .badArgument 0 0) ∧
      ((∃ p c, plane p c) →
        (∀ h c, head h c → ¬ formed c → (∀ h' c', h' < h → head h' c' → formed c') → fault .badArgument 2 h) ∧
      ((∀ h c, head h c → formed c) →
        (∀ h c, head h c → ¬ placed c → (∀ h' c', h' < h → head h' c' → placed c') → fault .geometry 2 h) ∧
      ((∀ h c, head h c → placed c) →
        (∀ p c, plane p c → ¬ covered p c.width → (∀ p' c', p' < p → plane p' c' → covered p' c'.width) →
          fault .geometry 1 p) ∧
      ((∀ p c, plane p c → covered p c.width) →
        (∀ h c, head h c → ¬ laned h → (∀ h' c', h' < h → head h' c' → laned h') → fault .lanes 2 h) ∧
      ((∀ h c, head h c → laned h) →
        (∀ l, l < 72 → ¬ owned l → (∀ l', l' < l → owned l') → fault .lanes 3 l) ∧
      ((∀ l, l < 72 → owned l) →
        (∀ p c, plane p c → room p ≤ 268435456 → 268435456 < room (p + 1) → fault .storeSize 1 p) ∧
      (room 8 ≤ 268435456 →
        ((∃ i, i < 3 ∧ ¬ written i) → fault .incomplete 4 s.activeBank) ∧
        ((∀ i, i < 3 → written i) → startFault s = none)))))))) ∧
      (startFault s = none → ∀ p c, plane p c → ∃ t d, exec .engineStart s = .next t
        ∧ look t.decode p none = some d ∧ d.width = c.width ∧ ∀ col, col < c.width →
          (∀ h ch, on p h ch → ch.x ≤ col → col < ch.x + ch.n → (∀ m, covers p col m → m = h) →
            colForm d.spans col = .single h (col - ch.x)) ∧
          (∀ a ca b cb, on p a ca → on p b cb → ca.x < cb.x → cb.x ≤ col → col < ca.x + ca.n →
            colForm d.spans col
              = .pair a (col - ca.x) b (col - cb.x) (ca.x + ca.n - cb.x) (col - cb.x))))

/-- ENGINE_STOP in RUN: with the queue empty and the part quiet the engine state becomes SETUP and the pace timer
stops; otherwise it is refused with BUSY; everything else stays (R36). -/
def Obligations.EngineStopNeedsAQuietPart : Prop :=
  ∀ (s s1 : State) (tag : BitVec 16), TakesControl s 0x21#8 tag [] s1 → s.engine = .run →
    let quiet := s.pages = [] ∧ (∀ h, transferOf s h = none)
      ∧ (∀ h k, look s.health h none = some k → k.state ≠ .probing)
      ∧ (∀ h r row, rowAt s h r = some row → row.fire = .idle)
    (quiet → exec .engineStop s = .next (replied .control 0x21#8 tag .ok []
      { s1 with engine := .setup, pace := .stopped })) ∧
    (¬ quiet → exec .engineStop s = .next (replied .control 0x21#8 tag .busy [] s1))

/-- ENGINE_HALT in RUN: the queue and every plane's line list are emptied and the tail end becomes absent; PAGE_DONE
HALTED follows for each page in queue order, with its length, its counts and its unretired entries as CUT, and
then the reply with the number of pages; FULL buffers become EMPTY and LOADING ones spent; windows, transfers,
health, motion and the plane counters stay; of the head counters only CUT rises, by the unretired entries of
the head (R37, R38, R66). Each PAGE_DONE is offered to
the event queue in turn (`offered`, R163). -/
def Obligations.EngineHaltDropsEveryPage : Prop :=
  ∀ (s s1 : State) (tag : BitVec 16), TakesControl s 0x22#8 tag [] s1 → s.engine = .run →
    (s.pages.map Page.id).Nodup → countersInv s →
    let done := (s.pages.map fun p => Event.pageDone p.id .halted p.length
      (put p.counts 7 (look p.counts 7 0 + p.unretired))).foldl (fun u e => offered e u) s
    ∃ t, exec .engineHalt s = .next t ∧ t.pages = [] ∧ t.tailEnd = none
      ∧ (∀ p, p < 8 → linesOf t p = [])
      ∧ SameEvents done t ∧ t.outgoing = done.outgoing
          ++ [.reply ⟨.ok, 0x22#8, tag, some .control, [BitVec.ofNat 8 s.pages.length]⟩]
      ∧ (∀ h r row, rowAt s h r = some row → ∃ buf, rowAt t h r = some ⟨buf, row.fire⟩
          ∧ (∀ e q, row.buf = .full e q → buf = .empty)
          ∧ (∀ e b, row.buf = .loading e b → buf = .loading e true)
          ∧ (row.buf = .empty → buf = .empty))
      ∧ t.loaders = s.loaders ∧ t.planeCtrs = s.planeCtrs
      ∧ (∀ h, h < 24 → look (headGroup t h) 7 0 = min 4294967295 (look (headGroup s h) 7 0
          + (s.pages.map fun p => ((look p.passed h []).map fun n => p.length - n).sum).sum))
      ∧ (∀ h i, i ≠ 7 → look (headGroup t h) i 0 = look (headGroup s h) i 0)
      ∧ RowFrame s1 t

/-! ## The page queue -/

/-- PAGE_OPEN in RUN: bad values, an unconfigured plane or an id in use are refused with BAD_ARGUMENT, then a full
queue with QUEUE_FULL; a page that does not become a FOLLOW front page is appended QUEUED with origin absent, no counts,
and L x T unretired entries, T the rows of its planes' heads, and nothing else changes: an ON_CUE page, or a page of
either mode that stands behind a QUEUED ON_CUE page (R40, R41). -/
def Obligations.PageOpenAppendsARecord : Prop :=
  ∀ (s s1 : State) (tag : BitVec 16) (id length mask mode gap : Nat), id < 65536 → length < 4294967296 →
    mask < 256 → mode < 256 → gap < 4294967296 → s.engine = .run →
    TakesControl s 0x30#8 tag (leBytes 2 id ++ leBytes 4 length ++ leBytes 1 mask ++ leBytes 1 mode
      ++ leBytes 4 gap) s1 →
    let good := 1 ≤ length ∧ length ≤ 1048576 ∧ mask ≠ 0
      ∧ (∀ p, p < 8 → mask.testBit p = true → look s.planes p none ≠ none)
      ∧ (mode = 0 ∨ (mode = 1 ∧ gap ≤ 16777215)) ∧ (∀ p ∈ s.pages, p.id ≠ id)
    (¬ good → exec .pageOpen s = .next (replied .control 0x30#8 tag .badArgument [] s1)) ∧
    (good → 4 ≤ s.pages.length →
      exec .pageOpen s = .next (replied .control 0x30#8 tag .queueFull [] s1)) ∧
    (good → s.pages.length < 4 →
      ((∃ pre p post, s.pages = pre ++ p :: post ∧ (∀ q ∈ pre, q.pstate ≠ .queued) ∧ p.pstate = .queued
          ∧ p.mode = .onCue)
        ∨ (mode = 0 ∧ ∀ p ∈ s.pages, p.pstate ≠ .queued)) →
      ∃ q : Page, exec .pageOpen s
          = .next (replied .control 0x30#8 tag .ok [] { s1 with pages := s.pages ++ [q] })
        ∧ q.id = id ∧ q.length = length ∧ q.mask = BitVec.ofNat 8 mask
        ∧ q.mode = (if mode = 0 then .onCue else .follow) ∧ q.gap = gap
        ∧ q.pstate = .queued ∧ q.origin = none ∧ q.cancelled = false
        ∧ q.unretired = length * ((List.range 24).map fun h =>
            match look s.heads h none with
            | some c => if mask.testBit c.plane then c.r else 0
            | none => 0).sum
        ∧ q.counts = Vector.replicate 8 0 ∧ q.underrun = Vector.replicate 8 false
        ∧ q.arrival = Vector.replicate 8 0)

/-- A FOLLOW page that finds no QUEUED page binds within its own PAGE_OPEN at the origin of R42: behind the tail end
by the greater of G and Gmin when pages stand ahead of it, at H_int + G when the tail end is absent, at the
greater of the two when the queue has run empty. Its record has that origin and is QUEUED no more, and it is the most
recently bound page, for as long as it is in the queue; with the origin still ahead of H_int it is in the queue,
BOUND. The tail end becomes its end, its PAGE_BOUND is offered first (`offered`) and
the reply comes last (R40, R42, R44, R163). -/
def Obligations.FollowPageBindsWhenOpened : Prop :=
  ∀ (s s1 : State) (tag : BitVec 16) (id length mask gap origin : Nat), id < 65536 → 1 ≤ length →
    length ≤ 1048576 → 0 < mask → mask < 256 → gap ≤ 16777215 → s.engine = .run →
    TakesControl s 0x30#8 tag (leBytes 2 id ++ leBytes 4 length ++ leBytes 1 mask ++ leBytes 1 1
      ++ leBytes 4 gap) s1 →
    (∀ p, p < 8 → mask.testBit p = true → look s.planes p none ≠ none) → (∀ p ∈ s.pages, p.id ≠ id) →
    s.pages.length < 4 → (∀ p ∈ s.pages, p.pstate ≠ .queued) →
    (s.tailEnd = none → s.pages = [] ∧ origin = s.hRaw / 4096 + gap) →
    (∀ te, s.tailEnd = some te → s.pages = [] →
      origin = max (te + max gap s.cueCfg.minGap) (s.hRaw / 4096 + gap)) →
    (∀ te, s.tailEnd = some te → s.pages ≠ [] → origin = te + max gap s.cueCfg.minGap) →
    ∃ t evs, exec .pageOpen s = .next t
      ∧ t.outgoing = (offered (.pageBound id origin) s).outgoing ++ evs
          ++ [.reply ⟨.ok, 0x30#8, tag, some .control, []⟩]
      ∧ (∀ o ∈ evs, o.isEvent = true) ∧ t.tailEnd = some (origin + 32 * length)
      ∧ (∀ q ∈ t.pages, q.id = id → q.origin = some origin ∧ q.pstate ≠ .queued ∧ q.length = length
          ∧ q.mask = BitVec.ofNat 8 mask ∧ q.mode = .follow ∧ t.tailPage = some id)
      ∧ (s.hRaw / 4096 < origin → ∃ q ∈ t.pages, q.id = id ∧ q.pstate = .bound)
      ∧ RowFrame s1 t

/-- A cue offer: with no page QUEUED it is unused and counted; against an ON_CUE front page and a tail end it falls
short of by Gmin it is early, counted, and the page stays; otherwise the front page binds at the offered origin:
PAGE_BOUND comes first, its record has that origin and is QUEUED no more, and it is the most recently bound page, for
as long as it is in the queue; with the origin still ahead of H_int it is in the queue, BOUND; and the tail end
becomes its end when the next QUEUED page is no FOLLOW page (R43, R44). With the origin ahead of H_int, the FOLLOW pages that
stand QUEUED behind it bind within the same event, one behind the other (R42, R44): each is in the queue, BOUND at the
end of the one before plus the greater of its gap and Gmin, the tail end is the end of the last, and with no page
bound before, the PAGE_BOUND events are offered one after another and no other is. Every event is offered to the event
queue (`offered`, R163). -/
def Obligations.CueOfferBindsTheFrontPage : Prop :=
  ∀ (s : State) (origin : Nat) (kind : CueKind),
    ((∀ p ∈ s.pages, p.pstate ≠ .queued) →
      takeOffer origin kind s = offered (.cueUnused origin kind) (bumpMotion .unusedCues 1 s)) ∧
    (∀ pre p post te, s.pages = pre ++ p :: post → (∀ q ∈ pre, q.pstate ≠ .queued) → p.pstate = .queued →
      s.tailEnd = some te → origin < te + s.cueCfg.minGap →
      takeOffer origin kind s
        = offered (.cueEarly p.id origin (te + s.cueCfg.minGap)) (bumpMotion .earlyCues 1 s)) ∧
    (∀ pre p post, s.pages = pre ++ p :: post → (∀ q ∈ pre, q.pstate ≠ .queued) → p.pstate = .queued →
      (∀ te, s.tailEnd = some te → te + s.cueCfg.minGap ≤ origin) → (s.pages.map Page.id).Nodup →
      (∀ a q b, post = a ++ q :: b → (∀ x ∈ a, x.pstate ≠ .queued) → q.pstate = .queued → q.mode = .onCue) →
      ∃ evs, (takeOffer origin kind s).outgoing = (offered (.pageBound p.id origin) s).outgoing ++ evs
        ∧ (∀ o ∈ evs, o.isEvent = true)
        ∧ (takeOffer origin kind s).tailEnd = some (origin + 32 * p.length)
        ∧ (∀ q ∈ (takeOffer origin kind s).pages, q.id = p.id → q.origin = some origin ∧ q.pstate ≠ .queued
            ∧ q.length = p.length ∧ (takeOffer origin kind s).tailPage = some p.id)
        ∧ (s.hRaw / 4096 < origin → ∃ q ∈ (takeOffer origin kind s).pages, q.id = p.id ∧ q.pstate = .bound)
        ∧ RowFrame s (takeOffer origin kind s)) ∧
    (∀ pre p fs post last, s.pages = pre ++ p :: fs ++ post → (∀ q ∈ pre, q.pstate ≠ .queued) →
      p.pstate = .queued → (∀ te, s.tailEnd = some te → te + s.cueCfg.minGap ≤ origin) →
      (s.pages.map Page.id).Nodup → (∀ f ∈ fs, f.pstate = .queued ∧ f.mode = .follow ∧ f.origin = none) →
      (∀ q ∈ post, q.pstate = .queued ∧ q.origin = none) → (∀ q qs, post = q :: qs → q.mode = .onCue) →
      s.hRaw / 4096 < origin → (p :: fs).getLast? = some last →
      let bound := (p, origin) :: followBindings s.cueCfg.minGap (origin + 32 * p.length) fs
      areBound bound (takeOffer origin kind s)
      ∧ (takeOffer origin kind s).tailEnd = some (lastEnd 0 bound)
      ∧ (takeOffer origin kind s).tailPage = some last.id
      ∧ (pre = [] →
          let raised := (bound.map fun b => Event.pageBound b.1.id b.2).foldl (fun u e => offered e u) s
          (takeOffer origin kind s).outgoing = raised.outgoing ∧ SameEvents raised (takeOffer origin kind s))
      ∧ RowFrame s (takeOffer origin kind s))

/-- PAGE_CANCEL of an id that no page has is refused with NO_SUCH_PAGE. Of a QUEUED page it removes the page, frees
its stored lines in the planes of its mask, and raises PAGE_DONE CANCELLED with length 0 and its length as
WITHDRAWN, before the reply with 0 and that length; the tail end, the rows, the loaders and the plane counters
stay (R48, R65), when no FOLLOW page becomes the front page by it. When one does, it binds within the request, after the
PAGE_DONE and before the reply, at the origin of R42, and, with that origin ahead of H_int, the FOLLOW pages behind it
one behind the other (R42, R44). Each head's WITHDRAWN counter rises by the page's entries at that head, its lines for
each of its rows (R100, R116; that a QUEUED page's count is log 10's). The events are offered to the event queue
(`offered`, R163). -/
def Obligations.CancelOfAQueuedPage : Prop :=
  ∀ (s s1 : State) (tag : BitVec 16) (id : Nat), id < 65536 → TakesControl s 0x31#8 tag (leBytes 2 id) s1 →
    s.engine = .run →
    ((∀ p ∈ s.pages, p.id ≠ id) →
      exec .pageCancel s = .next (replied .control 0x31#8 tag .noSuchPage [] s1)) ∧
    (∀ pre p post, s.pages = pre ++ p :: post → p.id = id → (s.pages.map Page.id).Nodup →
      p.pstate = .queued → (∀ a q b, pre ++ post = a ++ q :: b → (∀ x ∈ a, x.pstate ≠ .queued) →
        q.pstate = .queued → q.mode = .onCue) →
      let done := offered (.pageDone id .cancelled 0 (put p.counts 6 (look p.counts 6 0 + p.length))) s
      ∃ t, exec .pageCancel s = .next t ∧ t.pages = pre ++ post ∧ t.tailEnd = s.tailEnd ∧ SameEvents done t
        ∧ t.outgoing = done.outgoing
            ++ [.reply ⟨.ok, 0x31#8, tag, some .control, leBytes 4 0 ++ leBytes 4 p.length⟩]
        ∧ (∀ h, h < 24 → look (headGroup t h) 6 0
            = min 4294967295 (look (headGroup s h) 6 0 + p.length * (look p.passed h []).length))
        ∧ (∀ h i, i ≠ 6 → look (headGroup t h) i 0 = look (headGroup s h) i 0)
        ∧ (∀ plane, plane < 8 → linesOf t plane =
            if p.mask.getLsbD plane then (linesOf s plane).filter (fun l => l.page ≠ id) else linesOf s plane)
        ∧ t.rows = s.rows ∧ t.loaders = s.loaders ∧ t.planeCtrs = s.planeCtrs ∧ RowFrame s1 t) ∧
    (∀ pre p f fs post origin, s.pages = pre ++ p :: f :: fs ++ post → p.id = id → (s.pages.map Page.id).Nodup →
      p.pstate = .queued → (∀ q ∈ pre, q.pstate ≠ .queued) →
      (∀ q ∈ f :: fs, q.pstate = .queued ∧ q.mode = .follow ∧ q.origin = none) →
      (∀ q ∈ post, q.pstate = .queued ∧ q.origin = none) → (∀ q qs, post = q :: qs → q.mode = .onCue) →
      (pre ≠ [] → ∃ te, s.tailEnd = some te ∧ origin = te + max f.gap s.cueCfg.minGap) →
      (pre = [] → s.tailEnd = none → origin = s.hRaw / 4096 + f.gap) →
      (pre = [] → ∀ te, s.tailEnd = some te →
        origin = max (te + max f.gap s.cueCfg.minGap) (s.hRaw / 4096 + f.gap)) →
      ∃ t evs, exec .pageCancel s = .next t
        ∧ t.outgoing = (offered (.pageBound f.id origin) (offered (.pageDone id .cancelled 0
              (put p.counts 6 (look p.counts 6 0 + p.length))) s)).outgoing ++ evs
            ++ [.reply ⟨.ok, 0x31#8, tag, some .control, leBytes 4 0 ++ leBytes 4 p.length⟩]
        ∧ (∀ o ∈ evs, o.isEvent = true) ∧ (∀ q ∈ t.pages, q.id ≠ id)
        ∧ (∀ q ∈ t.pages, q.id = f.id → q.origin = some origin ∧ q.pstate ≠ .queued ∧ q.length = f.length)
        ∧ (s.hRaw / 4096 < origin →
            let bound := (f, origin) :: followBindings s.cueCfg.minGap (origin + 32 * f.length) fs
            areBound bound t ∧ t.tailEnd = some (lastEnd 0 bound))
        ∧ (∀ h, h < 24 → look (headGroup t h) 6 0
            = min 4294967295 (look (headGroup s h) 6 0 + p.length * (look p.passed h []).length))
        ∧ (∀ plane, plane < 8 → p.mask.getLsbD plane = true → ∀ l ∈ linesOf t plane, l.page ≠ id)
        ∧ RowFrame s1 t)

/-- PAGE_CANCEL of a BOUND or FIRING page cuts it at m, the greatest next-line index over its rows: the reply, last,
carries m and the lines withdrawn, w; the page, if it is still in the queue, has length m and is cancelled; no
stored line of it is left at or above m in the planes of its mask; the tail end follows when it was the most
recently bound page. The act itself, before what compositions, rows and loaders make of it (`settle`): WITHDRAWN rises by
w, the unretired count falls by w for each row of the page's heads, the heads' WITHDRAWN counters rise by w for each of
their rows, the arrival pointers stand at m at most, the stored lines at or above m are freed, FULL buffers of
withdrawn lines are EMPTY and LOADING ones spent, and nothing else changes. With an unretired count of 0, as for
a BOUND page, the page leaves the queue with PAGE_DONE CANCELLED, before any event of the rows (R49, R50, R65, R119; that
order is the model's choice: log 35) and before the reply, offered to the event queue (`offered`, R163). -/
def Obligations.CancelOfABoundPageCutsIt : Prop :=
  ∀ (s s1 : State) (tag : BitVec 16) (id m : Nat) (p : Page), id < 65536 →
    TakesControl s 0x31#8 tag (leBytes 2 id) s1 → s.engine = .run →
    pageById s id = some p → p.pstate ≠ .queued →
    (∀ n ∈ p.passed.toList.flatten, n ≤ m) → (m = 0 ∨ m ∈ p.passed.toList.flatten) →
    let w := p.length - m
    (∃ u q,
      exec .pageCancel s
        = .next (movedOn (replied .control 0x31#8 tag .ok (leBytes 4 m ++ leBytes 4 w) (settle u)))
      ∧ q.id = id ∧ q.length = m ∧ q.cancelled = true ∧ q.counts = put p.counts 6 (look p.counts 6 0 + w)
      ∧ q.unretired = p.unretired - w * (p.passed.toList.map List.length).sum
      ∧ (∀ plane, look q.arrival plane 0 = min (look p.arrival plane 0) m)
      ∧ q.passed = p.passed ∧ q.origin = p.origin ∧ q.pstate = p.pstate ∧ q.mask = p.mask ∧ q.mode = p.mode
      ∧ q.gap = p.gap ∧ q.underrun = p.underrun
      ∧ (q.unretired ≠ 0 → u.pages = s.pages.map (fun x => if x.id = id then q else x) ∧ u.outgoing = s.outgoing
          ∧ SameEvents s u ∧ u.tailPage = s.tailPage)
      ∧ (q.unretired = 0 → u.pages = s.pages.filter (fun x => x.id ≠ id)
          ∧ u.outgoing = (offered (.pageDone id .cancelled m q.counts) s).outgoing
          ∧ SameEvents (offered (.pageDone id .cancelled m q.counts) s) u
          ∧ u.tailPage = (if s.tailPage = some id then none else s.tailPage))
      ∧ (∀ plane, plane < 8 → linesOf u plane = if p.mask.getLsbD plane
          then (linesOf s plane).filter (fun l => l.page ≠ id ∨ l.line < m) else linesOf s plane)
      ∧ (∀ h r row, rowAt s h r = some row → rowAt u h r = some ⟨match row.buf with
          | .full e k => if e.page = id ∧ m ≤ e.line then .empty else .full e k
          | .loading e b => if e.page = id ∧ m ≤ e.line then .loading e true else .loading e b
          | .empty => .empty, row.fire⟩)
      ∧ (∀ h, h < 24 → look (headGroup u h) 6 0
          = min 4294967295 (look (headGroup s h) 6 0 + w * (look p.passed h []).length))
      ∧ (∀ h i, i ≠ 6 → look (headGroup u h) i 0 = look (headGroup s h) i 0)
      ∧ u.tailEnd = (if s.tailPage = some id then some (p.origin.getD 0 + 32 * m) else s.tailEnd)
      ∧ u.loaders = s.loaders ∧ u.planeCtrs = s.planeCtrs ∧ u.sched = s.sched
      ∧ RowFrame { s with handler := .free } u) ∧
    (p.unretired ≤ w * (p.passed.toList.map List.length).sum →
      ∀ t, exec .pageCancel s = .next t → ∀ q ∈ t.pages, q.id ≠ id) ∧
    ∃ t evs, exec .pageCancel s = .next t
      ∧ t.outgoing = s.outgoing ++ evs
          ++ [.reply ⟨.ok, 0x31#8, tag, some .control, leBytes 4 m ++ leBytes 4 (p.length - m)⟩]
      ∧ (∀ o ∈ evs, o.isEvent = true)
      ∧ (∀ q ∈ t.pages, q.id = id → q.length = m ∧ q.cancelled = true ∧ q.origin = p.origin)
      ∧ (∀ plane, plane < 8 → p.mask.getLsbD plane = true → ∀ l ∈ linesOf t plane, l.page = id → l.line < m)
      ∧ t.tailEnd = (if s.tailPage = some id then some (p.origin.getD 0 + 32 * m) else s.tailEnd)
      ∧ RowFrame s1 t

/-! ## The cue tracker -/

/-- A cue edge that comes alone (log 33; `s1` is `s` with that used up). In SETUP it is not taken. In RUN, with P_raw
below H_raw it is counted as ignored in reverse and nothing else changes; inside the hold-off it is counted as ignored
for hold-off and nothing else changes (R20, R21, R22). -/
def Obligations.IgnoredCueEdges : Prop :=
  (∀ s s1 : State, CueComes .nothing s s1 → s.engine = .setup → exec .cueEdge s = .next s1) ∧
  (∀ s s1 : State, CueComes .nothing s s1 → s.engine = .run → s.pRaw < s.hRaw →
    exec .cueEdge s = .next (bumpMotion .ignoredReverse 1 s1)) ∧
  (∀ (s s1 : State) (last : Nat), CueComes .nothing s s1 → s.engine = .run → s.hRaw ≤ s.pRaw →
    s.lastAccepted = some last → s.pRaw / 4096 < last + s.cueCfg.holdOff →
    exec .cueEdge s = .next (bumpMotion .ignoredHoldOff 1 s1))

/-- An accepted cue, come alone (log 33), taken while UNLOCKED is a hard sync at Pc: with Q above 0 the tracker locks,
predicts Pc + Q and raises CUE_LOCKED; with Q equal to 0 it stays UNLOCKED and raises nothing. The cue is then offered
with origin Pc + Oc (R22, R23, R29, R31). CUE_LOCKED is offered to the event queue (`offered`, R163). -/
def Obligations.HardSyncTakesTheCue : Prop :=
  ∀ (s s1 : State) (pc : Nat), CueComes .nothing s s1 → s.engine = .run → s.lock = .unlocked →
    s.hRaw ≤ s.pRaw → pc = s.pRaw / 4096 →
    (∀ last, s.lastAccepted = some last → last + s.cueCfg.holdOff ≤ pc) →
    (0 < s.cueCfg.pitch → exec .cueEdge s = .next (takeOffer (pc + s.cueCfg.offset) .edge
      (offered (.cueLocked pc (pc + s.cueCfg.pitch))
        { bumpMotion .cuesAccepted 1 s1 with
          lock := .locked, smoothed := pc, lastAccepted := some pc
          predicted := pc + s.cueCfg.pitch, flywheel := 0 }))) ∧
    (s.cueCfg.pitch = 0 → exec .cueEdge s = .next (takeOffer (pc + s.cueCfg.offset) .edge
      { bumpMotion .cuesAccepted 1 s1 with smoothed := pc, lastAccepted := some pc }))

/-- An accepted cue, come alone (log 33), taken while LOCKED, with error e: inside the capture window the smoothed cue
becomes the prediction plus e limited to -J to J, and no event is raised; outside it the tracker relocks at Pc, counts
it and raises CUE_RELOCK. Either way the prediction follows at Q, the flywheel count is 0, and the cue is offered with
origin the smoothed cue plus Oc (R22, R24, R25, R29). CUE_RELOCK is offered to the event queue (`offered`, R163). -/
def Obligations.LockedCueCorrectsOrRelocks : Prop :=
  ∀ (s s1 : State) (pc sm : Nat) (e : Int), CueComes .nothing s s1 → s.engine = .run → s.lock = .locked →
    s.hRaw ≤ s.pRaw →
    pc = s.pRaw / 4096 → (∀ last, s.lastAccepted = some last → last + s.cueCfg.holdOff ≤ pc) →
    e = (pc : Int) - (s.predicted : Int) →
    (-(s.cueCfg.window : Int) ≤ e → e ≤ (s.cueCfg.window : Int) →
      (sm : Int) = (s.predicted : Int)
        + (if e < -(s.cueCfg.jump : Int) then -(s.cueCfg.jump : Int)
           else if (s.cueCfg.jump : Int) < e then (s.cueCfg.jump : Int) else e) →
      exec .cueEdge s = .next (takeOffer (sm + s.cueCfg.offset) .edge
        { bumpMotion .cuesAccepted 1 s1 with
          smoothed := sm, predicted := sm + s.cueCfg.pitch, flywheel := 0, lastAccepted := some sm })) ∧
    ((e < -(s.cueCfg.window : Int) ∨ (s.cueCfg.window : Int) < e) →
      exec .cueEdge s = .next (takeOffer (pc + s.cueCfg.offset) .edge
        (offered (.cueRelock pc s.predicted e)
          (bumpMotion .relocks 1 { bumpMotion .cuesAccepted 1 s1 with
            smoothed := pc, predicted := pc + s.cueCfg.pitch, flywheel := 0, lastAccepted := some pc }))))

/-- An arrival of H_int at a LOCKED tracker with no page in the queue: below the flywheel point nothing happens; at or
past it with a count of 0 or 1 a cue is synthesized at the prediction, counted, and offered; with a count of 2
the lock is lost with CUE_LOST and nothing is offered (R26, R27, R43). Where the next flywheel point is reached as well
the test is repeated, so that cues are synthesized and offered in turn and the third miss ends the lock, with pages in the
queue or without. An ENCODER_CHANGE or PACE_EXPIRY presents the
arrival when it has raised H_int (R11). At every arrival, whatever the queue, the tracker, every row and every loader has
its turn, the acts of the free order first (log 8); a page bound in the tracker's turn lets rows and loaders go there
(log 36). A cue edge that comes together with one and is taken first is measured at the
position reached, and the arrival follows it: past the old flywheel point it relocks, and the arrival changes
nothing more of the tracker (R28; what it comes together with is free: log 33). Only the free scheduling
order is used up besides. Events are offered to the event queue (`offered`, R163). -/
def Obligations.FlywheelCoversAMissingCue : Prop :=
  (∀ s : State, s.pages = [] → arrival s = flywheelTurn 3 { s with sched := s.sched.tail }) ∧
  (∀ s : State, s.pages = [] → s.lock = .locked →
    let point := s.predicted + s.cueCfg.window + 1
    let s1 := { s with sched := s.sched.tail }
    (s.hRaw / 4096 < point → arrival s = s1) ∧
    (point ≤ s.hRaw / 4096 → s.hRaw / 4096 < point + s.cueCfg.pitch → s.flywheel ≤ 1 →
      arrival s = offered (.cueUnused (s.predicted + s.cueCfg.offset) .synthesized)
        (bumpMotion .unusedCues 1 (bumpMotion .synthesized 1
          { s1 with smoothed := s.predicted, lastAccepted := some s.predicted
                    flywheel := s.flywheel + 1, predicted := s.predicted + s.cueCfg.pitch }))) ∧
    (point ≤ s.hRaw / 4096 → s.flywheel = 2 →
      arrival s = offered (.cueLost s.predicted (s.hRaw / 4096))
        { s1 with lock := .unlocked, flywheel := 0 })) ∧
  (∀ s : State, arrival s = (s.sched.headD [] ++ [SchedAct.cue]
      ++ ((List.range 24).flatMap fun h => (List.range (rowsOf s h).length).map fun r => SchedAct.row h r)
      ++ (List.range 24).map SchedAct.load).foldl
    (fun (u : State) (a : SchedAct) => match a with
      | .cueOnce => flywheelTurn 1 u
      | .cue => flywheelTurn 3 u
      | .rowOnce h r => rowOnce h r u
      | .row h r => rowTurn h r u
      | .load h => loaderTurn h u) { s with sched := s.sched.tail }) ∧
  (∀ s : State,
    let point := s.predicted + s.cueCfg.window + 1
    let synthesized := takeOffer (s.predicted + s.cueCfg.offset) .synthesized (bumpMotion .synthesized 1
      { s with smoothed := s.predicted, lastAccepted := some s.predicted
               flywheel := s.flywheel + 1, predicted := s.predicted + s.cueCfg.pitch })
    let lost := offered (.cueLost s.predicted (s.hRaw / 4096)) { s with lock := .unlocked, flywheel := 0 }
    (s.lock = .unlocked ∨ s.hRaw / 4096 < point → ∀ n, flywheelTurn n s = s) ∧
    (s.lock = .locked → point ≤ s.hRaw / 4096 → s.flywheel ≤ 1 →
      flywheelTurn 1 s = synthesized ∧ flywheelTurn 3 s = flywheelTurn 3 synthesized) ∧
    (s.lock = .locked → point ≤ s.hRaw / 4096 → s.hRaw / 4096 < point + s.cueCfg.pitch → s.flywheel ≤ 1 →
      flywheelTurn 3 s = synthesized) ∧
    (s.lock = .locked → point ≤ s.hRaw / 4096 → s.flywheel = 2 →
      flywheelTurn 1 s = lost ∧ flywheelTurn 3 s = lost)) ∧
  (∀ (s : State) (a b : Bool), exec (.encoderChange a b) s = .next (present s (stepTogether (.encoder a b) s))
    ∧ exec .paceExpiry s = .next (present s (stepTogether .pace s))) ∧
  (∀ s moved : State, present s moved = if s.hRaw / 4096 < moved.hRaw / 4096 then arrival moved else moved) ∧
  (∀ (s s1 moved : State) (together : CueWith), CueComes together s s1 → moved = stepTogether together s1 →
    (∃ t, exec .cueEdge s = .next t ∧ CoreFrame s1 t ∧ t.pRaw = moved.pRaw ∧ t.hRaw = moved.hRaw) ∧
    (moved.hRaw / 4096 ≤ s.hRaw / 4096 → ∀ u, CueComes .nothing u moved → exec .cueEdge s = exec .cueEdge u) ∧
    (s.hRaw / 4096 < moved.hRaw / 4096 → s.pages = [] →
      (∀ u t, CueComes .nothing u { moved with sched := moved.sched.tail } → exec .cueEdge u = .next t →
        exec .cueEdge s = .next (arrival t)) ∧
      (moved.engine = .run → moved.lock = .locked → moved.pRaw = moved.hRaw →
        moved.predicted + moved.cueCfg.window + 1 ≤ moved.hRaw / 4096 →
        (∀ last, moved.lastAccepted = some last → last + moved.cueCfg.holdOff ≤ moved.hRaw / 4096) →
        let pc := moved.hRaw / 4096
        exec .cueEdge s = .next (offered (.cueUnused (pc + moved.cueCfg.offset) .edge)
          (bumpMotion .unusedCues 1 (offered (.cueRelock pc moved.predicted ((pc : Int) - (moved.predicted : Int)))
            (bumpMotion .relocks 1 { bumpMotion .cuesAccepted 1 moved with
              sched := moved.sched.tail.tail, smoothed := pc, predicted := pc + moved.cueCfg.pitch
              flywheel := 0, lastAccepted := some pc })))))))

/-! ## Motion -/

/-- A change of the encoder pair in RUN with source EXTERNAL that R5 classes forward or reverse, the two exchanged by
invert (R6), moves P by S_raw, saturating at 2^60 - 1 (R8) or clamped at 0 (R9); H takes the greater of H and P
(R10); the decoder reference takes the new pair; configuration, health, banks and the rest of `CoreFrame` stay. -/
def Obligations.EncoderEdgeMovesThePosition : Prop :=
  ∀ (s : State) (a b : Bool) (forward : Bool), s.engine = .run → s.motionCfg.source = .external →
    (⟨a, b⟩ : EncPair) ≠ s.encPins →
    ((s.decRef, (⟨a, b⟩ : EncPair)) ∈
        (if forward = s.motionCfg.invert then
          [(⟨false, true⟩, ⟨false, false⟩), (⟨true, true⟩, ⟨false, true⟩), (⟨true, false⟩, ⟨true, true⟩),
           (⟨false, false⟩, ⟨true, false⟩)]
        else
          [(⟨false, false⟩, ⟨false, true⟩), (⟨false, true⟩, ⟨true, true⟩), (⟨true, true⟩, ⟨true, false⟩),
           (⟨true, false⟩, ⟨false, false⟩)] : List (EncPair × EncPair))) →
    ∃ t, exec (.encoderChange a b) s = .next t
      ∧ t.pRaw = (if forward then
            min (s.pRaw + (4096 * s.motionCfg.stepInt + s.motionCfg.stepFrac)) 1152921504606846975
          else s.pRaw - (4096 * s.motionCfg.stepInt + s.motionCfg.stepFrac))
      ∧ t.hRaw = max s.hRaw t.pRaw ∧ t.decRef = ⟨a, b⟩ ∧ t.encPins = ⟨a, b⟩ ∧ t.pace = s.pace
      ∧ CoreFrame s t

/-- A change of the pair that is no step: in RUN with source EXTERNAL, both inputs differing from the reference is a
glitch, counted, and moves nothing; in RUN with source INTERNAL it is not taken; in SETUP the reference follows.
The same pair again is no change (R4, R5, R16; the last is log 29's). -/
def Obligations.EncoderChangesThatAreNoSteps : Prop :=
  ∀ (s : State) (a b : Bool),
    ((⟨a, b⟩ : EncPair) = s.encPins → exec (.encoderChange a b) s = .next s) ∧
    ((⟨a, b⟩ : EncPair) ≠ s.encPins → s.engine = .setup →
      exec (.encoderChange a b) s = .next { s with encPins := ⟨a, b⟩, decRef := ⟨a, b⟩ }) ∧
    ((⟨a, b⟩ : EncPair) ≠ s.encPins → s.engine = .run → s.motionCfg.source = .internal →
      exec (.encoderChange a b) s = .next { s with encPins := ⟨a, b⟩ }) ∧
    ((⟨a, b⟩ : EncPair) ≠ s.encPins → s.engine = .run → s.motionCfg.source = .external →
      s.decRef.a = !a → s.decRef.b = !b →
      exec (.encoderChange a b) s
        = .next (bumpMotion .glitches 1 { s with encPins := ⟨a, b⟩, decRef := ⟨a, b⟩ }))

/-- After each edge, whether invert exchanges its direction or not, the deficit is tested. While H_int does not rise the
edge is presented to nobody and, besides P and the pair or the timer, changes only what the test changes: ARMED, a
deficit above the reverse limit raises REVERSE_LIMIT with P_int, H_int and the limit and becomes RAISED; RAISED, a
deficit at or below it re-arms and raises nothing; otherwise the condition stays (R6, R8, R9, R11, R13). A forward
edge that carries P to H or past it leaves the condition ARMED. REVERSE_LIMIT is offered to the event queue. With 64
events there it is dropped: the outgoing order and the numbering stay, the lost count and events lost rise by 1, and the
condition is RAISED all the same (R163). -/
def Obligations.ReverseEdgeTestsTheDeficit : Prop :=
  let step := fun s : State => 4096 * s.motionCfg.stepInt + s.motionCfg.stepFrac
  let tested := fun (s : State) (p : Nat) (moved : State) =>
    if s.motionCfg.reverseLimit < s.hRaw / 4096 - p / 4096 then
      if s.revCond = .armed then
        offered (.reverseLimit (p / 4096) (s.hRaw / 4096) s.motionCfg.reverseLimit) { moved with revCond := .raised }
      else moved
    else { moved with revCond := .armed }
  (∀ (s : State) (a b forward : Bool) (p : Nat), s.engine = .run → s.motionCfg.source = .external →
    (⟨a, b⟩ : EncPair) ≠ s.encPins →
    ((s.decRef, (⟨a, b⟩ : EncPair)) ∈
        (if forward = s.motionCfg.invert then
          [(⟨false, true⟩, ⟨false, false⟩), (⟨true, true⟩, ⟨false, true⟩), (⟨true, false⟩, ⟨true, true⟩),
           (⟨false, false⟩, ⟨true, false⟩)]
        else
          [(⟨false, false⟩, ⟨false, true⟩), (⟨false, true⟩, ⟨true, true⟩), (⟨true, true⟩, ⟨true, false⟩),
           (⟨true, false⟩, ⟨false, false⟩)] : List (EncPair × EncPair))) →
    p = (if forward then min (s.pRaw + step s) 1152921504606846975 else s.pRaw - step s) →
    (p ≤ s.hRaw → exec (.encoderChange a b) s
      = .next (tested s p { s with encPins := ⟨a, b⟩, decRef := ⟨a, b⟩, pRaw := p })) ∧
    (s.hRaw ≤ p → ∃ t, exec (.encoderChange a b) s = .next t ∧ t.revCond = .armed)) ∧
  (∀ (s : State) (left p : Nat), s.pace = .running left → p = min (s.pRaw + step s) 1152921504606846975 →
    (p ≤ s.hRaw → exec .paceExpiry s
      = .next (tested s p { s with pace := .running s.motionCfg.paceInterval, pRaw := p })) ∧
    (s.hRaw ≤ p → ∃ t, exec .paceExpiry s = .next t ∧ t.revCond = .armed)) ∧
  (∀ (s : State) (p : Nat) (moved : State), 64 ≤ moved.eventCount → s.revCond = .armed →
    s.motionCfg.reverseLimit < s.hRaw / 4096 - p / 4096 → tested s p moved = { moved with
      revCond := .raised, lostCount := min (moved.lostCount + 1) 4294967295
      linkCtrs := put moved.linkCtrs 4 (min (look moved.linkCtrs 4 0 + 1) 4294967295) })

/-- An expiry of the running pace timer is one forward edge whatever invert says, and the timer starts again with a
full interval; with the timer STOPPED there is no expiry to take (R7, R8, R10; the last is log 2's). -/
def Obligations.PaceExpiryIsAForwardEdge : Prop :=
  (∀ (s : State) (left : Nat), s.pace = .running left →
    ∃ t, exec .paceExpiry s = .next t
      ∧ t.pRaw = min (s.pRaw + (4096 * s.motionCfg.stepInt + s.motionCfg.stepFrac)) 1152921504606846975
      ∧ t.hRaw = max s.hRaw t.pRaw ∧ t.pace = .running s.motionCfg.paceInterval
      ∧ t.decRef = s.decRef ∧ t.encPins = s.encPins ∧ CoreFrame s t) ∧
  (∀ s : State, s.pace = .stopped → exec .paceExpiry s = .next s)

/-! ## The line store -/

/-- A BAND in RUN goes through five checks in order: page, plane, arrival order, bounds and length, room. The first
that fails refuses it whole with that check's status and values, and only NO_SPACE counts; a BAND that passes
begins a storing that reserves the slots counted, and nothing else changes (R55 to R58, R60, R165). When check 3 fails
on both its conditions, that the reply names the page ahead is the model's choice (log 31), and that a page of a reused
id without the plane fails check 2 is the model's reading (log 34). The slots needed are the lines with a consumer, and
a line's consumers are the rows of the plane's heads that have not passed it, none for a page that has left the
queue (R58, R59). -/
def Obligations.BandIsCheckedThenStored : Prop :=
  (∀ (s : State) (page plane n : Nat),
    (pageById s page = none → consumerCount s page plane n = 0) ∧
    ∀ g, pageById s page = some g → consumerCount s page plane n
      = (((List.range 24).flatMap fun h => (List.range (look g.passed h []).length).map fun r => (h, r)).countP
          fun x => headPlane s x.1 = some plane && (g.nextLine x.1 x.2).any fun k => k ≤ n)) ∧
  (∀ (s : State) (page plane count first : Nat), slotsNeeded s ⟨page, plane, count, first⟩
    = (List.range count).countP fun i => consumerCount s page plane (first + i) ≠ 0) ∧
  ∀ (s s1 : State) (tag : BitVec 16) (id plane count first : Nat) (data : List Byte), id < 65536 →
    plane < 256 → count < 256 → first < 4294967296 → s.engine = .run →
    TakesData s 0x80#8 tag (leBytes 2 id ++ leBytes 1 plane ++ leBytes 1 count ++ leBytes 4 first ++ data) s1 →
    let refused := fun status body t => exec .band s = .next (replied .data 0x80#8 tag status body t)
    ((∀ p ∈ s.pages, p.id ≠ id) → refused .noSuchPage [] s1) ∧
    (∀ pre g post, s.pages = pre ++ g :: post → g.id = id → (s.pages.map Page.id).Nodup →
      let ptr := look g.arrival plane 0
      let block := pre.find? fun q => q.mask.getLsbD plane && look q.arrival plane 0 ≠ q.length
      let width := planeWidth s plane
      let fits := 1 ≤ count ∧ count ≤ 64 ∧ first + count ≤ g.length
        ∧ data.length = count * ((width + 3) / 4)
      let needed := slotsNeeded s ⟨id, plane, count, first⟩
      ((7 < plane ∨ g.mask.getLsbD plane = false) → refused .badArgument [] s1) ∧
      (plane ≤ 7 → g.mask.getLsbD plane = true → first ≠ ptr → block = none →
        refused .order (leBytes 4 ptr ++ [0, 0, 0]) s1) ∧
      (∀ q, plane ≤ 7 → g.mask.getLsbD plane = true → block = some q →
        refused .order (leBytes 4 ptr ++ [1] ++ leBytes 2 q.id) s1) ∧
      (plane ≤ 7 → g.mask.getLsbD plane = true → first = ptr → block = none → ¬ fits →
        refused .badArgument [] s1) ∧
      (plane ≤ 7 → g.mask.getLsbD plane = true → first = ptr → block = none → fits →
        freeSlots s plane < needed →
        refused .noSpace (leBytes 2 (freeSlots s plane) ++ leBytes 1 needed) (bumpPlane plane .noSpace 1 s1)) ∧
      (plane ≤ 7 → g.mask.getLsbD plane = true → first = ptr → block = none → fits →
        needed ≤ freeSlots s plane →
        ∃ lines : List (List Level), exec .band s
            = .next { s with handler := .storing ⟨tag, id, plane, first, lines, needed⟩ }
          ∧ lines.length = count
          ∧ (∀ (i : Nat) (row : List Level), lines[i]? = some row → row.length = width
            ∧ ∀ (c : Nat) (l : Level), row[c]? = some l →
              l.val = ((data.getD (i * ((width + 3) / 4) + c / 4) 0).toNat / 4 ^ (c % 4)) % 4)
          ∧ freeSlots { s with handler := .storing ⟨tag, id, plane, first, lines, needed⟩ } plane + needed
              = freeSlots s plane))

/-- A storing ends, in one act. The wanted lines, those some row has still to retire, join the plane's line list at its
tail, in line order, as sent, with their consumer counts taken afresh and not composed; the others are discarded;
lines stored, lines discarded late and peak occupancy move by that, and the arrival pointer of the page, if it is still
in the queue, by the count. Then compositions, rows and loaders follow (`settle`), and the reply with the two numbers,
which add up to the count, comes after any event of the act; the handler moves on (R60, R61, R62, R68, R157). With no
page bound nothing else follows but the use of a free order (log 8). With no storing in progress nothing ends
(log 2). -/
def Obligations.StoringEndJoinsOrDiscards : Prop :=
  (∀ (s : State) (op : Storing), s.handler = .storing op → op.plane < 8 →
    let consumers := fun i => consumerCount s op.page op.plane (op.first + i)
    let wanted : List StoredLine := (List.range op.lines.length).filterMap fun i =>
      if 0 < consumers i then some ⟨op.page, op.first + i, op.lines.getD i [], consumers i, none⟩ else none
    let stored := wanted.length
    let discarded := op.lines.length - stored
    let counters := planeGroup s op.plane
    let peak := max (look counters 3 0) (min ((linesOf s op.plane).length + stored) 4294967295)
    let act : State := { s with
      handler := .free
      lines := put s.lines op.plane (linesOf s op.plane ++ wanted)
      pages := match pageById s op.page with
        | some g => s.pages.map fun q => if q.id = op.page then
            { g with arrival := put g.arrival op.plane (look g.arrival op.plane 0 + op.lines.length) } else q
        | none => s.pages
      planeCtrs := put s.planeCtrs op.plane
        (put (put (put counters 0 (min (look counters 0 0 + stored) 4294967295))
          1 (min (look counters 1 0 + discarded) 4294967295)) 3 peak) }
    let reply := leBytes 1 stored ++ leBytes 1 discarded
    exec .storingEnd s = .next (movedOn (replied .data 0x80#8 op.tag .ok reply (settle act)))
    ∧ ((∀ p ∈ s.pages, p.origin = none) → exec .storingEnd s
        = .next (movedOn (replied .data 0x80#8 op.tag .ok reply { act with sched := s.sched.tail })))
    ∧ stored + discarded = op.lines.length
    ∧ ∃ t evs, exec .storingEnd s = .next t
      ∧ t.outgoing = s.outgoing ++ evs ++ [.reply ⟨.ok, 0x80#8, op.tag, some .data, reply⟩]
      ∧ (∀ o ∈ evs, o.isEvent = true)
      ∧ (∀ l ∈ linesOf t op.plane, ∃ k ∈ linesOf s op.plane ++ wanted, k.page = l.page ∧ k.line = l.line)
      ∧ (∀ g q, pageById s op.page = some g → q ∈ t.pages → q.id = op.page →
          look q.arrival op.plane 0 = look g.arrival op.plane 0 + op.lines.length)
      ∧ RowFrame (movedOn s) t) ∧
  (∀ s : State, (∀ op, s.handler ≠ .storing op) → exec .storingEnd s = .next s)

/-! ## Composition and the nozzle map -/

/-- The stitch choice is the right head when the threshold lies below the ramp value, which lies between 1 and 255 and
grows with j; over any sixteen consecutive lines it is therefore the right head on ceil((w_j - 8) / 16) lines when
w_j exceeds 8, and on none otherwise (R89). -/
def Obligations.StitchShareOfTheRightHead : Prop :=
  ∀ n w j : Nat, j < w → w ≤ 64 →
    choosesB n w j = decide (([8, 136, 72, 200, 40, 168, 104, 232, 24, 152, 88, 216, 56, 184, 120, 248].getD
      ((n + 7 * j) % 16) 0 : Nat) < (j + 1) * 256 / (w + 1)) ∧
    1 ≤ (j + 1) * 256 / (w + 1) ∧ (j + 1) * 256 / (w + 1) ≤ 255 ∧
    (∀ k, j < k → k < w → (j + 1) * 256 / (w + 1) < (k + 1) * 256 / (w + 1)) ∧
    (List.range 16).countP (fun i => choosesB (n + i) w j)
      = (let wj := (j + 1) * 256 / (w + 1)
         if wj ≤ 8 then 0 else (wj - 8 + 15) / 16)

/-- The override of a pair column, by the effective statuses of the chosen and the other nozzle (R90). -/
def Obligations.OverrideFollowsItsTable : Prop :=
  ∀ (eff : Nat → Nat → ColStatus) (n a i b k w j : Nat),
    let chosen := if choosesB n w j then b else a
    let other := if choosesB n w j then a else b
    let sc := if choosesB n w j then eff b k else eff a i
    let so := if choosesB n w j then eff a i else eff b k
    let result := assignColumn eff n (.pair a i b k w j)
    (sc = .unavailable → so ≠ .unavailable → result = (some other, so)) ∧
    (sc = .unavailable → so = .unavailable → result = (none, .unavailable)) ∧
    (sc = .weak → so = .good → result = (some other, .good)) ∧
    (sc = .weak → so ≠ .good → result = (some chosen, .weak)) ∧
    (sc = .good → result = (some chosen, .good))

/-- In every composed line the output levels and the units lost add up to the raw levels; each column's output is the
lesser of 3 and its base with what its two neighbours give it (R91 to R93). A stored line that is the next entry of a
row and not yet composed takes, once, the record of its columns as raw levels, decode, map and availability stand, and
drops lost rises by the units lost; a line already composed stays, and nothing else changes (R84 to R86, R94). A single
column prints by its head unless its nozzle is UNAVAILABLE (R88). A row's share reads the record (R95). -/
def Obligations.CompositionConservesUnits : Prop :=
  (∀ cols : List Column,
    ((composedRecord cols).map fun c => c.level.val).sum + unitsLost cols
      = (cols.map fun c => c.raw.val).sum) ∧
  (∀ cols : List Column,
    let at_ := fun i => cols.getD i ⟨0, .unavailable, none⟩
    let base := fun c : Column => match c.status with
      | .good => c.raw.val
      | .weak => min c.raw.val 1
      | .unavailable => 0
    let excess := fun i => (at_ i).raw.val - base (at_ i)
    let left := fun i => 0 < i ∧ (at_ (i - 1)).status = .good
    let right := fun i => (at_ (i + 1)).status = .good
    let toLeft := fun i => if left i then (if right i then (excess i + 1) / 2 else excess i) else 0
    let toRight := fun i => if right i then (if left i then excess i - (excess i + 1) / 2 else excess i) else 0
    (composedRecord cols).length = cols.length ∧
    ∀ i c, cols[i]? = some c → ∃ k, (composedRecord cols)[i]? = some k ∧ k.assignee = c.assignee
      ∧ k.level.val = min 3 (base c + (if 0 < i then toRight (i - 1) else 0) + toLeft (i + 1))) ∧
  (∀ (s : State) (p : Nat) (e : Entry) (l : StoredLine), p < 8 → storedLine s p e = some l →
    (l.composed ≠ none → composeLine p l s = s) ∧
    (∀ d, l.composed = none → look s.decode p none = some d →
      let cols := readColumns s d l.line l.raw
      let t := composeLine p l s
      storedLine t p e = some { l with composed := some (composedRecord cols) }
      ∧ (∀ f, f ≠ e → storedLine t p f = storedLine s p f) ∧ (∀ q, q ≠ p → linesOf t q = linesOf s q)
      ∧ look (planeGroup t p) 6 0 = min 4294967295 (look (planeGroup s p) 6 0 + unitsLost cols)
      ∧ (∀ q i, q ≠ p ∨ i ≠ 6 → look (planeGroup t q) i 0 = look (planeGroup s q) i 0)
      ∧ t = { s with lines := t.lines, planeCtrs := t.planeCtrs }) ∧
    (∀ h r, nextEntry s h r = some e → headPlane s h = some p → composeNext h r s = composeLine p l s)) ∧
  (∀ (s : State) (d : PlaneDecode) (n i : Nat) (raw : List Level) (l : Level), i < d.width → raw[i]? = some l →
    ∃ c, (readColumns s d n raw)[i]? = some c ∧ c.raw = l
      ∧ (c.assignee, c.status) = assignColumn (effStatus s) n (colForm d.spans i)) ∧
  (∀ (s : State) (h i : Nat),
    (available s h = true ↔ ∃ k, look s.health h none = some k
      ∧ (k.state = .active ∨ k.state = .warned ∨ k.state = .degraded)) ∧
    (effStatus s h i = .unavailable ↔ available s h = false ∨ nozzleStatus s h i = .dead) ∧
    (effStatus s h i = .weak ↔ available s h = true ∧ nozzleStatus s h i = .weak)) ∧
  (∀ (eff : Nat → Nat → ColStatus) (n h i : Nat), assignColumn eff n (.single h i)
    = (if eff h i = .unavailable then none else some h, eff h i)) ∧
  (∀ (h r : Nat) (c : HeadCfg) (record : List ComposedCol), (shareOf h c r record).length = c.n / c.r
    ∧ ∀ k, k < c.n / c.r → (shareOf h c r record)[k]? = some (match record[c.x + (r + c.r * k)]? with
      | some col => if col.assignee = some h then col.level else 0
      | none => 0))

/-- NOZZLE_MARK, in either engine state: with every value in range each named entry becomes the worst of itself and
all statuses requested of it, no other entry changes, and the reply gives each pair's entry as it stood after that
pair; a value out of range, or a body that does not fit its count of pairs, is refused with BAD_ARGUMENT (R98). Statuses are compared by their codes, which rise
from better to worse. NOZZLE_CLEAR makes all entries of the head GOOD and leaves the other heads'; a head number of
24 or above is refused with BAD_ARGUMENT (R99). -/
def Obligations.NozzleMarkWorsensAndClearRestores : Prop :=
  (∀ (s s1 : State) (tag : BitVec 16) (head : Nat) (pairs : List (Nat × NozzleStatus)), head < 24 →
    1 ≤ pairs.length → pairs.length ≤ 256 → (∀ p ∈ pairs, p.1 < 2048) → nozzlesWf s →
    TakesControl s 0x40#8 tag (leBytes 1 head ++ leBytes 2 pairs.length
      ++ pairs.flatMap (fun p => leBytes 2 p.1 ++ leBytes 1 p.2.code)) s1 →
    ∃ (map : Vector (List (Nat × NozzleStatus)) 24) (results : List Nat), exec .nozzleMark s = .next (replied .control 0x40#8 tag .ok
        (leBytes 2 pairs.length ++ results.flatMap (leBytes 1)) { s1 with nozzles := map })
      ∧ (∀ h i, (nozzleStatus { s1 with nozzles := map } h i).code =
          if h = head then
            ((pairs.filter fun p => p.1 = i).map fun p => p.2.code).foldl max (nozzleStatus s h i).code
          else (nozzleStatus s h i).code)
      ∧ results.length = pairs.length
      ∧ (∀ j p, pairs[j]? = some p → results[j]? =
          some ((((pairs.take (j + 1)).filter fun x => x.1 = p.1).map fun x => x.2.code).foldl max
            (nozzleStatus s head p.1).code))) ∧
  (∀ (s s1 : State) (tag : BitVec 16) (head : Nat) (pairs : List (Nat × Nat)), head < 256 →
    pairs.length < 65536 → (∀ p ∈ pairs, p.1 < 65536 ∧ p.2 < 256) →
    (24 ≤ head ∨ pairs.length = 0 ∨ 256 < pairs.length ∨ ∃ p ∈ pairs, 2048 ≤ p.1 ∨ 2 < p.2) →
    TakesControl s 0x40#8 tag (leBytes 1 head ++ leBytes 2 pairs.length
      ++ pairs.flatMap (fun p => leBytes 2 p.1 ++ leBytes 1 p.2)) s1 →
    exec .nozzleMark s = .next (replied .control 0x40#8 tag .badArgument [] s1)) ∧
  (∀ (s s1 : State) (tag : BitVec 16) (body : List Byte), TakesControl s 0x40#8 tag body s1 →
    (body.length < 3 ∨ body.length ≠ 3 + 3 * field body 1 2) →
    exec .nozzleMark s = .next (replied .control 0x40#8 tag .badArgument [] s1)) ∧
  (∀ (s s1 : State) (tag : BitVec 16) (head : Nat), head < 256 → TakesControl s 0x41#8 tag (leBytes 1 head) s1 →
    (head < 24 → ∃ map, exec .nozzleClear s
        = .next (replied .control 0x41#8 tag .ok [] { s1 with nozzles := map })
      ∧ ∀ h i, nozzleStatus { s1 with nozzles := map } h i
          = if h = head then .good else nozzleStatus s h i) ∧
    (24 ≤ head → exec .nozzleClear s = .next (replied .control 0x41#8 tag .badArgument [] s1)))

/-! ## Rows, firing and waveforms -/

/-- A fire start: a FULL buffer whose entry is due on an IDLE row leaves the buffer EMPTY. With the buffer not FULL, the
row FIRING, or H_int below the due there is none, and the state stands. Within the late limit the
row is FIRING for the window length, with a FIRE frame that names the entry, its LOAD's sequence number and the
active bank's three records, and the entry is retired FIRED; beyond it the row stays IDLE and the entry is retired
OVERSPEED. The retirement is the one act that reports to page, line and counter. The window length is the settle plus
the greatest level length among the levels present (R112, R113, R116, R131, R132). The FIRE frame's 168 bits carry kind,
sequence, row, page id, line, the three records and the check over them (R137). -/
def Obligations.FireStartFiresOrOverspeeds : Prop :=
  (∀ (s : State) (h r : Nat) (e : Entry) (seq : BitVec 8) (p : Page) (plane d : Nat), h < 24 →
    rowAt s h r = some ⟨.full e seq, .idle⟩ → pageById s e.page = some p → headPlane s h = some plane →
    dueOf s h r e = some d → d ≤ s.hRaw / 4096 →
    (s.hRaw / 4096 - d ≤ s.motionCfg.lateLimit →
      (∃ window, rowAt (fireStart h r s) h r = some ⟨.empty, .firing window
          ⟨seq, r, e.page, e.line, (bankAt s s.activeBank).recs⟩⟩
        ∧ fireStart h r s = retire .fired h r e (setRow h r ⟨.empty, .firing window
          ⟨seq, r, e.page, e.line, (bankAt s s.activeBank).recs⟩⟩ s)
        ∧ ∀ l share, storedLine s plane e = some l → lineShare s h r l = some share →
            window = windowLength (bankAt s s.activeBank) share)
      ∧ look (headGroup (fireStart h r s) h) 0 0 = min 4294967295 (look (headGroup s h) 0 0 + 1)) ∧
    (s.motionCfg.lateLimit < s.hRaw / 4096 - d →
      rowAt (fireStart h r s) h r = some ⟨.empty, .idle⟩
      ∧ fireStart h r s = retire .overspeed h r e (setRow h r ⟨.empty, .idle⟩ s)
      ∧ look (headGroup (fireStart h r s) h) 5 0 = min 4294967295 (look (headGroup s h) 5 0 + 1)) ∧
    RowFrame s (fireStart h r s)) ∧
  (∀ (s : State) (h r : Nat), (∀ e seq d, rowAt s h r = some ⟨.full e seq, .idle⟩ → dueOf s h r e = some d →
    s.hRaw / 4096 < d) → fireStart h r s = s) ∧
  (∀ (b : Bank) (share : List Level) (len : Level → Nat),
    (∀ l : Level, l ≠ 0 → ∃ x, look b.recs (l.val - 1) none = some x
      ∧ len l = if x.pre = 0 then x.main else x.pre + x.gap + x.main) →
    (∀ l ∈ share, l ≠ 0 → b.settle + len l ≤ windowLength b share)
    ∧ ((∃ l ∈ share, l ≠ 0) → ∃ l ∈ share, l ≠ 0 ∧ windowLength b share = b.settle + len l)) ∧
  (∀ f : FireFrame, f.row < 256 → f.page < 65536 → f.line < 16777216 →
    let part := fun i n => bitsNat ((f.bits.drop i).take n)
    f.bits.length = 168 ∧ part 0 8 = 2 ∧ part 8 8 = f.seq.toNat ∧ part 16 8 = f.row ∧ part 24 16 = f.page
    ∧ part 40 24 = f.line
    ∧ (∀ i x, look f.recs i none = some x → x.pre < 256 → x.gap < 256 → x.main < 256 →
        part (64 + 24 * i) 8 = x.pre ∧ part (72 + 24 * i) 8 = x.gap ∧ part (80 + 24 * i) 8 = x.main)
    ∧ part 136 32 = (laneCrc32 (f.bits.take 136)).toNat)

/-- An entry of a bound page is due at its origin plus 32 for each line, the head's offset and the row's (R79). A row's
next entry is its earliest unretired entry, over the pages in queue order, outside its load buffer, if that entry's page
is bound, and it has none otherwise (R101, R103). A row is ripe when it has a next entry that is due and its buffer holds
no unretired entry (R104). The decision at
due takes the first case that applies: SKIPPED for a head out of service, UNDERRUN for a line not
stored, EMPTY for an empty share, pending otherwise (R104). A row's turn is its fire start and then the decision, made
again after each retirement until the row is not ripe or its entry is pending, the line of each next entry composed as
it is reached (R84, R105; the ids of the queue differ). A retirement raises the page's count and the head's counter
for the kind by 1, lowers the unretired count by 1 and moves a BOUND page to FIRING; the page's last one takes it out of
the queue. Its events are PAGE_STARTED for a BOUND page, the plane's first UNDERRUN, and PAGE_DONE for the last entry
with the status of R47, in this order; UNDERRUN sets the plane's flag (R46, R47, R106, R116, R117). A stored line's consumer count falls by 1, and at 0
the line is released and the release counted with the occupancy before it; no other line changes (R63, R64). A single act
of a turn is the fire start or one decision (log 8). -/
def Obligations.DecisionAndRetirementAtDue : Prop :=
  (∀ (s : State) (h r : Nat) (e : Entry) (plane : Nat), headPlane s h = some plane →
    (available s h = false → decisionAtDue s h r e = some .skipped) ∧
    (available s h = true → storedLine s plane e = none → decisionAtDue s h r e = some .underrun) ∧
    (∀ l share, available s h = true → storedLine s plane e = some l → lineShare s h r l = some share →
      (∀ x ∈ share, x = 0) → decisionAtDue s h r e = some .empty) ∧
    (∀ l share, available s h = true → storedLine s plane e = some l → lineShare s h r l = some share →
      (∃ x ∈ share, x ≠ 0) → decisionAtDue s h r e = none)) ∧
  (∀ (s : State) (h r : Nat) (e : Entry) (d : Nat), dueOf s h r e = some d ↔ ∃ p c o, pageById s e.page = some p
    ∧ look s.heads h none = some c ∧ p.origin = some o ∧ d = o + 32 * e.line + c.offset + c.offsets.getD r 0) ∧
  (∀ (s : State) (h r : Nat), (rowAt s h r = none → nextEntry s h r = none) ∧
    ∀ row, queueInv s → entriesInv s → rowAt s h r = some row → nextEntry s h r
      = ((rowEntries s h r).find? fun e => row.buf.held ≠ some e).filter fun e =>
          (pageById s e.page).any fun p => p.pstate ≠ .queued) ∧
  (∀ (s : State) (h r : Nat) (e : Entry), ripeEntry s h r = some e ↔ nextEntry s h r = some e
    ∧ (∃ d, dueOf s h r e = some d ∧ d ≤ s.hRaw / 4096)
    ∧ ∃ row, rowAt s h r = some row ∧ (row.buf = .empty ∨ ∃ f, row.buf = .loading f true)) ∧
  (∀ (s : State) (h r : Nat), (s.pages.map Page.id).Nodup →
    let u := composeNext h r (fireStart h r s)
    rowTurn h r s = (match ripeEntry u h r with
      | none => u
      | some e => match decisionAtDue u h r e with
        | none => u
        | some k => rowTurn h r (retire k h r e u))
    ∧ ∀ e, ripeEntry (rowTurn h r s) h r = some e → decisionAtDue (rowTurn h r s) h r e = none) ∧
  (∀ (s : State) (h r : Nat), rowOnce h r s = (match rowAt s h r with
    | some ⟨.full _ _, _⟩ => composeNext h r (fireStart h r s)
    | _ =>
      let u := composeNext h r s
      match ripeEntry u h r with
      | none => u
      | some e => match decisionAtDue u h r e with
        | none => u
        | some k => composeNext h r (retire k h r e u))) ∧
  (∀ (s t : State) (k : Kind) (h r : Nat) (e : Entry) (p : Page) (plane : Nat), h < 24 →
    pageById s e.page = some p → headPlane s h = some plane → t = retire k h r e s →
    let counts := put p.counts k.code (look p.counts k.code 0 + 1)
    let status : PageStatus := if p.cancelled then .cancelled
      else if look counts 2 0 = 0 ∧ look counts 3 0 = 0 ∧ look counts 4 0 = 0 ∧ look counts 5 0 = 0 then .complete
      else .damaged
    (1 < p.unretired → ∃ q, pageById t e.page = some q ∧ q.unretired = p.unretired - 1
      ∧ q.counts = counts ∧ q.pstate = (if p.pstate = .bound then .firing else p.pstate)
      ∧ q.nextLine h r = (p.nextLine h r).map (fun _ => e.line + 1)
      ∧ q.underrun = (if k = .underrun then put p.underrun plane true else p.underrun)) ∧
    (p.unretired = 1 → pageById t e.page = none) ∧
    (∀ id, id ≠ e.page → pageById t id = pageById s id) ∧
    (let events := (if p.pstate = .bound then [Event.pageStarted p.id h r e.line k (s.hRaw / 4096)] else [])
        ++ (if k = .underrun ∧ look p.underrun plane false = false then
          [Event.underrun p.id plane e.line h r (s.hRaw / 4096)] else [])
        ++ (if p.unretired ≤ 1 then [Event.pageDone p.id status p.length counts] else [])
     let raised := events.foldl (fun u ev => offered ev u) s
     t.outgoing = raised.outgoing ∧ SameEvents raised t) ∧
    look (headGroup t h) k.code 0 = min 4294967295 (look (headGroup s h) k.code 0 + 1) ∧
    (storedLine s plane e = none → t.lines = s.lines ∧ t.planeCtrs = s.planeCtrs) ∧
    (∀ l, plane < 8 → storedLine s plane e = some l → 1 < l.consumers →
      storedLine t plane e = some { l with consumers := l.consumers - 1 }
      ∧ occupancy t plane = occupancy s plane ∧ t.planeCtrs = s.planeCtrs) ∧
    (∀ l, plane < 8 → storedLine s plane e = some l → l.consumers ≤ 1 → storedLine t plane e = none
      ∧ look (planeGroup t plane) 4 0 = min 4294967295 (look (planeGroup s plane) 4 0 + 1)
      ∧ look (planeGroup t plane) 5 0
          = min 4294967295 (look (planeGroup s plane) 5 0 + (linesOf s plane).length)) ∧
    (∀ f, f ≠ e → storedLine t plane f = storedLine s plane f) ∧
    (∀ other, other ≠ plane → linesOf t other = linesOf s other) ∧
    t.rows = s.rows ∧ RowFrame s t)

/-- WINDOW_END of a row that is FIRING makes it IDLE, its buffer standing, and then compositions, rows and loaders follow
within the event (`settle`): each next entry's stored line is composed, and every row and every loader has its turn, the acts of the free order first (R84, R105, R108, R114, log 8). So a FULL buffer whose entry is due starts firing within
the event, or is OVERSPEED beyond the late limit, whatever the free order, unless its page has left the queue before
(which `entriesInv` excludes). Only rows, loaders, pages, lines, their counters and events can change; with no page in the
queue nothing else does but the free order. Of a row that is not FIRING there is no window to end (log 2). -/
def Obligations.WindowEndFreesTheRow : Prop :=
  (∀ (s : State) (h r : Nat) (buf : LoadBuf) (window : Nat) (f : FireFrame),
    rowAt s h r = some ⟨buf, .firing window f⟩ →
    exec (.windowEnd h r) s = .next (settle (setRow h r ⟨buf, .idle⟩ s)) ∧
    rowAt (setRow h r ⟨buf, .idle⟩ s) h r = some ⟨buf, .idle⟩ ∧
    (∃ t, exec (.windowEnd h r) s = .next t ∧ RowFrame s t ∧ EventsOnly s t) ∧
    (s.pages = [] → exec (.windowEnd h r) s
      = .next { setRow h r ⟨buf, .idle⟩ s with sched := s.sched.tail })) ∧
  (∀ (s : State) (h r : Nat), (∀ row, rowAt s h r = some row → row.fire = .idle) →
    exec (.windowEnd h r) s = .next s) ∧
  (∀ s : State,
    let rows := (List.range 24).flatMap fun h => (List.range (rowsOf s h).length).map fun r => (h, r)
    settle s = (s.sched.headD [] ++ rows.map (fun x => SchedAct.row x.1 x.2)
        ++ (List.range 24).map SchedAct.load).foldl
      (fun (u : State) (a : SchedAct) => match a with
        | .cueOnce => u
        | .cue => u
        | .rowOnce h r => rowOnce h r u
        | .row h r => rowTurn h r u
        | .load h => loaderTurn h u)
      (rows.foldl (fun u x => composeNext x.1 x.2 u) { s with sched := s.sched.tail })) ∧
  (∀ (s : State) (h r d : Nat) (e : Entry) (seq : BitVec 8), rowAt s h r = some ⟨.full e seq, .idle⟩ →
    dueOf s h r e = some d → d ≤ s.hRaw / 4096 →
    (pageById (settle s) e.page = none ∧ rowAt (settle s) h r = some ⟨.full e seq, .idle⟩) ∨
    ∃ buf fire, rowAt (settle s) h r = some ⟨buf, fire⟩ ∧ (∀ f q, buf ≠ .full f q)
      ∧ (s.hRaw / 4096 - d ≤ s.motionCfg.lateLimit →
          ∃ window, fire = .firing window ⟨seq, r, e.page, e.line, (bankAt s s.activeBank).recs⟩)
      ∧ (s.motionCfg.lateLimit < s.hRaw / 4096 - d → fire = .idle))

/-- WAVE_ERASE, WAVE_LOAD and WAVE_SELECT make their checks in order, and the first that fails decides the refusal;
when all pass, the bank's records are ERASED and its settle set, or the record is WRITTEN, or the bank becomes
active. Every reply carries the bank summary as it stands afterwards, and nothing else changes (R125, R126, R127,
R129). -/
def Obligations.WaveRequestsAreCheckedInOrder : Prop :=
  (∀ (s s1 : State) (tag : BitVec 16) (bank settle : Nat), bank < 256 → settle < 65536 →
    TakesControl s 0x50#8 tag (leBytes 1 bank ++ leBytes 2 settle) s1 →
    let answer := fun status t => exec .waveErase s
      = .next (replied .control 0x50#8 tag status (bankSummary t) t)
    ((1 < bank ∨ 255 < settle) → answer .badArgument s1) ∧
    (bank ≤ 1 → settle ≤ 255 → bank = s.activeBank → (bankAt s bank).complete = true →
      answer .isProtected s1) ∧
    (bank ≤ 1 → settle ≤ 255 → (bank ≠ s.activeBank ∨ (bankAt s bank).complete = false) →
      answer .ok { s1 with banks := put s.banks bank ⟨settle, Vector.replicate 3 none⟩ })) ∧
  (∀ (s s1 : State) (tag : BitVec 16) (bank level pre gap main : Nat), bank < 256 → level < 256 → pre < 256 →
    gap < 256 → main < 256 →
    TakesControl s 0x51#8 tag (leBytes 1 bank ++ leBytes 1 level ++ leBytes 1 pre ++ leBytes 1 gap
      ++ leBytes 1 main) s1 →
    let answer := fun status t => exec .waveLoad s
      = .next (replied .control 0x51#8 tag status (bankSummary t) t)
    let good := bank ≤ 1 ∧ 1 ≤ level ∧ level ≤ 3 ∧ pre ≤ 63 ∧ gap ≤ 63 ∧ 1 ≤ main
    (¬ good → answer .badArgument s1) ∧
    (good → bank = s.activeBank → (bankAt s bank).complete = true → answer .isProtected s1) ∧
    (good → (bank ≠ s.activeBank ∨ (bankAt s bank).complete = false) →
      look (bankAt s bank).recs (level - 1) none ≠ none → answer .notErased s1) ∧
    (good → (bank ≠ s.activeBank ∨ (bankAt s bank).complete = false) →
      look (bankAt s bank).recs (level - 1) none = none →
      answer .ok { s1 with banks := put s.banks bank ⟨(bankAt s bank).settle,
        put (bankAt s bank).recs (level - 1) (some ⟨pre, gap, main⟩)⟩ })) ∧
  (∀ (s s1 : State) (tag : BitVec 16) (bank : Nat), bank < 256 →
    TakesControl s 0x52#8 tag (leBytes 1 bank) s1 →
    let answer := fun status t => exec .waveSelect s
      = .next (replied .control 0x52#8 tag status (bankSummary t) t)
    let held := s.engine = .run ∧ ∃ p ∈ s.pages, p.pstate ≠ .queued
    (1 < bank → answer .badArgument s1) ∧
    (bank ≤ 1 → (bankAt s bank).complete = false → answer .incomplete s1) ∧
    (bank ≤ 1 → (bankAt s bank).complete = true → held → answer .busy s1) ∧
    (bank ≤ 1 → (bankAt s bank).complete = true → ¬ held → answer .ok { s1 with activeBank := bank }))

/-! ## Head lanes and health -/

/-- What an arriving answer leaves alone: in SETUP everything; on a lane that is not a RETURN lane everything; with
the head's loader idle or its transfer SENDING everything; and a well-formed answer whose sequence is not that of
the WAITING transfer is stale and leaves everything (R136, R140). -/
def Obligations.DiscardedAnswers : Prop :=
  ∀ (s : State) (lane : Nat) (bits : BitVec 32),
    (s.engine = .setup → exec (.headAnswer lane bits) s = .next s) ∧
    ((look s.lanes lane ⟨.off, 0⟩).function ≠ .ret → exec (.headAnswer lane bits) s = .next s) ∧
    ((∀ t, transferOf s (look s.lanes lane ⟨.off, 0⟩).owner = some t → ∃ ns, t.phase = .sending ns) →
      exec (.headAnswer lane bits) s = .next s) ∧
    (∀ (t : Transfer) (code seq kind : BitVec 8), transferOf s (look s.lanes lane ⟨.off, 0⟩).owner = some t → seq ≠ t.seq →
      (code = 0xA5#8 ∨ code = 0x5A#8) →
      bits = code ++ seq ++ kind
        ++ laneCrc8 (msbBits 8 code.toNat ++ msbBits 8 seq.toNat ++ msbBits 8 kind.toNat) →
      exec (.headAnswer lane bits) s = .next s)

/-- SENDING_END puts a SENDING transfer into WAITING for the head's timeout and changes nothing else (R138, R140); with no
transfer SENDING there is nothing to end, and the state stands (the model's choice: log 2). The transfer time is the least whole number of nanoseconds in which
the bits go out at the head's rate, halved while DEGRADED, on its DATA lanes (R139). The bits of a LOAD and of a PROBE
are the fields of R137 with the check over them, and two DATA lanes share a frame's bits alternately, one lane takes
them all (R136). -/
def Obligations.SendingEndsInWaiting : Prop :=
  (∀ (s : State) (h : Nat) (next seq : BitVec 8) (carry : Carry) (ns : Nat) (c : HeadCfg),
    look s.loaders h none = some ⟨next, some ⟨seq, carry, .sending ns⟩⟩ → look s.heads h none = some c →
    exec (.sendingEnd h) s = .next { s with
      loaders := put s.loaders h (some ⟨next, some ⟨seq, carry, .waiting c.timeout⟩⟩) }) ∧
  (∀ (s : State) (h : Nat), (∀ t, transferOf s h = some t → ∃ timeout, t.phase = .waiting timeout) →
    exec (.sendingEnd h) s = .next s) ∧
  (∀ (bits lanes rate : Nat) (degraded : Bool), 0 < lanes → 2 ≤ rate →
    let d := lanes * (if degraded then rate / 2 else rate)
    bits * 1000 ≤ transferTime bits lanes rate degraded * d
    ∧ transferTime bits lanes rate degraded * d < bits * 1000 + d) ∧
  (∀ (seq : BitVec 8) (row : Nat) (e : Entry) (share : List Level) (phase : Phase), row < 256 → e.page < 65536 →
    e.line < 16777216 →
    let bits := Transfer.bits ⟨seq, .load row e share, phase⟩
    let part := fun i n => bitsNat ((bits.drop i).take n)
    bits.length = 64 + 2 * share.length + 32 ∧ part 0 8 = 1 ∧ part 8 8 = seq.toNat ∧ part 16 8 = row
    ∧ part 24 16 = e.page ∧ part 40 24 = e.line
    ∧ (∀ (i : Nat) (l : Level), share[i]? = some l → part (64 + 2 * i) 2 = l.val)
    ∧ part (64 + 2 * share.length) 32 = (laneCrc32 (bits.take (64 + 2 * share.length))).toNat) ∧
  (∀ (seq : BitVec 8) (count : Nat) (phase : Phase), count < 16777216 →
    let bits := Transfer.bits ⟨seq, .probe count, phase⟩
    let part := fun i n => bitsNat ((bits.drop i).take n)
    bits.length = 96 ∧ part 0 8 = 3 ∧ part 8 8 = seq.toNat ∧ part 16 8 = 0 ∧ part 24 16 = 0
    ∧ part 40 24 = count ∧ part 64 32 = (laneCrc32 (bits.take 64)).toNat) ∧
  (∀ (a b : Nat) (bits : List Bool), laneStreams [a] bits = [(a, bits)] ∧
    ∃ even odd, laneStreams [a, b] bits = [(a, even), (b, odd)]
      ∧ ∀ i : Nat, even[i]? = bits[2 * i]? ∧ odd[i]? = bits[2 * i + 1]?)

/-- The end of a LOAD of a head in service: an ACK lowers the health counter by 1, not below 0; an answer that fails it
or the timeout raises it by 8, not above 256; the state follows from the counter; Transfers rises by 1, and Transfer
failures with a failure. The loader is idle, and the row's buffer, LOADING and unretired, becomes FULL on an ACK and
EMPTY with the entry retired LINK_LOSS on a failure; LOADING and spent it becomes EMPTY. After it come, in order, the
row's fire start and decision on an ACK, the health, the FULL buffers of a head that is now OFFLINE (each lost by
LINK_LOSS), and what rows and loaders make of it (R110, R111, R140, R144, R145, R151; the place of the decision, before the health on an ACK and after it on a failure, is
log 11's). A change of health to another band offers HEAD_STATE with the head, both states and the counter, one within
the band none (R143, R144). An idle loader of a head in service begins the LOAD of the eligible entry of least due, of equal dues that of
the lower row: the buffer becomes LOADING and the transfer takes the sequence number, the share and its time; with
none eligible, out of service or busy it begins nothing (R108, R109, R138, R139). -/
def Obligations.LoadEndsCountTowardHealth : Prop :=
  (∀ (s : State) (h lane row : Nat) (next seq : BitVec 8) (e : Entry) (share : List Level) (timeout : Nat)
    (k : Health) (dl : List Nat), h < 24 → s.engine = .run →
    look s.lanes lane ⟨.off, 0⟩ = ⟨.ret, h⟩ → look s.links h none = some ⟨dl, lane⟩ →
    look s.loaders h none = some ⟨next, some ⟨seq, .load row e share, .waiting timeout⟩⟩ →
    look s.health h none = some k →
    let ack := 0xA5#8 ++ seq ++ 0x01#8 ++ laneCrc8 (msbBits 8 0xA5 ++ msbBits 8 seq.toNat ++ msbBits 8 1)
    let fails := fun c : Instr => c = .ackTimeout h ∨ ∃ bits, answerFails seq 0x01#8 bits ∧ c = .headAnswer lane bits
    let result := fun (c : Instr) (counter failures : Nat) => ∃ t, exec c s = .next t
      ∧ RowFrame { s with health := put s.health h (some ⟨healthBand counter, counter, k.probes⟩) } t
      ∧ look (headGroup t h) 8 0 = min 4294967295 (look (headGroup s h) 8 0 + 1)
      ∧ look (headGroup t h) 9 0 = min 4294967295 (look (headGroup s h) 9 0 + failures)
    (k.state = healthBand k.counter → k.counter ≤ 255 → countersInv s →
      result (.headAnswer lane ack) (k.counter - 1) 0 ∧
      ∀ c, fails c → result c (min 256 (k.counter + 8)) 1) ∧
    (∀ entry spent fire, rowAt s h row = some ⟨.loading entry spent, fire⟩ →
      let idle := { s with loaders := put s.loaders h (some ⟨next, none⟩) }
      let buffer := fun (buf : LoadBuf) (u : State) => setRow h row ⟨buf, fire⟩ u
      exec (.headAnswer lane ack) s = .next (settle (countHealth h true (rowTurn h row
        (buffer (if spent then .empty else .full entry seq) (bumpHead h .transfers 1 idle))))) ∧
      ∀ c, fails c →
        let empty := buffer .empty (bumpHead h .failures 1 (bumpHead h .transfers 1 idle))
        let counted := countHealth h false (if spent then empty else retire .linkLoss h row entry empty)
        exec c s = .next (settle (if 248 ≤ k.counter then enterOffline h counted else counted)))) ∧
  (∀ (s : State) (h : Nat) (acked : Bool) (k : Health), look s.health h none = some k →
    let counter := if acked then k.counter - 1 else min 256 (k.counter + 8)
    let band := if counter ≤ 95 then HealthState.active else if counter ≤ 127 then .warned
      else if counter ≤ 255 then .degraded else .offline
    let counted := { s with health := put s.health h (some ⟨band, counter, k.probes⟩) }
    healthBand counter = band ∧ countHealth h acked s
      = if k.state = band then counted else offered (.headState h k.state band counter) counted) ∧
  (∀ (s : State) (h : Nat), enterOffline h s = (List.range (rowsOf s h).length).foldl
    (fun u r => match rowAt s h r with
      | some ⟨.full e _, fire⟩ => retire .linkLoss h r e (setRow h r ⟨.empty, fire⟩ u)
      | _ => u) s) ∧
  (∀ (s : State) (h r : Nat) (row : Row), rowAt s h r = some row →
    rowAt (enterOffline h s) h r
      = some ⟨match row.buf with | .full _ _ => .empty | .empty => .empty | .loading e b => .loading e b, row.fire⟩) ∧
  (∀ (s : State) (h : Nat) (seq : BitVec 8), look s.loaders h none = some ⟨seq, none⟩ →
    let eligible := fun (r d : Nat) (e : Entry) (share : List Level) => ∃ fire plane l,
      rowAt s h r = some ⟨.empty, fire⟩ ∧ nextEntry s h r = some e ∧ dueOf s h r e = some d
        ∧ headPlane s h = some plane ∧ storedLine s plane e = some l ∧ lineShare s h r l = some share
        ∧ ∃ x ∈ share, x ≠ 0
    (available s h = false ∨ (∀ r d e share, ¬ eligible r d e share) → loaderTurn h s = s) ∧
    (∀ r d e share row dl lane c, available s h = true → eligible r d e share →
      (∀ r' d' e' share', eligible r' d' e' share' → d < d' ∨ (d = d' ∧ r ≤ r')) →
      rowAt s h r = some row → look s.links h none = some ⟨dl, lane⟩ → look s.heads h none = some c →
      rowAt (loaderTurn h s) h r = some ⟨.loading e false, row.fire⟩
      ∧ look (loaderTurn h s).loaders h none = some ⟨seq + 1, some ⟨seq, .load r e share,
          .sending (transferTime (64 + 2 * share.length + 32) dl.length c.rate
            (decide ((look s.health h none).map Health.state = some .degraded)))⟩⟩
      ∧ (∀ h' r', (h', r') ≠ (h, r) → rowAt (loaderTurn h s) h' r' = rowAt s h' r')
      ∧ RowFrame s (loaderTurn h s))) ∧
  (∀ (s : State) (h : Nat) (t : Transfer), transferOf s h = some t → loaderTurn h s = s)

/-- HEAD_RESTORE in SETUP is refused with WRONG_STATE. In RUN a head number above 23 or of no configured head is
refused with BAD_ARGUMENT, a head that is not OFFLINE with NOT_OFFLINE; an OFFLINE head becomes PROBING with counter
256 and probe count 0, HEAD_STATE precedes the reply, and its loader begins the first PROBE with the next sequence
number at the full rate (R138, R139, R147, R148). HEAD_STATE is offered to the event queue (`offered`, R163). -/
def Obligations.HeadRestoreStartsAProbeRun : Prop :=
  ∀ (s s1 : State) (tag : BitVec 16) (h : Nat), h < 256 → TakesControl s 0x60#8 tag (leBytes 1 h) s1 →
    (s.engine = .setup → exec .headRestore s = .next (replied .control 0x60#8 tag .wrongState [] s1)) ∧
    (s.engine = .run → (23 < h ∨ look s.heads h none = none) →
      exec .headRestore s = .next (replied .control 0x60#8 tag .badArgument [] s1)) ∧
    (∀ c k, s.engine = .run → look s.heads h none = some c → look s.health h none = some k →
      k.state ≠ .offline → exec .headRestore s = .next (replied .control 0x60#8 tag .notOffline [] s1)) ∧
    (∀ c k dl ret seq, s.engine = .run → look s.heads h none = some c → look s.health h none = some k → k.state = .offline →
      look s.links h none = some ⟨dl, ret⟩ → look s.loaders h none = some ⟨seq, none⟩ →
      exec .headRestore s = .next (replied .control 0x60#8 tag .ok []
        (offered (.headState h .offline .probing 256)
          { s1 with
            health := put s.health h (some ⟨.probing, 256, 0⟩)
            loaders := put s.loaders h (some ⟨seq + 1,
              some ⟨seq, .probe 0, .sending (transferTime 96 dl.length c.rate false)⟩⟩) })))

/-- The end of a PROBE of a PROBING head: an ACK short of the sixteenth raises the probe count and begins the next
PROBE with the new count; the sixteenth makes the head ACTIVE with counter 0 and probe count 0; a timeout, a NAK or a
malformed answer makes it OFFLINE with counter 256 and probe count 0. A change of state raises HEAD_STATE. Probes rises
by 1 each time, and the other transfer counters stand (R140, R148, R149, R151). -/
def Obligations.ProbeRunNeedsSixteenAnswers : Prop :=
  ∀ (s : State) (h lane : Nat) (next seq : BitVec 8) (count timeout probes : Nat) (dl : List Nat) (c : HeadCfg),
    h < 24 → s.engine = .run → look s.lanes lane ⟨.off, 0⟩ = ⟨.ret, h⟩ →
    look s.links h none = some ⟨dl, lane⟩ → look s.heads h none = some c →
    look s.loaders h none = some ⟨next, some ⟨seq, .probe count, .waiting timeout⟩⟩ →
    look s.health h none = some ⟨.probing, 256, probes⟩ →
    let ack := 0xA5#8 ++ seq ++ 0x03#8 ++ laneCrc8 (msbBits 8 0xA5 ++ msbBits 8 seq.toNat ++ msbBits 8 3)
    (probes < 15 → exec (.headAnswer lane ack) s = .next
      { bumpHead h .probes 1 s with
        health := put s.health h (some ⟨.probing, 256, probes + 1⟩)
        loaders := put s.loaders h (some ⟨next + 1,
          some ⟨next, .probe (probes + 1), .sending (transferTime 96 dl.length c.rate false)⟩⟩) }) ∧
    (probes = 15 → ∃ t evs, exec (.headAnswer lane ack) s = .next t
      ∧ RowFrame { s with health := put s.health h (some ⟨.active, 0, 0⟩) } t
      ∧ t.outgoing = (offered (.headState h .probing .active 0) s).outgoing ++ evs
      ∧ (∀ o ∈ evs, o.isEvent = true)
      ∧ look (headGroup t h) 10 0 = min 4294967295 (look (headGroup s h) 10 0 + 1)
      ∧ look (headGroup t h) 8 0 = look (headGroup s h) 8 0
      ∧ look (headGroup t h) 9 0 = look (headGroup s h) 9 0) ∧
    (∀ cmd : Instr, (cmd = .ackTimeout h ∨ ∃ bits, answerFails seq 0x03#8 bits ∧ cmd = .headAnswer lane bits) →
      exec cmd s = .next (offered (.headState h .probing .offline 256)
        { bumpHead h .probes 1 s with
          health := put s.health h (some ⟨.offline, 256, 0⟩)
          loaders := put s.loaders h (some ⟨next, none⟩) }))

/-! ## Invariants that every command keeps -/

/-- The state after power-on meets every invariant below. -/
def Obligations.InvariantsHoldAtReset : Prop :=
  slotsInv State.reset ∧ handlerInv State.reset ∧ positionInv State.reset ∧ healthInv State.reset ∧ runBankInv State.reset
    ∧ flywheelInv State.reset ∧ countersInv State.reset ∧ nozzlesWf State.reset ∧ queueInv State.reset
    ∧ entriesInv State.reset

/-- The Link Port never holds more than 28 data frames, 4 control frames, 8 refusals at arrival and 64 events (R154,
R155, R163). -/
def Obligations.SlotsNeverOverflow : Prop :=
  ∀ s t : State, slotsInv s → Machine.step s = .next t → slotsInv t

/-- H_raw never lies behind P_raw nor leaves its range, and it never falls except at POWER_ON, SOFT_RESET and
ENGINE_START (R8, R10). -/
def Obligations.HighWaterNeverFalls : Prop :=
  (∀ s t : State, positionInv s → Machine.step s = .next t → positionInv t) ∧
  (∀ (c : Instr) (s t : State), c ≠ .powerOn → c ≠ .softReset → c ≠ .engineStart → exec c s = .next t →
    s.hRaw ≤ t.hRaw)

/-- A head's health state always follows from its counter, which stays within 0 to 256 and is 256 exactly when the
head is OFFLINE or PROBING (R143). -/
def Obligations.HealthFollowsTheCounter : Prop :=
  ∀ s t : State, healthInv s → Machine.step s = .next t → healthInv t

/-- In RUN the active bank is always complete (R128). -/
def Obligations.ActiveBankCompleteInRun : Prop :=
  ∀ s t : State, runBankInv s → Machine.step s = .next t → runBankInv t

/-- In RUN no missed cue is left uncovered: after every command a LOCKED tracker's flywheel point lies ahead of H_int
(R26, R27). -/
def Obligations.FlywheelIsNeverBehind : Prop :=
  ∀ s t : State, flywheelInv s → Machine.step s = .next t → flywheelInv t

/-- Every counter saturates: no command takes one above 4,294,967,295 (R163, R173). -/
def Obligations.CountersSaturate : Prop :=
  ∀ s t : State, countersInv s → Machine.step s = .next t → countersInv t

/-- The nozzle map keeps its canonical form, and no command but POWER_ON and NOZZLE_CLEAR makes an entry better (R97,
R98, R99). -/
def Obligations.NozzleMapOnlyWorsens : Prop :=
  (∀ s t : State, nozzlesWf s → Machine.step s = .next t → nozzlesWf t) ∧
  (∀ (c : Instr) (s t : State) (h i : Nat), nozzlesWf s → c ≠ .powerOn → c ≠ .nozzleClear →
    exec c s = .next t → (nozzleStatus s h i).code ≤ (nozzleStatus t h i).code)

/-- From an ENGINE_START to the next ENGINE_STOP or reset the plane, head and lane tables, the motion and cue
configuration, the regions, the column decode and the heads' lanes stay as they are, and only ENGINE_START,
ENGINE_STOP and the resets change the engine state (R32, R33, R52, R78, R136). -/
def Obligations.ConfigurationIsFixedInRun : Prop :=
  (∀ (c : Instr) (s t : State), s.engine = .run → exec c s = .next t → t.engine = .run →
    t.motionCfg = s.motionCfg ∧ t.cueCfg = s.cueCfg ∧ t.planes = s.planes ∧ t.heads = s.heads
      ∧ t.lanes = s.lanes ∧ t.regions = s.regions ∧ t.decode = s.decode ∧ t.links = s.links) ∧
  (∀ (c : Instr) (s t : State), c ≠ .powerOn → c ≠ .softReset → c ≠ .engineStart → c ≠ .engineStop →
    exec c s = .next t → t.engine = s.engine)

/-- The page queue keeps its form, and every entry of every page is accounted for: the counts of entries, the
unretired count and T for every withdrawn line always make up L x T, and no row retires or loads out of order
(R39, R41, R43, R101, R176). -/
def Obligations.EveryEntryIsAccountedFor : Prop :=
  ∀ s t : State, queueInv s → entriesInv s → Machine.step s = .next t → queueInv t ∧ entriesInv t
end

