-- ==== Sys2Proof/Laws/State.lean ====
section
/-! SUPPORT. For each named update of the state, each field it leaves alone. -/

namespace Sys2Proof.Machine

variable (s : State)

/-- What raising an event can do: it joins the outgoing order, or it is lost and counted (R163). -/
theorem raise_cases (e : Event) :
    (s.eventCount < 64 ∧ raise e s =
      { s with outgoing := s.outgoing ++ [.event s.eventSeq s.lostCount e]
               eventSeq := s.eventSeq + 1, lostCount := 0 }) ∨
    (64 ≤ s.eventCount ∧ raise e s =
      bumpLink .eventsLost 1 { s with lostCount := satAdd s.lostCount 1 }) := by
  by_cases h : s.eventCount < 64
  · exact .inl ⟨h, if_pos h⟩
  · exact .inr ⟨by omega, if_neg h⟩

/-! ### bumpLink -/

@[simp] theorem bumpLink_rx (c : LinkCtr) (n : Nat) : (bumpLink c n s).rx = s.rx := rfl
@[simp] theorem bumpLink_ctlWaiting (c : LinkCtr) (n : Nat) : (bumpLink c n s).ctlWaiting = s.ctlWaiting := rfl
@[simp] theorem bumpLink_dataWaiting (c : LinkCtr) (n : Nat) : (bumpLink c n s).dataWaiting = s.dataWaiting := rfl
@[simp] theorem bumpLink_handler (c : LinkCtr) (n : Nat) : (bumpLink c n s).handler = s.handler := rfl
@[simp] theorem bumpLink_outgoing (c : LinkCtr) (n : Nat) : (bumpLink c n s).outgoing = s.outgoing := rfl
@[simp] theorem bumpLink_sending (c : LinkCtr) (n : Nat) : (bumpLink c n s).sending = s.sending := rfl
@[simp] theorem bumpLink_resetSent (c : LinkCtr) (n : Nat) : (bumpLink c n s).resetSent = s.resetSent := rfl
@[simp] theorem bumpLink_eventSeq (c : LinkCtr) (n : Nat) : (bumpLink c n s).eventSeq = s.eventSeq := rfl
@[simp] theorem bumpLink_lostCount (c : LinkCtr) (n : Nat) : (bumpLink c n s).lostCount = s.lostCount := rfl
@[simp] theorem bumpLink_engine (c : LinkCtr) (n : Nat) : (bumpLink c n s).engine = s.engine := rfl
@[simp] theorem bumpLink_motionCfg (c : LinkCtr) (n : Nat) : (bumpLink c n s).motionCfg = s.motionCfg := rfl
@[simp] theorem bumpLink_pRaw (c : LinkCtr) (n : Nat) : (bumpLink c n s).pRaw = s.pRaw := rfl
@[simp] theorem bumpLink_hRaw (c : LinkCtr) (n : Nat) : (bumpLink c n s).hRaw = s.hRaw := rfl
@[simp] theorem bumpLink_decRef (c : LinkCtr) (n : Nat) : (bumpLink c n s).decRef = s.decRef := rfl
@[simp] theorem bumpLink_encPins (c : LinkCtr) (n : Nat) : (bumpLink c n s).encPins = s.encPins := rfl
@[simp] theorem bumpLink_pace (c : LinkCtr) (n : Nat) : (bumpLink c n s).pace = s.pace := rfl
@[simp] theorem bumpLink_revCond (c : LinkCtr) (n : Nat) : (bumpLink c n s).revCond = s.revCond := rfl
@[simp] theorem bumpLink_cueCfg (c : LinkCtr) (n : Nat) : (bumpLink c n s).cueCfg = s.cueCfg := rfl
@[simp] theorem bumpLink_lock (c : LinkCtr) (n : Nat) : (bumpLink c n s).lock = s.lock := rfl
@[simp] theorem bumpLink_smoothed (c : LinkCtr) (n : Nat) : (bumpLink c n s).smoothed = s.smoothed := rfl
@[simp] theorem bumpLink_predicted (c : LinkCtr) (n : Nat) : (bumpLink c n s).predicted = s.predicted := rfl
@[simp] theorem bumpLink_flywheel (c : LinkCtr) (n : Nat) : (bumpLink c n s).flywheel = s.flywheel := rfl
@[simp] theorem bumpLink_lastAccepted (c : LinkCtr) (n : Nat) : (bumpLink c n s).lastAccepted = s.lastAccepted := rfl
@[simp] theorem bumpLink_pages (c : LinkCtr) (n : Nat) : (bumpLink c n s).pages = s.pages := rfl
@[simp] theorem bumpLink_tailEnd (c : LinkCtr) (n : Nat) : (bumpLink c n s).tailEnd = s.tailEnd := rfl
@[simp] theorem bumpLink_tailPage (c : LinkCtr) (n : Nat) : (bumpLink c n s).tailPage = s.tailPage := rfl
@[simp] theorem bumpLink_lines (c : LinkCtr) (n : Nat) : (bumpLink c n s).lines = s.lines := rfl
@[simp] theorem bumpLink_regions (c : LinkCtr) (n : Nat) : (bumpLink c n s).regions = s.regions := rfl
@[simp] theorem bumpLink_planes (c : LinkCtr) (n : Nat) : (bumpLink c n s).planes = s.planes := rfl
@[simp] theorem bumpLink_heads (c : LinkCtr) (n : Nat) : (bumpLink c n s).heads = s.heads := rfl
@[simp] theorem bumpLink_decode (c : LinkCtr) (n : Nat) : (bumpLink c n s).decode = s.decode := rfl
@[simp] theorem bumpLink_nozzles (c : LinkCtr) (n : Nat) : (bumpLink c n s).nozzles = s.nozzles := rfl
@[simp] theorem bumpLink_rows (c : LinkCtr) (n : Nat) : (bumpLink c n s).rows = s.rows := rfl
@[simp] theorem bumpLink_lanes (c : LinkCtr) (n : Nat) : (bumpLink c n s).lanes = s.lanes := rfl
@[simp] theorem bumpLink_links (c : LinkCtr) (n : Nat) : (bumpLink c n s).links = s.links := rfl
@[simp] theorem bumpLink_loaders (c : LinkCtr) (n : Nat) : (bumpLink c n s).loaders = s.loaders := rfl
@[simp] theorem bumpLink_health (c : LinkCtr) (n : Nat) : (bumpLink c n s).health = s.health := rfl
@[simp] theorem bumpLink_banks (c : LinkCtr) (n : Nat) : (bumpLink c n s).banks = s.banks := rfl
@[simp] theorem bumpLink_activeBank (c : LinkCtr) (n : Nat) : (bumpLink c n s).activeBank = s.activeBank := rfl
@[simp] theorem bumpLink_motionCtrs (c : LinkCtr) (n : Nat) : (bumpLink c n s).motionCtrs = s.motionCtrs := rfl
@[simp] theorem bumpLink_planeCtrs (c : LinkCtr) (n : Nat) : (bumpLink c n s).planeCtrs = s.planeCtrs := rfl
@[simp] theorem bumpLink_headCtrs (c : LinkCtr) (n : Nat) : (bumpLink c n s).headCtrs = s.headCtrs := rfl
@[simp] theorem bumpLink_sched (c : LinkCtr) (n : Nat) : (bumpLink c n s).sched = s.sched := rfl
@[simp] theorem bumpLink_cueWith (c : LinkCtr) (n : Nat) : (bumpLink c n s).cueWith = s.cueWith := rfl
@[simp] theorem bumpLink_pending (c : LinkCtr) (n : Nat) : (bumpLink c n s).pending = s.pending := rfl

/-! ### bumpMotion -/

@[simp] theorem bumpMotion_rx (c : MotionCtr) (n : Nat) : (bumpMotion c n s).rx = s.rx := rfl
@[simp] theorem bumpMotion_ctlWaiting (c : MotionCtr) (n : Nat) : (bumpMotion c n s).ctlWaiting = s.ctlWaiting := rfl
@[simp] theorem bumpMotion_dataWaiting (c : MotionCtr) (n : Nat) : (bumpMotion c n s).dataWaiting = s.dataWaiting := rfl
@[simp] theorem bumpMotion_handler (c : MotionCtr) (n : Nat) : (bumpMotion c n s).handler = s.handler := rfl
@[simp] theorem bumpMotion_outgoing (c : MotionCtr) (n : Nat) : (bumpMotion c n s).outgoing = s.outgoing := rfl
@[simp] theorem bumpMotion_sending (c : MotionCtr) (n : Nat) : (bumpMotion c n s).sending = s.sending := rfl
@[simp] theorem bumpMotion_resetSent (c : MotionCtr) (n : Nat) : (bumpMotion c n s).resetSent = s.resetSent := rfl
@[simp] theorem bumpMotion_eventSeq (c : MotionCtr) (n : Nat) : (bumpMotion c n s).eventSeq = s.eventSeq := rfl
@[simp] theorem bumpMotion_lostCount (c : MotionCtr) (n : Nat) : (bumpMotion c n s).lostCount = s.lostCount := rfl
@[simp] theorem bumpMotion_engine (c : MotionCtr) (n : Nat) : (bumpMotion c n s).engine = s.engine := rfl
@[simp] theorem bumpMotion_motionCfg (c : MotionCtr) (n : Nat) : (bumpMotion c n s).motionCfg = s.motionCfg := rfl
@[simp] theorem bumpMotion_pRaw (c : MotionCtr) (n : Nat) : (bumpMotion c n s).pRaw = s.pRaw := rfl
@[simp] theorem bumpMotion_hRaw (c : MotionCtr) (n : Nat) : (bumpMotion c n s).hRaw = s.hRaw := rfl
@[simp] theorem bumpMotion_decRef (c : MotionCtr) (n : Nat) : (bumpMotion c n s).decRef = s.decRef := rfl
@[simp] theorem bumpMotion_encPins (c : MotionCtr) (n : Nat) : (bumpMotion c n s).encPins = s.encPins := rfl
@[simp] theorem bumpMotion_pace (c : MotionCtr) (n : Nat) : (bumpMotion c n s).pace = s.pace := rfl
@[simp] theorem bumpMotion_revCond (c : MotionCtr) (n : Nat) : (bumpMotion c n s).revCond = s.revCond := rfl
@[simp] theorem bumpMotion_cueCfg (c : MotionCtr) (n : Nat) : (bumpMotion c n s).cueCfg = s.cueCfg := rfl
@[simp] theorem bumpMotion_lock (c : MotionCtr) (n : Nat) : (bumpMotion c n s).lock = s.lock := rfl
@[simp] theorem bumpMotion_smoothed (c : MotionCtr) (n : Nat) : (bumpMotion c n s).smoothed = s.smoothed := rfl
@[simp] theorem bumpMotion_predicted (c : MotionCtr) (n : Nat) : (bumpMotion c n s).predicted = s.predicted := rfl
@[simp] theorem bumpMotion_flywheel (c : MotionCtr) (n : Nat) : (bumpMotion c n s).flywheel = s.flywheel := rfl
@[simp] theorem bumpMotion_lastAccepted (c : MotionCtr) (n : Nat) : (bumpMotion c n s).lastAccepted = s.lastAccepted := rfl
@[simp] theorem bumpMotion_pages (c : MotionCtr) (n : Nat) : (bumpMotion c n s).pages = s.pages := rfl
@[simp] theorem bumpMotion_tailEnd (c : MotionCtr) (n : Nat) : (bumpMotion c n s).tailEnd = s.tailEnd := rfl
@[simp] theorem bumpMotion_tailPage (c : MotionCtr) (n : Nat) : (bumpMotion c n s).tailPage = s.tailPage := rfl
@[simp] theorem bumpMotion_lines (c : MotionCtr) (n : Nat) : (bumpMotion c n s).lines = s.lines := rfl
@[simp] theorem bumpMotion_regions (c : MotionCtr) (n : Nat) : (bumpMotion c n s).regions = s.regions := rfl
@[simp] theorem bumpMotion_planes (c : MotionCtr) (n : Nat) : (bumpMotion c n s).planes = s.planes := rfl
@[simp] theorem bumpMotion_heads (c : MotionCtr) (n : Nat) : (bumpMotion c n s).heads = s.heads := rfl
@[simp] theorem bumpMotion_decode (c : MotionCtr) (n : Nat) : (bumpMotion c n s).decode = s.decode := rfl
@[simp] theorem bumpMotion_nozzles (c : MotionCtr) (n : Nat) : (bumpMotion c n s).nozzles = s.nozzles := rfl
@[simp] theorem bumpMotion_rows (c : MotionCtr) (n : Nat) : (bumpMotion c n s).rows = s.rows := rfl
@[simp] theorem bumpMotion_lanes (c : MotionCtr) (n : Nat) : (bumpMotion c n s).lanes = s.lanes := rfl
@[simp] theorem bumpMotion_links (c : MotionCtr) (n : Nat) : (bumpMotion c n s).links = s.links := rfl
@[simp] theorem bumpMotion_loaders (c : MotionCtr) (n : Nat) : (bumpMotion c n s).loaders = s.loaders := rfl
@[simp] theorem bumpMotion_health (c : MotionCtr) (n : Nat) : (bumpMotion c n s).health = s.health := rfl
@[simp] theorem bumpMotion_banks (c : MotionCtr) (n : Nat) : (bumpMotion c n s).banks = s.banks := rfl
@[simp] theorem bumpMotion_activeBank (c : MotionCtr) (n : Nat) : (bumpMotion c n s).activeBank = s.activeBank := rfl
@[simp] theorem bumpMotion_linkCtrs (c : MotionCtr) (n : Nat) : (bumpMotion c n s).linkCtrs = s.linkCtrs := rfl
@[simp] theorem bumpMotion_planeCtrs (c : MotionCtr) (n : Nat) : (bumpMotion c n s).planeCtrs = s.planeCtrs := rfl
@[simp] theorem bumpMotion_headCtrs (c : MotionCtr) (n : Nat) : (bumpMotion c n s).headCtrs = s.headCtrs := rfl
@[simp] theorem bumpMotion_sched (c : MotionCtr) (n : Nat) : (bumpMotion c n s).sched = s.sched := rfl
@[simp] theorem bumpMotion_cueWith (c : MotionCtr) (n : Nat) : (bumpMotion c n s).cueWith = s.cueWith := rfl
@[simp] theorem bumpMotion_pending (c : MotionCtr) (n : Nat) : (bumpMotion c n s).pending = s.pending := rfl

/-! ### setPlaneCtr -/

@[simp] theorem setPlaneCtr_rx (p : Nat) (c : PlaneCtr) (x : Nat) : (setPlaneCtr p c x s).rx = s.rx := rfl
@[simp] theorem setPlaneCtr_ctlWaiting (p : Nat) (c : PlaneCtr) (x : Nat) : (setPlaneCtr p c x s).ctlWaiting = s.ctlWaiting := rfl
@[simp] theorem setPlaneCtr_dataWaiting (p : Nat) (c : PlaneCtr) (x : Nat) : (setPlaneCtr p c x s).dataWaiting = s.dataWaiting := rfl
@[simp] theorem setPlaneCtr_handler (p : Nat) (c : PlaneCtr) (x : Nat) : (setPlaneCtr p c x s).handler = s.handler := rfl
@[simp] theorem setPlaneCtr_outgoing (p : Nat) (c : PlaneCtr) (x : Nat) : (setPlaneCtr p c x s).outgoing = s.outgoing := rfl
@[simp] theorem setPlaneCtr_sending (p : Nat) (c : PlaneCtr) (x : Nat) : (setPlaneCtr p c x s).sending = s.sending := rfl
@[simp] theorem setPlaneCtr_resetSent (p : Nat) (c : PlaneCtr) (x : Nat) : (setPlaneCtr p c x s).resetSent = s.resetSent := rfl
@[simp] theorem setPlaneCtr_eventSeq (p : Nat) (c : PlaneCtr) (x : Nat) : (setPlaneCtr p c x s).eventSeq = s.eventSeq := rfl
@[simp] theorem setPlaneCtr_lostCount (p : Nat) (c : PlaneCtr) (x : Nat) : (setPlaneCtr p c x s).lostCount = s.lostCount := rfl
@[simp] theorem setPlaneCtr_engine (p : Nat) (c : PlaneCtr) (x : Nat) : (setPlaneCtr p c x s).engine = s.engine := rfl
@[simp] theorem setPlaneCtr_motionCfg (p : Nat) (c : PlaneCtr) (x : Nat) : (setPlaneCtr p c x s).motionCfg = s.motionCfg := rfl
@[simp] theorem setPlaneCtr_pRaw (p : Nat) (c : PlaneCtr) (x : Nat) : (setPlaneCtr p c x s).pRaw = s.pRaw := rfl
@[simp] theorem setPlaneCtr_hRaw (p : Nat) (c : PlaneCtr) (x : Nat) : (setPlaneCtr p c x s).hRaw = s.hRaw := rfl
@[simp] theorem setPlaneCtr_decRef (p : Nat) (c : PlaneCtr) (x : Nat) : (setPlaneCtr p c x s).decRef = s.decRef := rfl
@[simp] theorem setPlaneCtr_encPins (p : Nat) (c : PlaneCtr) (x : Nat) : (setPlaneCtr p c x s).encPins = s.encPins := rfl
@[simp] theorem setPlaneCtr_pace (p : Nat) (c : PlaneCtr) (x : Nat) : (setPlaneCtr p c x s).pace = s.pace := rfl
@[simp] theorem setPlaneCtr_revCond (p : Nat) (c : PlaneCtr) (x : Nat) : (setPlaneCtr p c x s).revCond = s.revCond := rfl
@[simp] theorem setPlaneCtr_cueCfg (p : Nat) (c : PlaneCtr) (x : Nat) : (setPlaneCtr p c x s).cueCfg = s.cueCfg := rfl
@[simp] theorem setPlaneCtr_lock (p : Nat) (c : PlaneCtr) (x : Nat) : (setPlaneCtr p c x s).lock = s.lock := rfl
@[simp] theorem setPlaneCtr_smoothed (p : Nat) (c : PlaneCtr) (x : Nat) : (setPlaneCtr p c x s).smoothed = s.smoothed := rfl
@[simp] theorem setPlaneCtr_predicted (p : Nat) (c : PlaneCtr) (x : Nat) : (setPlaneCtr p c x s).predicted = s.predicted := rfl
@[simp] theorem setPlaneCtr_flywheel (p : Nat) (c : PlaneCtr) (x : Nat) : (setPlaneCtr p c x s).flywheel = s.flywheel := rfl
@[simp] theorem setPlaneCtr_lastAccepted (p : Nat) (c : PlaneCtr) (x : Nat) : (setPlaneCtr p c x s).lastAccepted = s.lastAccepted := rfl
@[simp] theorem setPlaneCtr_pages (p : Nat) (c : PlaneCtr) (x : Nat) : (setPlaneCtr p c x s).pages = s.pages := rfl
@[simp] theorem setPlaneCtr_tailEnd (p : Nat) (c : PlaneCtr) (x : Nat) : (setPlaneCtr p c x s).tailEnd = s.tailEnd := rfl
@[simp] theorem setPlaneCtr_tailPage (p : Nat) (c : PlaneCtr) (x : Nat) : (setPlaneCtr p c x s).tailPage = s.tailPage := rfl
@[simp] theorem setPlaneCtr_lines (p : Nat) (c : PlaneCtr) (x : Nat) : (setPlaneCtr p c x s).lines = s.lines := rfl
@[simp] theorem setPlaneCtr_regions (p : Nat) (c : PlaneCtr) (x : Nat) : (setPlaneCtr p c x s).regions = s.regions := rfl
@[simp] theorem setPlaneCtr_planes (p : Nat) (c : PlaneCtr) (x : Nat) : (setPlaneCtr p c x s).planes = s.planes := rfl
@[simp] theorem setPlaneCtr_heads (p : Nat) (c : PlaneCtr) (x : Nat) : (setPlaneCtr p c x s).heads = s.heads := rfl
@[simp] theorem setPlaneCtr_decode (p : Nat) (c : PlaneCtr) (x : Nat) : (setPlaneCtr p c x s).decode = s.decode := rfl
@[simp] theorem setPlaneCtr_nozzles (p : Nat) (c : PlaneCtr) (x : Nat) : (setPlaneCtr p c x s).nozzles = s.nozzles := rfl
@[simp] theorem setPlaneCtr_rows (p : Nat) (c : PlaneCtr) (x : Nat) : (setPlaneCtr p c x s).rows = s.rows := rfl
@[simp] theorem setPlaneCtr_lanes (p : Nat) (c : PlaneCtr) (x : Nat) : (setPlaneCtr p c x s).lanes = s.lanes := rfl
@[simp] theorem setPlaneCtr_links (p : Nat) (c : PlaneCtr) (x : Nat) : (setPlaneCtr p c x s).links = s.links := rfl
@[simp] theorem setPlaneCtr_loaders (p : Nat) (c : PlaneCtr) (x : Nat) : (setPlaneCtr p c x s).loaders = s.loaders := rfl
@[simp] theorem setPlaneCtr_health (p : Nat) (c : PlaneCtr) (x : Nat) : (setPlaneCtr p c x s).health = s.health := rfl
@[simp] theorem setPlaneCtr_banks (p : Nat) (c : PlaneCtr) (x : Nat) : (setPlaneCtr p c x s).banks = s.banks := rfl
@[simp] theorem setPlaneCtr_activeBank (p : Nat) (c : PlaneCtr) (x : Nat) : (setPlaneCtr p c x s).activeBank = s.activeBank := rfl
@[simp] theorem setPlaneCtr_linkCtrs (p : Nat) (c : PlaneCtr) (x : Nat) : (setPlaneCtr p c x s).linkCtrs = s.linkCtrs := rfl
@[simp] theorem setPlaneCtr_motionCtrs (p : Nat) (c : PlaneCtr) (x : Nat) : (setPlaneCtr p c x s).motionCtrs = s.motionCtrs := rfl
@[simp] theorem setPlaneCtr_headCtrs (p : Nat) (c : PlaneCtr) (x : Nat) : (setPlaneCtr p c x s).headCtrs = s.headCtrs := rfl
@[simp] theorem setPlaneCtr_sched (p : Nat) (c : PlaneCtr) (x : Nat) : (setPlaneCtr p c x s).sched = s.sched := rfl
@[simp] theorem setPlaneCtr_cueWith (p : Nat) (c : PlaneCtr) (x : Nat) : (setPlaneCtr p c x s).cueWith = s.cueWith := rfl
@[simp] theorem setPlaneCtr_pending (p : Nat) (c : PlaneCtr) (x : Nat) : (setPlaneCtr p c x s).pending = s.pending := rfl

/-! ### bumpPlane -/

@[simp] theorem bumpPlane_rx (p : Nat) (c : PlaneCtr) (n : Nat) : (bumpPlane p c n s).rx = s.rx := rfl
@[simp] theorem bumpPlane_ctlWaiting (p : Nat) (c : PlaneCtr) (n : Nat) : (bumpPlane p c n s).ctlWaiting = s.ctlWaiting := rfl
@[simp] theorem bumpPlane_dataWaiting (p : Nat) (c : PlaneCtr) (n : Nat) : (bumpPlane p c n s).dataWaiting = s.dataWaiting := rfl
@[simp] theorem bumpPlane_handler (p : Nat) (c : PlaneCtr) (n : Nat) : (bumpPlane p c n s).handler = s.handler := rfl
@[simp] theorem bumpPlane_outgoing (p : Nat) (c : PlaneCtr) (n : Nat) : (bumpPlane p c n s).outgoing = s.outgoing := rfl
@[simp] theorem bumpPlane_sending (p : Nat) (c : PlaneCtr) (n : Nat) : (bumpPlane p c n s).sending = s.sending := rfl
@[simp] theorem bumpPlane_resetSent (p : Nat) (c : PlaneCtr) (n : Nat) : (bumpPlane p c n s).resetSent = s.resetSent := rfl
@[simp] theorem bumpPlane_eventSeq (p : Nat) (c : PlaneCtr) (n : Nat) : (bumpPlane p c n s).eventSeq = s.eventSeq := rfl
@[simp] theorem bumpPlane_lostCount (p : Nat) (c : PlaneCtr) (n : Nat) : (bumpPlane p c n s).lostCount = s.lostCount := rfl
@[simp] theorem bumpPlane_engine (p : Nat) (c : PlaneCtr) (n : Nat) : (bumpPlane p c n s).engine = s.engine := rfl
@[simp] theorem bumpPlane_motionCfg (p : Nat) (c : PlaneCtr) (n : Nat) : (bumpPlane p c n s).motionCfg = s.motionCfg := rfl
@[simp] theorem bumpPlane_pRaw (p : Nat) (c : PlaneCtr) (n : Nat) : (bumpPlane p c n s).pRaw = s.pRaw := rfl
@[simp] theorem bumpPlane_hRaw (p : Nat) (c : PlaneCtr) (n : Nat) : (bumpPlane p c n s).hRaw = s.hRaw := rfl
@[simp] theorem bumpPlane_decRef (p : Nat) (c : PlaneCtr) (n : Nat) : (bumpPlane p c n s).decRef = s.decRef := rfl
@[simp] theorem bumpPlane_encPins (p : Nat) (c : PlaneCtr) (n : Nat) : (bumpPlane p c n s).encPins = s.encPins := rfl
@[simp] theorem bumpPlane_pace (p : Nat) (c : PlaneCtr) (n : Nat) : (bumpPlane p c n s).pace = s.pace := rfl
@[simp] theorem bumpPlane_revCond (p : Nat) (c : PlaneCtr) (n : Nat) : (bumpPlane p c n s).revCond = s.revCond := rfl
@[simp] theorem bumpPlane_cueCfg (p : Nat) (c : PlaneCtr) (n : Nat) : (bumpPlane p c n s).cueCfg = s.cueCfg := rfl
@[simp] theorem bumpPlane_lock (p : Nat) (c : PlaneCtr) (n : Nat) : (bumpPlane p c n s).lock = s.lock := rfl
@[simp] theorem bumpPlane_smoothed (p : Nat) (c : PlaneCtr) (n : Nat) : (bumpPlane p c n s).smoothed = s.smoothed := rfl
@[simp] theorem bumpPlane_predicted (p : Nat) (c : PlaneCtr) (n : Nat) : (bumpPlane p c n s).predicted = s.predicted := rfl
@[simp] theorem bumpPlane_flywheel (p : Nat) (c : PlaneCtr) (n : Nat) : (bumpPlane p c n s).flywheel = s.flywheel := rfl
@[simp] theorem bumpPlane_lastAccepted (p : Nat) (c : PlaneCtr) (n : Nat) : (bumpPlane p c n s).lastAccepted = s.lastAccepted := rfl
@[simp] theorem bumpPlane_pages (p : Nat) (c : PlaneCtr) (n : Nat) : (bumpPlane p c n s).pages = s.pages := rfl
@[simp] theorem bumpPlane_tailEnd (p : Nat) (c : PlaneCtr) (n : Nat) : (bumpPlane p c n s).tailEnd = s.tailEnd := rfl
@[simp] theorem bumpPlane_tailPage (p : Nat) (c : PlaneCtr) (n : Nat) : (bumpPlane p c n s).tailPage = s.tailPage := rfl
@[simp] theorem bumpPlane_lines (p : Nat) (c : PlaneCtr) (n : Nat) : (bumpPlane p c n s).lines = s.lines := rfl
@[simp] theorem bumpPlane_regions (p : Nat) (c : PlaneCtr) (n : Nat) : (bumpPlane p c n s).regions = s.regions := rfl
@[simp] theorem bumpPlane_planes (p : Nat) (c : PlaneCtr) (n : Nat) : (bumpPlane p c n s).planes = s.planes := rfl
@[simp] theorem bumpPlane_heads (p : Nat) (c : PlaneCtr) (n : Nat) : (bumpPlane p c n s).heads = s.heads := rfl
@[simp] theorem bumpPlane_decode (p : Nat) (c : PlaneCtr) (n : Nat) : (bumpPlane p c n s).decode = s.decode := rfl
@[simp] theorem bumpPlane_nozzles (p : Nat) (c : PlaneCtr) (n : Nat) : (bumpPlane p c n s).nozzles = s.nozzles := rfl
@[simp] theorem bumpPlane_rows (p : Nat) (c : PlaneCtr) (n : Nat) : (bumpPlane p c n s).rows = s.rows := rfl
@[simp] theorem bumpPlane_lanes (p : Nat) (c : PlaneCtr) (n : Nat) : (bumpPlane p c n s).lanes = s.lanes := rfl
@[simp] theorem bumpPlane_links (p : Nat) (c : PlaneCtr) (n : Nat) : (bumpPlane p c n s).links = s.links := rfl
@[simp] theorem bumpPlane_loaders (p : Nat) (c : PlaneCtr) (n : Nat) : (bumpPlane p c n s).loaders = s.loaders := rfl
@[simp] theorem bumpPlane_health (p : Nat) (c : PlaneCtr) (n : Nat) : (bumpPlane p c n s).health = s.health := rfl
@[simp] theorem bumpPlane_banks (p : Nat) (c : PlaneCtr) (n : Nat) : (bumpPlane p c n s).banks = s.banks := rfl
@[simp] theorem bumpPlane_activeBank (p : Nat) (c : PlaneCtr) (n : Nat) : (bumpPlane p c n s).activeBank = s.activeBank := rfl
@[simp] theorem bumpPlane_linkCtrs (p : Nat) (c : PlaneCtr) (n : Nat) : (bumpPlane p c n s).linkCtrs = s.linkCtrs := rfl
@[simp] theorem bumpPlane_motionCtrs (p : Nat) (c : PlaneCtr) (n : Nat) : (bumpPlane p c n s).motionCtrs = s.motionCtrs := rfl
@[simp] theorem bumpPlane_headCtrs (p : Nat) (c : PlaneCtr) (n : Nat) : (bumpPlane p c n s).headCtrs = s.headCtrs := rfl
@[simp] theorem bumpPlane_sched (p : Nat) (c : PlaneCtr) (n : Nat) : (bumpPlane p c n s).sched = s.sched := rfl
@[simp] theorem bumpPlane_cueWith (p : Nat) (c : PlaneCtr) (n : Nat) : (bumpPlane p c n s).cueWith = s.cueWith := rfl
@[simp] theorem bumpPlane_pending (p : Nat) (c : PlaneCtr) (n : Nat) : (bumpPlane p c n s).pending = s.pending := rfl

/-! ### bumpHead -/

@[simp] theorem bumpHead_rx (h : Nat) (c : HeadCtr) (n : Nat) : (bumpHead h c n s).rx = s.rx := rfl
@[simp] theorem bumpHead_ctlWaiting (h : Nat) (c : HeadCtr) (n : Nat) : (bumpHead h c n s).ctlWaiting = s.ctlWaiting := rfl
@[simp] theorem bumpHead_dataWaiting (h : Nat) (c : HeadCtr) (n : Nat) : (bumpHead h c n s).dataWaiting = s.dataWaiting := rfl
@[simp] theorem bumpHead_handler (h : Nat) (c : HeadCtr) (n : Nat) : (bumpHead h c n s).handler = s.handler := rfl
@[simp] theorem bumpHead_outgoing (h : Nat) (c : HeadCtr) (n : Nat) : (bumpHead h c n s).outgoing = s.outgoing := rfl
@[simp] theorem bumpHead_sending (h : Nat) (c : HeadCtr) (n : Nat) : (bumpHead h c n s).sending = s.sending := rfl
@[simp] theorem bumpHead_resetSent (h : Nat) (c : HeadCtr) (n : Nat) : (bumpHead h c n s).resetSent = s.resetSent := rfl
@[simp] theorem bumpHead_eventSeq (h : Nat) (c : HeadCtr) (n : Nat) : (bumpHead h c n s).eventSeq = s.eventSeq := rfl
@[simp] theorem bumpHead_lostCount (h : Nat) (c : HeadCtr) (n : Nat) : (bumpHead h c n s).lostCount = s.lostCount := rfl
@[simp] theorem bumpHead_engine (h : Nat) (c : HeadCtr) (n : Nat) : (bumpHead h c n s).engine = s.engine := rfl
@[simp] theorem bumpHead_motionCfg (h : Nat) (c : HeadCtr) (n : Nat) : (bumpHead h c n s).motionCfg = s.motionCfg := rfl
@[simp] theorem bumpHead_pRaw (h : Nat) (c : HeadCtr) (n : Nat) : (bumpHead h c n s).pRaw = s.pRaw := rfl
@[simp] theorem bumpHead_hRaw (h : Nat) (c : HeadCtr) (n : Nat) : (bumpHead h c n s).hRaw = s.hRaw := rfl
@[simp] theorem bumpHead_decRef (h : Nat) (c : HeadCtr) (n : Nat) : (bumpHead h c n s).decRef = s.decRef := rfl
@[simp] theorem bumpHead_encPins (h : Nat) (c : HeadCtr) (n : Nat) : (bumpHead h c n s).encPins = s.encPins := rfl
@[simp] theorem bumpHead_pace (h : Nat) (c : HeadCtr) (n : Nat) : (bumpHead h c n s).pace = s.pace := rfl
@[simp] theorem bumpHead_revCond (h : Nat) (c : HeadCtr) (n : Nat) : (bumpHead h c n s).revCond = s.revCond := rfl
@[simp] theorem bumpHead_cueCfg (h : Nat) (c : HeadCtr) (n : Nat) : (bumpHead h c n s).cueCfg = s.cueCfg := rfl
@[simp] theorem bumpHead_lock (h : Nat) (c : HeadCtr) (n : Nat) : (bumpHead h c n s).lock = s.lock := rfl
@[simp] theorem bumpHead_smoothed (h : Nat) (c : HeadCtr) (n : Nat) : (bumpHead h c n s).smoothed = s.smoothed := rfl
@[simp] theorem bumpHead_predicted (h : Nat) (c : HeadCtr) (n : Nat) : (bumpHead h c n s).predicted = s.predicted := rfl
@[simp] theorem bumpHead_flywheel (h : Nat) (c : HeadCtr) (n : Nat) : (bumpHead h c n s).flywheel = s.flywheel := rfl
@[simp] theorem bumpHead_lastAccepted (h : Nat) (c : HeadCtr) (n : Nat) : (bumpHead h c n s).lastAccepted = s.lastAccepted := rfl
@[simp] theorem bumpHead_pages (h : Nat) (c : HeadCtr) (n : Nat) : (bumpHead h c n s).pages = s.pages := rfl
@[simp] theorem bumpHead_tailEnd (h : Nat) (c : HeadCtr) (n : Nat) : (bumpHead h c n s).tailEnd = s.tailEnd := rfl
@[simp] theorem bumpHead_tailPage (h : Nat) (c : HeadCtr) (n : Nat) : (bumpHead h c n s).tailPage = s.tailPage := rfl
@[simp] theorem bumpHead_lines (h : Nat) (c : HeadCtr) (n : Nat) : (bumpHead h c n s).lines = s.lines := rfl
@[simp] theorem bumpHead_regions (h : Nat) (c : HeadCtr) (n : Nat) : (bumpHead h c n s).regions = s.regions := rfl
@[simp] theorem bumpHead_planes (h : Nat) (c : HeadCtr) (n : Nat) : (bumpHead h c n s).planes = s.planes := rfl
@[simp] theorem bumpHead_heads (h : Nat) (c : HeadCtr) (n : Nat) : (bumpHead h c n s).heads = s.heads := rfl
@[simp] theorem bumpHead_decode (h : Nat) (c : HeadCtr) (n : Nat) : (bumpHead h c n s).decode = s.decode := rfl
@[simp] theorem bumpHead_nozzles (h : Nat) (c : HeadCtr) (n : Nat) : (bumpHead h c n s).nozzles = s.nozzles := rfl
@[simp] theorem bumpHead_rows (h : Nat) (c : HeadCtr) (n : Nat) : (bumpHead h c n s).rows = s.rows := rfl
@[simp] theorem bumpHead_lanes (h : Nat) (c : HeadCtr) (n : Nat) : (bumpHead h c n s).lanes = s.lanes := rfl
@[simp] theorem bumpHead_links (h : Nat) (c : HeadCtr) (n : Nat) : (bumpHead h c n s).links = s.links := rfl
@[simp] theorem bumpHead_loaders (h : Nat) (c : HeadCtr) (n : Nat) : (bumpHead h c n s).loaders = s.loaders := rfl
@[simp] theorem bumpHead_health (h : Nat) (c : HeadCtr) (n : Nat) : (bumpHead h c n s).health = s.health := rfl
@[simp] theorem bumpHead_banks (h : Nat) (c : HeadCtr) (n : Nat) : (bumpHead h c n s).banks = s.banks := rfl
@[simp] theorem bumpHead_activeBank (h : Nat) (c : HeadCtr) (n : Nat) : (bumpHead h c n s).activeBank = s.activeBank := rfl
@[simp] theorem bumpHead_linkCtrs (h : Nat) (c : HeadCtr) (n : Nat) : (bumpHead h c n s).linkCtrs = s.linkCtrs := rfl
@[simp] theorem bumpHead_motionCtrs (h : Nat) (c : HeadCtr) (n : Nat) : (bumpHead h c n s).motionCtrs = s.motionCtrs := rfl
@[simp] theorem bumpHead_planeCtrs (h : Nat) (c : HeadCtr) (n : Nat) : (bumpHead h c n s).planeCtrs = s.planeCtrs := rfl
@[simp] theorem bumpHead_sched (h : Nat) (c : HeadCtr) (n : Nat) : (bumpHead h c n s).sched = s.sched := rfl
@[simp] theorem bumpHead_cueWith (h : Nat) (c : HeadCtr) (n : Nat) : (bumpHead h c n s).cueWith = s.cueWith := rfl
@[simp] theorem bumpHead_pending (h : Nat) (c : HeadCtr) (n : Nat) : (bumpHead h c n s).pending = s.pending := rfl

/-! ### answer -/

@[simp] theorem answer_rx (f : HostFrame) (st : Status) (b : List Byte) : (answer f st b s).rx = s.rx := rfl
@[simp] theorem answer_ctlWaiting (f : HostFrame) (st : Status) (b : List Byte) : (answer f st b s).ctlWaiting = s.ctlWaiting := rfl
@[simp] theorem answer_dataWaiting (f : HostFrame) (st : Status) (b : List Byte) : (answer f st b s).dataWaiting = s.dataWaiting := rfl
@[simp] theorem answer_handler (f : HostFrame) (st : Status) (b : List Byte) : (answer f st b s).handler = s.handler := rfl
@[simp] theorem answer_sending (f : HostFrame) (st : Status) (b : List Byte) : (answer f st b s).sending = s.sending := rfl
@[simp] theorem answer_resetSent (f : HostFrame) (st : Status) (b : List Byte) : (answer f st b s).resetSent = s.resetSent := rfl
@[simp] theorem answer_eventSeq (f : HostFrame) (st : Status) (b : List Byte) : (answer f st b s).eventSeq = s.eventSeq := rfl
@[simp] theorem answer_lostCount (f : HostFrame) (st : Status) (b : List Byte) : (answer f st b s).lostCount = s.lostCount := rfl
@[simp] theorem answer_engine (f : HostFrame) (st : Status) (b : List Byte) : (answer f st b s).engine = s.engine := rfl
@[simp] theorem answer_motionCfg (f : HostFrame) (st : Status) (b : List Byte) : (answer f st b s).motionCfg = s.motionCfg := rfl
@[simp] theorem answer_pRaw (f : HostFrame) (st : Status) (b : List Byte) : (answer f st b s).pRaw = s.pRaw := rfl
@[simp] theorem answer_hRaw (f : HostFrame) (st : Status) (b : List Byte) : (answer f st b s).hRaw = s.hRaw := rfl
@[simp] theorem answer_decRef (f : HostFrame) (st : Status) (b : List Byte) : (answer f st b s).decRef = s.decRef := rfl
@[simp] theorem answer_encPins (f : HostFrame) (st : Status) (b : List Byte) : (answer f st b s).encPins = s.encPins := rfl
@[simp] theorem answer_pace (f : HostFrame) (st : Status) (b : List Byte) : (answer f st b s).pace = s.pace := rfl
@[simp] theorem answer_revCond (f : HostFrame) (st : Status) (b : List Byte) : (answer f st b s).revCond = s.revCond := rfl
@[simp] theorem answer_cueCfg (f : HostFrame) (st : Status) (b : List Byte) : (answer f st b s).cueCfg = s.cueCfg := rfl
@[simp] theorem answer_lock (f : HostFrame) (st : Status) (b : List Byte) : (answer f st b s).lock = s.lock := rfl
@[simp] theorem answer_smoothed (f : HostFrame) (st : Status) (b : List Byte) : (answer f st b s).smoothed = s.smoothed := rfl
@[simp] theorem answer_predicted (f : HostFrame) (st : Status) (b : List Byte) : (answer f st b s).predicted = s.predicted := rfl
@[simp] theorem answer_flywheel (f : HostFrame) (st : Status) (b : List Byte) : (answer f st b s).flywheel = s.flywheel := rfl
@[simp] theorem answer_lastAccepted (f : HostFrame) (st : Status) (b : List Byte) : (answer f st b s).lastAccepted = s.lastAccepted := rfl
@[simp] theorem answer_pages (f : HostFrame) (st : Status) (b : List Byte) : (answer f st b s).pages = s.pages := rfl
@[simp] theorem answer_tailEnd (f : HostFrame) (st : Status) (b : List Byte) : (answer f st b s).tailEnd = s.tailEnd := rfl
@[simp] theorem answer_tailPage (f : HostFrame) (st : Status) (b : List Byte) : (answer f st b s).tailPage = s.tailPage := rfl
@[simp] theorem answer_lines (f : HostFrame) (st : Status) (b : List Byte) : (answer f st b s).lines = s.lines := rfl
@[simp] theorem answer_regions (f : HostFrame) (st : Status) (b : List Byte) : (answer f st b s).regions = s.regions := rfl
@[simp] theorem answer_planes (f : HostFrame) (st : Status) (b : List Byte) : (answer f st b s).planes = s.planes := rfl
@[simp] theorem answer_heads (f : HostFrame) (st : Status) (b : List Byte) : (answer f st b s).heads = s.heads := rfl
@[simp] theorem answer_decode (f : HostFrame) (st : Status) (b : List Byte) : (answer f st b s).decode = s.decode := rfl
@[simp] theorem answer_nozzles (f : HostFrame) (st : Status) (b : List Byte) : (answer f st b s).nozzles = s.nozzles := rfl
@[simp] theorem answer_rows (f : HostFrame) (st : Status) (b : List Byte) : (answer f st b s).rows = s.rows := rfl
@[simp] theorem answer_lanes (f : HostFrame) (st : Status) (b : List Byte) : (answer f st b s).lanes = s.lanes := rfl
@[simp] theorem answer_links (f : HostFrame) (st : Status) (b : List Byte) : (answer f st b s).links = s.links := rfl
@[simp] theorem answer_loaders (f : HostFrame) (st : Status) (b : List Byte) : (answer f st b s).loaders = s.loaders := rfl
@[simp] theorem answer_health (f : HostFrame) (st : Status) (b : List Byte) : (answer f st b s).health = s.health := rfl
@[simp] theorem answer_banks (f : HostFrame) (st : Status) (b : List Byte) : (answer f st b s).banks = s.banks := rfl
@[simp] theorem answer_activeBank (f : HostFrame) (st : Status) (b : List Byte) : (answer f st b s).activeBank = s.activeBank := rfl
@[simp] theorem answer_linkCtrs (f : HostFrame) (st : Status) (b : List Byte) : (answer f st b s).linkCtrs = s.linkCtrs := rfl
@[simp] theorem answer_motionCtrs (f : HostFrame) (st : Status) (b : List Byte) : (answer f st b s).motionCtrs = s.motionCtrs := rfl
@[simp] theorem answer_planeCtrs (f : HostFrame) (st : Status) (b : List Byte) : (answer f st b s).planeCtrs = s.planeCtrs := rfl
@[simp] theorem answer_headCtrs (f : HostFrame) (st : Status) (b : List Byte) : (answer f st b s).headCtrs = s.headCtrs := rfl
@[simp] theorem answer_sched (f : HostFrame) (st : Status) (b : List Byte) : (answer f st b s).sched = s.sched := rfl
@[simp] theorem answer_cueWith (f : HostFrame) (st : Status) (b : List Byte) : (answer f st b s).cueWith = s.cueWith := rfl
@[simp] theorem answer_pending (f : HostFrame) (st : Status) (b : List Byte) : (answer f st b s).pending = s.pending := rfl

/-! ### setRow -/

@[simp] theorem setRow_rx (h r : Nat) (row : Row) : (setRow h r row s).rx = s.rx := rfl
@[simp] theorem setRow_ctlWaiting (h r : Nat) (row : Row) : (setRow h r row s).ctlWaiting = s.ctlWaiting := rfl
@[simp] theorem setRow_dataWaiting (h r : Nat) (row : Row) : (setRow h r row s).dataWaiting = s.dataWaiting := rfl
@[simp] theorem setRow_handler (h r : Nat) (row : Row) : (setRow h r row s).handler = s.handler := rfl
@[simp] theorem setRow_outgoing (h r : Nat) (row : Row) : (setRow h r row s).outgoing = s.outgoing := rfl
@[simp] theorem setRow_sending (h r : Nat) (row : Row) : (setRow h r row s).sending = s.sending := rfl
@[simp] theorem setRow_resetSent (h r : Nat) (row : Row) : (setRow h r row s).resetSent = s.resetSent := rfl
@[simp] theorem setRow_eventSeq (h r : Nat) (row : Row) : (setRow h r row s).eventSeq = s.eventSeq := rfl
@[simp] theorem setRow_lostCount (h r : Nat) (row : Row) : (setRow h r row s).lostCount = s.lostCount := rfl
@[simp] theorem setRow_engine (h r : Nat) (row : Row) : (setRow h r row s).engine = s.engine := rfl
@[simp] theorem setRow_motionCfg (h r : Nat) (row : Row) : (setRow h r row s).motionCfg = s.motionCfg := rfl
@[simp] theorem setRow_pRaw (h r : Nat) (row : Row) : (setRow h r row s).pRaw = s.pRaw := rfl
@[simp] theorem setRow_hRaw (h r : Nat) (row : Row) : (setRow h r row s).hRaw = s.hRaw := rfl
@[simp] theorem setRow_decRef (h r : Nat) (row : Row) : (setRow h r row s).decRef = s.decRef := rfl
@[simp] theorem setRow_encPins (h r : Nat) (row : Row) : (setRow h r row s).encPins = s.encPins := rfl
@[simp] theorem setRow_pace (h r : Nat) (row : Row) : (setRow h r row s).pace = s.pace := rfl
@[simp] theorem setRow_revCond (h r : Nat) (row : Row) : (setRow h r row s).revCond = s.revCond := rfl
@[simp] theorem setRow_cueCfg (h r : Nat) (row : Row) : (setRow h r row s).cueCfg = s.cueCfg := rfl
@[simp] theorem setRow_lock (h r : Nat) (row : Row) : (setRow h r row s).lock = s.lock := rfl
@[simp] theorem setRow_smoothed (h r : Nat) (row : Row) : (setRow h r row s).smoothed = s.smoothed := rfl
@[simp] theorem setRow_predicted (h r : Nat) (row : Row) : (setRow h r row s).predicted = s.predicted := rfl
@[simp] theorem setRow_flywheel (h r : Nat) (row : Row) : (setRow h r row s).flywheel = s.flywheel := rfl
@[simp] theorem setRow_lastAccepted (h r : Nat) (row : Row) : (setRow h r row s).lastAccepted = s.lastAccepted := rfl
@[simp] theorem setRow_pages (h r : Nat) (row : Row) : (setRow h r row s).pages = s.pages := rfl
@[simp] theorem setRow_tailEnd (h r : Nat) (row : Row) : (setRow h r row s).tailEnd = s.tailEnd := rfl
@[simp] theorem setRow_tailPage (h r : Nat) (row : Row) : (setRow h r row s).tailPage = s.tailPage := rfl
@[simp] theorem setRow_lines (h r : Nat) (row : Row) : (setRow h r row s).lines = s.lines := rfl
@[simp] theorem setRow_regions (h r : Nat) (row : Row) : (setRow h r row s).regions = s.regions := rfl
@[simp] theorem setRow_planes (h r : Nat) (row : Row) : (setRow h r row s).planes = s.planes := rfl
@[simp] theorem setRow_heads (h r : Nat) (row : Row) : (setRow h r row s).heads = s.heads := rfl
@[simp] theorem setRow_decode (h r : Nat) (row : Row) : (setRow h r row s).decode = s.decode := rfl
@[simp] theorem setRow_nozzles (h r : Nat) (row : Row) : (setRow h r row s).nozzles = s.nozzles := rfl
@[simp] theorem setRow_lanes (h r : Nat) (row : Row) : (setRow h r row s).lanes = s.lanes := rfl
@[simp] theorem setRow_links (h r : Nat) (row : Row) : (setRow h r row s).links = s.links := rfl
@[simp] theorem setRow_loaders (h r : Nat) (row : Row) : (setRow h r row s).loaders = s.loaders := rfl
@[simp] theorem setRow_health (h r : Nat) (row : Row) : (setRow h r row s).health = s.health := rfl
@[simp] theorem setRow_banks (h r : Nat) (row : Row) : (setRow h r row s).banks = s.banks := rfl
@[simp] theorem setRow_activeBank (h r : Nat) (row : Row) : (setRow h r row s).activeBank = s.activeBank := rfl
@[simp] theorem setRow_linkCtrs (h r : Nat) (row : Row) : (setRow h r row s).linkCtrs = s.linkCtrs := rfl
@[simp] theorem setRow_motionCtrs (h r : Nat) (row : Row) : (setRow h r row s).motionCtrs = s.motionCtrs := rfl
@[simp] theorem setRow_planeCtrs (h r : Nat) (row : Row) : (setRow h r row s).planeCtrs = s.planeCtrs := rfl
@[simp] theorem setRow_headCtrs (h r : Nat) (row : Row) : (setRow h r row s).headCtrs = s.headCtrs := rfl
@[simp] theorem setRow_sched (h r : Nat) (row : Row) : (setRow h r row s).sched = s.sched := rfl
@[simp] theorem setRow_cueWith (h r : Nat) (row : Row) : (setRow h r row s).cueWith = s.cueWith := rfl
@[simp] theorem setRow_pending (h r : Nat) (row : Row) : (setRow h r row s).pending = s.pending := rfl

/-! ### setPage -/

@[simp] theorem setPage_rx (p : Page) : (setPage p s).rx = s.rx := rfl
@[simp] theorem setPage_ctlWaiting (p : Page) : (setPage p s).ctlWaiting = s.ctlWaiting := rfl
@[simp] theorem setPage_dataWaiting (p : Page) : (setPage p s).dataWaiting = s.dataWaiting := rfl
@[simp] theorem setPage_handler (p : Page) : (setPage p s).handler = s.handler := rfl
@[simp] theorem setPage_outgoing (p : Page) : (setPage p s).outgoing = s.outgoing := rfl
@[simp] theorem setPage_sending (p : Page) : (setPage p s).sending = s.sending := rfl
@[simp] theorem setPage_resetSent (p : Page) : (setPage p s).resetSent = s.resetSent := rfl
@[simp] theorem setPage_eventSeq (p : Page) : (setPage p s).eventSeq = s.eventSeq := rfl
@[simp] theorem setPage_lostCount (p : Page) : (setPage p s).lostCount = s.lostCount := rfl
@[simp] theorem setPage_engine (p : Page) : (setPage p s).engine = s.engine := rfl
@[simp] theorem setPage_motionCfg (p : Page) : (setPage p s).motionCfg = s.motionCfg := rfl
@[simp] theorem setPage_pRaw (p : Page) : (setPage p s).pRaw = s.pRaw := rfl
@[simp] theorem setPage_hRaw (p : Page) : (setPage p s).hRaw = s.hRaw := rfl
@[simp] theorem setPage_decRef (p : Page) : (setPage p s).decRef = s.decRef := rfl
@[simp] theorem setPage_encPins (p : Page) : (setPage p s).encPins = s.encPins := rfl
@[simp] theorem setPage_pace (p : Page) : (setPage p s).pace = s.pace := rfl
@[simp] theorem setPage_revCond (p : Page) : (setPage p s).revCond = s.revCond := rfl
@[simp] theorem setPage_cueCfg (p : Page) : (setPage p s).cueCfg = s.cueCfg := rfl
@[simp] theorem setPage_lock (p : Page) : (setPage p s).lock = s.lock := rfl
@[simp] theorem setPage_smoothed (p : Page) : (setPage p s).smoothed = s.smoothed := rfl
@[simp] theorem setPage_predicted (p : Page) : (setPage p s).predicted = s.predicted := rfl
@[simp] theorem setPage_flywheel (p : Page) : (setPage p s).flywheel = s.flywheel := rfl
@[simp] theorem setPage_lastAccepted (p : Page) : (setPage p s).lastAccepted = s.lastAccepted := rfl
@[simp] theorem setPage_tailEnd (p : Page) : (setPage p s).tailEnd = s.tailEnd := rfl
@[simp] theorem setPage_tailPage (p : Page) : (setPage p s).tailPage = s.tailPage := rfl
@[simp] theorem setPage_lines (p : Page) : (setPage p s).lines = s.lines := rfl
@[simp] theorem setPage_regions (p : Page) : (setPage p s).regions = s.regions := rfl
@[simp] theorem setPage_planes (p : Page) : (setPage p s).planes = s.planes := rfl
@[simp] theorem setPage_heads (p : Page) : (setPage p s).heads = s.heads := rfl
@[simp] theorem setPage_decode (p : Page) : (setPage p s).decode = s.decode := rfl
@[simp] theorem setPage_nozzles (p : Page) : (setPage p s).nozzles = s.nozzles := rfl
@[simp] theorem setPage_rows (p : Page) : (setPage p s).rows = s.rows := rfl
@[simp] theorem setPage_lanes (p : Page) : (setPage p s).lanes = s.lanes := rfl
@[simp] theorem setPage_links (p : Page) : (setPage p s).links = s.links := rfl
@[simp] theorem setPage_loaders (p : Page) : (setPage p s).loaders = s.loaders := rfl
@[simp] theorem setPage_health (p : Page) : (setPage p s).health = s.health := rfl
@[simp] theorem setPage_banks (p : Page) : (setPage p s).banks = s.banks := rfl
@[simp] theorem setPage_activeBank (p : Page) : (setPage p s).activeBank = s.activeBank := rfl
@[simp] theorem setPage_linkCtrs (p : Page) : (setPage p s).linkCtrs = s.linkCtrs := rfl
@[simp] theorem setPage_motionCtrs (p : Page) : (setPage p s).motionCtrs = s.motionCtrs := rfl
@[simp] theorem setPage_planeCtrs (p : Page) : (setPage p s).planeCtrs = s.planeCtrs := rfl
@[simp] theorem setPage_headCtrs (p : Page) : (setPage p s).headCtrs = s.headCtrs := rfl
@[simp] theorem setPage_sched (p : Page) : (setPage p s).sched = s.sched := rfl
@[simp] theorem setPage_cueWith (p : Page) : (setPage p s).cueWith = s.cueWith := rfl
@[simp] theorem setPage_pending (p : Page) : (setPage p s).pending = s.pending := rfl

/-! ### dropPage -/

@[simp] theorem dropPage_rx (id : Nat) : (dropPage id s).rx = s.rx := rfl
@[simp] theorem dropPage_ctlWaiting (id : Nat) : (dropPage id s).ctlWaiting = s.ctlWaiting := rfl
@[simp] theorem dropPage_dataWaiting (id : Nat) : (dropPage id s).dataWaiting = s.dataWaiting := rfl
@[simp] theorem dropPage_handler (id : Nat) : (dropPage id s).handler = s.handler := rfl
@[simp] theorem dropPage_outgoing (id : Nat) : (dropPage id s).outgoing = s.outgoing := rfl
@[simp] theorem dropPage_sending (id : Nat) : (dropPage id s).sending = s.sending := rfl
@[simp] theorem dropPage_resetSent (id : Nat) : (dropPage id s).resetSent = s.resetSent := rfl
@[simp] theorem dropPage_eventSeq (id : Nat) : (dropPage id s).eventSeq = s.eventSeq := rfl
@[simp] theorem dropPage_lostCount (id : Nat) : (dropPage id s).lostCount = s.lostCount := rfl
@[simp] theorem dropPage_engine (id : Nat) : (dropPage id s).engine = s.engine := rfl
@[simp] theorem dropPage_motionCfg (id : Nat) : (dropPage id s).motionCfg = s.motionCfg := rfl
@[simp] theorem dropPage_pRaw (id : Nat) : (dropPage id s).pRaw = s.pRaw := rfl
@[simp] theorem dropPage_hRaw (id : Nat) : (dropPage id s).hRaw = s.hRaw := rfl
@[simp] theorem dropPage_decRef (id : Nat) : (dropPage id s).decRef = s.decRef := rfl
@[simp] theorem dropPage_encPins (id : Nat) : (dropPage id s).encPins = s.encPins := rfl
@[simp] theorem dropPage_pace (id : Nat) : (dropPage id s).pace = s.pace := rfl
@[simp] theorem dropPage_revCond (id : Nat) : (dropPage id s).revCond = s.revCond := rfl
@[simp] theorem dropPage_cueCfg (id : Nat) : (dropPage id s).cueCfg = s.cueCfg := rfl
@[simp] theorem dropPage_lock (id : Nat) : (dropPage id s).lock = s.lock := rfl
@[simp] theorem dropPage_smoothed (id : Nat) : (dropPage id s).smoothed = s.smoothed := rfl
@[simp] theorem dropPage_predicted (id : Nat) : (dropPage id s).predicted = s.predicted := rfl
@[simp] theorem dropPage_flywheel (id : Nat) : (dropPage id s).flywheel = s.flywheel := rfl
@[simp] theorem dropPage_lastAccepted (id : Nat) : (dropPage id s).lastAccepted = s.lastAccepted := rfl
@[simp] theorem dropPage_tailEnd (id : Nat) : (dropPage id s).tailEnd = s.tailEnd := rfl
@[simp] theorem dropPage_lines (id : Nat) : (dropPage id s).lines = s.lines := rfl
@[simp] theorem dropPage_regions (id : Nat) : (dropPage id s).regions = s.regions := rfl
@[simp] theorem dropPage_planes (id : Nat) : (dropPage id s).planes = s.planes := rfl
@[simp] theorem dropPage_heads (id : Nat) : (dropPage id s).heads = s.heads := rfl
@[simp] theorem dropPage_decode (id : Nat) : (dropPage id s).decode = s.decode := rfl
@[simp] theorem dropPage_nozzles (id : Nat) : (dropPage id s).nozzles = s.nozzles := rfl
@[simp] theorem dropPage_rows (id : Nat) : (dropPage id s).rows = s.rows := rfl
@[simp] theorem dropPage_lanes (id : Nat) : (dropPage id s).lanes = s.lanes := rfl
@[simp] theorem dropPage_links (id : Nat) : (dropPage id s).links = s.links := rfl
@[simp] theorem dropPage_loaders (id : Nat) : (dropPage id s).loaders = s.loaders := rfl
@[simp] theorem dropPage_health (id : Nat) : (dropPage id s).health = s.health := rfl
@[simp] theorem dropPage_banks (id : Nat) : (dropPage id s).banks = s.banks := rfl
@[simp] theorem dropPage_activeBank (id : Nat) : (dropPage id s).activeBank = s.activeBank := rfl
@[simp] theorem dropPage_linkCtrs (id : Nat) : (dropPage id s).linkCtrs = s.linkCtrs := rfl
@[simp] theorem dropPage_motionCtrs (id : Nat) : (dropPage id s).motionCtrs = s.motionCtrs := rfl
@[simp] theorem dropPage_planeCtrs (id : Nat) : (dropPage id s).planeCtrs = s.planeCtrs := rfl
@[simp] theorem dropPage_headCtrs (id : Nat) : (dropPage id s).headCtrs = s.headCtrs := rfl
@[simp] theorem dropPage_sched (id : Nat) : (dropPage id s).sched = s.sched := rfl
@[simp] theorem dropPage_cueWith (id : Nat) : (dropPage id s).cueWith = s.cueWith := rfl
@[simp] theorem dropPage_pending (id : Nat) : (dropPage id s).pending = s.pending := rfl

/-! ### setLines -/

@[simp] theorem setLines_rx (p : Nat) (ls : List StoredLine) : (setLines p ls s).rx = s.rx := rfl
@[simp] theorem setLines_ctlWaiting (p : Nat) (ls : List StoredLine) : (setLines p ls s).ctlWaiting = s.ctlWaiting := rfl
@[simp] theorem setLines_dataWaiting (p : Nat) (ls : List StoredLine) : (setLines p ls s).dataWaiting = s.dataWaiting := rfl
@[simp] theorem setLines_handler (p : Nat) (ls : List StoredLine) : (setLines p ls s).handler = s.handler := rfl
@[simp] theorem setLines_outgoing (p : Nat) (ls : List StoredLine) : (setLines p ls s).outgoing = s.outgoing := rfl
@[simp] theorem setLines_sending (p : Nat) (ls : List StoredLine) : (setLines p ls s).sending = s.sending := rfl
@[simp] theorem setLines_resetSent (p : Nat) (ls : List StoredLine) : (setLines p ls s).resetSent = s.resetSent := rfl
@[simp] theorem setLines_eventSeq (p : Nat) (ls : List StoredLine) : (setLines p ls s).eventSeq = s.eventSeq := rfl
@[simp] theorem setLines_lostCount (p : Nat) (ls : List StoredLine) : (setLines p ls s).lostCount = s.lostCount := rfl
@[simp] theorem setLines_engine (p : Nat) (ls : List StoredLine) : (setLines p ls s).engine = s.engine := rfl
@[simp] theorem setLines_motionCfg (p : Nat) (ls : List StoredLine) : (setLines p ls s).motionCfg = s.motionCfg := rfl
@[simp] theorem setLines_pRaw (p : Nat) (ls : List StoredLine) : (setLines p ls s).pRaw = s.pRaw := rfl
@[simp] theorem setLines_hRaw (p : Nat) (ls : List StoredLine) : (setLines p ls s).hRaw = s.hRaw := rfl
@[simp] theorem setLines_decRef (p : Nat) (ls : List StoredLine) : (setLines p ls s).decRef = s.decRef := rfl
@[simp] theorem setLines_encPins (p : Nat) (ls : List StoredLine) : (setLines p ls s).encPins = s.encPins := rfl
@[simp] theorem setLines_pace (p : Nat) (ls : List StoredLine) : (setLines p ls s).pace = s.pace := rfl
@[simp] theorem setLines_revCond (p : Nat) (ls : List StoredLine) : (setLines p ls s).revCond = s.revCond := rfl
@[simp] theorem setLines_cueCfg (p : Nat) (ls : List StoredLine) : (setLines p ls s).cueCfg = s.cueCfg := rfl
@[simp] theorem setLines_lock (p : Nat) (ls : List StoredLine) : (setLines p ls s).lock = s.lock := rfl
@[simp] theorem setLines_smoothed (p : Nat) (ls : List StoredLine) : (setLines p ls s).smoothed = s.smoothed := rfl
@[simp] theorem setLines_predicted (p : Nat) (ls : List StoredLine) : (setLines p ls s).predicted = s.predicted := rfl
@[simp] theorem setLines_flywheel (p : Nat) (ls : List StoredLine) : (setLines p ls s).flywheel = s.flywheel := rfl
@[simp] theorem setLines_lastAccepted (p : Nat) (ls : List StoredLine) : (setLines p ls s).lastAccepted = s.lastAccepted := rfl
@[simp] theorem setLines_pages (p : Nat) (ls : List StoredLine) : (setLines p ls s).pages = s.pages := rfl
@[simp] theorem setLines_tailEnd (p : Nat) (ls : List StoredLine) : (setLines p ls s).tailEnd = s.tailEnd := rfl
@[simp] theorem setLines_tailPage (p : Nat) (ls : List StoredLine) : (setLines p ls s).tailPage = s.tailPage := rfl
@[simp] theorem setLines_regions (p : Nat) (ls : List StoredLine) : (setLines p ls s).regions = s.regions := rfl
@[simp] theorem setLines_planes (p : Nat) (ls : List StoredLine) : (setLines p ls s).planes = s.planes := rfl
@[simp] theorem setLines_heads (p : Nat) (ls : List StoredLine) : (setLines p ls s).heads = s.heads := rfl
@[simp] theorem setLines_decode (p : Nat) (ls : List StoredLine) : (setLines p ls s).decode = s.decode := rfl
@[simp] theorem setLines_nozzles (p : Nat) (ls : List StoredLine) : (setLines p ls s).nozzles = s.nozzles := rfl
@[simp] theorem setLines_rows (p : Nat) (ls : List StoredLine) : (setLines p ls s).rows = s.rows := rfl
@[simp] theorem setLines_lanes (p : Nat) (ls : List StoredLine) : (setLines p ls s).lanes = s.lanes := rfl
@[simp] theorem setLines_links (p : Nat) (ls : List StoredLine) : (setLines p ls s).links = s.links := rfl
@[simp] theorem setLines_loaders (p : Nat) (ls : List StoredLine) : (setLines p ls s).loaders = s.loaders := rfl
@[simp] theorem setLines_health (p : Nat) (ls : List StoredLine) : (setLines p ls s).health = s.health := rfl
@[simp] theorem setLines_banks (p : Nat) (ls : List StoredLine) : (setLines p ls s).banks = s.banks := rfl
@[simp] theorem setLines_activeBank (p : Nat) (ls : List StoredLine) : (setLines p ls s).activeBank = s.activeBank := rfl
@[simp] theorem setLines_linkCtrs (p : Nat) (ls : List StoredLine) : (setLines p ls s).linkCtrs = s.linkCtrs := rfl
@[simp] theorem setLines_motionCtrs (p : Nat) (ls : List StoredLine) : (setLines p ls s).motionCtrs = s.motionCtrs := rfl
@[simp] theorem setLines_planeCtrs (p : Nat) (ls : List StoredLine) : (setLines p ls s).planeCtrs = s.planeCtrs := rfl
@[simp] theorem setLines_headCtrs (p : Nat) (ls : List StoredLine) : (setLines p ls s).headCtrs = s.headCtrs := rfl
@[simp] theorem setLines_sched (p : Nat) (ls : List StoredLine) : (setLines p ls s).sched = s.sched := rfl
@[simp] theorem setLines_cueWith (p : Nat) (ls : List StoredLine) : (setLines p ls s).cueWith = s.cueWith := rfl
@[simp] theorem setLines_pending (p : Nat) (ls : List StoredLine) : (setLines p ls s).pending = s.pending := rfl

/-! ### setLoader -/

@[simp] theorem setLoader_rx (h : Nat) (l : Loader) : (setLoader h l s).rx = s.rx := rfl
@[simp] theorem setLoader_ctlWaiting (h : Nat) (l : Loader) : (setLoader h l s).ctlWaiting = s.ctlWaiting := rfl
@[simp] theorem setLoader_dataWaiting (h : Nat) (l : Loader) : (setLoader h l s).dataWaiting = s.dataWaiting := rfl
@[simp] theorem setLoader_handler (h : Nat) (l : Loader) : (setLoader h l s).handler = s.handler := rfl
@[simp] theorem setLoader_outgoing (h : Nat) (l : Loader) : (setLoader h l s).outgoing = s.outgoing := rfl
@[simp] theorem setLoader_sending (h : Nat) (l : Loader) : (setLoader h l s).sending = s.sending := rfl
@[simp] theorem setLoader_resetSent (h : Nat) (l : Loader) : (setLoader h l s).resetSent = s.resetSent := rfl
@[simp] theorem setLoader_eventSeq (h : Nat) (l : Loader) : (setLoader h l s).eventSeq = s.eventSeq := rfl
@[simp] theorem setLoader_lostCount (h : Nat) (l : Loader) : (setLoader h l s).lostCount = s.lostCount := rfl
@[simp] theorem setLoader_engine (h : Nat) (l : Loader) : (setLoader h l s).engine = s.engine := rfl
@[simp] theorem setLoader_motionCfg (h : Nat) (l : Loader) : (setLoader h l s).motionCfg = s.motionCfg := rfl
@[simp] theorem setLoader_pRaw (h : Nat) (l : Loader) : (setLoader h l s).pRaw = s.pRaw := rfl
@[simp] theorem setLoader_hRaw (h : Nat) (l : Loader) : (setLoader h l s).hRaw = s.hRaw := rfl
@[simp] theorem setLoader_decRef (h : Nat) (l : Loader) : (setLoader h l s).decRef = s.decRef := rfl
@[simp] theorem setLoader_encPins (h : Nat) (l : Loader) : (setLoader h l s).encPins = s.encPins := rfl
@[simp] theorem setLoader_pace (h : Nat) (l : Loader) : (setLoader h l s).pace = s.pace := rfl
@[simp] theorem setLoader_revCond (h : Nat) (l : Loader) : (setLoader h l s).revCond = s.revCond := rfl
@[simp] theorem setLoader_cueCfg (h : Nat) (l : Loader) : (setLoader h l s).cueCfg = s.cueCfg := rfl
@[simp] theorem setLoader_lock (h : Nat) (l : Loader) : (setLoader h l s).lock = s.lock := rfl
@[simp] theorem setLoader_smoothed (h : Nat) (l : Loader) : (setLoader h l s).smoothed = s.smoothed := rfl
@[simp] theorem setLoader_predicted (h : Nat) (l : Loader) : (setLoader h l s).predicted = s.predicted := rfl
@[simp] theorem setLoader_flywheel (h : Nat) (l : Loader) : (setLoader h l s).flywheel = s.flywheel := rfl
@[simp] theorem setLoader_lastAccepted (h : Nat) (l : Loader) : (setLoader h l s).lastAccepted = s.lastAccepted := rfl
@[simp] theorem setLoader_pages (h : Nat) (l : Loader) : (setLoader h l s).pages = s.pages := rfl
@[simp] theorem setLoader_tailEnd (h : Nat) (l : Loader) : (setLoader h l s).tailEnd = s.tailEnd := rfl
@[simp] theorem setLoader_tailPage (h : Nat) (l : Loader) : (setLoader h l s).tailPage = s.tailPage := rfl
@[simp] theorem setLoader_lines (h : Nat) (l : Loader) : (setLoader h l s).lines = s.lines := rfl
@[simp] theorem setLoader_regions (h : Nat) (l : Loader) : (setLoader h l s).regions = s.regions := rfl
@[simp] theorem setLoader_planes (h : Nat) (l : Loader) : (setLoader h l s).planes = s.planes := rfl
@[simp] theorem setLoader_heads (h : Nat) (l : Loader) : (setLoader h l s).heads = s.heads := rfl
@[simp] theorem setLoader_decode (h : Nat) (l : Loader) : (setLoader h l s).decode = s.decode := rfl
@[simp] theorem setLoader_nozzles (h : Nat) (l : Loader) : (setLoader h l s).nozzles = s.nozzles := rfl
@[simp] theorem setLoader_rows (h : Nat) (l : Loader) : (setLoader h l s).rows = s.rows := rfl
@[simp] theorem setLoader_lanes (h : Nat) (l : Loader) : (setLoader h l s).lanes = s.lanes := rfl
@[simp] theorem setLoader_links (h : Nat) (l : Loader) : (setLoader h l s).links = s.links := rfl
@[simp] theorem setLoader_health (h : Nat) (l : Loader) : (setLoader h l s).health = s.health := rfl
@[simp] theorem setLoader_banks (h : Nat) (l : Loader) : (setLoader h l s).banks = s.banks := rfl
@[simp] theorem setLoader_activeBank (h : Nat) (l : Loader) : (setLoader h l s).activeBank = s.activeBank := rfl
@[simp] theorem setLoader_linkCtrs (h : Nat) (l : Loader) : (setLoader h l s).linkCtrs = s.linkCtrs := rfl
@[simp] theorem setLoader_motionCtrs (h : Nat) (l : Loader) : (setLoader h l s).motionCtrs = s.motionCtrs := rfl
@[simp] theorem setLoader_planeCtrs (h : Nat) (l : Loader) : (setLoader h l s).planeCtrs = s.planeCtrs := rfl
@[simp] theorem setLoader_headCtrs (h : Nat) (l : Loader) : (setLoader h l s).headCtrs = s.headCtrs := rfl
@[simp] theorem setLoader_sched (h : Nat) (l : Loader) : (setLoader h l s).sched = s.sched := rfl
@[simp] theorem setLoader_cueWith (h : Nat) (l : Loader) : (setLoader h l s).cueWith = s.cueWith := rfl
@[simp] theorem setLoader_pending (h : Nat) (l : Loader) : (setLoader h l s).pending = s.pending := rfl

/-! ### setHealth -/

@[simp] theorem setHealth_rx (h : Nat) (k : Health) : (setHealth h k s).rx = s.rx := rfl
@[simp] theorem setHealth_ctlWaiting (h : Nat) (k : Health) : (setHealth h k s).ctlWaiting = s.ctlWaiting := rfl
@[simp] theorem setHealth_dataWaiting (h : Nat) (k : Health) : (setHealth h k s).dataWaiting = s.dataWaiting := rfl
@[simp] theorem setHealth_handler (h : Nat) (k : Health) : (setHealth h k s).handler = s.handler := rfl
@[simp] theorem setHealth_outgoing (h : Nat) (k : Health) : (setHealth h k s).outgoing = s.outgoing := rfl
@[simp] theorem setHealth_sending (h : Nat) (k : Health) : (setHealth h k s).sending = s.sending := rfl
@[simp] theorem setHealth_resetSent (h : Nat) (k : Health) : (setHealth h k s).resetSent = s.resetSent := rfl
@[simp] theorem setHealth_eventSeq (h : Nat) (k : Health) : (setHealth h k s).eventSeq = s.eventSeq := rfl
@[simp] theorem setHealth_lostCount (h : Nat) (k : Health) : (setHealth h k s).lostCount = s.lostCount := rfl
@[simp] theorem setHealth_engine (h : Nat) (k : Health) : (setHealth h k s).engine = s.engine := rfl
@[simp] theorem setHealth_motionCfg (h : Nat) (k : Health) : (setHealth h k s).motionCfg = s.motionCfg := rfl
@[simp] theorem setHealth_pRaw (h : Nat) (k : Health) : (setHealth h k s).pRaw = s.pRaw := rfl
@[simp] theorem setHealth_hRaw (h : Nat) (k : Health) : (setHealth h k s).hRaw = s.hRaw := rfl
@[simp] theorem setHealth_decRef (h : Nat) (k : Health) : (setHealth h k s).decRef = s.decRef := rfl
@[simp] theorem setHealth_encPins (h : Nat) (k : Health) : (setHealth h k s).encPins = s.encPins := rfl
@[simp] theorem setHealth_pace (h : Nat) (k : Health) : (setHealth h k s).pace = s.pace := rfl
@[simp] theorem setHealth_revCond (h : Nat) (k : Health) : (setHealth h k s).revCond = s.revCond := rfl
@[simp] theorem setHealth_cueCfg (h : Nat) (k : Health) : (setHealth h k s).cueCfg = s.cueCfg := rfl
@[simp] theorem setHealth_lock (h : Nat) (k : Health) : (setHealth h k s).lock = s.lock := rfl
@[simp] theorem setHealth_smoothed (h : Nat) (k : Health) : (setHealth h k s).smoothed = s.smoothed := rfl
@[simp] theorem setHealth_predicted (h : Nat) (k : Health) : (setHealth h k s).predicted = s.predicted := rfl
@[simp] theorem setHealth_flywheel (h : Nat) (k : Health) : (setHealth h k s).flywheel = s.flywheel := rfl
@[simp] theorem setHealth_lastAccepted (h : Nat) (k : Health) : (setHealth h k s).lastAccepted = s.lastAccepted := rfl
@[simp] theorem setHealth_pages (h : Nat) (k : Health) : (setHealth h k s).pages = s.pages := rfl
@[simp] theorem setHealth_tailEnd (h : Nat) (k : Health) : (setHealth h k s).tailEnd = s.tailEnd := rfl
@[simp] theorem setHealth_tailPage (h : Nat) (k : Health) : (setHealth h k s).tailPage = s.tailPage := rfl
@[simp] theorem setHealth_lines (h : Nat) (k : Health) : (setHealth h k s).lines = s.lines := rfl
@[simp] theorem setHealth_regions (h : Nat) (k : Health) : (setHealth h k s).regions = s.regions := rfl
@[simp] theorem setHealth_planes (h : Nat) (k : Health) : (setHealth h k s).planes = s.planes := rfl
@[simp] theorem setHealth_heads (h : Nat) (k : Health) : (setHealth h k s).heads = s.heads := rfl
@[simp] theorem setHealth_decode (h : Nat) (k : Health) : (setHealth h k s).decode = s.decode := rfl
@[simp] theorem setHealth_nozzles (h : Nat) (k : Health) : (setHealth h k s).nozzles = s.nozzles := rfl
@[simp] theorem setHealth_rows (h : Nat) (k : Health) : (setHealth h k s).rows = s.rows := rfl
@[simp] theorem setHealth_lanes (h : Nat) (k : Health) : (setHealth h k s).lanes = s.lanes := rfl
@[simp] theorem setHealth_links (h : Nat) (k : Health) : (setHealth h k s).links = s.links := rfl
@[simp] theorem setHealth_loaders (h : Nat) (k : Health) : (setHealth h k s).loaders = s.loaders := rfl
@[simp] theorem setHealth_banks (h : Nat) (k : Health) : (setHealth h k s).banks = s.banks := rfl
@[simp] theorem setHealth_activeBank (h : Nat) (k : Health) : (setHealth h k s).activeBank = s.activeBank := rfl
@[simp] theorem setHealth_linkCtrs (h : Nat) (k : Health) : (setHealth h k s).linkCtrs = s.linkCtrs := rfl
@[simp] theorem setHealth_motionCtrs (h : Nat) (k : Health) : (setHealth h k s).motionCtrs = s.motionCtrs := rfl
@[simp] theorem setHealth_planeCtrs (h : Nat) (k : Health) : (setHealth h k s).planeCtrs = s.planeCtrs := rfl
@[simp] theorem setHealth_headCtrs (h : Nat) (k : Health) : (setHealth h k s).headCtrs = s.headCtrs := rfl
@[simp] theorem setHealth_sched (h : Nat) (k : Health) : (setHealth h k s).sched = s.sched := rfl
@[simp] theorem setHealth_cueWith (h : Nat) (k : Health) : (setHealth h k s).cueWith = s.cueWith := rfl
@[simp] theorem setHealth_pending (h : Nat) (k : Health) : (setHealth h k s).pending = s.pending := rfl

/-! ### mapBufs -/

@[simp] theorem mapBufs_rx (g : LoadBuf → LoadBuf) : (mapBufs g s).rx = s.rx := by simp only [mapBufs]
@[simp] theorem mapBufs_ctlWaiting (g : LoadBuf → LoadBuf) : (mapBufs g s).ctlWaiting = s.ctlWaiting := by simp only [mapBufs]
@[simp] theorem mapBufs_dataWaiting (g : LoadBuf → LoadBuf) : (mapBufs g s).dataWaiting = s.dataWaiting := by simp only [mapBufs]
@[simp] theorem mapBufs_handler (g : LoadBuf → LoadBuf) : (mapBufs g s).handler = s.handler := by simp only [mapBufs]
@[simp] theorem mapBufs_outgoing (g : LoadBuf → LoadBuf) : (mapBufs g s).outgoing = s.outgoing := by simp only [mapBufs]
@[simp] theorem mapBufs_sending (g : LoadBuf → LoadBuf) : (mapBufs g s).sending = s.sending := by simp only [mapBufs]
@[simp] theorem mapBufs_resetSent (g : LoadBuf → LoadBuf) : (mapBufs g s).resetSent = s.resetSent := by simp only [mapBufs]
@[simp] theorem mapBufs_eventSeq (g : LoadBuf → LoadBuf) : (mapBufs g s).eventSeq = s.eventSeq := by simp only [mapBufs]
@[simp] theorem mapBufs_lostCount (g : LoadBuf → LoadBuf) : (mapBufs g s).lostCount = s.lostCount := by simp only [mapBufs]
@[simp] theorem mapBufs_engine (g : LoadBuf → LoadBuf) : (mapBufs g s).engine = s.engine := by simp only [mapBufs]
@[simp] theorem mapBufs_motionCfg (g : LoadBuf → LoadBuf) : (mapBufs g s).motionCfg = s.motionCfg := by simp only [mapBufs]
@[simp] theorem mapBufs_pRaw (g : LoadBuf → LoadBuf) : (mapBufs g s).pRaw = s.pRaw := by simp only [mapBufs]
@[simp] theorem mapBufs_hRaw (g : LoadBuf → LoadBuf) : (mapBufs g s).hRaw = s.hRaw := by simp only [mapBufs]
@[simp] theorem mapBufs_decRef (g : LoadBuf → LoadBuf) : (mapBufs g s).decRef = s.decRef := by simp only [mapBufs]
@[simp] theorem mapBufs_encPins (g : LoadBuf → LoadBuf) : (mapBufs g s).encPins = s.encPins := by simp only [mapBufs]
@[simp] theorem mapBufs_pace (g : LoadBuf → LoadBuf) : (mapBufs g s).pace = s.pace := by simp only [mapBufs]
@[simp] theorem mapBufs_revCond (g : LoadBuf → LoadBuf) : (mapBufs g s).revCond = s.revCond := by simp only [mapBufs]
@[simp] theorem mapBufs_cueCfg (g : LoadBuf → LoadBuf) : (mapBufs g s).cueCfg = s.cueCfg := by simp only [mapBufs]
@[simp] theorem mapBufs_lock (g : LoadBuf → LoadBuf) : (mapBufs g s).lock = s.lock := by simp only [mapBufs]
@[simp] theorem mapBufs_smoothed (g : LoadBuf → LoadBuf) : (mapBufs g s).smoothed = s.smoothed := by simp only [mapBufs]
@[simp] theorem mapBufs_predicted (g : LoadBuf → LoadBuf) : (mapBufs g s).predicted = s.predicted := by simp only [mapBufs]
@[simp] theorem mapBufs_flywheel (g : LoadBuf → LoadBuf) : (mapBufs g s).flywheel = s.flywheel := by simp only [mapBufs]
@[simp] theorem mapBufs_lastAccepted (g : LoadBuf → LoadBuf) : (mapBufs g s).lastAccepted = s.lastAccepted := by simp only [mapBufs]
@[simp] theorem mapBufs_pages (g : LoadBuf → LoadBuf) : (mapBufs g s).pages = s.pages := by simp only [mapBufs]
@[simp] theorem mapBufs_tailEnd (g : LoadBuf → LoadBuf) : (mapBufs g s).tailEnd = s.tailEnd := by simp only [mapBufs]
@[simp] theorem mapBufs_tailPage (g : LoadBuf → LoadBuf) : (mapBufs g s).tailPage = s.tailPage := by simp only [mapBufs]
@[simp] theorem mapBufs_lines (g : LoadBuf → LoadBuf) : (mapBufs g s).lines = s.lines := by simp only [mapBufs]
@[simp] theorem mapBufs_regions (g : LoadBuf → LoadBuf) : (mapBufs g s).regions = s.regions := by simp only [mapBufs]
@[simp] theorem mapBufs_planes (g : LoadBuf → LoadBuf) : (mapBufs g s).planes = s.planes := by simp only [mapBufs]
@[simp] theorem mapBufs_heads (g : LoadBuf → LoadBuf) : (mapBufs g s).heads = s.heads := by simp only [mapBufs]
@[simp] theorem mapBufs_decode (g : LoadBuf → LoadBuf) : (mapBufs g s).decode = s.decode := by simp only [mapBufs]
@[simp] theorem mapBufs_nozzles (g : LoadBuf → LoadBuf) : (mapBufs g s).nozzles = s.nozzles := by simp only [mapBufs]
@[simp] theorem mapBufs_lanes (g : LoadBuf → LoadBuf) : (mapBufs g s).lanes = s.lanes := by simp only [mapBufs]
@[simp] theorem mapBufs_links (g : LoadBuf → LoadBuf) : (mapBufs g s).links = s.links := by simp only [mapBufs]
@[simp] theorem mapBufs_loaders (g : LoadBuf → LoadBuf) : (mapBufs g s).loaders = s.loaders := by simp only [mapBufs]
@[simp] theorem mapBufs_health (g : LoadBuf → LoadBuf) : (mapBufs g s).health = s.health := by simp only [mapBufs]
@[simp] theorem mapBufs_banks (g : LoadBuf → LoadBuf) : (mapBufs g s).banks = s.banks := by simp only [mapBufs]
@[simp] theorem mapBufs_activeBank (g : LoadBuf → LoadBuf) : (mapBufs g s).activeBank = s.activeBank := by simp only [mapBufs]
@[simp] theorem mapBufs_linkCtrs (g : LoadBuf → LoadBuf) : (mapBufs g s).linkCtrs = s.linkCtrs := by simp only [mapBufs]
@[simp] theorem mapBufs_motionCtrs (g : LoadBuf → LoadBuf) : (mapBufs g s).motionCtrs = s.motionCtrs := by simp only [mapBufs]
@[simp] theorem mapBufs_planeCtrs (g : LoadBuf → LoadBuf) : (mapBufs g s).planeCtrs = s.planeCtrs := by simp only [mapBufs]
@[simp] theorem mapBufs_headCtrs (g : LoadBuf → LoadBuf) : (mapBufs g s).headCtrs = s.headCtrs := by simp only [mapBufs]
@[simp] theorem mapBufs_sched (g : LoadBuf → LoadBuf) : (mapBufs g s).sched = s.sched := by simp only [mapBufs]
@[simp] theorem mapBufs_cueWith (g : LoadBuf → LoadBuf) : (mapBufs g s).cueWith = s.cueWith := by simp only [mapBufs]
@[simp] theorem mapBufs_pending (g : LoadBuf → LoadBuf) : (mapBufs g s).pending = s.pending := by simp only [mapBufs]

/-! ### markNozzle -/

@[simp] theorem markNozzle_rx (h : Nat) (pair : Nat × NozzleStatus) : (markNozzle h pair s).rx = s.rx := rfl
@[simp] theorem markNozzle_ctlWaiting (h : Nat) (pair : Nat × NozzleStatus) : (markNozzle h pair s).ctlWaiting = s.ctlWaiting := rfl
@[simp] theorem markNozzle_dataWaiting (h : Nat) (pair : Nat × NozzleStatus) : (markNozzle h pair s).dataWaiting = s.dataWaiting := rfl
@[simp] theorem markNozzle_handler (h : Nat) (pair : Nat × NozzleStatus) : (markNozzle h pair s).handler = s.handler := rfl
@[simp] theorem markNozzle_outgoing (h : Nat) (pair : Nat × NozzleStatus) : (markNozzle h pair s).outgoing = s.outgoing := rfl
@[simp] theorem markNozzle_sending (h : Nat) (pair : Nat × NozzleStatus) : (markNozzle h pair s).sending = s.sending := rfl
@[simp] theorem markNozzle_resetSent (h : Nat) (pair : Nat × NozzleStatus) : (markNozzle h pair s).resetSent = s.resetSent := rfl
@[simp] theorem markNozzle_eventSeq (h : Nat) (pair : Nat × NozzleStatus) : (markNozzle h pair s).eventSeq = s.eventSeq := rfl
@[simp] theorem markNozzle_lostCount (h : Nat) (pair : Nat × NozzleStatus) : (markNozzle h pair s).lostCount = s.lostCount := rfl
@[simp] theorem markNozzle_engine (h : Nat) (pair : Nat × NozzleStatus) : (markNozzle h pair s).engine = s.engine := rfl
@[simp] theorem markNozzle_motionCfg (h : Nat) (pair : Nat × NozzleStatus) : (markNozzle h pair s).motionCfg = s.motionCfg := rfl
@[simp] theorem markNozzle_pRaw (h : Nat) (pair : Nat × NozzleStatus) : (markNozzle h pair s).pRaw = s.pRaw := rfl
@[simp] theorem markNozzle_hRaw (h : Nat) (pair : Nat × NozzleStatus) : (markNozzle h pair s).hRaw = s.hRaw := rfl
@[simp] theorem markNozzle_decRef (h : Nat) (pair : Nat × NozzleStatus) : (markNozzle h pair s).decRef = s.decRef := rfl
@[simp] theorem markNozzle_encPins (h : Nat) (pair : Nat × NozzleStatus) : (markNozzle h pair s).encPins = s.encPins := rfl
@[simp] theorem markNozzle_pace (h : Nat) (pair : Nat × NozzleStatus) : (markNozzle h pair s).pace = s.pace := rfl
@[simp] theorem markNozzle_revCond (h : Nat) (pair : Nat × NozzleStatus) : (markNozzle h pair s).revCond = s.revCond := rfl
@[simp] theorem markNozzle_cueCfg (h : Nat) (pair : Nat × NozzleStatus) : (markNozzle h pair s).cueCfg = s.cueCfg := rfl
@[simp] theorem markNozzle_lock (h : Nat) (pair : Nat × NozzleStatus) : (markNozzle h pair s).lock = s.lock := rfl
@[simp] theorem markNozzle_smoothed (h : Nat) (pair : Nat × NozzleStatus) : (markNozzle h pair s).smoothed = s.smoothed := rfl
@[simp] theorem markNozzle_predicted (h : Nat) (pair : Nat × NozzleStatus) : (markNozzle h pair s).predicted = s.predicted := rfl
@[simp] theorem markNozzle_flywheel (h : Nat) (pair : Nat × NozzleStatus) : (markNozzle h pair s).flywheel = s.flywheel := rfl
@[simp] theorem markNozzle_lastAccepted (h : Nat) (pair : Nat × NozzleStatus) : (markNozzle h pair s).lastAccepted = s.lastAccepted := rfl
@[simp] theorem markNozzle_pages (h : Nat) (pair : Nat × NozzleStatus) : (markNozzle h pair s).pages = s.pages := rfl
@[simp] theorem markNozzle_tailEnd (h : Nat) (pair : Nat × NozzleStatus) : (markNozzle h pair s).tailEnd = s.tailEnd := rfl
@[simp] theorem markNozzle_tailPage (h : Nat) (pair : Nat × NozzleStatus) : (markNozzle h pair s).tailPage = s.tailPage := rfl
@[simp] theorem markNozzle_lines (h : Nat) (pair : Nat × NozzleStatus) : (markNozzle h pair s).lines = s.lines := rfl
@[simp] theorem markNozzle_regions (h : Nat) (pair : Nat × NozzleStatus) : (markNozzle h pair s).regions = s.regions := rfl
@[simp] theorem markNozzle_planes (h : Nat) (pair : Nat × NozzleStatus) : (markNozzle h pair s).planes = s.planes := rfl
@[simp] theorem markNozzle_heads (h : Nat) (pair : Nat × NozzleStatus) : (markNozzle h pair s).heads = s.heads := rfl
@[simp] theorem markNozzle_decode (h : Nat) (pair : Nat × NozzleStatus) : (markNozzle h pair s).decode = s.decode := rfl
@[simp] theorem markNozzle_rows (h : Nat) (pair : Nat × NozzleStatus) : (markNozzle h pair s).rows = s.rows := rfl
@[simp] theorem markNozzle_lanes (h : Nat) (pair : Nat × NozzleStatus) : (markNozzle h pair s).lanes = s.lanes := rfl
@[simp] theorem markNozzle_links (h : Nat) (pair : Nat × NozzleStatus) : (markNozzle h pair s).links = s.links := rfl
@[simp] theorem markNozzle_loaders (h : Nat) (pair : Nat × NozzleStatus) : (markNozzle h pair s).loaders = s.loaders := rfl
@[simp] theorem markNozzle_health (h : Nat) (pair : Nat × NozzleStatus) : (markNozzle h pair s).health = s.health := rfl
@[simp] theorem markNozzle_banks (h : Nat) (pair : Nat × NozzleStatus) : (markNozzle h pair s).banks = s.banks := rfl
@[simp] theorem markNozzle_activeBank (h : Nat) (pair : Nat × NozzleStatus) : (markNozzle h pair s).activeBank = s.activeBank := rfl
@[simp] theorem markNozzle_linkCtrs (h : Nat) (pair : Nat × NozzleStatus) : (markNozzle h pair s).linkCtrs = s.linkCtrs := rfl
@[simp] theorem markNozzle_motionCtrs (h : Nat) (pair : Nat × NozzleStatus) : (markNozzle h pair s).motionCtrs = s.motionCtrs := rfl
@[simp] theorem markNozzle_planeCtrs (h : Nat) (pair : Nat × NozzleStatus) : (markNozzle h pair s).planeCtrs = s.planeCtrs := rfl
@[simp] theorem markNozzle_headCtrs (h : Nat) (pair : Nat × NozzleStatus) : (markNozzle h pair s).headCtrs = s.headCtrs := rfl
@[simp] theorem markNozzle_sched (h : Nat) (pair : Nat × NozzleStatus) : (markNozzle h pair s).sched = s.sched := rfl
@[simp] theorem markNozzle_cueWith (h : Nat) (pair : Nat × NozzleStatus) : (markNozzle h pair s).cueWith = s.cueWith := rfl
@[simp] theorem markNozzle_pending (h : Nat) (pair : Nat × NozzleStatus) : (markNozzle h pair s).pending = s.pending := rfl

/-! ### raise -/

@[simp] theorem raise_rx (e : Event) : (raise e s).rx = s.rx := by rcases raise_cases s e with ⟨_, h⟩ | ⟨_, h⟩ <;> simp only [h, bumpLink]
@[simp] theorem raise_ctlWaiting (e : Event) : (raise e s).ctlWaiting = s.ctlWaiting := by rcases raise_cases s e with ⟨_, h⟩ | ⟨_, h⟩ <;> simp only [h, bumpLink]
@[simp] theorem raise_dataWaiting (e : Event) : (raise e s).dataWaiting = s.dataWaiting := by rcases raise_cases s e with ⟨_, h⟩ | ⟨_, h⟩ <;> simp only [h, bumpLink]
@[simp] theorem raise_handler (e : Event) : (raise e s).handler = s.handler := by rcases raise_cases s e with ⟨_, h⟩ | ⟨_, h⟩ <;> simp only [h, bumpLink]
@[simp] theorem raise_sending (e : Event) : (raise e s).sending = s.sending := by rcases raise_cases s e with ⟨_, h⟩ | ⟨_, h⟩ <;> simp only [h, bumpLink]
@[simp] theorem raise_resetSent (e : Event) : (raise e s).resetSent = s.resetSent := by rcases raise_cases s e with ⟨_, h⟩ | ⟨_, h⟩ <;> simp only [h, bumpLink]
@[simp] theorem raise_engine (e : Event) : (raise e s).engine = s.engine := by rcases raise_cases s e with ⟨_, h⟩ | ⟨_, h⟩ <;> simp only [h, bumpLink]
@[simp] theorem raise_motionCfg (e : Event) : (raise e s).motionCfg = s.motionCfg := by rcases raise_cases s e with ⟨_, h⟩ | ⟨_, h⟩ <;> simp only [h, bumpLink]
@[simp] theorem raise_pRaw (e : Event) : (raise e s).pRaw = s.pRaw := by rcases raise_cases s e with ⟨_, h⟩ | ⟨_, h⟩ <;> simp only [h, bumpLink]
@[simp] theorem raise_hRaw (e : Event) : (raise e s).hRaw = s.hRaw := by rcases raise_cases s e with ⟨_, h⟩ | ⟨_, h⟩ <;> simp only [h, bumpLink]
@[simp] theorem raise_decRef (e : Event) : (raise e s).decRef = s.decRef := by rcases raise_cases s e with ⟨_, h⟩ | ⟨_, h⟩ <;> simp only [h, bumpLink]
@[simp] theorem raise_encPins (e : Event) : (raise e s).encPins = s.encPins := by rcases raise_cases s e with ⟨_, h⟩ | ⟨_, h⟩ <;> simp only [h, bumpLink]
@[simp] theorem raise_pace (e : Event) : (raise e s).pace = s.pace := by rcases raise_cases s e with ⟨_, h⟩ | ⟨_, h⟩ <;> simp only [h, bumpLink]
@[simp] theorem raise_revCond (e : Event) : (raise e s).revCond = s.revCond := by rcases raise_cases s e with ⟨_, h⟩ | ⟨_, h⟩ <;> simp only [h, bumpLink]
@[simp] theorem raise_cueCfg (e : Event) : (raise e s).cueCfg = s.cueCfg := by rcases raise_cases s e with ⟨_, h⟩ | ⟨_, h⟩ <;> simp only [h, bumpLink]
@[simp] theorem raise_lock (e : Event) : (raise e s).lock = s.lock := by rcases raise_cases s e with ⟨_, h⟩ | ⟨_, h⟩ <;> simp only [h, bumpLink]
@[simp] theorem raise_smoothed (e : Event) : (raise e s).smoothed = s.smoothed := by rcases raise_cases s e with ⟨_, h⟩ | ⟨_, h⟩ <;> simp only [h, bumpLink]
@[simp] theorem raise_predicted (e : Event) : (raise e s).predicted = s.predicted := by rcases raise_cases s e with ⟨_, h⟩ | ⟨_, h⟩ <;> simp only [h, bumpLink]
@[simp] theorem raise_flywheel (e : Event) : (raise e s).flywheel = s.flywheel := by rcases raise_cases s e with ⟨_, h⟩ | ⟨_, h⟩ <;> simp only [h, bumpLink]
@[simp] theorem raise_lastAccepted (e : Event) : (raise e s).lastAccepted = s.lastAccepted := by rcases raise_cases s e with ⟨_, h⟩ | ⟨_, h⟩ <;> simp only [h, bumpLink]
@[simp] theorem raise_pages (e : Event) : (raise e s).pages = s.pages := by rcases raise_cases s e with ⟨_, h⟩ | ⟨_, h⟩ <;> simp only [h, bumpLink]
@[simp] theorem raise_tailEnd (e : Event) : (raise e s).tailEnd = s.tailEnd := by rcases raise_cases s e with ⟨_, h⟩ | ⟨_, h⟩ <;> simp only [h, bumpLink]
@[simp] theorem raise_tailPage (e : Event) : (raise e s).tailPage = s.tailPage := by rcases raise_cases s e with ⟨_, h⟩ | ⟨_, h⟩ <;> simp only [h, bumpLink]
@[simp] theorem raise_lines (e : Event) : (raise e s).lines = s.lines := by rcases raise_cases s e with ⟨_, h⟩ | ⟨_, h⟩ <;> simp only [h, bumpLink]
@[simp] theorem raise_regions (e : Event) : (raise e s).regions = s.regions := by rcases raise_cases s e with ⟨_, h⟩ | ⟨_, h⟩ <;> simp only [h, bumpLink]
@[simp] theorem raise_planes (e : Event) : (raise e s).planes = s.planes := by rcases raise_cases s e with ⟨_, h⟩ | ⟨_, h⟩ <;> simp only [h, bumpLink]
@[simp] theorem raise_heads (e : Event) : (raise e s).heads = s.heads := by rcases raise_cases s e with ⟨_, h⟩ | ⟨_, h⟩ <;> simp only [h, bumpLink]
@[simp] theorem raise_decode (e : Event) : (raise e s).decode = s.decode := by rcases raise_cases s e with ⟨_, h⟩ | ⟨_, h⟩ <;> simp only [h, bumpLink]
@[simp] theorem raise_nozzles (e : Event) : (raise e s).nozzles = s.nozzles := by rcases raise_cases s e with ⟨_, h⟩ | ⟨_, h⟩ <;> simp only [h, bumpLink]
@[simp] theorem raise_rows (e : Event) : (raise e s).rows = s.rows := by rcases raise_cases s e with ⟨_, h⟩ | ⟨_, h⟩ <;> simp only [h, bumpLink]
@[simp] theorem raise_lanes (e : Event) : (raise e s).lanes = s.lanes := by rcases raise_cases s e with ⟨_, h⟩ | ⟨_, h⟩ <;> simp only [h, bumpLink]
@[simp] theorem raise_links (e : Event) : (raise e s).links = s.links := by rcases raise_cases s e with ⟨_, h⟩ | ⟨_, h⟩ <;> simp only [h, bumpLink]
@[simp] theorem raise_loaders (e : Event) : (raise e s).loaders = s.loaders := by rcases raise_cases s e with ⟨_, h⟩ | ⟨_, h⟩ <;> simp only [h, bumpLink]
@[simp] theorem raise_health (e : Event) : (raise e s).health = s.health := by rcases raise_cases s e with ⟨_, h⟩ | ⟨_, h⟩ <;> simp only [h, bumpLink]
@[simp] theorem raise_banks (e : Event) : (raise e s).banks = s.banks := by rcases raise_cases s e with ⟨_, h⟩ | ⟨_, h⟩ <;> simp only [h, bumpLink]
@[simp] theorem raise_activeBank (e : Event) : (raise e s).activeBank = s.activeBank := by rcases raise_cases s e with ⟨_, h⟩ | ⟨_, h⟩ <;> simp only [h, bumpLink]
@[simp] theorem raise_motionCtrs (e : Event) : (raise e s).motionCtrs = s.motionCtrs := by rcases raise_cases s e with ⟨_, h⟩ | ⟨_, h⟩ <;> simp only [h, bumpLink]
@[simp] theorem raise_planeCtrs (e : Event) : (raise e s).planeCtrs = s.planeCtrs := by rcases raise_cases s e with ⟨_, h⟩ | ⟨_, h⟩ <;> simp only [h, bumpLink]
@[simp] theorem raise_headCtrs (e : Event) : (raise e s).headCtrs = s.headCtrs := by rcases raise_cases s e with ⟨_, h⟩ | ⟨_, h⟩ <;> simp only [h, bumpLink]
@[simp] theorem raise_sched (e : Event) : (raise e s).sched = s.sched := by rcases raise_cases s e with ⟨_, h⟩ | ⟨_, h⟩ <;> simp only [h, bumpLink]
@[simp] theorem raise_cueWith (e : Event) : (raise e s).cueWith = s.cueWith := by rcases raise_cases s e with ⟨_, h⟩ | ⟨_, h⟩ <;> simp only [h, bumpLink]
@[simp] theorem raise_pending (e : Event) : (raise e s).pending = s.pending := by rcases raise_cases s e with ⟨_, h⟩ | ⟨_, h⟩ <;> simp only [h, bumpLink]

/-! ### What each of them writes -/

@[simp] theorem answer_outgoing (f : HostFrame) (st : Status) (b : List Byte) :
    (answer f st b s).outgoing = s.outgoing ++ [.reply ⟨st, f.code, f.tag, some f.kind, b⟩] := rfl
@[simp] theorem setRow_rows (h r : Nat) (row : Row) :
    (setRow h r row s).rows = put s.rows h ((rowsOf s h).set r row) := rfl
@[simp] theorem setPage_pages (p : Page) :
    (setPage p s).pages = s.pages.map (fun q => if q.id = p.id then p else q) := rfl
@[simp] theorem dropPage_pages (id : Nat) :
    (dropPage id s).pages = s.pages.filter (fun q => q.id ≠ id) := rfl
@[simp] theorem setLines_lines (p : Nat) (ls : List StoredLine) :
    (setLines p ls s).lines = put s.lines p ls := rfl
@[simp] theorem setLoader_loaders (h : Nat) (l : Loader) :
    (setLoader h l s).loaders = put s.loaders h (some l) := rfl
@[simp] theorem setHealth_health (h : Nat) (k : Health) :
    (setHealth h k s).health = put s.health h (some k) := rfl

/-! ### The handler taking its next frame -/

theorem takeNext_cases (s : State) : takeNext s = s ∨ (∃ f rest, takeNext s = { s with handler := .taken f, ctlWaiting := rest })
    ∨ ∃ f rest, takeNext s = { s with handler := .taken f, dataWaiting := rest } := by
  unfold takeNext
  split
  · exact .inr (.inl ⟨_, _, rfl⟩)
  · exact .inr (.inr ⟨_, _, rfl⟩)
  · exact .inl rfl

@[simp] theorem takeNext_rx : (takeNext s).rx = s.rx := by rcases takeNext_cases s with h | ⟨_, _, h⟩ | ⟨_, _, h⟩ <;> rw [h]
@[simp] theorem takeNext_outgoing : (takeNext s).outgoing = s.outgoing := by rcases takeNext_cases s with h | ⟨_, _, h⟩ | ⟨_, _, h⟩ <;> rw [h]
@[simp] theorem takeNext_sending : (takeNext s).sending = s.sending := by rcases takeNext_cases s with h | ⟨_, _, h⟩ | ⟨_, _, h⟩ <;> rw [h]
@[simp] theorem takeNext_resetSent : (takeNext s).resetSent = s.resetSent := by rcases takeNext_cases s with h | ⟨_, _, h⟩ | ⟨_, _, h⟩ <;> rw [h]
@[simp] theorem takeNext_eventSeq : (takeNext s).eventSeq = s.eventSeq := by rcases takeNext_cases s with h | ⟨_, _, h⟩ | ⟨_, _, h⟩ <;> rw [h]
@[simp] theorem takeNext_lostCount : (takeNext s).lostCount = s.lostCount := by rcases takeNext_cases s with h | ⟨_, _, h⟩ | ⟨_, _, h⟩ <;> rw [h]
@[simp] theorem takeNext_engine : (takeNext s).engine = s.engine := by rcases takeNext_cases s with h | ⟨_, _, h⟩ | ⟨_, _, h⟩ <;> rw [h]
@[simp] theorem takeNext_motionCfg : (takeNext s).motionCfg = s.motionCfg := by rcases takeNext_cases s with h | ⟨_, _, h⟩ | ⟨_, _, h⟩ <;> rw [h]
@[simp] theorem takeNext_pRaw : (takeNext s).pRaw = s.pRaw := by rcases takeNext_cases s with h | ⟨_, _, h⟩ | ⟨_, _, h⟩ <;> rw [h]
@[simp] theorem takeNext_hRaw : (takeNext s).hRaw = s.hRaw := by rcases takeNext_cases s with h | ⟨_, _, h⟩ | ⟨_, _, h⟩ <;> rw [h]
@[simp] theorem takeNext_decRef : (takeNext s).decRef = s.decRef := by rcases takeNext_cases s with h | ⟨_, _, h⟩ | ⟨_, _, h⟩ <;> rw [h]
@[simp] theorem takeNext_encPins : (takeNext s).encPins = s.encPins := by rcases takeNext_cases s with h | ⟨_, _, h⟩ | ⟨_, _, h⟩ <;> rw [h]
@[simp] theorem takeNext_pace : (takeNext s).pace = s.pace := by rcases takeNext_cases s with h | ⟨_, _, h⟩ | ⟨_, _, h⟩ <;> rw [h]
@[simp] theorem takeNext_revCond : (takeNext s).revCond = s.revCond := by rcases takeNext_cases s with h | ⟨_, _, h⟩ | ⟨_, _, h⟩ <;> rw [h]
@[simp] theorem takeNext_cueCfg : (takeNext s).cueCfg = s.cueCfg := by rcases takeNext_cases s with h | ⟨_, _, h⟩ | ⟨_, _, h⟩ <;> rw [h]
@[simp] theorem takeNext_lock : (takeNext s).lock = s.lock := by rcases takeNext_cases s with h | ⟨_, _, h⟩ | ⟨_, _, h⟩ <;> rw [h]
@[simp] theorem takeNext_smoothed : (takeNext s).smoothed = s.smoothed := by rcases takeNext_cases s with h | ⟨_, _, h⟩ | ⟨_, _, h⟩ <;> rw [h]
@[simp] theorem takeNext_predicted : (takeNext s).predicted = s.predicted := by rcases takeNext_cases s with h | ⟨_, _, h⟩ | ⟨_, _, h⟩ <;> rw [h]
@[simp] theorem takeNext_flywheel : (takeNext s).flywheel = s.flywheel := by rcases takeNext_cases s with h | ⟨_, _, h⟩ | ⟨_, _, h⟩ <;> rw [h]
@[simp] theorem takeNext_lastAccepted : (takeNext s).lastAccepted = s.lastAccepted := by rcases takeNext_cases s with h | ⟨_, _, h⟩ | ⟨_, _, h⟩ <;> rw [h]
@[simp] theorem takeNext_pages : (takeNext s).pages = s.pages := by rcases takeNext_cases s with h | ⟨_, _, h⟩ | ⟨_, _, h⟩ <;> rw [h]
@[simp] theorem takeNext_tailEnd : (takeNext s).tailEnd = s.tailEnd := by rcases takeNext_cases s with h | ⟨_, _, h⟩ | ⟨_, _, h⟩ <;> rw [h]
@[simp] theorem takeNext_tailPage : (takeNext s).tailPage = s.tailPage := by rcases takeNext_cases s with h | ⟨_, _, h⟩ | ⟨_, _, h⟩ <;> rw [h]
@[simp] theorem takeNext_lines : (takeNext s).lines = s.lines := by rcases takeNext_cases s with h | ⟨_, _, h⟩ | ⟨_, _, h⟩ <;> rw [h]
@[simp] theorem takeNext_regions : (takeNext s).regions = s.regions := by rcases takeNext_cases s with h | ⟨_, _, h⟩ | ⟨_, _, h⟩ <;> rw [h]
@[simp] theorem takeNext_planes : (takeNext s).planes = s.planes := by rcases takeNext_cases s with h | ⟨_, _, h⟩ | ⟨_, _, h⟩ <;> rw [h]
@[simp] theorem takeNext_heads : (takeNext s).heads = s.heads := by rcases takeNext_cases s with h | ⟨_, _, h⟩ | ⟨_, _, h⟩ <;> rw [h]
@[simp] theorem takeNext_decode : (takeNext s).decode = s.decode := by rcases takeNext_cases s with h | ⟨_, _, h⟩ | ⟨_, _, h⟩ <;> rw [h]
@[simp] theorem takeNext_nozzles : (takeNext s).nozzles = s.nozzles := by rcases takeNext_cases s with h | ⟨_, _, h⟩ | ⟨_, _, h⟩ <;> rw [h]
@[simp] theorem takeNext_rows : (takeNext s).rows = s.rows := by rcases takeNext_cases s with h | ⟨_, _, h⟩ | ⟨_, _, h⟩ <;> rw [h]
@[simp] theorem takeNext_lanes : (takeNext s).lanes = s.lanes := by rcases takeNext_cases s with h | ⟨_, _, h⟩ | ⟨_, _, h⟩ <;> rw [h]
@[simp] theorem takeNext_links : (takeNext s).links = s.links := by rcases takeNext_cases s with h | ⟨_, _, h⟩ | ⟨_, _, h⟩ <;> rw [h]
@[simp] theorem takeNext_loaders : (takeNext s).loaders = s.loaders := by rcases takeNext_cases s with h | ⟨_, _, h⟩ | ⟨_, _, h⟩ <;> rw [h]
@[simp] theorem takeNext_health : (takeNext s).health = s.health := by rcases takeNext_cases s with h | ⟨_, _, h⟩ | ⟨_, _, h⟩ <;> rw [h]
@[simp] theorem takeNext_banks : (takeNext s).banks = s.banks := by rcases takeNext_cases s with h | ⟨_, _, h⟩ | ⟨_, _, h⟩ <;> rw [h]
@[simp] theorem takeNext_activeBank : (takeNext s).activeBank = s.activeBank := by rcases takeNext_cases s with h | ⟨_, _, h⟩ | ⟨_, _, h⟩ <;> rw [h]
@[simp] theorem takeNext_linkCtrs : (takeNext s).linkCtrs = s.linkCtrs := by rcases takeNext_cases s with h | ⟨_, _, h⟩ | ⟨_, _, h⟩ <;> rw [h]
@[simp] theorem takeNext_motionCtrs : (takeNext s).motionCtrs = s.motionCtrs := by rcases takeNext_cases s with h | ⟨_, _, h⟩ | ⟨_, _, h⟩ <;> rw [h]
@[simp] theorem takeNext_planeCtrs : (takeNext s).planeCtrs = s.planeCtrs := by rcases takeNext_cases s with h | ⟨_, _, h⟩ | ⟨_, _, h⟩ <;> rw [h]
@[simp] theorem takeNext_headCtrs : (takeNext s).headCtrs = s.headCtrs := by rcases takeNext_cases s with h | ⟨_, _, h⟩ | ⟨_, _, h⟩ <;> rw [h]
@[simp] theorem takeNext_sched : (takeNext s).sched = s.sched := by rcases takeNext_cases s with h | ⟨_, _, h⟩ | ⟨_, _, h⟩ <;> rw [h]
@[simp] theorem takeNext_cueWith : (takeNext s).cueWith = s.cueWith := by rcases takeNext_cases s with h | ⟨_, _, h⟩ | ⟨_, _, h⟩ <;> rw [h]
@[simp] theorem takeNext_pending : (takeNext s).pending = s.pending := by rcases takeNext_cases s with h | ⟨_, _, h⟩ | ⟨_, _, h⟩ <;> rw [h]

end Sys2Proof.Machine
end

