-- ==== Sys2Proof/Laws/Frame.lean ====
section
/-! SUPPORT. What the shared operations of rows, loaders, lines and pages can do, once for every relation that their
primitive updates keep: among them `RowFrame` (what they leave alone) and `EventsOnly` (what they send). -/

namespace Sys2Proof.Machine

theorem RowFrame.refl (s : State) : RowFrame s s := by constructor <;> rfl

theorem RowFrame.trans {s t u : State} (a : RowFrame s t) (b : RowFrame t u) : RowFrame s u := by
  constructor
  · exact b.rx.trans a.rx
  · exact b.ctlWaiting.trans a.ctlWaiting
  · exact b.dataWaiting.trans a.dataWaiting
  · exact b.handler.trans a.handler
  · exact b.sending.trans a.sending
  · exact b.resetSent.trans a.resetSent
  · exact b.engine.trans a.engine
  · exact b.motionCfg.trans a.motionCfg
  · exact b.pRaw.trans a.pRaw
  · exact b.hRaw.trans a.hRaw
  · exact b.decRef.trans a.decRef
  · exact b.encPins.trans a.encPins
  · exact b.pace.trans a.pace
  · exact b.revCond.trans a.revCond
  · exact b.cueCfg.trans a.cueCfg
  · exact b.lock.trans a.lock
  · exact b.smoothed.trans a.smoothed
  · exact b.predicted.trans a.predicted
  · exact b.flywheel.trans a.flywheel
  · exact b.lastAccepted.trans a.lastAccepted
  · exact b.regions.trans a.regions
  · exact b.planes.trans a.planes
  · exact b.heads.trans a.heads
  · exact b.decode.trans a.decode
  · exact b.nozzles.trans a.nozzles
  · exact b.lanes.trans a.lanes
  · exact b.links.trans a.links
  · exact b.health.trans a.health
  · exact b.banks.trans a.banks
  · exact b.activeBank.trans a.activeBank
  · exact b.motionCtrs.trans a.motionCtrs
  · exact b.cueWith.trans a.cueWith
  · exact b.pending.trans a.pending

/-- A relation of a state and a later one that the primitive updates of rows, loaders, lines, pages, their
counters and events keep. -/
structure RowClosed (R : State → State → Prop) : Prop where
  refl : ∀ s, R s s
  trans : ∀ {s t u}, R s t → R t u → R s u
  raise : ∀ e s, R s (raise e s)
  planeCtr : ∀ p c x s, x ≤ Config.counterMax → R s (setPlaneCtr p c x s)
  bumpHead : ∀ h k n s, R s (bumpHead h (.retired k) n s)
  rows : ∀ rs s, R s { s with rows := rs }
  report : ∀ p k h r n plane s, pageById s p.id = some p →
    R s (setPage ((p.report k h r n).flagUnderrun k plane) s)
  dropPage : ∀ id s, R s (dropPage id s)
  lines : ∀ p ls s, (∀ l ∈ ls, ∃ k ∈ linesOf s p, k.page = l.page ∧ k.line = l.line) → R s (setLines p ls s)
  loaders : ∀ ls s, R s { s with loaders := ls }
  sched : ∀ l s, R s { s with sched := l }

/-- A relation that any change of the page records and the tail end keeps as well: one of those that opening,
binding, cancellation and halt keep. -/
structure PageClosed (R : State → State → Prop) : Prop extends RowClosed R where
  pages : ∀ ps te tp s, R s { s with pages := ps, tailEnd := te, tailPage := tp }

theorem pageById_id {s : State} {id : Nat} {p : Page} (h : pageById s id = some p) : p.id = id := by
  simpa using List.find?_some h

namespace RowClosed

variable {R : State → State → Prop} (hR : RowClosed R)
include hR

theorem foldl {α : Type} {f : State → α → State} (h : ∀ s a, R s (f s a)) (l : List α)
    (s : State) : R s (l.foldl f s) := by
  induction l generalizing s with
  | nil => exact hR.refl s
  | cons a l ih => exact hR.trans (h s a) (ih _)

omit hR in
theorem ite {p : Prop} [Decidable p] {s t u : State} (a : R s t) (b : R s u) :
    R s (if p then t else u) := by
  by_cases h : p <;> simp only [h, if_true, if_false] <;> assumption

/-! ### The named updates -/

theorem bumpPlane (p : Nat) (c : PlaneCtr) (n : Nat) (s : State) : R s (bumpPlane p c n s) :=
  hR.planeCtr _ _ _ _ (Nat.min_le_right ..)
theorem setRow (h r : Nat) (row : Row) (s : State) : R s (setRow h r row s) := hR.rows _ _
theorem filterLines (p : Nat) (f : StoredLine → Bool) (s : State) :
    R s (Machine.setLines p ((linesOf s p).filter f) s) :=
  hR.lines _ _ _ fun l hl => ⟨l, (List.mem_filter.mp hl).1, rfl, rfl⟩
theorem mapLines (p : Nat) (f : StoredLine → StoredLine) (s : State)
    (same : ∀ k, (f k).page = k.page ∧ (f k).line = k.line) :
    R s (Machine.setLines p ((linesOf s p).map f) s) :=
  hR.lines _ _ _ fun l hl => by
    obtain ⟨k, hk, rfl⟩ := List.mem_map.mp hl
    exact ⟨k, hk, (same k).1.symm, (same k).2.symm⟩
theorem setLoader (h : Nat) (l : Loader) (s : State) : R s (setLoader h l s) := hR.loaders _ _
theorem mapBufs (g : LoadBuf → LoadBuf) (s : State) : R s (mapBufs g s) := by
  rw [Machine.mapBufs]; exact hR.rows _ _

/-! ### Retirement and composition -/

theorem retireLine (p : Nat) (e : Entry) (s : State) : R s (retireLine p e s) := by
  unfold Machine.retireLine
  split
  · exact hR.refl s
  · split
    · exact hR.trans (hR.filterLines ..) (hR.trans (hR.bumpPlane ..) (hR.bumpPlane ..))
    · exact hR.mapLines _ _ _ fun k => by split <;> exact ⟨rfl, rfl⟩

theorem finishPage (id : Nat) (s : State) : R s (finishPage id s) := by
  unfold Machine.finishPage
  split
  · exact hR.refl s
  · exact ite (hR.trans (hR.dropPage ..) (hR.raise ..)) (hR.refl s)

theorem raiseStarted (p : Page) (k : Kind) (h r n : Nat) (s : State) :
    R s (raiseStarted p k h r n s) := ite (hR.raise ..) (hR.refl s)

theorem raiseUnderrun (p : Page) (k : Kind) (pl h r n : Nat) (s : State) :
    R s (raiseUnderrun p k pl h r n s) := ite (hR.raise ..) (hR.refl s)

theorem retire (k : Kind) (h r : Nat) (e : Entry) (s : State) : R s (retire k h r e s) := by
  unfold Machine.retire
  split
  · rename_i p plane hp _
    exact hR.trans (hR.report p k h r e.line plane s (by rw [pageById_id hp]; exact hp)) (hR.trans (hR.raiseStarted ..) (hR.trans (hR.raiseUnderrun ..)
      (hR.trans (hR.retireLine ..) (hR.trans (hR.bumpHead ..) (hR.finishPage ..)))))
  · exact hR.refl s

theorem composeLine (p : Nat) (l : StoredLine) (s : State) : R s (composeLine p l s) := by
  unfold Machine.composeLine
  split
  · refine hR.trans (hR.mapLines _ _ _ fun k => ?_) (hR.bumpPlane ..)
    split
    · rename_i h; simp [StoredLine.is] at h; exact ⟨h.1.symm, h.2.symm⟩
    · exact ⟨rfl, rfl⟩
  · exact hR.refl s

theorem composeNext (h r : Nat) (s : State) : R s (composeNext h r s) := by
  unfold Machine.composeNext
  split
  · split
    · exact hR.composeLine ..
    · exact hR.refl s
  · exact hR.refl s

theorem composeAll (s : State) : R s (composeAll s) :=
  hR.foldl (fun s (t : Nat × Nat) => hR.composeNext t.1 t.2 s) _ s

/-! ### Rows and loaders -/

theorem decideRow (fuel h r : Nat) (s : State) : R s (decideRow fuel h r s) := by
  induction fuel generalizing s with
  | zero => exact hR.composeNext h r s
  | succ fuel ih =>
    unfold Machine.decideRow
    refine hR.trans (hR.composeNext h r s) ?_
    dsimp only
    split
    · exact hR.refl _
    · split
      · exact hR.refl _
      · exact hR.trans (hR.retire ..) (ih _)

theorem fireStart (h r : Nat) (s : State) : R s (fireStart h r s) := by
  unfold Machine.fireStart
  split
  · split
    · exact hR.refl s
    · exact ite (hR.refl s) (ite (hR.trans (hR.setRow ..) (hR.retire ..))
        (hR.trans (hR.setRow ..) (hR.retire ..)))
  · exact hR.refl s

theorem rowTurn (h r : Nat) (s : State) : R s (rowTurn h r s) :=
  hR.trans (hR.fireStart h r s) (hR.decideRow ..)

theorem rowOnce (h r : Nat) (s : State) : R s (rowOnce h r s) := by
  unfold Machine.rowOnce
  split
  · exact hR.trans (hR.fireStart h r s) (hR.composeNext ..)
  · exact hR.decideRow ..

theorem beginTransfer (h : Nat) (c : Carry) (l : Loader) (s : State) :
    R s (beginTransfer h c l s) := hR.setLoader ..

theorem beginLoad (h : Nat) (c : Candidate) (l : Loader) (s : State) : R s (beginLoad h c l s) := by
  unfold Machine.beginLoad
  split
  · exact hR.trans (hR.setRow ..) (hR.trans (hR.beginTransfer ..) (hR.composeNext ..))
  · exact hR.refl s

theorem loaderTurn (h : Nat) (s : State) : R s (loaderTurn h s) := by
  unfold Machine.loaderTurn
  split
  · split
    · split
      · exact hR.beginLoad ..
      · exact hR.refl s
    · exact hR.refl s
  · exact hR.refl s

theorem turn (a : SchedAct) (s : State) : R s (turn a s) := by
  cases a with
  | cueOnce => exact hR.refl s
  | cue => exact hR.refl s
  | rowOnce h r => exact hR.rowOnce h r s
  | row h r => exact hR.rowTurn h r s
  | load h => exact hR.loaderTurn h s

theorem popSched (s : State) : R s (popSched s).2 := by
  unfold Machine.popSched
  split
  · exact hR.refl s
  · exact hR.sched _ s

theorem settle (s : State) : R s (settle s) :=
  hR.trans (hR.popSched s) (hR.trans (hR.composeAll _) (hR.foldl (fun s a => hR.turn a s) _ _))

theorem windowEnd (h r : Nat) (s : State) : R s (windowEnd h r s) := by
  unfold Machine.windowEnd
  split
  · exact hR.trans (hR.setRow ..) (hR.settle _)
  · exact hR.refl s

theorem countEntries (k : Kind) (p : Page) (g : Nat → Nat) (s : State) :
    R s (countEntries k p g s) := hR.foldl (fun s h => hR.bumpHead h _ _ s) _ s

theorem freeLinesFrom (p : Page) (m : Nat) (s : State) : R s (freeLinesFrom p m s) :=
  hR.foldl (fun s _ => ite (hR.filterLines ..) (hR.refl s)) _ s

/-! ### The ends of transfers and storings, up to what they themselves set -/

theorem loseFull (h r : Nat) (s : State) : R s (loseFull h r s) := by
  unfold Machine.loseFull
  split
  · exact hR.trans (hR.setRow ..) (hR.retire ..)
  · exact hR.refl s

theorem enterOffline (h : Nat) (s : State) : R s (enterOffline h s) :=
  hR.foldl (fun s r => hR.loseFull h r s) _ s

theorem bufferAcked (h r : Nat) (q : BitVec 8) (s : State) : R s (bufferAcked h r q s) := by
  unfold Machine.bufferAcked
  split
  · exact hR.setRow ..
  · exact hR.refl s

theorem bufferFailed (h r : Nat) (s : State) : R s (bufferFailed h r s) := by
  unfold Machine.bufferFailed
  split
  · exact ite (hR.setRow ..) (hR.trans (hR.setRow ..) (hR.retire ..))
  · exact hR.refl s

theorem sendingEnd (h : Nat) (s : State) : R s (sendingEnd h s) := by
  unfold Machine.sendingEnd
  split
  · exact hR.setLoader ..
  · exact hR.refl s

theorem beginProbe (h n : Nat) (s : State) : R s (beginProbe h n s) := by
  unfold Machine.beginProbe
  split
  · exact hR.beginTransfer ..
  · exact hR.refl s

theorem updatePeak (p : Nat) (s : State) (h : look (planeGroup s p) PlaneCtr.peakOccupancy.pos 0 ≤ Config.counterMax) :
    R s (updatePeak p s) := hR.planeCtr _ _ _ _ (Nat.max_le.2 ⟨h, Nat.min_le_right ..⟩)

end RowClosed

namespace PageClosed

variable {R : State → State → Prop} (hR : PageClosed R)
include hR

theorem setPage (p : Page) (s : State) : R s (setPage p s) := hR.pages _ _ _ _

theorem bindPage (p : Page) (o : Nat) (s : State) : R s (bindPage p o s) := by
  unfold Machine.bindPage
  exact hR.toRowClosed.trans (hR.pages _ _ _ s) (hR.toRowClosed.trans (hR.toRowClosed.raise ..) (hR.toRowClosed.settle _))

theorem bindFollows (fuel : Nat) (s : State) : R s (bindFollows fuel s) := by
  induction fuel generalizing s with
  | zero => exact hR.toRowClosed.refl s
  | succ fuel ih =>
    unfold Machine.bindFollows
    split
    · exact RowClosed.ite (hR.toRowClosed.trans (hR.bindPage ..) (ih _)) (hR.toRowClosed.refl s)
    · exact hR.toRowClosed.refl s

theorem cancelBound (p : Page) (s : State) : R s (cancelBound p s) := by
  unfold Machine.cancelBound
  dsimp only
  refine hR.toRowClosed.trans ?_ (hR.toRowClosed.trans (hR.toRowClosed.finishPage ..) (hR.toRowClosed.settle _))
  have h := hR.toRowClosed.trans (hR.toRowClosed.countEntries .withdrawn p (fun _ => p.length - cutLine p) s)
    (hR.toRowClosed.trans (hR.toRowClosed.mapBufs (LoadBuf.withdraw p.id (cutLine p)) _)
      (hR.toRowClosed.trans (hR.toRowClosed.freeLinesFrom p (cutLine p) _) (hR.setPage (p.cutAt (cutLine p)) _)))
  split
  · exact hR.toRowClosed.trans h (hR.pages _ _ _ _)
  · exact h

theorem cancelQueued (p : Page) (s : State) : R s (cancelQueued p s) := by
  unfold Machine.cancelQueued
  exact hR.toRowClosed.trans (hR.toRowClosed.countEntries ..) (hR.toRowClosed.trans (hR.toRowClosed.freeLinesFrom ..) (hR.toRowClosed.trans (hR.toRowClosed.dropPage ..)
    (hR.toRowClosed.trans (hR.toRowClosed.raise ..) (hR.bindFollows ..))))

theorem haltPage (s : State) (p : Page) : R s (haltPage s p) := by
  unfold Machine.haltPage
  exact hR.toRowClosed.trans (hR.toRowClosed.countEntries ..) (hR.toRowClosed.trans (hR.toRowClosed.dropPage ..) (hR.toRowClosed.raise ..))

theorem advancePointer (op : Storing) (s : State) : R s (advancePointer op s) := by
  unfold Machine.advancePointer
  split
  · exact hR.setPage ..
  · exact hR.toRowClosed.refl s

end PageClosed

/-! ### The instances of it -/

/-- Everything but outgoing events, pages, lines, rows, loaders and the counters of planes and heads stays. -/
theorem rowFrame_closed : PageClosed RowFrame where
  refl := .refl
  trans := .trans
  raise e s := by constructor <;> simp
  planeCtr p c x s _ := by constructor <;> rfl
  bumpHead h c n s := by constructor <;> rfl
  rows rs s := by constructor <;> rfl
  report _ _ _ _ _ _ s _ := by constructor <;> rfl
  dropPage _ s := by constructor <;> rfl
  pages ps te tp s := by constructor <;> rfl
  lines _ _ _ _ := by constructor <;> rfl
  loaders ls s := by constructor <;> rfl
  sched l s := by constructor <;> rfl

theorem EventsOnly.refl (s : State) : EventsOnly s s := ⟨⟨[], by simp⟩, id⟩

theorem EventsOnly.trans {s t u : State} (a : EventsOnly s t) (b : EventsOnly t u) : EventsOnly s u := by
  obtain ⟨⟨e1, h1, g1⟩, c1⟩ := a
  obtain ⟨⟨e2, h2, g2⟩, c2⟩ := b
  refine ⟨⟨e1 ++ e2, by rw [h2, h1, List.append_assoc], ?_⟩, fun h => c2 (c1 h)⟩
  intro o ho
  rcases List.mem_append.1 ho with h | h
  · exact g1 o h
  · exact g2 o h

theorem raise_eventsOnly (e : Event) (s : State) : EventsOnly s (raise e s) := by
  rcases raise_cases s e with ⟨h, hr⟩ | ⟨h, hr⟩
  · rw [hr]
    exact ⟨⟨[.event s.eventSeq s.lostCount e], rfl, by simp [OutFrame.isEvent]⟩, fun _ => by
      simp only [State.eventCount, List.countP_append] at h ⊢
      simp [OutFrame.isEvent]; omega⟩
  · rw [hr]
    exact ⟨⟨[], by simp, by simp⟩, id⟩

/-- Nothing joins the outgoing order but events, and not more than the event queue holds. -/
theorem eventsOnly_closed : PageClosed EventsOnly where
  refl := .refl
  trans := .trans
  raise := raise_eventsOnly
  planeCtr _ _ _ s _ := EventsOnly.refl s
  bumpHead _ _ _ s := EventsOnly.refl s
  rows _ s := EventsOnly.refl s
  report _ _ _ _ _ _ s _ := EventsOnly.refl s
  dropPage _ s := EventsOnly.refl s
  pages _ _ _ s := EventsOnly.refl s
  lines _ _ s _ := EventsOnly.refl s
  loaders _ s := EventsOnly.refl s
  sched _ s := EventsOnly.refl s

/-- Health is all that a change of health sets beyond what `RowClosed` names. -/
theorem changeHealth_frame (h : Nat) (old new : Health) (s : State) :
    RowFrame { s with health := put s.health h (some new) } (changeHealth h old new s) := by
  unfold changeHealth
  exact RowClosed.ite (by constructor <;> rfl)
    (RowFrame.trans (by constructor <;> rfl) (rowFrame_closed.raise ..))

end Sys2Proof.Machine
end

