-- ==== Sys2Proof/Laws/Table.lean ====
section
/-! SUPPORT. Reading a table after a write. -/

namespace Sys2Proof

variable {α β : Type} {n : Nat}

theorem look_put_same (t : Vector α n) (i : Nat) (x d : α) (h : i < n) : look (put t i x) i d = x := by
  simp [look, put, h]

theorem look_put_ne (t : Vector α n) (i j : Nat) (x d : α) (h : i ≠ j) :
    look (put t i x) j d = look t j d := by
  simp [look, put, h]

/-- What a read after a write can be: the value written, at its own number within the table, or the old one. -/
theorem look_put (t : Vector α n) (i j : Nat) (x d : α) :
    look (put t i x) j d = if i = j ∧ i < n then x else look t j d := by
  by_cases h : i = j
  · subst h
    by_cases hn : i < n
    · simp [look_put_same, hn]
    · simp [look, put, hn]
  · simp [look_put_ne, h]

@[simp] theorem look_replicate (i : Nat) (x : α) : look (Vector.replicate n x) i x = x := by
  by_cases h : i < n <;> simp [look, h]

theorem look_mapTable (g : α → β) (t : Vector α n) (i : Nat) (d : α) (e : β) (h : i < n) :
    look (mapTable g t) i e = g (look t i d) := by
  simp [look, mapTable, h]

end Sys2Proof
end

