-- ==== Sys2Proof/Laws/Ops.lean ====
section
/-! SUPPORT. Reads after writes of the named operations, and what an event, a taken frame and an answer's fields come to. -/

namespace Sys2Proof

theorem put_put {α : Type} {n : Nat} (t : Vector α n) (i : Nat) (x y : α) : put (put t i x) i y = put t i y := by
  ext j hj; simp [put]

namespace Machine

/-! ### Events -/

theorem raise_joined {e : Event} {s : State} (room : s.eventCount < 64) : raise e s = joined e s := by
  simp [raise, room, joined]

theorem raise_dropped {e : Event} {s : State} (full : ¬ s.eventCount < 64) :
    raise e s = bumpLink .eventsLost 1 { s with lostCount := satAdd s.lostCount 1 } := by
  simp [raise, full]

/-- All that raising an event does (R163). -/
theorem raise_offered (e : Event) (s : State) : raise e s = offered e s := by
  unfold offered
  split
  · exact raise_joined ‹_›
  · exact raise_dropped ‹_›

theorem eventCount_joined (e : Event) (s : State) : (joined e s).eventCount = s.eventCount + 1 := by
  simp [State.eventCount, joined, OutFrame.isEvent]

/-! ### Counters -/

theorem headGroup_bumpHead (h k : Nat) (c : HeadCtr) (n : Nat) (s : State) (lt : h < 24) :
    headGroup (bumpHead h c n s) k
      = if h = k then put (headGroup s h) c.pos (satAdd (look (headGroup s h) c.pos 0) n) else headGroup s k := by
  simp only [headGroup, bumpHead, look_put, lt, and_true]

theorem planeGroup_setPlaneCtr (p k : Nat) (c : PlaneCtr) (x : Nat) (s : State) (lt : p < 8) :
    planeGroup (setPlaneCtr p c x s) k = if p = k then put (planeGroup s p) c.pos x else planeGroup s k := by
  simp only [planeGroup, setPlaneCtr, look_put, lt, and_true]

/-! ### Rows, lines, loaders, health -/

theorem rowsOf_setRow (h k r : Nat) (row : Row) (s : State) (lt : h < 24) :
    rowsOf (setRow h r row s) k = if h = k then (rowsOf s h).set r row else rowsOf s k := by
  simp only [rowsOf, setRow, look_put, lt, and_true]

theorem rowAt_some {s : State} {h r : Nat} {row : Row} (at_ : rowAt s h r = some row) :
    h < 24 ∧ r < (rowsOf s h).length := by
  have len : r < (rowsOf s h).length := (List.getElem?_eq_some_iff.mp at_).1
  refine ⟨?_, len⟩
  by_contra ge
  simp [rowsOf, look, Nat.not_lt.mp ge] at len

theorem rowAt_setRow_same {s : State} {h r : Nat} {old : Row} (row : Row) (at_ : rowAt s h r = some old) :
    rowAt (setRow h r row s) h r = some row := by
  obtain ⟨lt, len⟩ := rowAt_some at_
  simp [rowAt, rowsOf_setRow, lt, len]

theorem rowAt_setRow_other (s : State) (h r k q : Nat) (row : Row) (ne : ¬ (h = k ∧ r = q)) :
    rowAt (setRow h r row s) k q = rowAt s k q := by
  by_cases hk : h = k
  · subst hk
    have rq : r ≠ q := fun e => ne ⟨rfl, e⟩
    by_cases lt : h < 24
    · simp [rowAt, rowsOf_setRow, lt, rq]
    · simp [rowAt, rowsOf, look, Nat.not_lt.mp lt]
  · simp [rowAt, rowsOf, setRow, look_put_ne _ _ _ _ _ hk]

theorem linesOf_setLines (p k : Nat) (ls : List StoredLine) (s : State) (lt : p < 8) :
    linesOf (setLines p ls s) k = if p = k then ls else linesOf s k := by
  simp only [linesOf, setLines, look_put, lt, and_true]

theorem loader_setLoader (h k : Nat) (l : Loader) (s : State) (lt : h < 24) :
    look (setLoader h l s).loaders k none = if h = k then some l else look s.loaders k none := by
  simp only [setLoader, look_put, lt, and_true]

theorem health_setHealth (h k : Nat) (x : Health) (s : State) (lt : h < 24) :
    look (setHealth h x s).health k none = if h = k then some x else look s.health k none := by
  simp only [setHealth, look_put, lt, and_true]

/-! ### Pages -/

/-- The page read back after a record of the same id has replaced it. -/
theorem pageById_setPage {s : State} {id : Nat} {old : Page} (p : Page) (h : pageById s id = some old)
    (same : p.id = id) : pageById (setPage p s) id = some p := by
  subst same
  simp only [pageById, setPage] at *
  generalize s.pages = ps at h ⊢
  induction ps with
  | nil => cases h
  | cons q qs ih =>
    by_cases hq : q.id = p.id
    · simp [hq]
    · simp only [List.map_cons, List.find?_cons, hq, if_false, beq_eq_false_iff_ne.mpr hq] at h ⊢
      exact ih h

/-- Another page read after a record has been replaced. -/
theorem pageById_setPage_other (s : State) (id : Nat) (p : Page) (ne : p.id ≠ id) :
    pageById (setPage p s) id = pageById s id := by
  simp only [pageById, setPage]
  generalize s.pages = ps
  induction ps with
  | nil => rfl
  | cons q qs ih =>
    by_cases hq : q.id = p.id
    · have : q.id ≠ id := fun e => ne (hq ▸ e)
      simp only [List.map_cons, hq, if_true, List.find?_cons, beq_eq_false_iff_ne.mpr ne, ih]
    · simp only [List.map_cons, hq, if_false, List.find?_cons, ih]

theorem pageById_dropPage (s : State) (id : Nat) : pageById (dropPage id s) id = none := by
  simp [pageById, dropPage]

theorem pageById_dropPage_other (s : State) (id k : Nat) (ne : id ≠ k) :
    pageById (dropPage id s) k = pageById s k := by
  simp only [pageById, dropPage]
  generalize s.pages = ps
  induction ps with
  | nil => rfl
  | cons q qs ih =>
    by_cases hq : q.id = id
    · simp only [List.filter_cons, hq, ne_eq, not_true_eq_false, decide_false, Bool.false_eq_true, if_false,
        List.find?_cons, beq_eq_false_iff_ne.mpr ne, ih]
    · simp only [List.filter_cons, hq, ne_eq, not_false_eq_true, decide_true, if_true, List.find?_cons, ih]

/-! ### Head lanes -/

/-- The head that answers on a lane owns it. -/
theorem answeringHead_owner {s : State} {lane h : Nat} (he : answeringHead s lane = some h) :
    (look s.lanes lane ⟨.off, 0⟩).owner = h := by
  simp only [answeringHead] at he
  split at he
  · split at he
    · exact Option.some.inj he
    · cases he
  · cases he

theorem answeringHead_lane {s : State} {lane h : Nat} {dl : List Nat}
    (lane_ : look s.lanes lane ⟨.off, 0⟩ = ⟨.ret, h⟩) (link : look s.links h none = some ⟨dl, lane⟩) :
    answeringHead s lane = some h := by
  simp [answeringHead, lane_, link]

theorem toNat_append_byte {n : Nat} (a : BitVec n) (b : BitVec 8) : (a ++ b).toNat = a.toNat * 256 + b.toNat := by
  rw [BitVec.toNat_append, Nat.shiftLeft_eq, Nat.mul_comm, ← Nat.two_pow_add_eq_or_of_lt b.isLt, Nat.mul_comm]

/-- A field of two parts goes out as the one and then the other. -/
theorem msbBits_append (a b m n : Nat) (lt : b < 2 ^ n) :
    msbBits (m + n) (a * 2 ^ n + b) = msbBits m a ++ msbBits n b := by
  simp only [msbBits, List.range_add, List.map_append, List.map_map]
  rw [Nat.mul_comm]
  congr 1
  · apply List.map_congr_left
    intro i hi
    have : i < m := List.mem_range.mp hi
    rw [Nat.testBit_two_pow_mul_add _ lt, if_neg (by omega)]
    congr 1; omega
  · apply List.map_congr_left
    intro i hi
    have : i < n := List.mem_range.mp hi
    simp only [Function.comp]
    rw [Nat.testBit_two_pow_mul_add _ lt, if_pos (by omega)]
    congr 1; omega

/-- A well-formed answer read by the table of R140: only its sequence, kind and code are left to decide. -/
theorem judge_wellFormed (t : Transfer) (code seq kind : BitVec 8) (ok : code = 0xA5#8 ∨ code = 0x5A#8) :
    judge t (code ++ seq ++ kind
        ++ laneCrc8 (msbBits 8 code.toNat ++ msbBits 8 seq.toNat ++ msbBits 8 kind.toNat))
      = if seq ≠ t.seq then .stale else if kind ≠ t.carry.kindCode then .failed
        else if code = 0x5A#8 then .failed else .acknowledged := by
  generalize hk : laneCrc8 (msbBits 8 code.toNat ++ msbBits 8 seq.toNat ++ msbBits 8 kind.toNat) = check
  have whole : (code ++ seq ++ kind ++ check : BitVec (8 + 8 + 8 + 8)).toNat
      = ((code.toNat * 256 + seq.toNat) * 256 + kind.toNat) * 256 + check.toNat := by
    rw [toNat_append_byte, toNat_append_byte, toNat_append_byte]
  have b0 := check.isLt; have b1 := kind.isLt; have b2 := seq.isLt; have b3 := code.isLt
  have part (x : BitVec 32) (k n : Nat) : (x.extractLsb' k n).toNat = x.toNat / 2 ^ k % 2 ^ n := by
    rw [BitVec.extractLsb'_toNat, Nat.shiftRight_eq_div_pow]
  revert whole
  generalize (code ++ seq ++ kind ++ check : BitVec (8 + 8 + 8 + 8)) = bits
  intro whole
  change judge t (bits : BitVec 32) = _
  have whole : (bits : BitVec 32).toNat = _ := whole
  have e1 : (bits : BitVec 32).extractLsb' 24 8 = code := by
    apply BitVec.eq_of_toNat_eq; rw [part, whole]; omega
  have e2 : (bits : BitVec 32).extractLsb' 16 8 = seq := by
    apply BitVec.eq_of_toNat_eq; rw [part, whole]; omega
  have e3 : (bits : BitVec 32).extractLsb' 8 8 = kind := by
    apply BitVec.eq_of_toNat_eq; rw [part, whole]; omega
  have e4 : (bits : BitVec 32).extractLsb' 0 8 = check := by
    apply BitVec.eq_of_toNat_eq; rw [part, whole]; omega
  have e5 : ((bits : BitVec 32).extractLsb' 8 24).toNat = (code.toNat * 2 ^ 8 + seq.toNat) * 2 ^ 8 + kind.toNat := by
    rw [part, whole]; omega
  unfold judge
  simp only [e1, e2, e3, e4, e5]
  rw [msbBits_append _ _ 16 8 b1, msbBits_append _ _ 8 8 b2, hk, if_neg (by simp),
    if_neg (by rcases ok with rfl | rfl <;> decide)]

end Machine
end Sys2Proof
end

