-- ==== Sys2Proof/Laws/Tracker.lean ====
section
/-! SUPPORT. What cue edges, offers and arrivals of H_int can do, once for every relation that their primitive updates
keep: among them `TrackerFrame` and `EventsOnly`. -/

namespace Sys2Proof.Machine

/-- A relation that the Cue Tracker's own updates keep as well. -/
structure TrackClosed (R : State → State → Prop) : Prop extends PageClosed R where
  bumpMotion : ∀ c n s, R s (bumpMotion c n s)
  tracker : ∀ lk sm pr fl la s,
    R s { s with lock := lk, smoothed := sm, predicted := pr, flywheel := fl, lastAccepted := la }

namespace TrackClosed

variable {R : State → State → Prop} (hR : TrackClosed R)
include hR

theorem takeOffer (o : Nat) (k : CueKind) (s : State) : R s (takeOffer o k s) := by
  unfold Machine.takeOffer
  split
  · exact hR.trans (hR.bumpMotion ..) (hR.raise ..)
  · exact RowClosed.ite (hR.trans (hR.bumpMotion ..) (hR.raise ..))
      (hR.trans (hR.toPageClosed.bindPage ..) (hR.toPageClosed.bindFollows ..))

theorem offer (k : CueKind) (s : State) : R s (offer k s) := hR.takeOffer ..

theorem takeCue (sm : Nat) (s : State) : R s (takeCue sm s) := hR.tracker _ _ _ _ _ s

theorem hardSync (pc : Nat) (s : State) : R s (hardSync pc s) := by
  unfold Machine.hardSync
  exact RowClosed.ite (hR.tracker _ _ _ _ _ s) (hR.trans (hR.tracker .locked _ _ _ _ s) (hR.raise ..))

theorem followCue (pc : Nat) (s : State) : R s (followCue pc s) := by
  unfold Machine.followCue
  exact RowClosed.ite (hR.takeCue ..)
    (hR.trans (hR.takeCue pc s) (hR.trans (hR.bumpMotion ..) (hR.raise ..)))

theorem acceptCue (pc : Nat) (s : State) : R s (acceptCue pc s) := by
  unfold Machine.acceptCue
  refine hR.trans (hR.bumpMotion .cuesAccepted 1 s) (hR.trans ?_ (hR.offer ..))
  split
  · exact hR.hardSync ..
  · exact hR.followCue ..

theorem cueEdge (s : State) : R s (cueEdge s) := by
  unfold Machine.cueEdge
  split
  · exact hR.refl s
  · exact RowClosed.ite (hR.bumpMotion ..) (RowClosed.ite (hR.bumpMotion ..) (hR.acceptCue ..))

theorem synthesize (s : State) : R s (synthesize s) := by
  unfold Machine.synthesize
  exact hR.trans (hR.tracker _ _ _ _ _ s) (hR.trans (hR.bumpMotion ..) (hR.offer ..))

theorem loseLock (s : State) : R s (loseLock s) := by
  unfold Machine.loseLock
  exact hR.trans (hR.tracker _ _ _ _ _ s) (hR.raise ..)

theorem flywheelTurn (fuel : Nat) (s : State) : R s (flywheelTurn fuel s) := by
  induction fuel generalizing s with
  | zero => exact hR.refl s
  | succ fuel ih =>
    unfold Machine.flywheelTurn
    exact RowClosed.ite (RowClosed.ite (hR.trans (hR.synthesize s) (ih _)) (hR.loseLock s)) (hR.refl s)

theorem arrivalTurn (a : SchedAct) (s : State) : R s (arrivalTurn a s) := by
  cases a with
  | cueOnce => exact hR.flywheelTurn 1 s
  | cue => exact hR.flywheelTurn 3 s
  | rowOnce h r => exact hR.rowOnce h r s
  | row h r => exact hR.rowTurn h r s
  | load h => exact hR.loaderTurn h s

theorem arrival (s : State) : R s (arrival s) := by
  unfold Machine.arrival
  exact hR.trans (hR.popSched s) (hR.foldl (fun s a => hR.arrivalTurn a s) _ _)

end TrackClosed

/-! ### The instances of it -/

theorem CoreFrame.refl (s : State) : CoreFrame s s := by constructor <;> rfl

theorem CoreFrame.trans {s t u : State} (a : CoreFrame s t) (b : CoreFrame t u) : CoreFrame s u := by
  constructor
  · exact b.rx.trans a.rx
  · exact b.ctlWaiting.trans a.ctlWaiting
  · exact b.dataWaiting.trans a.dataWaiting
  · exact b.handler.trans a.handler
  · exact b.sending.trans a.sending
  · exact b.resetSent.trans a.resetSent
  · exact b.engine.trans a.engine
  · exact b.motionCfg.trans a.motionCfg
  · exact b.cueCfg.trans a.cueCfg
  · exact b.regions.trans a.regions
  · exact b.planes.trans a.planes
  · exact b.heads.trans a.heads
  · exact b.decode.trans a.decode
  · exact b.nozzles.trans a.nozzles
  · exact b.lanes.trans a.lanes
  · exact b.links.trans a.links
  · exact b.health.trans a.health
  · exact b.banks.trans a.banks
  · exact b.activeBank.trans a.activeBank
  · exact b.cueWith.trans a.cueWith
  · exact b.pending.trans a.pending

theorem TrackerFrame.refl (s : State) : TrackerFrame s s := ⟨.refl s, rfl, rfl, rfl, rfl, rfl, rfl⟩

theorem TrackerFrame.trans {s t u : State} (a : TrackerFrame s t) (b : TrackerFrame t u) :
    TrackerFrame s u :=
  ⟨a.core.trans b.core, b.pRaw.trans a.pRaw, b.hRaw.trans a.hRaw, b.decRef.trans a.decRef,
    b.encPins.trans a.encPins, b.pace.trans a.pace, b.revCond.trans a.revCond⟩

theorem RowFrame.tracker {s t : State} (a : RowFrame s t) : TrackerFrame s t :=
  ⟨⟨a.rx, a.ctlWaiting, a.dataWaiting, a.handler, a.sending, a.resetSent, a.engine, a.motionCfg, a.cueCfg,
    a.regions, a.planes, a.heads, a.decode, a.nozzles, a.lanes, a.links, a.health, a.banks, a.activeBank,
    a.cueWith, a.pending⟩, a.pRaw, a.hRaw, a.decRef, a.encPins, a.pace, a.revCond⟩

theorem trackerFrame_closed : TrackClosed TrackerFrame where
  refl := .refl
  trans := .trans
  raise e s := (rowFrame_closed.raise e s).tracker
  planeCtr p c x s h := (rowFrame_closed.planeCtr p c x s h).tracker
  bumpHead h c n s := (rowFrame_closed.bumpHead h c n s).tracker
  rows rs s := (rowFrame_closed.rows rs s).tracker
  report p k h r n pl s hp := (rowFrame_closed.report p k h r n pl s hp).tracker
  dropPage id s := (rowFrame_closed.dropPage id s).tracker
  pages ps te tp s := (rowFrame_closed.pages ps te tp s).tracker
  lines p ls s h := (rowFrame_closed.lines p ls s h).tracker
  loaders ls s := (rowFrame_closed.loaders ls s).tracker
  sched l s := (rowFrame_closed.sched l s).tracker
  bumpMotion c n s := ⟨by constructor <;> rfl, rfl, rfl, rfl, rfl, rfl, rfl⟩
  tracker lk sm pr fl la s := ⟨by constructor <;> rfl, rfl, rfl, rfl, rfl, rfl, rfl⟩

theorem eventsOnly_track : TrackClosed EventsOnly where
  toPageClosed := eventsOnly_closed
  bumpMotion _ _ s := EventsOnly.refl s
  tracker _ _ _ _ _ s := EventsOnly.refl s

/-- An edge: the position, the high-water position and the reverse condition are all it sets beyond
`TrackerFrame`, and the reverse condition is what the deficit then says. -/
theorem moveTo_frame (p : Nat) (s : State) :
    CoreFrame s (moveTo p s) ∧ (moveTo p s).pRaw = p ∧ (moveTo p s).hRaw = max s.hRaw p
      ∧ (moveTo p s).decRef = s.decRef ∧ (moveTo p s).encPins = s.encPins
      ∧ (moveTo p s).pace = s.pace := by
  have h1 : ∀ u : State, CoreFrame u (testDeficit u) ∧ (testDeficit u).pRaw = u.pRaw
      ∧ (testDeficit u).hRaw = u.hRaw ∧ (testDeficit u).decRef = u.decRef
      ∧ (testDeficit u).encPins = u.encPins ∧ (testDeficit u).pace = u.pace := by
    intro u
    unfold testDeficit
    split <;> split
    · refine ⟨?_, by simp, by simp, by simp, by simp, by simp⟩
      constructor <;> simp
    · exact ⟨.refl u, rfl, rfl, rfl, rfl, rfl⟩
    · exact ⟨by constructor <;> rfl, rfl, rfl, rfl, rfl, rfl⟩
    · exact ⟨.refl u, rfl, rfl, rfl, rfl, rfl⟩
  have h0 : CoreFrame s { s with pRaw := p, hRaw := max s.hRaw p } := by constructor <;> rfl
  obtain ⟨c, a1, a2, a3, a4, a5⟩ := h1 { s with pRaw := p, hRaw := max s.hRaw p }
  exact ⟨h0.trans c, a1, a2, a3, a4, a5⟩

/-- The presentation of H_int leaves the position that the edge has reached. -/
theorem present_frame (s moved : State) : TrackerFrame moved (present s moved) :=
  RowClosed.ite (trackerFrame_closed.arrival moved) (.refl moved)

/-- A cue edge and then the arrival of H_int, if there is one, leave the position that the edge has reached. -/
theorem cueThenArrival_frame (s moved : State) : TrackerFrame moved (cueThenArrival s moved) := by
  unfold cueThenArrival
  refine RowClosed.ite ?_ (trackerFrame_closed.cueEdge moved)
  refine ((trackerFrame_closed.popSched moved).trans ?_).trans
    ((trackerFrame_closed.cueEdge _).trans (trackerFrame_closed.arrival _))
  exact trackerFrame_closed.foldl (fun s a => trackerFrame_closed.turn a s) _ _

end Sys2Proof.Machine
end

