-- ==== Sys2Proof/Laws/Ahead.lean ====
section
/-! SUPPORT. A page whose origin lies ahead of H_int has no entry due: rows and loaders leave its record as it stands. -/

namespace Sys2Proof.Machine

/-- Page `p` is in the queue, its origin ahead of H_int. -/
structure Ahead (p : Page) (s : State) : Prop where
  page : pageById s p.id = some p
  ahead : ∀ o, p.origin = some o → s.hInt < o

variable {p : Page}

theorem Ahead.of_same {s t : State} (a : Ahead p s) (pages : t.pages = s.pages) (high : t.hRaw = s.hRaw) :
    Ahead p t :=
  ⟨by have h := a.page; simpa only [pageById, pages] using h, by
    have h := a.ahead; simpa only [State.hInt, high] using h⟩

/-- An entry that is due is no entry of the page. -/
theorem Ahead.not_due {s : State} (a : Ahead p s) {h r d : Nat} {e : Entry} (due : dueOf s h r e = some d)
    (reached : d ≤ s.hInt) : e.page ≠ p.id := by
  intro same
  unfold dueOf at due
  rw [same, a.page] at due
  split at due
  · rename_i q c hq _
    cases hq
    cases o : p.origin with
    | none => simp [o] at due
    | some x =>
      have := a.ahead x o
      simp [o] at due
      omega
  · cases due

theorem Ahead.retire {s : State} (a : Ahead p s) (k : Kind) (h r : Nat) {e : Entry} (other : e.page ≠ p.id) :
    Ahead p (retire k h r e s) := by
  refine ⟨?_, ?_⟩
  · unfold Machine.retire
    split
    · rename_i q plane hq _
      have id := pageById_id hq
      have ne : ((q.report k h r e.line).flagUnderrun k plane).id ≠ p.id := by
        simp only [Page.flagUnderrun, Page.report, Page.count]; split <;> simpa [id] using other
      have keep : ∀ u : State, pageById u p.id = some p → pageById (finishPage e.page u) p.id = some p := by
        intro u hu
        unfold finishPage
        split
        · exact hu
        · split
          · simpa only [pageById, raise_pages] using (pageById_dropPage_other u _ _ other).trans hu
          · exact hu
      apply keep
      have line : ∀ u : State, (retireLine plane e u).pages = u.pages := by
        intro u; unfold retireLine; split
        · rfl
        · split <;> simp
      simp only [pageById, bumpHead_pages, line, raiseUnderrun, raiseStarted]
      have := (pageById_setPage_other s p.id _ ne).trans a.page
      simp only [pageById] at this
      split <;> split <;> simpa using this
    · exact a.page
  · have f := rowFrame_closed.retire k h r e s
    have := a.ahead
    simpa only [State.hInt, f.hRaw] using this

theorem composeNext_pages (h r : Nat) (s : State) : (composeNext h r s).pages = s.pages := by
  unfold composeNext composeLine
  repeat' split
  all_goals simp

theorem Ahead.composeNext {s : State} (a : Ahead p s) (h r : Nat) : Ahead p (composeNext h r s) :=
  a.of_same (composeNext_pages h r s) (rowFrame_closed.composeNext h r s).hRaw

theorem Ahead.foldl {α : Type} {f : State → α → State} (step : ∀ s x, Ahead p s → Ahead p (f s x)) (l : List α)
    {s : State} (a : Ahead p s) : Ahead p (l.foldl f s) := by
  induction l generalizing s with
  | nil => exact a
  | cons x l ih => exact ih (step s x a)

theorem Ahead.decideRow {s : State} (a : Ahead p s) (fuel h r : Nat) : Ahead p (decideRow fuel h r s) := by
  induction fuel generalizing s with
  | zero => exact a.composeNext h r
  | succ fuel ih =>
    unfold Machine.decideRow
    have b := a.composeNext h r
    dsimp only
    split
    · exact b
    · rename_i e he
      split
      · exact b
      · refine ih (b.retire _ h r ?_)
        unfold ripeEntry at he
        split at he
        · split at he
          · rename_i d hd
            split at he
            · rename_i ripe
              cases he
              exact b.not_due hd ripe.1
            · cases he
          · cases he
        · cases he

theorem Ahead.fireStart {s : State} (a : Ahead p s) (h r : Nat) : Ahead p (fireStart h r s) := by
  unfold Machine.fireStart
  split
  · rename_i e seq _
    split
    · exact a
    · rename_i d hd
      have row : ∀ x, Ahead p (setRow h r x s) := fun x => a.of_same rfl rfl
      split
      · exact a
      · rename_i reached
        have other := a.not_due hd (by omega)
        split
        · exact (row _).retire _ h r other
        · exact (row _).retire _ h r other
  · exact a

theorem Ahead.rowOnce {s : State} (a : Ahead p s) (h r : Nat) : Ahead p (rowOnce h r s) := by
  unfold Machine.rowOnce
  split
  · exact (a.fireStart h r).composeNext h r
  · exact a.decideRow 1 h r

theorem Ahead.loaderTurn {s : State} (a : Ahead p s) (h : Nat) : Ahead p (loaderTurn h s) := by
  refine a.of_same ?_ (rowFrame_closed.loaderTurn h s).hRaw
  unfold Machine.loaderTurn beginLoad
  repeat' split
  all_goals simp [composeNext_pages, beginTransfer]

theorem Ahead.turn {s : State} (a : Ahead p s) (act : SchedAct) : Ahead p (turn act s) := by
  cases act with
  | cueOnce => exact a
  | cue => exact a
  | rowOnce h r => exact a.rowOnce h r
  | row h r => exact (a.fireStart h r).decideRow _ h r
  | load h => exact a.loaderTurn h

/-- A page whose origin lies ahead of H_int keeps its record through all that rows and loaders do. -/
theorem Ahead.settle {s : State} (a : Ahead p s) : Ahead p (settle s) := by
  have b : Ahead p (popSched s).2 := a.of_same (by unfold popSched; split <;> rfl) (by unfold popSched; split <;> rfl)
  exact (Ahead.foldl (fun _ (t : Nat × Nat) c => c.composeNext t.1 t.2) _ b).foldl (fun _ act c => c.turn act) _

end Sys2Proof.Machine
end

