-- ==== Sys2Proof/Laws/Bytes.lean ====
section
/-! SUPPORT. Reading little-endian fields back, and the length of what is sent. -/

namespace Sys2Proof.Machine

@[simp] theorem leBytes_length (n x : Nat) : (leBytes n x).length = n := by
  induction n generalizing x with
  | zero => rfl
  | succ n ih => simp [leBytes, ih]

theorem leNat_leBytes (n x : Nat) : leNat (leBytes n x) = x % 256 ^ n := by
  induction n generalizing x with
  | zero => simp [leBytes, leNat, Nat.mod_one]
  | succ n ih =>
    have h : (BitVec.ofNat 8 x).toNat = x % 256 := BitVec.toNat_ofNat ..
    rw [leBytes, leNat, ih, h, Nat.pow_succ', Nat.mod_mul]

/-- A field at the front of a body. -/
theorem field_zero (n x : Nat) (rest : List Byte) : field (leBytes n x ++ rest) 0 n = x % 256 ^ n := by
  simp [field, leNat_leBytes]

/-- A field past the first part of a body. -/
theorem field_append (a rest : List Byte) (off n : Nat) (h : a.length ≤ off) :
    field (a ++ rest) off n = field rest (off - a.length) n := by
  simp [field, List.drop_append, List.drop_of_length_le h]

/-- A body that is one field. -/
theorem field_only (n x : Nat) : field (leBytes n x) 0 n = x % 256 ^ n := by
  simpa using field_zero n x []

end Sys2Proof.Machine
end

