-- ==== Sys2Proof/Laws/Handler.lean ====
section
/-! SUPPORT. What one step of the request handler can do. -/

namespace Sys2Proof.Machine

theorem answer_eq_replied (f : HostFrame) (st : Status) (b : List Byte) (s : State) :
    answer f st b s = replied f.kind f.code f.tag st b s := rfl

/-- All that `takeNext` can do: a handler that is not free stands; a free one moves on. -/
theorem takeNext_eq (s : State) : takeNext s = if s.handler = .free then movedOn s else s := by
  obtain ⟨rx, ctl, data, handler⟩ := s
  cases handler <;> cases ctl <;> cases data <;> rfl

theorem takeNext_free (s : State) : takeNext { s with handler := .free } = movedOn s := by
  rw [takeNext_eq, if_pos rfl]; rfl

theorem takeNext_busy {s : State} (busy : s.handler ≠ .free) : takeNext s = s := by
  rw [takeNext_eq, if_neg busy]

/-- Moving on touches the handler and the two arrival queues, and depends on nothing else. -/
theorem movedOn_eq (s : State) : movedOn s = { s with
    handler := match s.ctlWaiting, s.dataWaiting with
      | f :: _, _ | [], f :: _ => .taken f
      | [], [] => .free
    ctlWaiting := s.ctlWaiting.tail
    dataWaiting := if s.ctlWaiting = [] then s.dataWaiting.tail else s.dataWaiting } := by
  obtain ⟨rx, ctl, data, handler⟩ := s
  cases ctl <;> cases data <;> rfl

theorem TakesControl.engine {s s1 : State} {code tag body} (h : TakesControl s code tag body s1) :
    s1.engine = s.engine := by
  obtain ⟨-, rfl⟩ := h; rw [movedOn_eq]

theorem TakesData.engine {s s1 : State} {code tag body} (h : TakesData s code tag body s1) :
    s1.engine = s.engine := by
  obtain ⟨-, rfl⟩ := h; rw [movedOn_eq]

/-- A request's row, run when the handler has taken a frame that is a request of the row. -/
theorem handleRequest_taken {s : State} {f : HostFrame} {q : Req} {act : HostFrame → State → State}
    (taken : s.handler = .taken f) (hq : reqOf f = q) :
    handleRequest q act s = takeNext (handleFrame q act f { s with handler := .free }) := by
  simp [handleRequest, taken, hq]

/-- A row whose turn it is not. -/
theorem handleRequest_other {s : State} {q : Req} {act : HostFrame → State → State}
    (other : ∀ f, s.handler = .taken f → reqOf f ≠ q) : handleRequest q act s = s := by
  unfold handleRequest
  split
  · rename_i f hf; rw [if_neg (other f hf)]
  · rfl

/-- A reply of an act that leaves the handler free, and the handler moving on, come to the reply in the state when the
handler has moved on. -/
theorem takeNext_answer (f : HostFrame) (st : Status) (b : List Byte) (s : State) :
    takeNext (answer f st b { s with handler := .free }) = replied f.kind f.code f.tag st b (movedOn s) := by
  obtain ⟨rx, ctl, data, handler⟩ := s
  cases ctl <;> cases data <;> rfl

/-- Everything one step of the request handler can do: nothing, or, to the state without the frame it has taken, one
of the two refusals of R158 or the owning rule, and then the handler takes its next frame if it is free. -/
theorem handleRequest_cases (q : Req) (act : HostFrame → State → State) (s : State) :
    handleRequest q act s = s ∨
    ∃ f, s.handler = .taken f ∧ reqOf f = q ∧
      ((q.handledIn s.engine = false
          ∧ handleRequest q act s = takeNext (answer f .wrongState [] { s with handler := .free })) ∨
       (q.handledIn s.engine = true ∧ q.lengthOk f.body = false ∧ handleRequest q act s
          = takeNext (answer f .badArgument (q.lengthRefusalBody s) { s with handler := .free })) ∨
       (q.handledIn s.engine = true ∧ q.lengthOk f.body = true
          ∧ handleRequest q act s = takeNext (act f { s with handler := .free }))) := by
  by_cases taken : ∃ f, s.handler = .taken f ∧ reqOf f = q
  · obtain ⟨f, hf, hq⟩ := taken
    refine .inr ⟨f, hf, hq, ?_⟩
    have body : q.lengthRefusalBody { s with handler := .free } = q.lengthRefusalBody s := by cases q <;> rfl
    rw [handleRequest_taken hf hq]
    unfold handleFrame
    cases he : q.handledIn s.engine <;> cases hl : q.lengthOk f.body <;> simp [body]
  · exact .inl (handleRequest_other fun f hf hq => taken ⟨f, hf, hq⟩)

end Sys2Proof.Machine
end

