-- ==== Sys2Proof/Laws/Idle.lean ====
section
/-! SUPPORT. With no page bound, and so with no page in the queue, rows and loaders find nothing to do. -/

namespace Sys2Proof.Machine

variable {s : State} (unbound : ∀ p ∈ s.pages, p.origin = none)
include unbound

omit unbound in
theorem nextIn_unbound (held : Option Entry) (h r : Nat) (ps : List Page) (none : ∀ p ∈ ps, p.origin = .none) :
    nextIn held h r ps = .none := by
  induction ps with
  | nil => rfl
  | cons p ps ih =>
    have rest := ih fun q hq => none q (List.mem_cons_of_mem _ hq)
    unfold nextIn
    split
    · exact rest
    · simp [none p List.mem_cons_self, rest]

theorem nextEntry_unbound (h r : Nat) : nextEntry s h r = none := by
  unfold nextEntry
  split
  · exact nextIn_unbound _ _ _ _ unbound
  · rfl

theorem dueOf_unbound (h r : Nat) (e : Entry) : dueOf s h r e = none := by
  unfold dueOf
  split
  · rename_i p c hp _
    rw [unbound p (List.mem_of_find?_eq_some hp)]; rfl
  · rfl

theorem composeNext_unbound (h r : Nat) : composeNext h r s = s := by
  simp [composeNext, nextEntry_unbound unbound]

theorem fireStart_unbound (h r : Nat) : fireStart h r s = s := by
  unfold fireStart
  split
  · rw [dueOf_unbound unbound]
  · rfl

theorem ripeEntry_unbound (h r : Nat) : ripeEntry s h r = none := by
  unfold ripeEntry
  rw [nextEntry_unbound unbound]
  split <;> simp_all

theorem decideRow_unbound (fuel h r : Nat) : decideRow fuel h r s = s := by
  cases fuel with
  | zero => exact composeNext_unbound unbound h r
  | succ fuel => simp [decideRow, composeNext_unbound unbound, ripeEntry_unbound unbound]

theorem rowTurn_unbound (h r : Nat) : rowTurn h r s = s := by
  simp [rowTurn, fireStart_unbound unbound, decideRow_unbound unbound]

theorem rowOnce_unbound (h r : Nat) : rowOnce h r s = s := by
  unfold rowOnce
  split
  · rw [fireStart_unbound unbound, composeNext_unbound unbound]
  · exact decideRow_unbound unbound 1 h r

theorem candidate_unbound (h r : Nat) : candidate s h r = none := by
  unfold candidate
  rw [nextEntry_unbound unbound]
  split <;> simp_all

theorem loaderTurn_unbound (h : Nat) : loaderTurn h s = s := by
  have hc : candidate s h = fun _ => none := funext (candidate_unbound unbound h)
  have hn : (List.range (rowsOf s h).length).filterMap (candidate s h) = [] := by simp [hc]
  unfold loaderTurn
  rw [hn]
  split
  · simp [leastDue]
  · rfl

theorem turn_unbound (a : SchedAct) : turn a s = s := by
  cases a with
  | cueOnce => rfl
  | cue => rfl
  | rowOnce h r => exact rowOnce_unbound unbound h r
  | row h r => exact rowTurn_unbound unbound h r
  | load h => exact loaderTurn_unbound unbound h

omit unbound in
theorem foldl_id {α : Type} {f : State → α → State} {s : State} (h : ∀ a, f s a = s) (l : List α) :
    l.foldl f s = s := by
  induction l with
  | nil => rfl
  | cons a l ih => rw [List.foldl_cons, h, ih]

omit unbound in
theorem popSched_snd (s : State) : (popSched s).2 = { s with sched := s.sched.tail } := by
  unfold popSched
  split
  · rename_i h; cases s; simp_all
  · rename_i h; rw [h]; rfl

/-- With no page bound `settle` only uses up a scheduling order. -/
theorem settle_unbound : settle s = { s with sched := s.sched.tail } := by
  unfold settle
  have h1 : ∀ p ∈ (popSched s).2.pages, p.origin = none := by rw [popSched_snd]; exact unbound
  have h2 : composeAll (popSched s).2 = (popSched s).2 := foldl_id (fun a => composeNext_unbound h1 a.1 a.2) _
  simp only [h2]
  rw [foldl_id (fun a => turn_unbound h1 a), popSched_snd]

/-- The same of the rows and loaders that an arrival lets go before a cue edge. -/
theorem rowsFirst_unbound : rowsFirst s = { s with sched := s.sched.tail } := by
  unfold rowsFirst
  have h1 : ∀ p ∈ (popSched s).2.pages, p.origin = none := by rw [popSched_snd]; exact unbound
  simp only
  rw [foldl_id (fun a => turn_unbound h1 a), popSched_snd]

omit unbound in
/-- With no page in the queue `settle` only uses up a scheduling order. -/
theorem settle_noPages (empty : s.pages = []) : settle s = { s with sched := s.sched.tail } :=
  settle_unbound (by simp [empty])

end Sys2Proof.Machine
end

