-- ==== Sys2Proof/Laws/Kept.lean ====
section
/-! SUPPORT. What retirements, compositions and loads keep of pages, stored lines and head counters. -/

namespace Sys2Proof.Machine

/-- Every page left was there before with the same id, length, mask, mode, origin, arrival pointers and cancelled
mark, QUEUED if and only if it was; and the tail end stands. -/
def PagesKept (s t : State) : Prop :=
  t.tailEnd = s.tailEnd ∧ ∀ q ∈ t.pages, ∃ p ∈ s.pages, p.id = q.id ∧ p.length = q.length ∧ p.mask = q.mask
    ∧ p.mode = q.mode ∧ p.origin = q.origin ∧ p.arrival = q.arrival ∧ p.cancelled = q.cancelled
    ∧ (q.pstate = .queued ↔ p.pstate = .queued)

theorem PagesKept.of_pages {s t : State} (pages : t.pages = s.pages) (tail : t.tailEnd = s.tailEnd) :
    PagesKept s t :=
  ⟨tail, fun q hq => ⟨q, pages ▸ hq, rfl, rfl, rfl, rfl, rfl, rfl, rfl, Iff.rfl⟩⟩

theorem PagesKept.trans {s t u : State} (a : PagesKept s t) (b : PagesKept t u) : PagesKept s u := by
  refine ⟨b.1.trans a.1, fun q hq => ?_⟩
  obtain ⟨p, hp, b1, b2, b3, b4, b5, b6, b7, b8⟩ := b.2 q hq
  obtain ⟨o, ho, a1, a2, a3, a4, a5, a6, a7, a8⟩ := a.2 p hp
  exact ⟨o, ho, a1.trans b1, a2.trans b2, a3.trans b3, a4.trans b4, a5.trans b5, a6.trans b6, a7.trans b7,
    b8.trans a8⟩

theorem report_kept (p : Page) (k : Kind) (h r n plane : Nat) :
    let q := (p.report k h r n).flagUnderrun k plane
    p.id = q.id ∧ p.length = q.length ∧ p.mask = q.mask ∧ p.mode = q.mode ∧ p.origin = q.origin
      ∧ p.arrival = q.arrival ∧ p.cancelled = q.cancelled ∧ (q.pstate = .queued ↔ p.pstate = .queued) := by
  intro q
  have hq : q = { p.report k h r n with underrun := q.underrun } := by
    simp only [q, Page.flagUnderrun]; split <;> rfl
  rw [hq]
  refine ⟨rfl, rfl, rfl, rfl, rfl, rfl, rfl, ?_⟩
  simp only [Page.report, Page.count]
  cases p.pstate <;> simp

theorem pagesKept_closed : RowClosed PagesKept where
  refl s := .of_pages rfl rfl
  trans := .trans
  raise e s := .of_pages (by simp) (by simp)
  planeCtr _ _ _ _ _ := .of_pages rfl rfl
  bumpHead _ _ _ _ := .of_pages rfl rfl
  rows _ _ := .of_pages rfl rfl
  report p k h r n plane s hp := by
    refine ⟨rfl, fun q hq => ?_⟩
    obtain ⟨o, ho, rfl⟩ := List.mem_map.mp hq
    split
    · exact ⟨p, List.mem_of_find?_eq_some hp, report_kept p k h r n plane⟩
    · exact ⟨o, ho, rfl, rfl, rfl, rfl, rfl, rfl, rfl, Iff.rfl⟩
  dropPage id s := ⟨rfl, fun q hq => ⟨q, (List.mem_filter.mp hq).1, rfl, rfl, rfl, rfl, rfl, rfl, rfl, Iff.rfl⟩⟩
  lines _ _ _ _ := .of_pages rfl rfl
  loaders _ _ := .of_pages rfl rfl
  sched _ _ := .of_pages rfl rfl

/-- Every line stored was stored before. -/
def LinesKept (s t : State) : Prop :=
  ∀ p, ∀ l ∈ linesOf t p, ∃ k ∈ linesOf s p, k.page = l.page ∧ k.line = l.line

theorem LinesKept.of_lines {s t : State} (same : t.lines = s.lines) : LinesKept s t := by
  intro p l hl
  simp only [linesOf, same] at hl
  exact ⟨l, hl, rfl, rfl⟩

theorem linesKept_closed : RowClosed LinesKept where
  refl s := .of_lines rfl
  trans a b p l hl := by
    obtain ⟨k, hk, e1, e2⟩ := b p l hl
    obtain ⟨j, hj, d1, d2⟩ := a p k hk
    exact ⟨j, hj, d1.trans e1, d2.trans e2⟩
  raise e s := .of_lines (by simp)
  planeCtr _ _ _ _ _ := .of_lines rfl
  bumpHead _ _ _ _ := .of_lines rfl
  rows _ _ := .of_lines rfl
  report _ _ _ _ _ _ _ _ := .of_lines rfl
  dropPage _ _ := .of_lines rfl
  lines p ls s h := by
    intro q l hl
    simp only [linesOf, setLines, look_put] at hl
    split at hl
    · rename_i e; rw [← e.1]; exact h l hl
    · exact ⟨l, hl, rfl, rfl⟩
  loaders _ _ := .of_lines rfl
  sched _ _ := .of_lines rfl

/-- The transfer and probe counters of every head stand. -/
def TransfersKept (s t : State) : Prop :=
  ∀ h i, 8 ≤ i → look (headGroup t h) i 0 = look (headGroup s h) i 0

theorem TransfersKept.of_ctrs {s t : State} (same : t.headCtrs = s.headCtrs) : TransfersKept s t := by
  intro h i _; simp only [headGroup, same]

theorem Kind.code_lt (k : Kind) : k.code < 8 := by cases k <;> decide

theorem transfersKept_closed : RowClosed TransfersKept where
  refl s := .of_ctrs rfl
  trans a b h i hi := (b h i hi).trans (a h i hi)
  raise e s := .of_ctrs (by simp)
  planeCtr _ _ _ _ _ := .of_ctrs rfl
  bumpHead h k n s := by
    intro g i hi
    by_cases lt : h < 24
    · rw [headGroup_bumpHead _ _ _ _ _ lt]
      split
      · subst g
        exact look_put_ne _ _ _ _ _ (by have := k.code_lt; simp only [HeadCtr.pos]; omega)
      · rfl
    · simp [headGroup, bumpHead, look_put, lt]
  rows _ _ := .of_ctrs rfl
  report _ _ _ _ _ _ _ _ := .of_ctrs rfl
  dropPage _ _ := .of_ctrs rfl
  lines _ _ _ _ := .of_ctrs rfl
  loaders _ _ := .of_ctrs rfl
  sched _ _ := .of_ctrs rfl

end Sys2Proof.Machine
end

