-- ==== Sys2Proof/WellFormed.lean ====
section
/-! DEFINITION. Which commands have operands that the part's connections can carry. -/

namespace Sys2Proof

/-- The operands name a head, a row or a lane that exists, and a burst of bytes is no longer than the
longest frame (capacities table of 00_scope.md; R152: 14 + 65,536 bytes). A command that is not well
formed names nothing of the part; its meaning then changes nothing, but for bytes, which the receiver
takes whatever their number. -/
def Instr.wf : Instr → Bool
  | .hostFrameArrival bytes => decide (bytes ≠ [] ∧ bytes.length ≤ 65550)
  | .sendingEnd head => decide (head < 24)
  | .ackTimeout head => decide (head < 24)
  | .windowEnd head row => decide (head < 24 ∧ row < 4)
  | .headAnswer lane _ => decide (lane < 72)
  | .powerOn | .softReset | .frameSent | .identify | .statusQuery | .statsRead | .reset
  | .setPlaneSet | .setPlaneRemove | .setHeadSet | .setHeadRemove | .setLane | .setMotion | .setCue
  | .engineStart | .engineStop | .engineHalt | .pageOpen | .pageCancel | .nozzleMark | .nozzleClear
  | .waveErase | .waveLoad | .waveSelect | .headRestore | .band | .storingEnd | .encoderChange _ _
  | .paceExpiry | .cueEdge | .unknownCode => true

end Sys2Proof
end

