-- ==== Sys2Proof/Tests/Slice0.lean ====
section
/-! SUPPORT. Small tests of one step each, with expected values from the spec's worked sequences, and for every statement with hypotheses a concrete case that meets them. -/

namespace Sys2Proof.Tests

set_option Elab.async false

open Sys2Proof Sys2Proof.Machine

/-! ### Well-formed commands -/

theorem test_wf_bytes : (Instr.hostFrameArrival []).wf = false := by decide
theorem test_wf_sending : (Instr.sendingEnd 24).wf = false ∧ (Instr.sendingEnd 23).wf = true := by decide
theorem test_wf_timeout : (Instr.ackTimeout 24).wf = false ∧ (Instr.ackTimeout 0).wf = true := by decide
theorem test_wf_window : (Instr.windowEnd 24 0).wf = false ∧ (Instr.windowEnd 0 4).wf = false := by decide
theorem test_wf_answer : (Instr.headAnswer 72 0).wf = false ∧ (Instr.headAnswer 71 0).wf = true := by decide

/-! ### States to test from -/

/-- The next state, or the same one. -/
def after (c : Instr) (s : State) : State :=
  match exec c s with
  | .next t => t
  | _ => s

/-- `s` with one control frame of tag 7 at the handler. -/
def held (code : Byte) (body : List Byte) (s : State) : State :=
  { s with handler := .taken ⟨.control, code, 7#16, body⟩ }

/-- `s` with one data frame of tag 7 at the handler. -/
def heldData (code : Byte) (body : List Byte) (s : State) : State :=
  { s with handler := .taken ⟨.data, code, 7#16, body⟩ }

theorem held_taken (code : Byte) (body : List Byte) (s : State) (free : s.handler = .free)
    (none : s.ctlWaiting = []) (noData : s.dataWaiting = []) :
    TakesControl (held code body s) code 7#16 body s := by
  cases s; cases free; cases none; cases noData; exact ⟨rfl, rfl⟩

theorem heldData_taken (code : Byte) (body : List Byte) (s : State) (free : s.handler = .free)
    (none : s.ctlWaiting = []) (noData : s.dataWaiting = []) :
    TakesData (heldData code body s) code 7#16 body s := by
  cases s; cases free; cases none; cases noData; exact ⟨rfl, rfl⟩

def fullBank : Bank := ⟨24, #v[some ⟨0, 0, 28⟩, some ⟨6, 4, 38⟩, some ⟨8, 5, 56⟩]⟩

def plane0 : PlaneCfg := ⟨64, 4⟩

def head0 : HeadCfg := ⟨0, 0, 64, 1, 0, [0], 800, 20⟩

/-- One plane of 64 columns and 4 slots, one head over it with one row, lane 0 DATA and lane 1 RETURN. -/
def ready : State :=
  { State.reset with
    planes := put State.reset.planes 0 (some plane0)
    heads := put State.reset.heads 0 (some head0)
    health := put State.reset.health 0 (some ⟨.active, 0, 0⟩)
    lanes := put (put State.reset.lanes 0 ⟨.data, 0⟩) 1 ⟨.ret, 0⟩
    banks := put State.reset.banks 0 fullBank }

/-- The same in RUN. -/
def running : State :=
  { ready with
    engine := .run
    regions := put ready.regions 0 (some ⟨4, 64⟩)
    decode := put ready.decode 0 (some ⟨64, [⟨0, 0, 64⟩]⟩)
    rows := put ready.rows 0 [⟨.empty, .idle⟩]
    links := put ready.links 0 (some ⟨[0], 1⟩)
    loaders := put ready.loaders 0 (some ⟨0, none⟩) }

/-- A page of two lines on plane 0. -/
def page5 : Page :=
  ⟨5, 2, 0x01#8, .onCue, 0, .queued, none, false, 2, Vector.replicate 8 0, Vector.replicate 8 false,
    Vector.replicate 8 0, put (Vector.replicate 24 []) 0 [0]⟩

/-- `running` with the page QUEUED. -/
def waiting : State := { running with pages := [page5] }

/-- `running` with the page BOUND at 1,000. -/
def bound : State :=
  { running with
    pages := [{ page5 with pstate := .bound, origin := some 1000 }], tailEnd := some 1064, tailPage := some 5 }

/-- Line 0 of the page, with one drop in column 0. -/
def line0 : StoredLine :=
  ⟨5, 0, 1 :: List.replicate 63 0, 1, some (⟨1, some 0⟩ :: List.replicate 63 ⟨0, some 0⟩)⟩

/-- `bound` with line 0 stored and the head's row FULL with it. -/
def loaded : State :=
  { bound with
    lines := put bound.lines 0 [line0]
    rows := put bound.rows 0 [⟨.full ⟨5, 0⟩ 0#8, .idle⟩] }

/-- `bound` with a transfer of line 0 in a phase. -/
def sendingAs (phase : Phase) : State :=
  { bound with
    lines := put bound.lines 0 [line0]
    rows := put bound.rows 0 [⟨.loading ⟨5, 0⟩ false, .idle⟩]
    loaders := put bound.loaders 0 (some ⟨1, some ⟨0, .load 0 ⟨5, 0⟩ [1], phase⟩⟩) }

/-- The 32 bits of an answer with a right check. -/
def answerBits (code seq kind : BitVec 8) : BitVec 32 :=
  code ++ seq ++ kind
    ++ laneCrc8 (msbBits 8 code.toNat ++ msbBits 8 seq.toNat ++ msbBits 8 kind.toNat)

/-- `running` with head 0's health as given. -/
def healthy (k : Health) : State := { running with health := put running.health 0 (some k) }

/-- `running` with head 0 PROBING after `count` answered probes, the next one WAITING. -/
def probing (count : Nat) : State :=
  { healthy ⟨.probing, 256, count⟩ with
    loaders := put running.loaders 0 (some ⟨9, some ⟨8, .probe count, .waiting 20⟩⟩) }

/-! ### The host link -/

/-- The check value of the named CRC over the ASCII digits 1 to 9 (general knowledge of this CRC). -/
theorem test_hostCrc :
    hostCrc [0x31, 0x32, 0x33, 0x34, 0x35, 0x36, 0x37, 0x38, 0x39] = 0xCBF43926#32 := by decide +kernel

/-- R153, R155, R157: a whole STATUS_QUERY is accepted, counted, and taken by the free handler. -/
theorem test_arrival_accepts :
    let t := after (.hostFrameArrival (HostFrame.wire ⟨.control, 0x02#8, 7#16, []⟩)) State.reset
    t.handler = .taken ⟨.control, 0x02#8, 7#16, []⟩ ∧ t.ctlWaiting = [] ∧ look t.linkCtrs 0 9 = 1
      ∧ t.rx = .expecting := by decide +kernel

/-- R157: of a data frame, a second one and a control frame in one burst, the first is taken as it is accepted; when
its request is done the control frame goes ahead of the second. -/
theorem test_handler_order :
    let s := after (.hostFrameArrival (HostFrame.wire ⟨.data, 0x80#8, 1#16, []⟩
      ++ HostFrame.wire ⟨.data, 0x80#8, 2#16, []⟩ ++ HostFrame.wire ⟨.control, 0x01#8, 3#16, []⟩)) State.reset
    let t := after .band s
    s.handler = .taken ⟨.data, 0x80#8, 1#16, []⟩ ∧ (after .identify s).handler = s.handler
      ∧ t.handler = .taken ⟨.control, 0x01#8, 3#16, []⟩ ∧ t.ctlWaiting = []
      ∧ t.dataWaiting = [⟨.data, 0x80#8, 2#16, []⟩]
      ∧ (after .identify t).handler = .taken ⟨.data, 0x80#8, 2#16, []⟩ := by decide +kernel

/-- R153: one bit of the check wrong. -/
theorem test_arrival_bad :
    let t := after (.hostFrameArrival [0xD4, 0x2B, 0x01, 0x02, 7, 0, 0, 0, 0, 0, 0, 0, 0, 0]) State.reset
    t.ctlWaiting = [] ∧ look t.linkCtrs 1 9 = 1 := by decide +kernel

/-- R156, R160: the reply to a data frame carries the credit it returns. -/
theorem test_frameSent_credit :
    (after .frameSent { State.reset with
      outgoing := [.reply ⟨.ok, 0x80#8, 101#16, some .data, [1, 0]⟩]
      dataWaiting := List.replicate 4 ⟨.data, 0x80#8, 0#16, []⟩ }).sending
      = some (.reply ⟨.ok, 0x80#8, 101#16, some .data, [1, 0]⟩ 24 4) := by decide +kernel

/-- R159: origin 0, credits and control free in the reply header. -/
theorem test_reply_bytes :
    (SentFrame.reply ⟨.ok, 0x80#8, 101#16, some .data, [1, 0]⟩ 24 3).body = [0x80, 0, 24, 3, 1, 0] := by
  decide

/-- R163: the worked sequence of the full event queue ends with sequence 4,711 and Lost 2. -/
theorem test_event_lost :
    (raise (.cueUnused 0 .edge) { State.reset with eventSeq := 4711, lostCount := 2 }).outgoing
      = [.event 4711 2 (.cueUnused 0 .edge)] := by decide +kernel

/-- R163: the 65th event is dropped, takes no number, and is counted. -/
theorem test_event_dropped :
    let s : State := { State.reset with
      outgoing := List.replicate 64 (.event 0 0 (.cueUnused 0 .edge)), eventSeq := 64, lostCount := 1 }
    let t := raise (.cueUnused 9 .edge) s
    t.outgoing = s.outgoing ∧ t.eventSeq = 64 ∧ t.lostCount = 2 ∧ look t.linkCtrs 4 9 = 1 := by decide +kernel

/-! ### Requests -/

/-- R167, R166: the first bytes of IDENTIFY's reply. -/
theorem test_identify :
    (after .identify (held 0x01 [] State.reset)).outgoing = [.reply ⟨.ok, 0x01#8, 7#16, some .control,
      [0x06, 0x7A, 0x68, 0x09, 1, 0, 8, 24, 72, 4, 28, 4, 64, 64, 2, 0x00, 0x08, 0, 0, 0, 0x10, 0, 0, 1, 0]⟩] := by
  decide +kernel

/-- R158: a code of no request. -/
theorem test_unknown :
    (after .unknownCode (held 0x77 [1] running)).outgoing
      = [.reply ⟨.unknown, 0x77#8, 7#16, some .control, []⟩] := by decide +kernel

/-- R168: the handler stops, and the soft reset is due once the reply has gone. -/
theorem test_reset :
    let t := after .frameSent (after .frameSent (after .reset (held 0x04 [] running)))
    t.handler = .stopped ∧ t.resetSent = true ∧ t.outgoing = [] := by decide +kernel

/-- R171: the head of STATUS_QUERY's body in RUN with one page. -/
theorem test_status :
    (after .statusQuery (held 0x02 [] bound)).outgoing.head?.map (fun o => match o with
      | .reply r => r.body.take 5
      | .event _ _ _ => []) = some [1, 0, 1, 1, 1] := by decide +kernel

/-- R174: read and clear. -/
theorem test_stats :
    let t := after .statsRead (held 0x03 [1, 0, 1] { State.reset with motionCtrs := #v[3, 0, 0, 0, 0, 0, 0, 1] })
    t.motionCtrs = Vector.replicate 8 0 ∧ t.outgoing = [.reply ⟨.ok, 0x03#8, 7#16, some .control,
      [1, 0, 8, 3, 0, 0, 0] ++ List.replicate 24 0 ++ [1, 0, 0, 0]⟩] := by decide +kernel

/-- R70: plane 7, width 2,048, capacity 128. -/
theorem test_setPlane :
    let t := after .setPlaneSet (held 0x10 [7, 0, 0x00, 0x08, 0x80, 0x00] State.reset)
    look t.planes 7 none = some ⟨2048, 128⟩
      ∧ (after .setPlaneRemove (held 0x10 [7, 1, 0, 0, 0, 0] t)).planes = State.reset.planes := by
  decide +kernel

/-- R72: a timeout of 0 is stored as 20; REMOVE discards entry and health. -/
theorem test_setHead :
    let t := after .setHeadSet (held 0x11
      [3, 0, 0, 0, 0, 0x10, 0x04, 4, 0, 0, 0, 0, 4, 0, 0, 8, 0, 16, 0, 24, 0, 0x20, 0x03, 0, 0] State.reset)
    look t.heads 3 none = some ⟨0, 0, 1040, 4, 0, [0, 8, 16, 24], 800, 20⟩
      ∧ look t.health 3 none = some ⟨.active, 0, 0⟩
      ∧ look (after .setHeadRemove (held 0x11 [3, 1] t)).health 3 none = none := by decide +kernel

/-- R135: an OFF lane keeps no owner above 23. -/
theorem test_setLane :
    look (after .setLane (held 0x12 [71, 0, 200] State.reset)).lanes 71 ⟨.data, 1⟩ = ⟨.off, 0⟩
      ∧ look (after .setLane (held 0x12 [5, 2, 23] State.reset)).lanes 5 ⟨.off, 0⟩ = ⟨.ret, 23⟩ := by
  decide +kernel

/-- R2: the motion configuration of chapter 1's worked sequence. -/
theorem test_setMotion :
    (after .setMotion (held 0x13 [0, 0, 3, 0, 0x79, 0x0C, 100, 0, 16, 0, 8, 0, 0, 0] State.reset)).motionCfg
      = ⟨.external, false, 3, 3193, 100, 16, 8⟩ := by decide +kernel

/-- R18: a jump limit above the capture window is refused. -/
theorem test_setCue :
    (after .setCue (held 0x14 [0, 0, 0, 0, 0, 0, 0, 0, 9, 0, 8, 0, 0, 0, 0, 0, 0, 0, 0, 0, 0, 0] State.reset)).outgoing
      = [.reply ⟨.badArgument, 0x14#8, 7#16, some .control, []⟩] := by decide +kernel

/-- R34, R35: the engine starts, and with no plane it does not. -/
theorem test_engineStart :
    (after .engineStart (held 0x20 [] ready)).engine = .run
      ∧ (after .engineStart (held 0x20 [] ready)).rows = running.rows
      ∧ (after .engineStart (held 0x20 [] State.reset)).outgoing
        = [.reply ⟨.badArgument, 0x20#8, 7#16, some .control, [0, 0]⟩] := by decide +kernel

/-- R36: BUSY with a page in the queue. -/
theorem test_engineStop :
    (after .engineStop (held 0x21 [] running)).engine = .setup
      ∧ (after .engineStop (held 0x21 [] waiting)).engine = .run := by decide +kernel

/-- R37: PAGE_DONE HALTED with the unretired entries as CUT. -/
theorem test_engineHalt :
    (after .engineHalt (held 0x22 [] bound)).outgoing
      = [.event 0 0 (.pageDone 5 .halted 2 #v[0, 0, 0, 0, 0, 0, 0, 2]),
         .reply ⟨.ok, 0x22#8, 7#16, some .control, [1]⟩] := by decide +kernel

/-- R40: the record of an ON_CUE page; R42: a FOLLOW page with nothing ahead binds at H_int + G. -/
theorem test_pageOpen :
    (after .pageOpen (held 0x30 [5, 0, 2, 0, 0, 0, 1, 0, 0, 0, 0, 0] running)).pages = [page5]
      ∧ (after .pageOpen (held 0x30 [6, 0, 2, 0, 0, 0, 1, 1, 50, 0, 0, 0]
          { running with hRaw := 4096000, pRaw := 4096000 })).tailEnd = some (1050 + 64) := by decide +kernel

/-- R48 of a QUEUED page, R49 of a BOUND one none of whose entries has retired. -/
theorem test_pageCancel :
    (after .pageCancel (held 0x31 [5, 0] waiting)).outgoing
      = [.event 0 0 (.pageDone 5 .cancelled 0 #v[0, 0, 0, 0, 0, 0, 2, 0]),
         .reply ⟨.ok, 0x31#8, 7#16, some .control, [0, 0, 0, 0, 2, 0, 0, 0]⟩]
      ∧ (after .pageCancel (held 0x31 [5, 0] bound)).tailEnd = some 1000 := by decide +kernel

/-- R98: the worked sequence of five marks on head 3. -/
theorem test_nozzleMark :
    (after .nozzleMark (held 0x40
      [3, 5, 0, 102, 0, 2, 104, 0, 1, 104, 0, 0, 105, 0, 2, 102, 0, 1] State.reset)).outgoing
      = [.reply ⟨.ok, 0x40#8, 7#16, some .control, [5, 0, 2, 1, 1, 2, 2]⟩] := by decide +kernel

/-- R99. -/
theorem test_nozzleClear :
    nozzleStatus (after .nozzleClear (held 0x41 [3]
      { State.reset with nozzles := put State.reset.nozzles 3 [(102, .dead)] })) 3 102 = .good := by
  decide +kernel

/-- R126: bank 0 active and complete is protected; bank 1 takes its settle. -/
theorem test_waveErase :
    (after .waveErase (held 0x50 [0, 30, 0] ready)).outgoing
      = [.reply ⟨.isProtected, 0x50#8, 7#16, some .control, [0, 7, 1, 24, 0, 0, 0]⟩]
      ∧ bankAt (after .waveErase (held 0x50 [1, 20, 0] ready)) 1 = ⟨20, Vector.replicate 3 none⟩ := by
  decide +kernel

/-- R127: the first load of level 2 of the worked sequence, and the second refused. -/
theorem test_waveLoad :
    let t := after .waveLoad (held 0x51 [0, 2, 6, 4, 38] State.reset)
    bankAt t 0 = ⟨0, #v[none, some ⟨6, 4, 38⟩, none]⟩
      ∧ (after .waveLoad (held 0x51 [0, 2, 6, 4, 40] { t with outgoing := [] })).outgoing
        = [.reply ⟨.notErased, 0x51#8, 7#16, some .control, [0, 2, 0, 0, 0, 0, 0]⟩] := by decide +kernel

/-- R129: INCOMPLETE before BUSY, and BUSY with a page BOUND. -/
theorem test_waveSelect :
    (after .waveSelect (held 0x52 [1] bound)).outgoing.head?.map (fun o => match o with
        | .reply r => r.status
        | .event _ _ _ => .ok) = some .incomplete
      ∧ (after .waveSelect (held 0x52 [0] bound)).outgoing.head?.map (fun o => match o with
        | .reply r => r.status
        | .event _ _ _ => .ok) = some .busy := by decide +kernel

/-- R147: HEAD_STATE precedes the reply, and the first PROBE goes out in 120 ns. -/
theorem test_headRestore :
    let t := after .headRestore (held 0x60 [0] (healthy ⟨.offline, 256, 0⟩))
    t.outgoing = [.event 0 0 (.headState 0 .offline .probing 256), .reply ⟨.ok, 0x60#8, 7#16, some .control, []⟩]
      ∧ transferOf t 0 = some ⟨0, .probe 0, .sending 120⟩ := by decide +kernel

/-- R55 to R60: one line in order begins a storing; the reply comes at its end. -/
theorem test_band :
    let s := heldData 0x80 ([5, 0, 0, 1, 0, 0, 0, 0] ++ (0x1B#8 :: List.replicate 15 0)) bound
    let t := after .band s
    freeSlots t 0 = 3 ∧ t.outgoing = []
      ∧ (after .storingEnd t).outgoing = [.reply ⟨.ok, 0x80#8, 7#16, some .data, [1, 0]⟩]
      ∧ (linesOf (after .storingEnd t) 0).map (fun l => l.raw.take 4) = [[3, 2, 1, 0]] := by decide +kernel

/-- R56: a line out of order. -/
theorem test_band_order :
    (after .band (heldData 0x80 [5, 0, 0, 1, 1, 0, 0, 0] bound)).outgoing
      = [.reply ⟨.order, 0x80#8, 7#16, some .data, [0, 0, 0, 0, 0, 0, 0]⟩] := by decide +kernel

/-! ### Events of the substrate and the heads -/

/-- The worked sequence of chapter 1 at its third reverse edge. -/
theorem test_reverse_limit :
    let t := after (.encoderChange false false) { running with
      motionCfg := ⟨.external, false, 3, 3193, 100, 16, 8⟩
      pRaw := 15450038, hRaw := 15481000, decRef := ⟨false, true⟩, encPins := ⟨false, true⟩ }
    t.pRaw = 15434557 ∧ t.outgoing = [.event 0 0 (.reverseLimit 3768 3779 8)] := by decide +kernel

/-- Chapter 1's glitch from 01 to 10. -/
theorem test_glitch :
    let t := after (.encoderChange true false) { running with decRef := ⟨false, true⟩, encPins := ⟨false, true⟩ }
    look t.motionCtrs 0 0 = 1 ∧ t.pRaw = 0 ∧ t.decRef = ⟨true, false⟩ := by decide +kernel

/-- R7, R8: one step for an expiry. -/
theorem test_pace :
    (after .paceExpiry { running with pace := .running 100 }).hRaw = 4096 := by decide +kernel

/-- R23, R29: a first cue locks and is offered. -/
theorem test_cueEdge :
    let t := after .cueEdge { waiting with cueCfg := ⟨100, 24000, 8, 64, 0, 0⟩, pRaw := 4096000, hRaw := 4096000 }
    t.lock = .locked ∧ t.predicted = 25000 ∧ t.tailEnd = some (1100 + 64) := by decide +kernel

/-- R28, chapter 2's bounce behind a synthesized cue: the edge at 77,360 and the arrival that passes the flywheel point
77,348, in both orders. -/
theorem test_cue_and_arrival :
    let s : State := { running with
      motionCfg := ⟨.internal, false, 100, 0, 100, 16, 4096⟩, pace := .running 100
      cueCfg := ⟨3000, 24000, 16, 200, 1000, 800⟩, lock := .locked, predicted := 77147, smoothed := 53147
      lastAccepted := some 53147, pRaw := 77260 * 4096, hRaw := 77260 * 4096 }
    let cueFirst := after .cueEdge { s with cueWith := [.pace] }
    let arrivalFirst := after .cueEdge (after .paceExpiry s)
    cueFirst.smoothed = 77360 ∧ cueFirst.predicted = 101360 ∧ look cueFirst.motionCtrs 5 0 = 1
      ∧ look cueFirst.motionCtrs 4 0 = 0 ∧ cueFirst.hRaw = 77360 * 4096
      ∧ arrivalFirst.smoothed = 77147 ∧ arrivalFirst.predicted = 101147 ∧ look arrivalFirst.motionCtrs 4 0 = 1
      ∧ look arrivalFirst.motionCtrs 2 0 = 1 := by decide +kernel

/-- R139, R140: 616 bits on one lane at 800 Mbit/s take 770 ns, at half rate 1,540. -/
theorem test_transfer_time :
    transferTime 616 1 800 false = 770 ∧ transferTime 616 1 800 true = 1540 := by decide

theorem test_sendingEnd :
    (transferOf (after (.sendingEnd 0) (sendingAs (.sending 200))) 0).map Transfer.phase
      = some (.waiting 20) := by decide +kernel

/-- R110: the acknowledged load fills the buffer. -/
theorem test_answer_ack :
    rowAt (after (.headAnswer 1 (answerBits 0xA5 0 1)) (sendingAs (.waiting 20))) 0 0
      = some ⟨.full ⟨5, 0⟩ 0, .idle⟩ := by decide +kernel

/-- R144: transfer 1 of chapter 9's worked sequence, from 90 to 98. -/
theorem test_timeout :
    look (after (.ackTimeout 0) { sendingAs (.waiting 20) with
      health := put running.health 0 (some ⟨.active, 90, 0⟩) }).health 0 none = some ⟨.warned, 98, 0⟩ := by
  decide +kernel

/-- R114. -/
theorem test_windowEnd :
    rowAt (after (.windowEnd 0 0) { running with
      rows := put running.rows 0 [⟨.empty, .firing 93 ⟨0, 0, 5, 0, fullBank.recs⟩⟩] }) 0 0
      = some ⟨.empty, .idle⟩ := by decide +kernel

/-- R32, R169: power-on clears a bank that the soft reset keeps. -/
theorem test_resets :
    bankAt (after .powerOn running) 0 = ⟨0, Vector.replicate 3 none⟩
      ∧ bankAt (after .softReset { running with resetSent := true }) 0 = fullBank
      ∧ (after .softReset { running with resetSent := true }).engine = .setup := by decide +kernel

/-! ### Composition (chapter 6) -/

/-- The stitch of the worked sequence, lines 3 and 4. -/
theorem test_stitch :
    (List.range 5).map (choosesB 3 5) = [false, false, false, true, false]
      ∧ (List.range 5).map (choosesB 4 5) = [true, false, true, true, true]
      ∧ (List.range 5).map (fun j => (List.range 16).countP fun i => choosesB i 5 j) = [3, 5, 8, 11, 13]
      ∧ choosesB 5 32 13 = true := by decide

/-- The compensation of head 3's columns 100 to 106. -/
theorem test_compensation :
    (composedRecord [⟨0, .good, some 3⟩, ⟨2, .good, some 3⟩, ⟨0, .good, some 3⟩, ⟨3, .unavailable, none⟩,
      ⟨1, .good, some 3⟩, ⟨2, .weak, some 3⟩, ⟨0, .unavailable, none⟩, ⟨1, .good, some 3⟩,
      ⟨0, .good, some 3⟩]).map (fun c => c.level.val) = [0, 2, 2, 0, 3, 1, 0, 1, 0] := by decide

/-- The level lengths of bank 0 of the worked sequence. -/
theorem test_windows :
    windowLength fullBank [0, 1, 0] = 24 + 28 ∧ windowLength fullBank [1, 2] = 24 + 48
      ∧ windowLength fullBank [3, 1] = 24 + 69 := by decide

/-! ### Cases that meet the statements' hypotheses

One theorem for each statement with hypotheses, named after it, with a concrete case for each clause at a value where
its range ends. -/

/-- A control frame waits in SETUP. -/
def onSetup (code : Byte) (body : List Byte) : State := held code body ready

/-- A control frame waits in RUN. -/
def onRun (code : Byte) (body : List Byte) : State := held code body running

theorem onSetup_taken (code : Byte) (body : List Byte) :
    TakesControl (onSetup code body) code 7#16 body ready ∧ (onSetup code body).engine = .setup :=
  ⟨held_taken _ _ _ rfl rfl rfl, rfl⟩

theorem onRun_taken (code : Byte) (body : List Byte) :
    TakesControl (onRun code body) code 7#16 body running ∧ (onRun code body).engine = .run :=
  ⟨held_taken _ _ _ rfl rfl rfl, rfl⟩

theorem witness_StepRunsTheFrontCommand :
    ({ State.reset with pending := [.frameSent, .paceExpiry] } : State).pending = .frameSent :: [.paceExpiry]
      ∧ State.reset.pending = [] ∧ exec .cueEdge State.reset = .next State.reset := ⟨rfl, rfl, rfl⟩

theorem witness_SoftResetSetsThePart : ({ running with resetSent := true } : State).resetSent = true := rfl

theorem witness_RequestFrameRoundTrip :
    (List.replicate 65536 (0xD4#8)).length ≤ 65536 ∧ ([] : List Byte).length ≤ 65536
      ∧ State.reset.rx = .hunting false false ∧ ({ running with rx := .expecting } : State).rx = .expecting :=
  ⟨List.length_replicate.le, Nat.zero_le _, rfl, rfl⟩

/-- A free slot, the last refusal at arrival, and one too many, for each kind. -/
theorem witness_GoodRequestAcceptedOrRefused :
    let free : State := { running with rx := .expecting, ctlWaiting := List.replicate 3 ⟨.control, 0x02#8, 1#16, []⟩,
                                       dataWaiting := List.replicate 27 ⟨.data, 0x80#8, 1#16, []⟩ }
    let full : State := { free with ctlWaiting := List.replicate 4 ⟨.control, 0x02#8, 1#16, []⟩,
                                    dataWaiting := List.replicate 28 ⟨.data, 0x80#8, 1#16, []⟩,
                                    outgoing := List.replicate 7 (.reply ⟨.busy, 0x02#8, 1#16, none, []⟩) }
    let beyond : State := { full with outgoing := List.replicate 8 (.reply ⟨.busy, 0x02#8, 1#16, none, []⟩) }
    (free.rx = .expecting ∧ free.controlHeld = 3 ∧ free.dataHeld = 27)
      ∧ (full.rx = .expecting ∧ full.controlHeld = 4 ∧ full.dataHeld = 28 ∧ full.refusalsWaiting = 7)
      ∧ (beyond.rx = .expecting ∧ beyond.refusalsWaiting = 8) := by decide +kernel

theorem witness_BadFramesAreCountedAndDropped :
    (({ running with rx := .expecting } : State).rx = .expecting ∧ [0x00#8, 0x00#8, 0x00#8, 0x00#8].length = 4
      ∧ (3 : Nat) ≠ 1 ∧ (3 : Nat) ≠ 2
      ∧ leNat [0x00#8, 0x00#8, 0x00#8, 0x00#8] ≠ (hostCrc [0x01, 0x02, 7, 0, 0, 0, 0, 0]).toNat)
      ∧ (65536 < 65537 ∧ 65537 < 4294967296)
      ∧ (¬ [0xD4#8, 0x2B#8] <:+: [0x2B#8, 0xD4#8] ∧ State.reset.rx = .hunting false false)
      ∧ (0x2B#8 ≠ 0xD4#8 ∧ 0xD4#8 ≠ 0x2B#8) := by decide +kernel

theorem witness_FrameSentBeginsTheNext :
    let order (out : List OutFrame) : State := { running with outgoing := out }
    let data : Reply := ⟨.ok, 0x80#8, 7#16, some .data, [1, 0]⟩
    let full : State := { order [.reply data] with dataWaiting := List.replicate 27 ⟨.data, 0x80#8, 1#16, []⟩ }
    ((order []).resetSent = false ∧ (order []).sending = none ∧ (order []).outgoing = [])
      ∧ (order [.event 3 0 (.cueUnused 0 .edge)]).outgoing = .event 3 0 (.cueUnused 0 .edge) :: []
      ∧ (full.outgoing = .reply data :: [] ∧ full.dataHeld = 28 ∧ full.controlHeld ≤ 4)
      ∧ ({ order [] with sending := some (.reply ⟨.ok, 0x04#8, 7#16, some .control, []⟩ 28 4) } : State).sending
        = some (.reply ⟨.ok, 0x04#8, 7#16, some .control, []⟩ 28 4)
      ∧ (∀ e ∈ [(0 : Int), 9223372036854775807], 0 ≤ e ∧ e < 9223372036854775808)
      ∧ ∀ e ∈ [(-1 : Int), -9223372036854775808], e < 0 ∧ -9223372036854775808 ≤ e := by decide +kernel

theorem witness_RefusedInTheWrongEngineState :
    (TakesControl (onRun 0x20 []) 0x20 7#16 [] running ∧ (onRun 0x20 []).engine = .run)
      ∧ (TakesControl (onSetup 0x60 [0]) 0x60 7#16 [0] ready ∧ (onSetup 0x60 [0]).engine = .setup)
      ∧ (0x20 ∈ refusedCodes .run ∧ 0x60 ∈ refusedCodes .setup)
      ∧ TakesData (heldData 0x80 [] ready) 0x80 7#16 [] ready :=
  ⟨onRun_taken _ _, onSetup_taken _ _, by decide, heldData_taken _ _ _ rfl rfl rfl⟩

theorem witness_WrongBodyLengthIsRefused :
    (TakesControl (onSetup 0x01 [0]) 0x01 7#16 [0] ready ∧ (onSetup 0x01 [0]).engine = .setup)
      ∧ (0x01 ∉ refusedCodes .setup ∧ requestLength 0x01 = some 0 ∧ [0x00#8].length ≠ 0)
      ∧ (TakesControl (onSetup 0x52 []) 0x52 7#16 [] ready ∧ (onSetup 0x52 []).engine = .setup)
      ∧ (0x52 ∉ refusedCodes .setup ∧ requestLength 0x52 = some 1 ∧ ([] : List Byte).length ≠ 1) :=
  ⟨onSetup_taken _ _, by decide, onSetup_taken _ _, by decide⟩

theorem witness_UnknownCodesAreAnswered :
    (TakesControl (onRun 0x80 []) 0x80 7#16 [] running ∧ (onRun 0x80 []).engine = .run)
      ∧ 0x80 ∉ controlCodes ∧ TakesData (heldData 0x01 [] running) 0x01 7#16 [] running ∧ 0x01#8 ≠ 0x80#8 :=
  ⟨onRun_taken _ _, by decide, heldData_taken _ _ _ rfl rfl rfl, by decide⟩

/-- A frame of each kind taken with frames of both kinds waiting, a storing, and a frame taken while another arrives. -/
theorem witness_HandlerTakesControlFirst :
    let s : State := { onRun 0x01 [] with
      ctlWaiting := [⟨.control, 0x02#8, 8#16, []⟩], dataWaiting := [⟨.data, 0x80#8, 9#16, []⟩] }
    let w : State := { s with handler := .storing ⟨7, 5, 0, 0, [[0]], 1⟩ }
    (s.handler = .taken ⟨.control, 0x01#8, 7#16, []⟩ ∧ reqOf ⟨.control, 0x01#8, 7#16, []⟩ = .identify
        ∧ ∃ t, exec Req.identify.instr s = .next t)
      ∧ (w.handler = .storing ⟨7, 5, 0, 0, [[0]], 1⟩ ∧ ∃ t, exec .storingEnd w = .next t)
      ∧ (handlerInv s ∧ ∃ t, Machine.step s = .next t)
      ∧ (Instr.hostFrameArrival [0xD4#8] ≠ Req.identify.instr ∧ ∃ t, exec (.hostFrameArrival [0xD4#8]) s = .next t)
      ∧ ∀ f, s.handler = .taken f → reqOf f ≠ .reset := by
  refine ⟨⟨rfl, by decide, _, rfl⟩, ⟨rfl, _, rfl⟩, ⟨fun h => Handler.noConfusion h, _, rfl⟩,
    ⟨by decide, _, rfl⟩, fun f h => ?_⟩
  injection h with h
  rw [← h]; decide

theorem witness_IdentifyAndResetAnswer :
    (∀ b ∈ [[], [0x00#8]], (TakesControl (onRun 0x01 b) 0x01 7#16 b running ∧ (onRun 0x01 b).engine = .run)
      ∧ (TakesControl (onSetup 0x04 b) 0x04 7#16 b ready ∧ (onSetup 0x04 b).engine = .setup)) ∧ [0x00#8] ≠ [] :=
  ⟨fun _ _ => ⟨onRun_taken _ _, onSetup_taken _ _⟩, by decide⟩

/-- With a page, a head and a plane to report, and a body that is not empty. -/
theorem witness_StatusQueryReportsTheState :
    TakesControl (held 0x02 [] bound) 0x02 7#16 [] bound ∧ bound.pages.length = 1
      ∧ (∀ h, h < 24 → look bound.heads h none ≠ none → look bound.health h none = some ⟨.active, 0, 0⟩)
      ∧ TakesControl (held 0x02 [0] bound) 0x02 7#16 [0] bound :=
  ⟨held_taken _ _ _ rfl rfl rfl, rfl, by decide +kernel, held_taken _ _ _ rfl rfl rfl⟩

/-- The last index of each group with and without the clear flag, an index and a flag beyond, and two bytes. -/
theorem witness_StatsReadReadsAndClears :
    ∀ b ∈ [leBytes 1 0 ++ leBytes 1 0 ++ leBytes 1 1, leBytes 1 1 ++ leBytes 1 0 ++ leBytes 1 0,
        leBytes 1 2 ++ leBytes 1 7 ++ leBytes 1 1, leBytes 1 3 ++ leBytes 1 23 ++ leBytes 1 0,
        leBytes 1 2 ++ leBytes 1 8 ++ leBytes 1 0, leBytes 1 3 ++ leBytes 1 23 ++ leBytes 1 2,
        leBytes 1 4 ++ leBytes 1 0 ++ leBytes 1 0, [0, 0]],
      TakesControl (onRun 0x03 b) 0x03 7#16 b running ∧ (onRun 0x03 b).engine = .run :=
  fun b _ => onRun_taken _ b

/-! The bodies of the configuration requests, with the fields as the statements write them. -/

def planeBody (plane op width cap : Nat) : List Byte := leBytes 1 plane ++ leBytes 1 op ++ leBytes 2 width ++ leBytes 2 cap

def headBody (head plane x n r d rate timeout : Nat) (offs : List Nat) : List Byte :=
  leBytes 1 head ++ leBytes 1 0 ++ leBytes 1 plane ++ leBytes 2 x ++ leBytes 2 n ++ leBytes 1 r ++ leBytes 4 d
    ++ leBytes 1 offs.length ++ offs.flatMap (leBytes 2) ++ leBytes 2 rate ++ leBytes 2 timeout

def motionBody (source invert int frac pace late reverse : Nat) : List Byte :=
  leBytes 1 source ++ leBytes 1 invert ++ leBytes 2 int ++ leBytes 2 frac ++ leBytes 2 pace ++ leBytes 2 late
    ++ leBytes 4 reverse

def cueBody (oc q j wc hold gmin : Nat) : List Byte :=
  leBytes 4 oc ++ leBytes 4 q ++ leBytes 2 j ++ leBytes 4 wc ++ leBytes 4 hold ++ leBytes 4 gmin

def openBody (id length mask mode gap : Nat) : List Byte :=
  leBytes 2 id ++ leBytes 4 length ++ leBytes 1 mask ++ leBytes 1 mode ++ leBytes 4 gap

/-- The bodies named here put every clause's values at the end of their range. -/
theorem witness_SetPlaneWritesThePlaneTable :
    (∀ b ∈ [planeBody 7 0 32768 16384, planeBody 0 0 1 2, planeBody 7 1 0 65535, planeBody 8 0 1 2, planeBody 0 2 1 2,
        planeBody 0 0 0 2, planeBody 0 0 32769 2, planeBody 0 0 1 1, planeBody 0 0 1 16385],
      TakesControl (onSetup 0x10 b) 0x10 7#16 b ready ∧ (onSetup 0x10 b).engine = .setup)
      ∧ (TakesControl (onRun 0x10 (planeBody 0 1 0 0)) 0x10 7#16 (planeBody 0 1 0 0) running
        ∧ (onRun 0x10 (planeBody 0 1 0 0)).engine = .run) :=
  ⟨fun b _ => onSetup_taken _ b, onRun_taken _ _⟩

/-- Two entries at the ends of every range, values beyond, REMOVE of heads 23 and 24, no operation, operation 2, and
bodies of a wrong length; and a SET in RUN. -/
theorem witness_SetHeadWritesTheHeadTable :
    (∀ b ∈ [headBody 23 7 32767 2048 4 16777215 1600 255 [4095, 0, 1, 2], headBody 0 0 0 64 1 0 400 0 [0],
        headBody 24 0 0 64 1 0 400 0 [0], headBody 0 0 0 63 1 0 400 0 [0], headBody 0 0 0 64 3 0 400 0 [],
        leBytes 1 23 ++ leBytes 1 1, leBytes 1 24 ++ leBytes 1 1, [0], [0, 2], [0, 0], [0, 1, 0]],
      TakesControl (onSetup 0x11 b) 0x11 7#16 b ready ∧ (onSetup 0x11 b).engine = .setup)
      ∧ (TakesControl (onRun 0x11 [0, 0]) 0x11 7#16 [0, 0] running ∧ (onRun 0x11 [0, 0]).engine = .run) :=
  ⟨fun b _ => onSetup_taken _ b, onRun_taken _ _⟩

theorem witness_SetLaneWritesTheLaneTable :
    (∀ b ∈ [leBytes 1 71 ++ leBytes 1 0 ++ leBytes 1 24, leBytes 1 0 ++ leBytes 1 0 ++ leBytes 1 23,
        leBytes 1 71 ++ leBytes 1 1 ++ leBytes 1 23, leBytes 1 0 ++ leBytes 1 2 ++ leBytes 1 0,
        leBytes 1 72 ++ leBytes 1 0 ++ leBytes 1 0, leBytes 1 0 ++ leBytes 1 3 ++ leBytes 1 0,
        leBytes 1 0 ++ leBytes 1 1 ++ leBytes 1 24],
      TakesControl (onSetup 0x12 b) 0x12 7#16 b ready ∧ (onSetup 0x12 b).engine = .setup)
      ∧ (TakesControl (onRun 0x12 [0, 0, 0]) 0x12 7#16 [0, 0, 0] running ∧ (onRun 0x12 [0, 0, 0]).engine = .run) :=
  ⟨fun b _ => onSetup_taken _ b, onRun_taken _ _⟩

theorem witness_SetMotionReplacesTheConfiguration :
    (∀ b ∈ [motionBody 1 1 255 4095 65535 1023 1048575, motionBody 0 0 0 1 1 0 0, motionBody 2 0 0 1 1 0 0,
        motionBody 0 0 0 0 1 0 0, motionBody 0 0 0 1 0 0 0, motionBody 0 0 256 0 1 0 0],
      TakesControl (onSetup 0x13 b) 0x13 7#16 b ready ∧ (onSetup 0x13 b).engine = .setup)
      ∧ (TakesControl (onRun 0x13 (motionBody 0 0 0 1 1 0 0)) 0x13 7#16 (motionBody 0 0 0 1 1 0 0) running
        ∧ (onRun 0x13 (motionBody 0 0 0 1 1 0 0)).engine = .run) :=
  ⟨fun b _ => onSetup_taken _ b, onRun_taken _ _⟩

theorem witness_SetCueReplacesTheConfiguration :
    (∀ b ∈ [cueBody 16777215 16777215 1023 65535 65535 65535, cueBody 0 0 0 0 0 0, cueBody 0 64 5 5 0 0,
        cueBody 0 63 0 0 0 0, cueBody 0 0 6 5 0 0, cueBody 16777216 0 0 0 0 0],
      TakesControl (onSetup 0x14 b) 0x14 7#16 b ready ∧ (onSetup 0x14 b).engine = .setup)
      ∧ (TakesControl (onRun 0x14 (cueBody 0 0 0 0 0 0)) 0x14 7#16 (cueBody 0 0 0 0 0 0) running
        ∧ (onRun 0x14 (cueBody 0 0 0 0 0 0)).engine = .run) :=
  ⟨fun b _ => onSetup_taken _ b, onRun_taken _ _⟩

/-- A good configuration, one without a lane, none at all, and a first head whose N is no multiple of its R. -/
theorem witness_EngineStartEntersRun :
    (TakesControl (onSetup 0x20 []) 0x20 7#16 [] ready ∧ (onSetup 0x20 []).engine = .setup)
      ∧ startFault (onSetup 0x20 []) = none
      ∧ startFault { onSetup 0x20 [] with lanes := State.reset.lanes } = some (.lanes, .head 0)
      ∧ (∀ p, p < 8 → look State.reset.planes p none = none)
      ∧ (look ready.planes 0 none ≠ none ∧ look ready.heads 0 none = some head0
        ∧ ({ head0 with n := 65, r := 2 }).n % 2 ≠ 0) :=
  ⟨onSetup_taken _ _, by decide +kernel, by decide +kernel, by decide +kernel, by decide +kernel⟩

/-- One plane and one head in SETUP. -/
def layout (width capacity n r : Nat) : State :=
  { onSetup 0x20 [] with
    planes := put State.reset.planes 0 (some ⟨width, capacity⟩)
    heads := put State.reset.heads 0 (some { head0 with n := n, r := r }) }

/-- The one plane and the one head of a layout, and for each check a layout that fails it first: N = 65 with R = 2; a
plane one column too narrow; one column too wide; no lanes; a lane of head 1; a slot too many; and no record. -/
theorem witness_EngineStartEntersRun_layouts :
    (∀ w cap n r p k, look (layout w cap n r).planes p none = some k ↔ p = 0 ∧ k = ⟨w, cap⟩)
      ∧ (∀ w cap n r h c, look (layout w cap n r).heads h none = some c ↔ h = 0 ∧ c = { head0 with n := n, r := r })
      ∧ (65 % 2 ≠ 0 ∧ 64 % 1 = 0 ∧ head0.offsets.length = 1)
      ∧ (¬ head0.x + 64 ≤ 63 ∧ head0.x + 64 ≤ 64 ∧ head0.x + 64 ≤ 65)
      ∧ (¬ 64 < head0.x + 64 ∧ ∀ col, col < 64 → head0.x ≤ col ∧ col < head0.x + 64)
      ∧ ((List.range 72).countP (fun l => look State.reset.lanes l ⟨.off, 0⟩ = ⟨.ret, 0⟩) = 0
        ∧ (List.range 72).countP (fun l => look ready.lanes l ⟨.off, 0⟩ = ⟨.data, 0⟩) = 1
        ∧ (List.range 72).countP (fun l => look ready.lanes l ⟨.off, 0⟩ = ⟨.ret, 0⟩) = 1)
      ∧ (look (put ready.lanes 2 ⟨.data, 1⟩) 2 ⟨.off, 0⟩ = ⟨.data, 1⟩ ∧ look ready.heads 1 none = none)
      ∧ (10922 * (64 * ((3 * 32768 + 255) / 256)) ≤ 268435456 ∧ 268435456 < 10923 * (64 * ((3 * 32768 + 255) / 256)))
      ∧ look (bankAt { ready with banks := State.reset.banks } 0).recs 0 none = none := by
  refine ⟨fun w cap n r p k => ?_, fun w cap n r h c => ?_, by decide, by decide, by decide, by decide +kernel,
    by decide +kernel, by decide, by decide +kernel⟩
  · simp [layout, look_put, State.reset, eq_comm]
  · simp [layout, look_put, State.reset, eq_comm]

theorem witness_EngineStopNeedsAQuietPart :
    (TakesControl (onRun 0x21 []) 0x21 7#16 [] running ∧ (onRun 0x21 []).engine = .run)
      ∧ ((onRun 0x21 []).pages = [] ∧ (onRun 0x21 []).quiet = true)
      ∧ TakesControl (held 0x21 [] waiting) 0x21 7#16 [] waiting ∧ waiting.pages ≠ [] :=
  ⟨onRun_taken _ _, by decide +kernel, held_taken _ _ _ rfl rfl rfl, by decide⟩

theorem zeros_small {n : Nat} : ∀ c ∈ (Vector.replicate n 0).toList, c ≤ 4294967295 := by
  intro c h; simp at h; omega

/-- Every counter of the states built here is 0. -/
theorem counters_reset (s : State) (link : s.linkCtrs = State.reset.linkCtrs)
    (motion : s.motionCtrs = State.reset.motionCtrs) (plane : s.planeCtrs = State.reset.planeCtrs)
    (head : s.headCtrs = State.reset.headCtrs) (lost : s.lostCount = 0) : countersInv s := by
  refine ⟨?_, ?_, ?_, ?_, by omega⟩
  · rw [link]; exact zeros_small
  · rw [motion]; exact zeros_small
  · rw [plane]; intro g hg; simp [State.reset] at hg; subst hg; exact zeros_small
  · rw [head]; intro g hg; simp [State.reset] at hg; subst hg; exact zeros_small

theorem witness_EngineHaltDropsEveryPage :
    TakesControl (held 0x22 [] loaded) 0x22 7#16 [] loaded ∧ (held 0x22 [] loaded).engine = .run
      ∧ ((held 0x22 [] loaded).pages.map Page.id).Nodup ∧ countersInv (held 0x22 [] loaded) :=
  ⟨held_taken _ _ _ rfl rfl rfl, rfl, by decide, counters_reset _ rfl rfl rfl rfl rfl⟩

/-- The longest page, a page too long, a fifth page, and a page on a plane that is not configured. -/
theorem witness_PageOpenAppendsARecord :
    (∀ b ∈ [openBody 5 1048576 1 0 0, openBody 5 1048577 1 0 0, openBody 5 1 0 0 0, openBody 5 1 2 0 0,
        openBody 5 1 1 1 16777216],
      TakesControl (onRun 0x30 b) 0x30 7#16 b running ∧ (onRun 0x30 b).engine = .run)
      ∧ (look running.planes 0 none ≠ none ∧ (0b1 : Nat).testBit 0 = true ∧ running.pages = [])
      ∧ ({ running with pages := [{ page5 with id := 1 }, { page5 with id := 2 }, { page5 with id := 3 },
          { page5 with id := 4 }] } : State).pages.length = 4
      ∧ (TakesControl (held 0x30 (openBody 6 1 1 1 16777215) waiting) 0x30 7#16 (openBody 6 1 1 1 16777215) waiting
        ∧ waiting.pages = [] ++ page5 :: [] ∧ page5.pstate = .queued ∧ page5.mode = .onCue) :=
  ⟨fun b _ => onRun_taken _ b, by decide +kernel, by decide, held_taken _ _ _ rfl rfl rfl, by decide⟩

/-- The tail end absent, the queue run empty, and a page ahead. -/
theorem witness_FollowPageBindsWhenOpened :
    let b := openBody 6 1 1 1 16777215
    (TakesControl (onRun 0x30 b) 0x30 7#16 b running ∧ (onRun 0x30 b).tailEnd = none ∧ running.hRaw / 4096 = 0)
      ∧ (TakesControl (held 0x30 b { running with tailEnd := some 9 }) 0x30 7#16 b { running with tailEnd := some 9 }
        ∧ max (9 + max 16777215 0) (0 + 16777215) = 16777224 ∧ running.hRaw / 4096 < 16777224)
      ∧ (TakesControl (held 0x30 b bound) 0x30 7#16 b bound ∧ (∀ p ∈ bound.pages, p.pstate ≠ .queued ∧ p.id ≠ 6)
        ∧ bound.tailEnd = some 1064 ∧ bound.pages ≠ []) := by
  intro b
  exact ⟨⟨(onRun_taken _ _).1, rfl, rfl⟩, ⟨held_taken _ _ _ rfl rfl rfl, rfl, by decide⟩,
    ⟨held_taken _ _ _ rfl rfl rfl, by decide, rfl, by decide⟩⟩

/-- No QUEUED page, an offer one short of the least origin, and one at it. -/
theorem witness_CueOfferBindsTheFrontPage :
    let s : State := { waiting with tailEnd := some 1000, cueCfg := ⟨0, 0, 0, 0, 0, 7⟩ }
    (∀ p ∈ bound.pages, p.pstate ≠ .queued)
      ∧ (s.pages = [] ++ page5 :: [] ∧ page5.pstate = .queued ∧ s.tailEnd = some 1000
        ∧ 1006 < 1000 + s.cueCfg.minGap ∧ 1000 + s.cueCfg.minGap ≤ 1007 ∧ (s.pages.map Page.id).Nodup
        ∧ s.hRaw / 4096 < 1007) := by decide

/-- A FOLLOW page behind `page5`. -/
def follower : Page := { page5 with id := 6, mode := .follow, gap := 10 }

/-- Two FOLLOW pages behind the front page and an ON_CUE page, QUEUED with origin absent, behind them. -/
theorem witness_CueOfferBindsTheFrontPage_chain :
    let last : Page := { follower with id := 7 }
    let s : State := { waiting with pages := [page5, follower, last, { page5 with id := 8 }] }
    s.pages = [] ++ page5 :: [follower, last] ++ [{ page5 with id := 8 }] ∧ page5.pstate = .queued ∧ s.tailEnd = none
      ∧ (s.pages.map Page.id).Nodup
      ∧ (∀ f ∈ [follower, last], f.pstate = .queued ∧ f.mode = .follow ∧ f.origin = none)
      ∧ (page5.pstate = .queued ∧ page5.origin = none ∧ page5.mode = .onCue)
      ∧ s.hRaw / 4096 < 1 ∧ [page5, follower, last].getLast? = some last := by decide

/-- The FOLLOW page becomes the front page with no tail end, with one, and behind a BOUND page. -/
theorem witness_CancelOfAQueuedPage_follow :
    let s : State := { waiting with pages := [page5, follower] }
    let b : Page := { page5 with id := 4, pstate := .bound, origin := some 1000 }
    let t : State := { s with pages := [b, page5, follower], tailEnd := some 1064 }
    (∀ te, TakesControl (held 0x31 (leBytes 2 5) { s with tailEnd := te }) 0x31 7#16 (leBytes 2 5) { s with tailEnd := te })
      ∧ (s.pages = [] ++ page5 :: follower :: [] ++ [] ∧ (s.pages.map Page.id).Nodup ∧ follower.pstate = .queued
        ∧ follower.mode = .follow ∧ follower.origin = none)
      ∧ (10 = s.hRaw / 4096 + follower.gap ∧ 1074 = max (1064 + max follower.gap s.cueCfg.minGap) (0 + follower.gap))
      ∧ TakesControl (held 0x31 (leBytes 2 5) t) 0x31 7#16 (leBytes 2 5) t
      ∧ (t.pages = [b] ++ page5 :: follower :: [] ++ [] ∧ b.pstate ≠ .queued ∧ (t.pages.map Page.id).Nodup
        ∧ 1074 = 1064 + max follower.gap t.cueCfg.minGap ∧ t.hRaw / 4096 < 1074) :=
  ⟨fun _ => held_taken _ _ _ rfl rfl rfl, by decide, by decide, held_taken _ _ _ rfl rfl rfl, by decide⟩

theorem witness_CancelOfAQueuedPage :
    (TakesControl (onRun 0x31 (leBytes 2 5)) 0x31 7#16 (leBytes 2 5) running ∧ ∀ p ∈ running.pages, p.id ≠ 5)
      ∧ TakesControl (held 0x31 (leBytes 2 5) waiting) 0x31 7#16 (leBytes 2 5) waiting
      ∧ waiting.pages = [] ++ page5 :: [] ∧ page5.pstate = .queued :=
  ⟨⟨(onRun_taken _ _).1, by decide⟩, held_taken _ _ _ rfl rfl rfl, rfl, rfl⟩

/-- A page none of whose entries has retired, one with a line retired, and one of two rows with an entry that stays. -/
theorem witness_CancelOfABoundPageCutsIt :
    let p : Page := { page5 with pstate := .bound, origin := some 1000 }
    let q : Page := { p with pstate := .firing, unretired := 1, passed := put p.passed 0 [1] }
    let s : State := { bound with pages := [q] }
    (TakesControl (held 0x31 (leBytes 2 5) bound) 0x31 7#16 (leBytes 2 5) bound ∧ pageById bound 5 = some p)
      ∧ (∀ n ∈ p.passed.toList.flatten, n ≤ 0)
      ∧ (TakesControl (held 0x31 (leBytes 2 5) s) 0x31 7#16 (leBytes 2 5) s ∧ pageById s 5 = some q)
      ∧ ((∀ n ∈ q.passed.toList.flatten, n ≤ 1) ∧ 1 ∈ q.passed.toList.flatten)
      ∧ p.unretired - (p.length - 0) * (p.passed.toList.map List.length).sum = 0
      ∧ (let two : Page := { p with unretired := 3, passed := put p.passed 0 [1, 0] }
        pageById { bound with pages := [two] } 5 = some two
          ∧ two.unretired - (two.length - 1) * (two.passed.toList.map List.length).sum = 1) :=
  ⟨⟨held_taken _ _ _ rfl rfl rfl, by decide +kernel⟩, by decide +kernel,
    ⟨held_taken _ _ _ rfl rfl rfl, by decide +kernel⟩, by decide +kernel, by decide +kernel, by decide +kernel⟩

/-- `s` with its next cue edge to come together with `w`. -/
def withCue (w : CueWith) (s : State) : State := { s with cueWith := w :: s.cueWith }

/-- P one below H, and the last position of the hold-off. -/
theorem witness_IgnoredCueEdges :
    let s : State := { running with lastAccepted := some 10, cueCfg := ⟨0, 0, 0, 0, 5, 0⟩, pRaw := 14 * 4096, hRaw := 14 * 4096 }
    (CueComes .nothing (withCue .nothing s) s ∧ CueComes .nothing State.reset State.reset)
      ∧ State.reset.engine = .setup ∧ (running.engine = .run ∧ ({ running with hRaw := 1 } : State).pRaw < 1)
      ∧ (s.engine = .run ∧ s.hRaw ≤ s.pRaw ∧ s.lastAccepted = some 10 ∧ s.pRaw / 4096 < 10 + s.cueCfg.holdOff) :=
  ⟨⟨⟨rfl, rfl⟩, ⟨rfl, rfl⟩⟩, by decide⟩

/-- The first position after the hold-off, with Q at its least and with Q equal to 0. -/
theorem witness_HardSyncTakesTheCue :
    let s : State := { running with lastAccepted := some 10, cueCfg := ⟨0, 64, 0, 0, 5, 0⟩, pRaw := 15 * 4096, hRaw := 15 * 4096 }
    CueComes .nothing (withCue .nothing s) s
      ∧ (s.engine = .run ∧ s.lock = .unlocked ∧ s.hRaw ≤ s.pRaw ∧ 15 = s.pRaw / 4096 ∧ s.lastAccepted = some 10
      ∧ 10 + s.cueCfg.holdOff ≤ 15 ∧ 0 < s.cueCfg.pitch)
      ∧ (running.engine = .run ∧ running.lock = .unlocked ∧ running.lastAccepted = none
        ∧ running.cueCfg.pitch = 0) := ⟨⟨rfl, rfl⟩, by decide⟩

/-- Errors of Wc and of Wc + 1, limited to J. -/
theorem witness_LockedCueCorrectsOrRelocks :
    let s : State := { running with
      lock := .locked, predicted := 100, cueCfg := ⟨0, 64, 2, 5, 0, 0⟩, pRaw := 105 * 4096, hRaw := 105 * 4096 }
    let t : State := { s with pRaw := 106 * 4096, hRaw := 106 * 4096 }
    CueComes .nothing (withCue .nothing s) s
      ∧ (s.engine = .run ∧ s.lock = .locked ∧ 105 = s.pRaw / 4096 ∧ s.lastAccepted = none
      ∧ (5 : Int) = (105 : Int) - (s.predicted : Int) ∧ -(s.cueCfg.window : Int) ≤ 5 ∧ 5 ≤ (s.cueCfg.window : Int)
      ∧ (102 : Int) = (s.predicted : Int) + (if (5 : Int) < -(s.cueCfg.jump : Int) then -(s.cueCfg.jump : Int)
          else if (s.cueCfg.jump : Int) < 5 then (s.cueCfg.jump : Int) else 5))
      ∧ (106 = t.pRaw / 4096 ∧ (6 : Int) = (106 : Int) - (t.predicted : Int) ∧ (t.cueCfg.window : Int) < 6) :=
  ⟨⟨rfl, rfl⟩, by decide⟩

/-- H_int one below the flywheel point, at it, at it with two misses counted, and at the next one as well. -/
theorem witness_FlywheelCoversAMissingCue :
    let s : State := { running with lock := .locked, predicted := 100, cueCfg := ⟨0, 64, 2, 5, 0, 0⟩, hRaw := 105 * 4096 }
    let t : State := { s with hRaw := 106 * 4096 }
    (s.pages = [] ∧ s.lock = .locked
      ∧ s.hRaw / 4096 < s.predicted + s.cueCfg.window + 1)
      ∧ (t.predicted + t.cueCfg.window + 1 ≤ t.hRaw / 4096
        ∧ t.hRaw / 4096 < t.predicted + t.cueCfg.window + 1 + t.cueCfg.pitch ∧ t.flywheel ≤ 1)
      ∧ ({ t with flywheel := 2 } : State).flywheel = 2
      ∧ t.predicted + t.cueCfg.window + 1 + t.cueCfg.pitch ≤ ({ t with hRaw := 170 * 4096 } : State).hRaw / 4096 := by
  decide

/-- A pace expiry that leaves H_int, and one that takes it from one below the flywheel point to it, together with a cue
edge at the end of the hold-off. -/
theorem witness_FlywheelCoversAMissingCue_together :
    let s : State := { running with
      pace := .running 100, lock := .locked, predicted := 100, cueCfg := ⟨0, 64, 2, 5, 6, 0⟩
      lastAccepted := some 100, pRaw := 105 * 4096, hRaw := 105 * 4096 }
    let m := stepTogether .pace s
    let u : State := { s with motionCfg := { s.motionCfg with stepInt := 0, stepFrac := 1 } }
    (CueComes .pace (withCue .pace s) s ∧ CueComes .nothing (withCue .nothing m) m)
      ∧ (stepTogether .pace u).hRaw / 4096 ≤ u.hRaw / 4096
      ∧ (s.hRaw / 4096 < m.hRaw / 4096 ∧ s.pages = [] ∧ m.engine = .run ∧ m.lock = .locked ∧ m.pRaw = m.hRaw
        ∧ m.predicted + m.cueCfg.window + 1 ≤ m.hRaw / 4096
        ∧ m.lastAccepted = some 100 ∧ 100 + m.cueCfg.holdOff ≤ m.hRaw / 4096)
      ∧ ∃ t, exec .cueEdge { m with sched := m.sched.tail } = .next t :=
  ⟨⟨⟨rfl, rfl⟩, ⟨rfl, rfl⟩⟩, by decide +kernel, by decide +kernel, _, rfl⟩

/-- From 00 to 01 with invert off is forward, with invert on reverse. -/
theorem witness_EncoderEdgeMovesThePosition :
    running.engine = .run ∧ running.motionCfg.source = .external ∧ (⟨false, true⟩ : EncPair) ≠ running.encPins
      ∧ running.decRef = ⟨false, false⟩ ∧ running.motionCfg.invert = false
      ∧ ({ running with motionCfg := ⟨.external, true, 1, 0, 100, 16, 4096⟩ } : State).motionCfg.invert = true := by
  decide

theorem witness_EncoderChangesThatAreNoSteps :
    (⟨false, false⟩ : EncPair) = running.encPins ∧ (⟨true, true⟩ : EncPair) ≠ running.encPins
      ∧ ready.engine = .setup
      ∧ ({ running with motionCfg := ⟨.internal, false, 1, 0, 100, 16, 4096⟩ } : State).motionCfg.source = .internal
      ∧ running.motionCfg.source = .external ∧ running.decRef.a = !true ∧ running.decRef.b = !true := by decide

/-- A reverse edge to a deficit of 8 against limits of 8 and 7, forward edges to the same from RAISED, invert on and
off, a forward edge to H, and expiries of the timer short of H and to it. -/
theorem witness_ReverseEdgeTestsTheDeficit :
    let at_ (invert : Bool) (limit p : Nat) : State := { running with
      motionCfg := ⟨.external, invert, 1, 0, 100, 16, limit⟩, pRaw := p * 4096, hRaw := 10 * 4096
      pace := .running 100 }
    (∀ i l p, (at_ i l p).engine = .run ∧ (at_ i l p).motionCfg.source = .external
        ∧ (at_ i l p).decRef = ⟨false, false⟩ ∧ (⟨true, false⟩ : EncPair) ≠ (at_ i l p).encPins
        ∧ (⟨false, true⟩ : EncPair) ≠ (at_ i l p).encPins ∧ (at_ i l p).pace = .running 100)
      ∧ (2 * 4096 = (at_ false 8 3).pRaw - 4096 ∧ 2 * 4096 ≤ (at_ false 8 3).hRaw
        ∧ ¬ (8 < (at_ false 8 3).hRaw / 4096 - 2 * 4096 / 4096) ∧ 7 < (at_ false 7 3).hRaw / 4096 - 2 * 4096 / 4096)
      ∧ (2 * 4096 = min ((at_ true 8 1).pRaw + 4096) 1152921504606846975
        ∧ 10 * 4096 = min ((at_ true 8 9).pRaw + 4096) 1152921504606846975 ∧ (at_ true 8 9).hRaw ≤ 10 * 4096) := by
  have back : (⟨true, false⟩ : EncPair) ≠ running.encPins := by decide
  have ahead : (⟨false, true⟩ : EncPair) ≠ running.encPins := by decide
  exact ⟨fun _ _ _ => ⟨rfl, rfl, rfl, back, ahead, rfl⟩, by decide, by decide⟩

/-- An event queue with no room as the limit is passed. -/
theorem witness_ReverseEdgeTestsTheDeficit_full :
    let s : State := { running with
      motionCfg := ⟨.external, false, 1, 0, 100, 16, 7⟩, hRaw := 10 * 4096
      outgoing := List.replicate 64 (.event 0 0 (.cueUnused 0 .edge)) }
    64 ≤ s.eventCount ∧ s.revCond = .armed ∧ s.motionCfg.reverseLimit < s.hRaw / 4096 - 2 * 4096 / 4096 := by
  decide +kernel

theorem witness_PaceExpiryIsAForwardEdge :
    ({ running with pace := .running 100 } : State).pace = .running 100 ∧ running.pace = .stopped := by decide

def bandBody (id plane count first : Nat) (data : List Byte) : List Byte :=
  leBytes 2 id ++ leBytes 1 plane ++ leBytes 1 count ++ leBytes 4 first ++ data

/-- `bound` with a full page of the plane ahead. -/
def behind : State :=
  { bound with pages := [{ page5 with pstate := .bound, origin := some 1000 }, { page5 with id := 6 }] }

/-- Each check's refusal, and two lines that fit. -/
theorem witness_BandIsCheckedThenStored :
    (∀ b ∈ [bandBody 9 0 1 0 [], bandBody 5 8 1 0 [], bandBody 5 0 1 1 [], bandBody 5 0 3 0 [],
        bandBody 5 0 2 0 (List.replicate 32 0)],
      TakesData (heldData 0x80 b bound) 0x80 7#16 b bound)
      ∧ bound.engine = .run ∧ bound.pages = [] ++ { page5 with pstate := .bound, origin := some 1000 } :: []
      ∧ slotsNeeded bound ⟨5, 0, 2, 0⟩ = 2 ∧ freeSlots bound 0 = 4
      ∧ ((pageById bound 5).isSome = true ∧ pageById bound 9 = none)
      ∧ freeSlots { bound with lines := put bound.lines 0 [line0, line0, line0] } 0 < 2
      ∧ ((∀ b ∈ [bandBody 6 0 1 0 [], bandBody 6 0 1 1 []], TakesData (heldData 0x80 b behind) 0x80 7#16 b behind)
        ∧ behind.pages.find? (fun q => q.mask.getLsbD 0 && look q.arrival 0 0 ≠ q.length)
          = some { page5 with pstate := .bound, origin := some 1000 }) :=
  ⟨fun b _ => heldData_taken _ b _ rfl rfl rfl, rfl, rfl, by decide +kernel, by decide +kernel, by decide +kernel,
    by decide +kernel, fun b _ => heldData_taken _ b _ rfl rfl rfl, by decide +kernel⟩

/-- A storing for a page BOUND, for one QUEUED, for one that has left the queue, and none. -/
theorem witness_StoringEndJoinsOrDiscards :
    let storing (s : State) : State := { s with handler := .storing ⟨7, 5, 0, 0, [[0]], 1⟩ }
    (storing bound).handler = .storing ⟨7, 5, 0, 0, [[0]], 1⟩ ∧ (pageById (storing bound) 5).isSome = true
      ∧ (∀ p ∈ (storing waiting).pages, p.origin = none) ∧ consumerCount (storing waiting) 5 0 0 = 1
      ∧ pageById (storing running) 5 = none ∧ ∀ op, bound.handler ≠ .storing op :=
  ⟨rfl, by decide +kernel, by decide, by decide +kernel, by decide +kernel, fun _ h => by cases h⟩

theorem witness_StitchShareOfTheRightHead :
    (0 : Nat) < 1 ∧ (62 : Nat) < 63 ∧ (63 : Nat) < 64 ∧ (64 : Nat) ≤ 64 := by decide

/-- Line 3, j = 1 of 5 chooses A (chapter 6's worked sequence). -/
theorem witness_OverrideFollowsItsTable :
    let eff (a b : ColStatus) : Nat → Nat → ColStatus := fun h _ => if h = 0 then a else b
    choosesB 3 5 1 = false ∧ eff .unavailable .weak 0 0 = .unavailable ∧ eff .unavailable .weak 1 0 ≠ .unavailable
      ∧ eff .unavailable .unavailable 1 0 = .unavailable ∧ eff .weak .good 0 0 = .weak ∧ eff .weak .good 1 0 = .good
      ∧ eff .weak .weak 1 0 ≠ .good ∧ eff .good .weak 0 0 = .good := by decide

/-- A stored line of a row's next entry, not yet composed and composed; and its first and last column. -/
theorem witness_CompositionConservesUnits :
    let fresh : StoredLine := { line0 with composed := none }
    let s : State := { bound with lines := put bound.lines 0 [fresh] }
    (storedLine s 0 ⟨5, 0⟩ = some fresh ∧ look s.decode 0 none = some ⟨64, [⟨0, 0, 64⟩]⟩)
      ∧ (storedLine loaded 0 ⟨5, 0⟩ = some line0 ∧ line0.composed ≠ none)
      ∧ (nextEntry s 0 0 = some ⟨5, 0⟩ ∧ headPlane s 0 = some 0)
      ∧ (line0.raw[0]? = some 1 ∧ line0.raw[63]? = some 0)
      ∧ ([⟨2, .weak, some 0⟩] : List Column)[0]? = some ⟨2, .weak, some 0⟩ := by decide +kernel

/-- Nozzles 0 and 2,047 of head 23, a head and a nozzle beyond the map, 257 pairs, a missing pair, and NOZZLE_CLEAR of
heads 23 and 24. -/
theorem witness_NozzleMarkWorsensAndClearRestores :
    (∀ b ∈ [leBytes 1 23 ++ leBytes 2 2 ++ [(0, NozzleStatus.weak), (2047, .dead)].flatMap
          (fun p => leBytes 2 p.1 ++ leBytes 1 p.2.code),
        leBytes 1 24 ++ leBytes 2 1 ++ [(0, 0)].flatMap (fun p => leBytes 2 p.1 ++ leBytes 1 p.2),
        leBytes 1 0 ++ leBytes 2 1 ++ [(2048, 0)].flatMap (fun p => leBytes 2 p.1 ++ leBytes 1 p.2),
        leBytes 1 0 ++ leBytes 2 257 ++ (List.replicate 257 (0, 0)).flatMap
          (fun p => leBytes 2 p.1 ++ leBytes 1 p.2), [0, 1, 0]],
      TakesControl (onRun 0x40 b) 0x40 7#16 b running ∧ (onRun 0x40 b).engine = .run)
      ∧ (TakesControl (onSetup 0x41 (leBytes 1 23)) 0x41 7#16 (leBytes 1 23) ready
        ∧ (onSetup 0x41 (leBytes 1 23)).engine = .setup)
      ∧ (TakesControl (onSetup 0x41 (leBytes 1 24)) 0x41 7#16 (leBytes 1 24) ready
        ∧ (onSetup 0x41 (leBytes 1 24)).engine = .setup) :=
  ⟨fun b _ => onRun_taken _ b, onSetup_taken _ _, onSetup_taken _ _⟩

theorem nozzles_reset (s : State) (h : s.nozzles = State.reset.nozzles) : nozzlesWf s := by
  intro m hm; rw [h] at hm; simp [State.reset] at hm; subst hm; simp

/-- The last position within a late limit of 16, and the first beyond it. -/
theorem witness_FireStartFiresOrOverspeeds :
    let s : State := { loaded with hRaw := 1016 * 4096 }
    let t : State := { loaded with hRaw := 1017 * 4096 }
    (rowAt s 0 0 = some ⟨.full ⟨5, 0⟩ 0, .idle⟩ ∧ (pageById s 5).isSome = true ∧ headPlane s 0 = some 0
      ∧ dueOf s 0 0 ⟨5, 0⟩ = some 1000 ∧ 1000 ≤ s.hRaw / 4096 ∧ s.hRaw / 4096 - 1000 ≤ s.motionCfg.lateLimit)
      ∧ t.motionCfg.lateLimit < t.hRaw / 4096 - 1000
      ∧ (rowAt bound 0 0 = some ⟨.empty, .idle⟩ ∧ ({ loaded with hRaw := 1000 * 4096 - 1 } : State).hRaw / 4096 < 1000)
      ∧ (∀ l : Level, l ≠ 0 → ∃ x, look fullBank.recs (l.val - 1) none = some x)
      ∧ (let f : FireFrame := ⟨255, 255, 65535, 16777215, #v[some ⟨255, 255, 255⟩, none, none]⟩
        f.row < 256 ∧ f.page < 65536 ∧ f.line < 16777216 ∧ look f.recs 0 none = some ⟨255, 255, 255⟩) := by
  refine ⟨by decide +kernel, by decide +kernel, by decide +kernel, ?_, by decide⟩
  intro l h
  match l, h with
  | 1, _ => exact ⟨_, rfl⟩
  | 2, _ => exact ⟨_, rfl⟩
  | 3, _ => exact ⟨_, rfl⟩

theorem witness_DecisionAndRetirementAtDue :
    let off : State := healthy ⟨.offline, 256, 0⟩
    let blank : StoredLine := { line0 with composed := some (List.replicate 64 ⟨0, some 0⟩) }
    (headPlane off 0 = some 0 ∧ available off 0 = false)
      ∧ (available bound 0 = true ∧ storedLine bound 0 ⟨5, 0⟩ = none)
      ∧ (storedLine loaded 0 ⟨5, 0⟩ = some line0 ∧ (lineShare loaded 0 0 line0).isSome = true)
      ∧ (lineShare loaded 0 0 line0).map (fun x => decide (∃ l ∈ x, l ≠ 0)) = some true
      ∧ (lineShare loaded 0 0 blank).map (fun x => decide (∀ l ∈ x, l = 0)) = some true
      ∧ (pageById bound 5).map Page.unretired = some 2
      ∧ (pageById { bound with pages := bound.pages.map fun p => { p with unretired := 1 } } 5).map Page.unretired
        = some 1
      ∧ ((loaded.pages.map Page.id).Nodup ∧ ripeEntry { bound with hRaw := 1000 * 4096 } 0 0 = some ⟨5, 0⟩)
      ∧ (line0.consumers ≤ 1 ∧ (⟨5, 1⟩ : Entry) ≠ ⟨5, 0⟩)
      ∧ storedLine { loaded with lines := put loaded.lines 0 [{ line0 with consumers := 2 }] } 0 ⟨5, 0⟩
        = some { line0 with consumers := 2 } := by decide +kernel

/-- A row FIRING, one IDLE and none; a FULL buffer at the last position within the late limit and the first beyond. -/
theorem witness_WindowEndFreesTheRow :
    let f : FireFrame := ⟨0, 0, 5, 0, fullBank.recs⟩
    let s : State := { running with rows := put running.rows 0 [⟨.empty, .firing 93 f⟩] }
    rowAt s 0 0 = some ⟨.empty, .firing 93 f⟩ ∧ s.pages = []
      ∧ (rowAt loaded 0 0 = some ⟨.full ⟨5, 0⟩ 0, .idle⟩ ∧ dueOf loaded 0 0 ⟨5, 0⟩ = some 1000
        ∧ 1016 - 1000 ≤ loaded.motionCfg.lateLimit ∧ loaded.motionCfg.lateLimit < 1017 - 1000)
      ∧ (rowAt running 0 0 = some ⟨.empty, .idle⟩ ∧ rowAt running 0 1 = none) := by decide +kernel

/-- Banks 0 (active and complete) and 1 at the ends of the ranges, and bank 2. -/
theorem witness_WaveRequestsAreCheckedInOrder :
    (∀ c b, TakesControl (onRun c b) c 7#16 b running ∧ (onRun c b).engine = .run)
      ∧ (running.activeBank = 0 ∧ (bankAt running 0).complete = true ∧ (bankAt running 1).complete = false)
      ∧ (look (bankAt running 1).recs 2 none = none
        ∧ look (bankAt { running with banks := put running.banks 1 ⟨0, #v[none, none, some ⟨63, 63, 1⟩]⟩ } 1).recs 2 none
          ≠ none)
      ∧ (∃ p ∈ bound.pages, p.pstate ≠ .queued) ∧ ¬ ∃ p ∈ waiting.pages, p.pstate ≠ .queued :=
  ⟨onRun_taken, by decide +kernel, by decide +kernel, by decide, by decide⟩

theorem witness_DiscardedAnswers :
    let t : Transfer := ⟨0, .load 0 ⟨5, 0⟩ [1], .waiting 20⟩
    ready.engine = .setup ∧ (look running.lanes 0 ⟨.off, 0⟩).function ≠ .ret
      ∧ (transferOf running 0 = none ∧ look running.lanes 1 ⟨.off, 0⟩ = ⟨.ret, 0⟩)
      ∧ (transferOf (sendingAs (.waiting 20)) 0 = some t ∧ 255#8 ≠ t.seq)
      ∧ answerBits 0xA5 255 1 = 0xA5#8 ++ 255#8 ++ 1#8
        ++ laneCrc8 (msbBits 8 (0xA5#8).toNat ++ msbBits 8 (255#8).toNat ++ msbBits 8 (1#8).toNat) := by
  decide +kernel

theorem witness_SendingEndsInWaiting :
    look (sendingAs (.sending 200)).loaders 0 none = some ⟨1, some ⟨0, .load 0 ⟨5, 0⟩ [1], .sending 200⟩⟩
      ∧ look (sendingAs (.sending 200)).heads 0 none = some head0
      ∧ transferOf running 0 = none ∧ 0 < 1 ∧ 2 ≤ 2
      ∧ (255 < 256 ∧ (⟨65535, 16777215⟩ : Entry).page < 65536 ∧ (⟨65535, 16777215⟩ : Entry).line < 16777216)
      ∧ ([3, 0] : List Level)[1]? = some 0 := by decide +kernel

/-- Answers that fail a transfer of sequence 0: a NAK, another kind, a bad check, and a code that is neither. -/
theorem failing_answers : ∀ kind ∈ [0x01#8, 0x03#8], answerFails 0 kind (answerBits 0x5A 0 kind)
    ∧ answerFails 0 kind (answerBits 0xA5 0 0x02) ∧ answerFails 0 kind (answerBits 0xA5 0 kind + 1)
    ∧ answerFails 0 kind (answerBits 0x00 0 kind) := by unfold answerFails; decide +kernel

/-- Counters 0, 247, 248 and 255, the ends of a head's counter in service and of the failure that takes it OFFLINE; a
buffer LOADING, unretired and spent; and an idle loader with an entry to choose, with none, and a busy one. -/
theorem witness_LoadEndsCountTowardHealth :
    (∀ k ∈ [(⟨.active, 0, 0⟩ : Health), ⟨.degraded, 247, 0⟩, ⟨.degraded, 248, 0⟩, ⟨.degraded, 255, 0⟩],
      let s : State := { sendingAs (.waiting 20) with health := put running.health 0 (some k) }
      s.engine = .run ∧ look s.lanes 1 ⟨.off, 0⟩ = ⟨.ret, 0⟩ ∧ look s.links 0 none = some ⟨[0], 1⟩
        ∧ look s.loaders 0 none = some ⟨1, some ⟨0, .load 0 ⟨5, 0⟩ [1], .waiting 20⟩⟩
        ∧ look s.health 0 none = some k ∧ k.state = healthBand k.counter ∧ k.counter ≤ 255)
      ∧ (∀ k, countersInv { sendingAs (.waiting 20) with health := put running.health 0 (some k) })
      ∧ answerFails 0 0x01#8 (answerBits 0x5A 0 1)
      ∧ (∀ b, rowAt { sendingAs (.waiting 20) with rows := put running.rows 0 [⟨.loading ⟨5, 0⟩ b, .idle⟩] } 0 0
        = some ⟨.loading ⟨5, 0⟩ b, .idle⟩)
      ∧ (let s : State := { bound with lines := put bound.lines 0 [line0] }
        look s.loaders 0 none = some ⟨0, none⟩ ∧ available s 0 = true ∧ rowAt s 0 0 = some ⟨.empty, .idle⟩
          ∧ nextEntry s 0 0 = some ⟨5, 0⟩ ∧ dueOf s 0 0 ⟨5, 0⟩ = some 1000 ∧ headPlane s 0 = some 0
          ∧ storedLine s 0 ⟨5, 0⟩ = some line0 ∧ (lineShare s 0 0 line0).map (fun x => decide (∃ l ∈ x, l ≠ 0)) = some true
          ∧ look s.links 0 none = some ⟨[0], 1⟩ ∧ look s.heads 0 none = some head0)
      ∧ (available (healthy ⟨.offline, 256, 0⟩) 0 = false ∧ look running.loaders 0 none = some ⟨0, none⟩)
      ∧ ((transferOf (sendingAs (.waiting 20)) 0).isSome = true ∧ rowAt loaded 0 0 = some ⟨.full ⟨5, 0⟩ 0, .idle⟩) :=
  ⟨by decide +kernel, fun _ => counters_reset _ rfl rfl rfl rfl rfl, (failing_answers 0x01#8 (by decide)).1,
    fun b => by cases b <;> decide +kernel, by decide +kernel, by decide +kernel, by decide +kernel⟩

/-- SETUP, head numbers 24 and 23, a head in service, and an OFFLINE head. -/
theorem witness_HeadRestoreStartsAProbeRun :
    let off : State := healthy ⟨.offline, 256, 0⟩
    (∀ h, (TakesControl (onRun 0x60 (leBytes 1 h)) 0x60 7#16 (leBytes 1 h) running
        ∧ (onRun 0x60 (leBytes 1 h)).engine = .run)
      ∧ (TakesControl (onSetup 0x60 (leBytes 1 h)) 0x60 7#16 (leBytes 1 h) ready
        ∧ (onSetup 0x60 (leBytes 1 h)).engine = .setup))
      ∧ (look running.heads 23 none = none ∧ look running.health 0 none = some ⟨.active, 0, 0⟩)
      ∧ (TakesControl (held 0x60 (leBytes 1 0) off) 0x60 7#16 (leBytes 1 0) off
        ∧ look off.health 0 none = some ⟨.offline, 256, 0⟩ ∧ look off.links 0 none = some ⟨[0], 1⟩
        ∧ look off.loaders 0 none = some ⟨0, none⟩) :=
  ⟨fun _ => ⟨onRun_taken _ _, onSetup_taken _ _⟩, by decide +kernel, held_taken _ _ _ rfl rfl rfl, by decide +kernel⟩

/-- The fifteenth and the sixteenth answer, and one that fails. -/
theorem witness_ProbeRunNeedsSixteenAnswers :
    answerFails 8 0x03#8 (answerBits 0x5A 8 3) ∧ ∀ n ∈ [14, 15], (probing n).engine = .run ∧ look (probing n).lanes 1 ⟨.off, 0⟩ = ⟨.ret, 0⟩
      ∧ look (probing n).links 0 none = some ⟨[0], 1⟩ ∧ look (probing n).heads 0 none = some head0
      ∧ look (probing n).loaders 0 none = some ⟨9, some ⟨8, .probe n, .waiting 20⟩⟩
      ∧ look (probing n).health 0 none = some ⟨.probing, 256, n⟩ := by
  unfold answerFails; decide +kernel

/-! The invariants hold of a state in RUN with a page BOUND, a line stored and a buffer FULL, from which a cue edge
is a next state. -/

def busy : State := { loaded with pending := [.cueEdge] }

theorem witness_SlotsNeverOverflow : slotsInv busy ∧ ∃ t, Machine.step busy = .next t := by
  refine ⟨⟨by decide, by decide, by decide, by decide, ?_, ?_⟩, _, rfl⟩ <;> intro f h <;> cases h

theorem witness_HighWaterNeverFalls :
    positionInv busy ∧ (∃ t, Machine.step busy = .next t) ∧ ∃ t, exec .cueEdge busy = .next t :=
  ⟨by unfold positionInv; decide, ⟨_, rfl⟩, ⟨_, rfl⟩⟩

theorem witness_HealthFollowsTheCounter : healthInv busy ∧ ∃ t, Machine.step busy = .next t := by
  refine ⟨fun h k hk => ?_, _, rfl⟩
  have small : ∀ h, h < 24 → look busy.health h none = if h = 0 then some ⟨.active, 0, 0⟩ else none := by
    decide +kernel
  by_cases lt : h < 24
  · rw [small h lt] at hk
    split at hk
    · cases hk; decide
    · cases hk
  · simp [look, Nat.not_lt.mp lt] at hk

theorem witness_ActiveBankCompleteInRun : runBankInv busy ∧ ∃ t, Machine.step busy = .next t :=
  ⟨fun _ => by decide +kernel, _, rfl⟩

theorem witness_FlywheelIsNeverBehind :
    let s : State := { busy with lock := .locked, predicted := 100, hRaw := 100 * 4096 }
    flywheelInv s ∧ s.engine = .run ∧ s.lock = .locked ∧ ∃ t, Machine.step s = .next t :=
  ⟨fun _ _ => by decide, rfl, rfl, _, rfl⟩

theorem witness_CountersSaturate : countersInv busy ∧ ∃ t, Machine.step busy = .next t :=
  ⟨counters_reset _ rfl rfl rfl rfl rfl, _, rfl⟩

theorem witness_NozzleMapOnlyWorsens :
    nozzlesWf busy ∧ (∃ t, Machine.step busy = .next t) ∧ ∃ t, exec .cueEdge busy = .next t :=
  ⟨nozzles_reset _ rfl, ⟨_, rfl⟩, ⟨_, rfl⟩⟩

theorem witness_ConfigurationIsFixedInRun :
    busy.engine = .run ∧ (∃ t, exec .storingEnd busy = .next t ∧ t.engine = .run) :=
  ⟨rfl, _, rfl, rfl⟩

theorem witness_EveryEntryIsAccountedFor : queueInv busy ∧ entriesInv busy ∧ ∃ t, Machine.step busy = .next t := by
  refine ⟨⟨by decide, by decide, by decide, by decide, ?_⟩, ⟨?_, ?_⟩, _, rfl⟩
  · intro p h
    have none : busy.pages.find? (fun q => q.pstate = .queued) = .none := by decide
    rw [none] at h; cases h
  · decide +kernel
  · intro h r row e hr he
    have small : ∀ h, h < 24 → rowsOf busy h = if h = 0 then [⟨.full ⟨5, 0⟩ 0#8, .idle⟩] else [] := by decide +kernel
    by_cases lt : h < 24
    · unfold rowAt at hr
      rw [small h lt] at hr
      split at hr
      · subst h
        match r, hr with
        | 0, hr => cases hr; cases he; exact ⟨_, rfl, by decide, by decide +kernel, by decide⟩
        | r + 1, hr => cases hr
      · cases hr
    · simp [rowAt, rowsOf, look, Nat.not_lt.mp lt] at hr

theorem witness_DecisionAndRetirementAtDue_nextEntry :
    queueInv busy ∧ entriesInv busy ∧ rowAt busy 0 0 = some ⟨.full ⟨5, 0⟩ 0, .idle⟩ ∧ rowAt busy 0 1 = none
      ∧ nextEntry busy 0 0 = some ⟨5, 1⟩ :=
  ⟨witness_EveryEntryIsAccountedFor.1, witness_EveryEntryIsAccountedFor.2.1, by decide +kernel⟩

end Sys2Proof.Tests
end

