-- ==== Sys2Proof/Proofs/Position.lean ====
section
/-! SUPPORT. What every command makes of P_raw and H_raw: only edges of the substrate and the reset occasions move them,
and an edge never takes H back or P past it (R8 to R10). -/

namespace Sys2Proof.Machine

/-! ### Leaving the position alone -/

/-- P_raw and H_raw stand. -/
def AtPlace (s t : State) : Prop := t.pRaw = s.pRaw ∧ t.hRaw = s.hRaw

theorem TrackerFrame.atPlace {s t : State} (a : TrackerFrame s t) : AtPlace s t := ⟨a.pRaw, a.hRaw⟩

theorem atPlace_closed : TrackClosed AtPlace where
  refl _ := ⟨rfl, rfl⟩
  trans a b := ⟨b.1.trans a.1, b.2.trans a.2⟩
  raise e s := (trackerFrame_closed.raise e s).atPlace
  planeCtr _ _ _ _ _ := ⟨rfl, rfl⟩
  bumpHead _ _ _ _ := ⟨rfl, rfl⟩
  rows _ _ := ⟨rfl, rfl⟩
  report _ _ _ _ _ _ _ _ := ⟨rfl, rfl⟩
  dropPage _ _ := ⟨rfl, rfl⟩
  pages _ _ _ _ := ⟨rfl, rfl⟩
  lines _ _ _ _ := ⟨rfl, rfl⟩
  loaders _ _ := ⟨rfl, rfl⟩
  sched _ _ := ⟨rfl, rfl⟩
  bumpMotion _ _ _ := ⟨rfl, rfl⟩
  tracker _ _ _ _ _ _ := ⟨rfl, rfl⟩

namespace AtPlace

theorem refl (s : State) : AtPlace s s := ⟨rfl, rfl⟩

theorem trans {s t u : State} (a : AtPlace s t) (b : AtPlace t u) : AtPlace s u := atPlace_closed.trans a b

/-! The Link Port. -/

theorem takeNext (s : State) : AtPlace s (takeNext s) := ⟨by simp, by simp⟩

theorem refuseArrival (f : HostFrame) (st : Status) (c : LinkCtr) (s : State) :
    AtPlace s (refuseArrival f st c s) := RowClosed.ite ⟨rfl, rfl⟩ ⟨rfl, rfl⟩

theorem acceptFrame (f : HostFrame) (s : State) : AtPlace s (acceptFrame f s) := by
  unfold Machine.acceptFrame
  split
  · exact RowClosed.ite ⟨by simp, by simp⟩ (refuseArrival ..)
  · exact RowClosed.ite ⟨by simp, by simp⟩ (refuseArrival ..)

theorem frameArrived (covered check : List Byte) (s : State) : AtPlace s (frameArrived covered check s) := by
  unfold Machine.frameArrived
  refine RowClosed.ite ⟨rfl, rfl⟩ ?_
  dsimp only
  split
  · exact ⟨rfl, rfl⟩
  · exact trans ⟨rfl, rfl⟩ (acceptFrame _ { s with rx := .expecting })

theorem huntByte (skipped sync1 : Bool) (b : Byte) (s : State) : AtPlace s (huntByte skipped sync1 b s) := by
  unfold Machine.huntByte
  exact RowClosed.ite (RowClosed.ite ⟨rfl, rfl⟩ ⟨rfl, rfl⟩) (RowClosed.ite ⟨rfl, rfl⟩ ⟨rfl, rfl⟩)

theorem rxByte (b : Byte) (s : State) : AtPlace s (rxByte b s) := by
  unfold Machine.rxByte
  split
  case h_1 => exact huntByte ..
  case h_2 => exact RowClosed.ite ⟨rfl, rfl⟩ (huntByte ..)
  case h_3 => exact RowClosed.ite ⟨rfl, rfl⟩ (huntByte ..)
  case h_4 => exact RowClosed.ite ⟨rfl, rfl⟩ (RowClosed.ite ⟨rfl, rfl⟩ ⟨rfl, rfl⟩)
  case h_5 => exact RowClosed.ite (frameArrived ..) ⟨rfl, rfl⟩

theorem finishSending (s : State) : AtPlace s (finishSending s) := by
  unfold Machine.finishSending
  split <;> exact ⟨rfl, rfl⟩

theorem beginSending (s : State) : AtPlace s (beginSending s) := by
  unfold Machine.beginSending
  refine RowClosed.ite ⟨rfl, rfl⟩ ?_
  split <;> exact ⟨rfl, rfl⟩

/-! The request handler: a row whose rule leaves the position alone does so as a whole. -/

theorem handleRequest {q : Req} {act : HostFrame → State → State} (keeps : ∀ f s, AtPlace s (act f s)) (s : State) :
    AtPlace s (handleRequest q act s) := by
  rcases handleRequest_cases q act s with h | ⟨f, -, -, ⟨-, h⟩ | ⟨-, -, h⟩ | ⟨-, -, h⟩⟩ <;> rw [h]
  · exact refl s
  · exact trans ⟨rfl, rfl⟩ (takeNext _)
  · exact trans ⟨rfl, rfl⟩ (takeNext _)
  · exact trans (trans ⟨rfl, rfl⟩ (keeps f { s with handler := .free })) (takeNext _)

theorem statsRead (f : HostFrame) (s : State) : AtPlace s (statsRead f s) := by
  unfold Machine.statsRead
  split
  · exact ⟨rfl, rfl⟩
  · refine trans (t := if _ then clearGroup _ s else s) (RowClosed.ite ?_ ⟨rfl, rfl⟩) ⟨rfl, rfl⟩
    unfold clearGroup
    split <;> exact ⟨rfl, rfl⟩

theorem setPlaneSet (f : HostFrame) (s : State) : AtPlace s (setPlaneSet f s) := by
  unfold Machine.setPlaneSet; split <;> exact ⟨rfl, rfl⟩

theorem setPlaneRemove (f : HostFrame) (s : State) : AtPlace s (setPlaneRemove f s) := by
  unfold Machine.setPlaneRemove; split <;> exact ⟨rfl, rfl⟩

theorem setHeadSet (f : HostFrame) (s : State) : AtPlace s (setHeadSet f s) := by
  unfold Machine.setHeadSet; split <;> exact ⟨rfl, rfl⟩

theorem setHeadRemove (f : HostFrame) (s : State) : AtPlace s (setHeadRemove f s) := by
  unfold Machine.setHeadRemove; split <;> exact ⟨rfl, rfl⟩

theorem setLane (f : HostFrame) (s : State) : AtPlace s (setLane f s) := by
  unfold Machine.setLane; split <;> exact ⟨rfl, rfl⟩

theorem setMotion (f : HostFrame) (s : State) : AtPlace s (setMotion f s) := by
  unfold Machine.setMotion; split <;> exact ⟨rfl, rfl⟩

theorem setCue (f : HostFrame) (s : State) : AtPlace s (setCue f s) := by
  unfold Machine.setCue; split <;> exact ⟨rfl, rfl⟩

theorem engineStop (f : HostFrame) (s : State) : AtPlace s (engineStop f s) := RowClosed.ite ⟨rfl, rfl⟩ ⟨rfl, rfl⟩

theorem engineHalt (f : HostFrame) (s : State) : AtPlace s (engineHalt f s) := by
  have dropped : AtPlace s (s.pages.foldl haltPage s) := atPlace_closed.foldl atPlace_closed.haltPage s.pages s
  exact ⟨by simpa [Machine.engineHalt] using dropped.1, by simpa [Machine.engineHalt] using dropped.2⟩

theorem pageOpen (f : HostFrame) (s : State) : AtPlace s (pageOpen f s) := by
  unfold Machine.pageOpen
  split
  · exact ⟨rfl, rfl⟩
  · exact RowClosed.ite ⟨rfl, rfl⟩ (RowClosed.ite ⟨rfl, rfl⟩
      (trans (trans (atPlace_closed.pages ..) (atPlace_closed.bindFollows ..)) ⟨rfl, rfl⟩))

theorem pageCancel (f : HostFrame) (s : State) : AtPlace s (pageCancel f s) := by
  unfold Machine.pageCancel
  split
  · exact ⟨rfl, rfl⟩
  · exact RowClosed.ite (trans (atPlace_closed.cancelQueued ..) ⟨rfl, rfl⟩)
      (trans (atPlace_closed.cancelBound ..) ⟨rfl, rfl⟩)

theorem markAll (h : Nat) (pairs : List (Nat × NozzleStatus)) (s : State) : AtPlace s (markAll h pairs s).1 := by
  induction pairs generalizing s with
  | nil => exact refl s
  | cons pair rest ih => exact trans ⟨rfl, rfl⟩ (ih (markNozzle h pair s))

theorem nozzleMark (f : HostFrame) (s : State) : AtPlace s (nozzleMark f s) := by
  unfold Machine.nozzleMark
  split
  · exact trans (markAll ..) ⟨rfl, rfl⟩
  · exact ⟨rfl, rfl⟩

theorem nozzleClear (f : HostFrame) (s : State) : AtPlace s (nozzleClear f s) := by
  unfold Machine.nozzleClear; split <;> exact ⟨rfl, rfl⟩

theorem waveErase (f : HostFrame) (s : State) : AtPlace s (waveErase f s) := by
  unfold Machine.waveErase
  split
  · exact ⟨rfl, rfl⟩
  · exact RowClosed.ite ⟨rfl, rfl⟩ ⟨rfl, rfl⟩

theorem waveLoad (f : HostFrame) (s : State) : AtPlace s (waveLoad f s) := by
  unfold Machine.waveLoad
  split
  · exact ⟨rfl, rfl⟩
  · exact RowClosed.ite ⟨rfl, rfl⟩ (RowClosed.ite ⟨rfl, rfl⟩ ⟨rfl, rfl⟩)

theorem waveSelect (f : HostFrame) (s : State) : AtPlace s (waveSelect f s) := by
  unfold Machine.waveSelect
  split
  · exact ⟨rfl, rfl⟩
  · exact RowClosed.ite ⟨rfl, rfl⟩ (RowClosed.ite ⟨rfl, rfl⟩ ⟨rfl, rfl⟩)

theorem changeHealth (h : Nat) (old new : Health) (s : State) : AtPlace s (changeHealth h old new s) :=
  RowClosed.ite ⟨rfl, rfl⟩ (trans ⟨rfl, rfl⟩ (atPlace_closed.raise _ (setHealth h new s)))

theorem headRestore (f : HostFrame) (s : State) : AtPlace s (headRestore f s) := by
  unfold Machine.headRestore
  dsimp only
  split
  · exact RowClosed.ite (trans (trans (changeHealth ..) (atPlace_closed.beginProbe ..)) ⟨rfl, rfl⟩) ⟨rfl, rfl⟩
  · exact ⟨rfl, rfl⟩

theorem band (f : HostFrame) (s : State) : AtPlace s (band f s) := by
  unfold Machine.band
  dsimp only
  split <;> exact ⟨rfl, rfl⟩

/-! The ends of storings and transfers. -/

theorem joinLines (op : Storing) (joined : List StoredLine) (s : State) : AtPlace s (joinLines op joined s) := by
  unfold Machine.joinLines
  exact trans (trans ⟨rfl, rfl⟩ (atPlace_closed.advancePointer op (bumpPlane op.plane .discardedLate _
    (bumpPlane op.plane .linesStored _ (setLines op.plane _ s))))) ⟨rfl, rfl⟩

theorem storingEnd (s : State) : AtPlace s (storingEnd s) := by
  unfold Machine.storingEnd
  split
  · refine trans ?_ (takeNext _)
    exact trans (trans (trans ⟨rfl, rfl⟩ (joinLines _ _ { s with handler := .free })) (atPlace_closed.settle _))
      ⟨rfl, rfl⟩
  · exact refl s

theorem countHealth (h : Nat) (acked : Bool) (s : State) : AtPlace s (countHealth h acked s) := by
  unfold Machine.countHealth
  split
  · exact changeHealth ..
  · exact refl s

theorem loadAcked (h r : Nat) (seq : BitVec 8) (s : State) : AtPlace s (loadAcked h r seq s) := by
  unfold Machine.loadAcked
  exact trans (trans (trans (trans ⟨rfl, rfl⟩ (atPlace_closed.bufferAcked h r seq (bumpHead h .transfers 1 s)))
    (atPlace_closed.rowTurn ..)) (countHealth ..)) (atPlace_closed.settle _)

theorem loadFailed (h r : Nat) (s : State) : AtPlace s (loadFailed h r s) := by
  unfold Machine.loadFailed
  refine trans ?_ (atPlace_closed.settle _)
  have counted := trans (trans ⟨rfl, rfl⟩
    (atPlace_closed.bufferFailed h r (bumpHead h .failures 1 (bumpHead h .transfers 1 s)))) (countHealth h false _)
  exact RowClosed.ite (trans counted (atPlace_closed.enterOffline ..)) counted

theorem probeAcked (h : Nat) (s : State) : AtPlace s (probeAcked h s) := by
  unfold Machine.probeAcked
  split
  · exact RowClosed.ite (trans (changeHealth ..) (atPlace_closed.settle _))
      (trans ⟨rfl, rfl⟩ (atPlace_closed.beginProbe _ _ (setHealth h _ s)))
  · exact refl s

theorem probeFailed (h : Nat) (s : State) : AtPlace s (probeFailed h s) := by
  unfold Machine.probeFailed
  split
  · exact changeHealth ..
  · exact refl s

theorem endTransfer (h : Nat) (t : Transfer) (acked : Bool) (s : State) : AtPlace s (endTransfer h t acked s) := by
  unfold Machine.endTransfer
  split
  · exact refl s
  · rename_i l _
    have idle : AtPlace s (setLoader h ⟨l.seq, none⟩ s) := ⟨rfl, rfl⟩
    dsimp only
    split
    · exact RowClosed.ite (trans idle (loadAcked ..)) (trans idle (loadFailed ..))
    · have counted : AtPlace s (bumpHead h .probes 1 (setLoader h ⟨l.seq, none⟩ s)) := ⟨rfl, rfl⟩
      exact RowClosed.ite (trans counted (probeAcked ..)) (trans counted (probeFailed ..))

theorem headAnswer (lane : Nat) (bits : BitVec 32) (s : State) : AtPlace s (headAnswer lane bits s) := by
  unfold Machine.headAnswer
  split
  · split
    · dsimp only
      split
      · exact refl s
      · exact endTransfer ..
      · exact endTransfer ..
    · exact refl s
  · exact refl s

theorem ackTimeout (h : Nat) (s : State) : AtPlace s (ackTimeout h s) := by
  unfold Machine.ackTimeout
  split
  · exact endTransfer ..
  · exact refl s

end AtPlace

/-! ### Edges -/

/-- H does not fall, and P stays at or behind it and H within its range if they were (R8, R10). -/
def Advances (s t : State) : Prop := s.hRaw ≤ t.hRaw ∧ (positionInv s → positionInv t)

namespace Advances

theorem trans {s t u : State} (a : Advances s t) (b : Advances t u) : Advances s u :=
  ⟨a.1.trans b.1, b.2 ∘ a.2⟩

end Advances

theorem AtPlace.advances {s t : State} (a : AtPlace s t) : Advances s t := by
  obtain ⟨hp, hh⟩ := a
  refine ⟨hh.ge, fun inv => ?_⟩
  unfold positionInv at *
  rwa [hp, hh]

/-- A move within the range of positions, or back from where P is, keeps P at or behind H. -/
theorem moveTo_advances (p : Nat) (s : State) (within : p ≤ Config.positionMax ∨ p ≤ s.pRaw) :
    Advances s (moveTo p s) := by
  obtain ⟨-, hp, hh, -⟩ := moveTo_frame p s
  refine ⟨hh ▸ Nat.le_max_left .., fun ⟨behind, range⟩ => ?_⟩
  simp only [Config.positionMax] at within
  unfold positionInv
  omega

theorem forwardEdge_advances (s : State) : Advances s (forwardEdge s) :=
  moveTo_advances _ s (.inl (Nat.min_le_right ..))

theorem reverseEdge_advances (s : State) : Advances s (reverseEdge s) :=
  moveTo_advances _ s (.inr (Nat.sub_le ..))

theorem takeEdge_advances (c : EdgeClass) (s : State) : Advances s (takeEdge c s) := by
  cases c with
  | same => exact (AtPlace.refl s).advances
  | forward => exact forwardEdge_advances s
  | reverse => exact reverseEdge_advances s
  | glitch => exact (atPlace_closed.bumpMotion ..).advances

theorem encoderStep_advances (new : EncPair) (s : State) : Advances s (encoderStep new s) := by
  unfold encoderStep
  refine RowClosed.ite (AtPlace.refl s).advances ?_
  dsimp only
  split
  · exact AtPlace.advances ⟨rfl, rfl⟩
  · exact AtPlace.advances ⟨rfl, rfl⟩
  · exact .trans (AtPlace.advances ⟨rfl, rfl⟩) (takeEdge_advances _ { s with encPins := new, decRef := new })

theorem paceStep_advances (s : State) : Advances s (paceStep s) := by
  unfold paceStep
  split
  · exact (AtPlace.refl s).advances
  · exact .trans (AtPlace.advances ⟨rfl, rfl⟩) (forwardEdge_advances { s with pace := .running _ })

theorem stepTogether_advances (together : CueWith) (s : State) : Advances s (stepTogether together s) := by
  cases together with
  | nothing => exact (AtPlace.refl s).advances
  | encoder a b => exact encoderStep_advances ..
  | pace => exact paceStep_advances s

theorem present_advances {s moved : State} (step : Advances s moved) : Advances s (present s moved) :=
  step.trans (present_frame s moved).atPlace.advances

/-! ### Every command -/

/-- Every command but the three reset occasions advances the position or leaves it. -/
theorem exec_advances (c : Instr) (s : State) (notPower : c ≠ .powerOn) (notReset : c ≠ .softReset)
    (notStart : c ≠ .engineStart) : ∃ t, exec c s = .next t ∧ Advances s t := by
  have answered {act : HostFrame → State → State} (q : Req) (keeps : ∀ f s, AtPlace s (act f s)) :
      Advances s (handleRequest q act s) := (AtPlace.handleRequest keeps s).advances
  cases c with
  | powerOn => exact absurd rfl notPower
  | softReset => exact absurd rfl notReset
  | engineStart => exact absurd rfl notStart
  | hostFrameArrival bytes =>
    exact ⟨_, rfl, (atPlace_closed.foldl (fun s b => AtPlace.rxByte b s) bytes s).advances⟩
  | frameSent => exact ⟨_, rfl, ((AtPlace.finishSending s).trans (AtPlace.beginSending _)).advances⟩
  | identify => exact ⟨_, rfl, answered _ fun _ _ => ⟨rfl, rfl⟩⟩
  | statusQuery => exact ⟨_, rfl, answered _ fun _ _ => ⟨rfl, rfl⟩⟩
  | statsRead => exact ⟨_, rfl, answered _ AtPlace.statsRead⟩
  | reset => exact ⟨_, rfl, answered _ fun _ _ => ⟨rfl, rfl⟩⟩
  | setPlaneSet => exact ⟨_, rfl, answered _ AtPlace.setPlaneSet⟩
  | setPlaneRemove => exact ⟨_, rfl, answered _ AtPlace.setPlaneRemove⟩
  | setHeadSet => exact ⟨_, rfl, answered _ AtPlace.setHeadSet⟩
  | setHeadRemove => exact ⟨_, rfl, answered _ AtPlace.setHeadRemove⟩
  | setLane => exact ⟨_, rfl, answered _ AtPlace.setLane⟩
  | setMotion => exact ⟨_, rfl, answered _ AtPlace.setMotion⟩
  | setCue => exact ⟨_, rfl, answered _ AtPlace.setCue⟩
  | engineStop => exact ⟨_, rfl, answered _ AtPlace.engineStop⟩
  | engineHalt => exact ⟨_, rfl, answered _ AtPlace.engineHalt⟩
  | pageOpen => exact ⟨_, rfl, answered _ AtPlace.pageOpen⟩
  | pageCancel => exact ⟨_, rfl, answered _ AtPlace.pageCancel⟩
  | nozzleMark => exact ⟨_, rfl, answered _ AtPlace.nozzleMark⟩
  | nozzleClear => exact ⟨_, rfl, answered _ AtPlace.nozzleClear⟩
  | waveErase => exact ⟨_, rfl, answered _ AtPlace.waveErase⟩
  | waveLoad => exact ⟨_, rfl, answered _ AtPlace.waveLoad⟩
  | waveSelect => exact ⟨_, rfl, answered _ AtPlace.waveSelect⟩
  | headRestore => exact ⟨_, rfl, answered _ AtPlace.headRestore⟩
  | band => exact ⟨_, rfl, answered _ AtPlace.band⟩
  | unknownCode => exact ⟨_, rfl, answered _ fun _ _ => ⟨rfl, rfl⟩⟩
  | storingEnd => exact ⟨_, rfl, (AtPlace.storingEnd s).advances⟩
  | encoderChange a b => exact ⟨_, rfl, present_advances (encoderStep_advances ..)⟩
  | paceExpiry => exact ⟨_, rfl, present_advances (paceStep_advances s)⟩
  | cueEdge =>
    have used : AtPlace s (popCueWith s).2 := ⟨rfl, rfl⟩
    exact ⟨_, rfl, used.advances.trans ((stepTogether_advances ..).trans (cueThenArrival_frame ..).atPlace.advances)⟩
  | sendingEnd h => exact ⟨_, rfl, (atPlace_closed.sendingEnd h s).advances⟩
  | headAnswer lane bits => exact ⟨_, rfl, (AtPlace.headAnswer lane bits s).advances⟩
  | ackTimeout h => exact ⟨_, rfl, (AtPlace.ackTimeout h s).advances⟩
  | windowEnd h r => exact ⟨_, rfl, (atPlace_closed.windowEnd h r s).advances⟩

/-- A start sets both positions to 0 (R3); a refused one leaves them. -/
theorem engineStart_positionInv (f : HostFrame) (s : State) (inv : positionInv s) : positionInv (engineStart f s) := by
  unfold engineStart
  split
  · exact inv
  · exact ⟨Nat.le_refl 0, Nat.zero_le _⟩

/-- Every command keeps P at or behind H and H within its range: the reset occasions set both to 0 or leave them, the
others advance. -/
theorem exec_positionInv (c : Instr) {s t : State} (inv : positionInv s) (run : exec c s = .next t) :
    positionInv t := by
  have atZero : ∀ u : State, u.pRaw = 0 → u.hRaw = 0 → positionInv u := fun u hp hh => by
    unfold positionInv; omega
  by_cases power : c = .powerOn
  · subst power
    obtain rfl := Host.Outcome.next.inj run
    exact atZero _ rfl rfl
  by_cases reset : c = .softReset
  · subst reset
    obtain rfl := Host.Outcome.next.inj run
    split
    · exact atZero _ rfl rfl
    · exact inv
  by_cases start : c = .engineStart
  · subst start
    obtain rfl := Host.Outcome.next.inj run
    rcases handleRequest_cases .engineStart engineStart s with h | ⟨f, -, -, ⟨-, h⟩ | ⟨-, -, h⟩ | ⟨-, -, h⟩⟩ <;> rw [h]
    · exact inv
    · exact (AtPlace.takeNext _).advances.2 inv
    · exact (AtPlace.takeNext _).advances.2 inv
    · exact (AtPlace.takeNext _).advances.2 (engineStart_positionInv f { s with handler := .free } inv)
  · obtain ⟨u, hu, adv⟩ := exec_advances c s power reset start
    obtain rfl := Host.Outcome.next.inj (run.symm.trans hu)
    exact adv.2 inv

/-- Settles O53: every command but the three reset occasions advances the position, and those set it to 0. -/
theorem highWaterNeverFalls : Obligations.HighWaterNeverFalls := by
  unfold Obligations.HighWaterNeverFalls
  refine ⟨fun s t inv run => ?_, fun c s t notPower notReset notStart run => ?_⟩
  · unfold Machine.step at run
    split at run
    · obtain rfl := Host.Outcome.next.inj run
      exact inv
    · rename_i c rest _
      exact exec_positionInv c (s := { s with pending := rest }) inv run
  · obtain ⟨u, hu, adv⟩ := exec_advances c s notPower notReset notStart
    obtain rfl := Host.Outcome.next.inj (run.symm.trans hu)
    exact adv.1

end Sys2Proof.Machine
end

