-- ==== Sys2Proof/Proofs/Edges.lean ====
section
/-! SUPPORT. Edges of the substrate: which changes of the encoder pair are one (R5, R6), where it takes P and H
(R8 to R10) and what the deficit then says (R13). -/

namespace Sys2Proof.Machine

/-! ### Decoding (R5, R6) -/

/-- The changes of the pair that are forward with invert off. -/
def forwardChanges : List (EncPair × EncPair) :=
  [(⟨false, false⟩, ⟨false, true⟩), (⟨false, true⟩, ⟨true, true⟩), (⟨true, true⟩, ⟨true, false⟩),
   (⟨true, false⟩, ⟨false, false⟩)]

/-- The changes of the pair that are reverse with invert off. -/
def reverseChanges : List (EncPair × EncPair) :=
  [(⟨false, true⟩, ⟨false, false⟩), (⟨true, true⟩, ⟨false, true⟩), (⟨true, false⟩, ⟨true, true⟩),
   (⟨false, false⟩, ⟨true, false⟩)]

theorem classify_step (ref new : EncPair) (forward invert : Bool)
    (change : (ref, new) ∈ (if forward = invert then reverseChanges else forwardChanges)) :
    (classify ref new).inverted invert = if forward then .forward else .reverse := by
  have table : ∀ ra rb na nb forward invert : Bool,
      ((⟨ra, rb⟩ : EncPair), (⟨na, nb⟩ : EncPair)) ∈ (if forward = invert then reverseChanges else forwardChanges) →
      (classify ⟨ra, rb⟩ ⟨na, nb⟩).inverted invert = if forward then .forward else .reverse := by decide
  exact table ref.a ref.b new.a new.b forward invert change

theorem classify_glitch (ref new : EncPair) (invert : Bool) (a : ref.a = !new.a) (b : ref.b = !new.b) :
    (classify ref new).inverted invert = .glitch := by
  have table : ∀ na nb invert : Bool, (classify ⟨!na, !nb⟩ ⟨na, nb⟩).inverted invert = .glitch := by decide
  have opposite : ref = ⟨!new.a, !new.b⟩ := by rw [← a, ← b]
  rw [opposite]
  exact table new.a new.b invert

/-! ### The steps of the Motion Unit, up to the presentation of H_int -/

/-- Where an edge takes P (R8, R9). -/
def edgeTarget (forward : Bool) (s : State) : Nat :=
  if forward then min (s.pRaw + s.motionCfg.stepRaw) Config.positionMax else s.pRaw - s.motionCfg.stepRaw

theorem encoderStep_same (s : State) : encoderStep s.encPins s = s := if_pos rfl

theorem encoderStep_setup {s : State} {new : EncPair} (change : new ≠ s.encPins) (setup : s.engine = .setup) :
    encoderStep new s = { s with encPins := new, decRef := new } := by
  simp only [encoderStep, if_neg change, setup]

theorem encoderStep_internal {s : State} {new : EncPair} (change : new ≠ s.encPins) (run : s.engine = .run)
    (internal : s.motionCfg.source = .internal) : encoderStep new s = { s with encPins := new } := by
  simp only [encoderStep, if_neg change, run, internal]

/-- In RUN with source EXTERNAL the change is decoded. -/
theorem encoderStep_decoded {s : State} {new : EncPair} (change : new ≠ s.encPins) (run : s.engine = .run)
    (external : s.motionCfg.source = .external) : encoderStep new s
      = takeEdge ((classify s.decRef new).inverted s.motionCfg.invert) { s with encPins := new, decRef := new } := by
  simp only [encoderStep, if_neg change, run, external]

/-- A change that is a step moves P. -/
theorem encoderStep_step {s : State} {new : EncPair} {forward : Bool} (run : s.engine = .run)
    (external : s.motionCfg.source = .external) (change : new ≠ s.encPins)
    (step : (s.decRef, new) ∈ (if forward = s.motionCfg.invert then reverseChanges else forwardChanges)) :
    encoderStep new s = moveTo (edgeTarget forward s) { s with encPins := new, decRef := new } := by
  rw [encoderStep_decoded change run external, classify_step _ _ _ _ step]
  cases forward <;> rfl

theorem paceStep_running {s : State} {left : Nat} (running : s.pace = .running left) :
    paceStep s = moveTo (edgeTarget true s) { s with pace := .running s.motionCfg.paceInterval } := by
  simp only [paceStep, running]; rfl

/-! ### The deficit test (R13) -/

theorem revCond_self {s : State} {c : RevCond} (same : s.revCond = c) : { s with revCond := c } = s := by
  subst same; rfl

/-- All that the deficit test does. -/
theorem testDeficit_eq (s : State) : testDeficit s =
    if s.motionCfg.reverseLimit < deficit s then
      if s.revCond = .armed then
        offered (.reverseLimit s.pInt s.hInt s.motionCfg.reverseLimit) { s with revCond := .raised }
      else s
    else { s with revCond := .armed } := by
  unfold testDeficit
  by_cases above : s.motionCfg.reverseLimit < deficit s
  · cases cond : s.revCond with
    | armed => simp only [above, if_true, raise_offered]
    | raised => simp only [above, Nat.not_le.mpr above, if_true, if_false, reduceCtorEq]
  · cases cond : s.revCond with
    | armed => simp only [above, if_false, revCond_self cond]
    | raised => simp only [above, Nat.not_lt.mp above, if_true, if_false]

/-- A move of P that does not pass H leaves H, and the deficit is tested. -/
theorem moveTo_behind {p : Nat} {s : State} (behind : p ≤ s.hRaw) : moveTo p s =
    if s.motionCfg.reverseLimit < s.hRaw / 4096 - p / 4096 then
      if s.revCond = .armed then
        offered (.reverseLimit (p / 4096) (s.hRaw / 4096) s.motionCfg.reverseLimit)
          { s with pRaw := p, revCond := .raised }
      else { s with pRaw := p }
    else { s with pRaw := p, revCond := .armed } := by
  rw [moveTo, Nat.max_eq_left behind, testDeficit_eq]
  rfl

/-- A move of P to H or past it leaves no deficit. -/
theorem moveTo_armed {p : Nat} {s : State} (ahead : s.hRaw ≤ p) : (moveTo p s).revCond = .armed := by
  rw [moveTo, Nat.max_eq_right ahead, testDeficit_eq, if_neg]
  simp [deficit, State.hInt, State.pInt]

/-! ### With the presentation of H_int (R11) -/

/-- An edge that leaves H presents nothing. -/
theorem present_still {s moved : State} (still : moved.hRaw = s.hRaw) : present s moved = moved := by
  simp [present, State.hInt, still]

theorem present_moveTo_behind {p : Nat} (s u : State) (same : u.hRaw = s.hRaw) (behind : p ≤ u.hRaw) :
    present s (moveTo p u) = moveTo p u := by
  obtain ⟨-, -, high, -⟩ := moveTo_frame p u
  exact present_still (by rw [high, Nat.max_eq_left behind, same])

theorem present_moveTo_armed {p : Nat} {s u : State} (ahead : u.hRaw ≤ p) :
    (present s (moveTo p u)).revCond = .armed :=
  (present_frame s (moveTo p u)).revCond.trans (moveTo_armed ahead)

/-- Where an edge takes P and H, and what it leaves alone. -/
theorem present_moveTo_frame (p : Nat) (s u : State) :
    CoreFrame u (present s (moveTo p u)) ∧ (present s (moveTo p u)).pRaw = p
      ∧ (present s (moveTo p u)).hRaw = max u.hRaw p ∧ (present s (moveTo p u)).decRef = u.decRef
      ∧ (present s (moveTo p u)).encPins = u.encPins ∧ (present s (moveTo p u)).pace = u.pace := by
  obtain ⟨core, hp, hh, href, hpins, hpace⟩ := moveTo_frame p u
  have shown := present_frame s (moveTo p u)
  exact ⟨core.trans shown.core, shown.pRaw.trans hp, shown.hRaw.trans hh, shown.decRef.trans href,
    shown.encPins.trans hpins, shown.pace.trans hpace⟩

/-! ### The statements -/

/-- Settles O32: the decoded change is one move of P, and the presentation of H_int leaves what it set. -/
theorem encoderEdgeMovesThePosition : Obligations.EncoderEdgeMovesThePosition := by
  intro s a b forward run external change step
  refine ⟨_, rfl, ?_⟩
  rw [encoderStep_step run external change step]
  obtain ⟨core, hp, hh, href, hpins, hpace⟩ :=
    present_moveTo_frame (edgeTarget forward s) s { s with encPins := ⟨a, b⟩, decRef := ⟨a, b⟩ }
  have frame : CoreFrame s { s with encPins := ⟨a, b⟩, decRef := ⟨a, b⟩ } := by constructor <;> rfl
  exact ⟨hp, by rw [hh, hp], href, hpins, hpace, frame.trans core⟩

/-- Settles O35: the expiry is one move of P forward, with the timer started again. -/
theorem paceExpiryIsAForwardEdge : Obligations.PaceExpiryIsAForwardEdge := by
  refine ⟨fun s left running => ⟨_, rfl, ?_⟩, fun s stopped => ?_⟩
  · rw [paceStep_running running]
    obtain ⟨core, hp, hh, href, hpins, hpace⟩ :=
      present_moveTo_frame (edgeTarget true s) s { s with pace := .running s.motionCfg.paceInterval }
    have frame : CoreFrame s { s with pace := .running s.motionCfg.paceInterval } := by constructor <;> rfl
    exact ⟨hp, by rw [hh, hp], hpace, href, hpins, frame.trans core⟩
  · have still : paceStep s = s := by simp only [paceStep, stopped]
    simp only [exec, execPaceExpiry, still, present_still]

/-- Settles O33: each of these changes leaves H, so that nothing is presented, and sets what its case names. -/
theorem encoderChangesThatAreNoSteps : Obligations.EncoderChangesThatAreNoSteps := by
  intro s a b
  simp only [exec, execEncoderChange]
  refine ⟨fun same => ?_, fun change setup => ?_, fun change run internal => ?_,
    fun change run external oppositeA oppositeB => ?_⟩
  · rw [same, encoderStep_same, present_still rfl]
  · rw [encoderStep_setup change setup]
    exact congrArg _ (present_still rfl)
  · rw [encoderStep_internal change run internal]
    exact congrArg _ (present_still rfl)
  · rw [encoderStep_decoded change run external, classify_glitch s.decRef ⟨a, b⟩ _ oppositeA oppositeB]
    exact congrArg _ (present_still rfl)

/-- Settles O34: an edge that does not pass H is `moveTo_behind`, one that reaches H is `moveTo_armed`. -/
theorem reverseEdgeTestsTheDeficit : Obligations.ReverseEdgeTestsTheDeficit := by
  refine ⟨fun s a b forward p run external change step target => ?_, fun s left p running target => ?_,
    fun s p moved full armed above => ?_⟩
  · have reached : p = edgeTarget forward s := target
    simp only [exec, execEncoderChange, encoderStep_step run external change step, ← reached]
    refine ⟨fun behind => congrArg _ ?_, fun ahead => ⟨_, rfl, present_moveTo_armed ahead⟩⟩
    exact (present_moveTo_behind s { s with encPins := ⟨a, b⟩, decRef := ⟨a, b⟩ } rfl behind).trans
      (moveTo_behind behind)
  · have reached : p = edgeTarget true s := target
    simp only [exec, execPaceExpiry, paceStep_running running, ← reached]
    refine ⟨fun behind => congrArg _ ?_, fun ahead => ⟨_, rfl, present_moveTo_armed ahead⟩⟩
    exact (present_moveTo_behind s { s with pace := .running s.motionCfg.paceInterval } rfl behind).trans
      (moveTo_behind behind)
  · dsimp only
    rw [if_pos above, if_pos armed]
    exact if_neg (Nat.not_lt.mpr full)

end Sys2Proof.Machine
end

