-- ==== Sys2Proof/Proofs/Configuration.lean ====
section
/-! SUPPORT. The power-on values of the part (R32) and the motion configuration's request (R2). -/

namespace Sys2Proof.Machine

theorem look_replicate_lt {α : Type} {n i : Nat} (x d : α) (lt : i < n) : look (Vector.replicate n x) i d = x := by
  simp [look, lt]

theorem powerOn_planeGroup (s : State) (p : Nat) : planeGroup (powerOn s) p = Vector.replicate 7 0 := look_replicate ..

theorem powerOn_headGroup (s : State) (h : Nat) : headGroup (powerOn s) h = Vector.replicate 11 0 := look_replicate ..

theorem powerOn_nozzleStatus (s : State) (h i : Nat) : nozzleStatus (powerOn s) h i = .good := by
  have map : look (powerOn s).nozzles h [] = [] := look_replicate ..
  simp [nozzleStatus, map]

/-- Settles O2: every table of the power-on state is one value throughout. -/
theorem powerOnSetsEveryBlock : Obligations.PowerOnSetsEveryBlock := by
  intro s
  refine ⟨powerOn s, rfl, rfl, rfl, rfl, rfl, rfl, rfl, rfl, rfl, rfl, rfl, rfl, rfl, rfl, rfl, rfl, rfl, rfl, rfl, rfl,
    rfl, rfl, rfl, rfl, rfl, rfl, rfl, rfl, rfl, rfl, fun p _ => ?_, fun h _ => ?_,
    fun l lt => look_replicate_lt _ _ lt, fun b _ => look_replicate .., rfl, fun i lt => look_replicate_lt _ _ lt,
    fun i lt => look_replicate_lt _ _ lt⟩
  · refine ⟨look_replicate .., look_replicate .., look_replicate .., fun i _ => ?_⟩
    rw [powerOn_planeGroup, look_replicate]
  · refine ⟨look_replicate .., look_replicate .., look_replicate .., look_replicate .., fun i _ => ?_, fun i _ => ?_⟩
    · exact powerOn_nozzleStatus s h i
    · rw [powerOn_headGroup, look_replicate]

/-! ### Frames that the handler has taken -/

/-- A row refused for the engine state (R33). -/
theorem handleRequest_wrongState {s s1 : State} {code : Byte} {tag : BitVec 16} {body : List Byte} {q : Req}
    {act : HostFrame → State → State} (taken : TakesControl s code tag body s1)
    (row : reqOf ⟨.control, code, tag, body⟩ = q) (refused : q.handledIn s.engine = false) :
    handleRequest q act s = replied .control code tag .wrongState [] s1 := by
  obtain ⟨holds, rfl⟩ := taken
  rw [handleRequest_taken holds row, handleFrame, if_pos (by exact refused), takeNext_answer]

/-- A row that comes to its owning rule (R158). -/
theorem handleRequest_ruled {s s1 : State} {code : Byte} {tag : BitVec 16} {body : List Byte} {q : Req}
    {act : HostFrame → State → State} (taken : TakesControl s code tag body s1)
    (row : reqOf ⟨.control, code, tag, body⟩ = q) (handled : q.handledIn s.engine = true)
    (length : q.lengthOk body = true) : handleRequest q act s
      = takeNext (act ⟨.control, code, tag, body⟩ { s with handler := .free }) := by
  rw [handleRequest_taken taken.1 row, handleFrame, if_neg (by simp [handled]), if_neg (by simp [length])]

/-! ### SET_MOTION (R2) -/

/-- The body of SET_MOTION (R166). -/
def motionFields (source invert int frac pace late reverse : Nat) : List Byte :=
  leBytes 1 source ++ leBytes 1 invert ++ leBytes 2 int ++ leBytes 2 frac ++ leBytes 2 pace ++ leBytes 2 late
    ++ leBytes 4 reverse

/-- The values that R2 accepts. -/
def motionGood (source invert int frac pace late reverse : Nat) : Prop :=
  source ≤ 1 ∧ invert ≤ 1 ∧ int ≤ 255 ∧ frac ≤ 4095 ∧ 4096 * int + frac ≠ 0 ∧ pace ≠ 0 ∧ late ≤ 1023 ∧ reverse ≤ 1048575

section
variable {source invert int frac pace late reverse : Nat} (b1 : source < 256) (b2 : invert < 256) (b3 : int < 65536)
  (b4 : frac < 65536) (b5 : pace < 65536) (b6 : late < 65536) (b7 : reverse < 4294967296)
include b1 b2 b3 b4 b5 b6 b7

/-- The body read back field by field. -/
theorem motionFields_read :
    let body := motionFields source invert int frac pace late reverse
    byteAt body 0 = source ∧ byteAt body 1 = invert ∧ field body 2 2 = int ∧ field body 4 2 = frac
      ∧ field body 6 2 = pace ∧ field body 8 2 = late ∧ field body 10 4 = reverse := by
  simp [motionFields, byteAt, field_append, field_zero, field_only, Nat.mod_eq_of_lt b1, Nat.mod_eq_of_lt b2,
    Nat.mod_eq_of_lt b3, Nat.mod_eq_of_lt b4, Nat.mod_eq_of_lt b5, Nat.mod_eq_of_lt b6, Nat.mod_eq_of_lt b7]

theorem parseMotion_good (good : motionGood source invert int frac pace late reverse) :
    parseMotion (motionFields source invert int frac pace late reverse)
      = some ⟨if source = 1 then .internal else .external, decide (invert = 1), int, frac, pace, late, reverse⟩ := by
  obtain ⟨f1, f2, f3, f4, f5, f6, f7⟩ := motionFields_read b1 b2 b3 b4 b5 b6 b7
  obtain ⟨src, inv, rest⟩ := good
  have sourceRead : MotionSource.ofCode source = some (if source = 1 then .internal else .external) := by
    rcases Nat.le_one_iff_eq_zero_or_eq_one.mp src with rfl | rfl <;> rfl
  have invertRead : boolOfCode invert = some (decide (invert = 1)) := by
    rcases Nat.le_one_iff_eq_zero_or_eq_one.mp inv with rfl | rfl <;> rfl
  simp only [parseMotion, f1, f2, f3, f4, f5, f6, f7, sourceRead, invertRead, if_pos rest]

theorem parseMotion_bad (bad : ¬ motionGood source invert int frac pace late reverse) :
    parseMotion (motionFields source invert int frac pace late reverse) = none := by
  obtain ⟨f1, f2, f3, f4, f5, f6, f7⟩ := motionFields_read b1 b2 b3 b4 b5 b6 b7
  have sourceCode : ∀ {x}, MotionSource.ofCode source = some x → source ≤ 1 := by
    intro x; unfold MotionSource.ofCode; split <;> simp
  have invertCode : ∀ {x}, boolOfCode invert = some x → invert ≤ 1 := by
    intro x; unfold boolOfCode; split <;> simp
  simp only [parseMotion, f1, f2, f3, f4, f5, f6, f7]
  split
  · rename_i hs hi
    exact if_neg fun rest => bad ⟨sourceCode hs, invertCode hi, rest⟩
  · rfl

end

/-- Settles O18: the body is accepted or refused whole, and in RUN it is not read. -/
theorem setMotionReplacesTheConfiguration : Obligations.SetMotionReplacesTheConfiguration := by
  intro s s1 tag source invert int frac pace late reverse b1 b2 b3 b4 b5 b6 b7 taken
  have ruled (setup : s.engine = .setup) : exec .setMotion s
      = .next (takeNext (setMotion ⟨.control, 0x13#8, tag, motionFields source invert int frac pace late reverse⟩
          { s with handler := .free })) :=
    congrArg Host.Outcome.next (handleRequest_ruled (q := .setMotion) taken rfl
      (by rw [setup]; rfl) (by simp [Req.lengthOk, motionFields]))
  refine ⟨fun setup good => ?_, fun setup bad => ?_,
    fun run => congrArg Host.Outcome.next ?_⟩
  · rw [ruled setup, setMotion, parseMotion_good b1 b2 b3 b4 b5 b6 b7 good]
    obtain ⟨-, rfl⟩ := taken
    exact congrArg _ ((takeNext_answer _ _ _ { s with motionCfg := _ }).trans (by rw [movedOn_eq, movedOn_eq]))
  · rw [ruled setup, setMotion, parseMotion_bad b1 b2 b3 b4 b5 b6 b7 bad]
    obtain ⟨-, rfl⟩ := taken
    exact congrArg _ (takeNext_answer ..)
  · exact handleRequest_wrongState taken rfl (by rw [run]; rfl)

end Sys2Proof.Machine
end

