-- ==== Sys2Proof/Proofs/Flywheel.lean ====
section
/-! SUPPORT. The Cue Tracker's turn at an arrival of H_int (R26, R27), the turn of every party (R11), and a cue edge
that comes together with an arrival (R28). -/

namespace Sys2Proof.Machine

/-! ### Offers -/

/-- What an offer leaves alone of what the flywheel reads. -/
theorem takeOffer_keeps (o : Nat) (k : CueKind) (s : State) :
    (takeOffer o k s).lock = s.lock ∧ (takeOffer o k s).flywheel = s.flywheel
      ∧ (takeOffer o k s).predicted = s.predicted ∧ (takeOffer o k s).cueCfg = s.cueCfg
      ∧ (takeOffer o k s).hRaw = s.hRaw := by
  unfold takeOffer
  split
  · simp
  · rename_i p _
    dsimp only
    split
    · simp
    · have kept : RowFrame s (bindFollows s.pages.length (bindPage p o s)) :=
        (rowFrame_closed.bindPage p o s).trans (rowFrame_closed.bindFollows ..)
      exact ⟨kept.lock, kept.flywheel, kept.predicted, kept.cueCfg, kept.hRaw⟩

theorem takeOffer_noPages {s : State} (empty : s.pages = []) (o : Nat) (k : CueKind) :
    takeOffer o k s = offered (.cueUnused o k) (bumpMotion .unusedCues 1 s) := by
  simp [takeOffer, frontPage, empty, raise_offered]

theorem offered_pages (e : Event) (s : State) : (offered e s).pages = s.pages := by simp [← raise_offered]

/-- An event does not touch the free order. -/
theorem offered_withSched (e : Event) (s : State) (l : List (List SchedAct)) :
    { offered e s with sched := l } = offered e { s with sched := l } := by
  have count : ({ s with sched := l } : State).eventCount = s.eventCount := rfl
  unfold offered
  rw [count]
  split <;> rfl

/-! ### The tracker's turn -/

theorem synthesize_keeps (s : State) : (synthesize s).lock = s.lock ∧ (synthesize s).flywheel = s.flywheel + 1
    ∧ flywheelPoint (synthesize s) = flywheelPoint s + s.cueCfg.pitch ∧ (synthesize s).hInt = s.hInt := by
  obtain ⟨lock, count, predicted, cfg, high⟩ := takeOffer_keeps (s.predicted + s.cueCfg.offset) .synthesized
    (bumpMotion .synthesized 1 { s with
      smoothed := s.predicted, lastAccepted := some s.predicted
      flywheel := s.flywheel + 1, predicted := s.predicted + s.cueCfg.pitch })
  have predicted : (synthesize s).predicted = s.predicted + s.cueCfg.pitch := predicted
  have cfg : (synthesize s).cueCfg = s.cueCfg := cfg
  refine ⟨lock, count, ?_, congrArg (· / 4096) high⟩
  simp only [flywheelPoint, predicted, cfg]
  omega

theorem synthesize_noPages {s : State} (empty : s.pages = []) : synthesize s
    = offered (.cueUnused (s.predicted + s.cueCfg.offset) .synthesized) (bumpMotion .unusedCues 1
      (bumpMotion .synthesized 1 { s with
        smoothed := s.predicted, lastAccepted := some s.predicted
        flywheel := s.flywheel + 1, predicted := s.predicted + s.cueCfg.pitch })) :=
  takeOffer_noPages (by exact empty) _ _

theorem loseLock_eq (s : State) : loseLock s
    = offered (.cueLost s.predicted (s.hRaw / 4096)) { s with lock := .unlocked, flywheel := 0 } := raise_offered ..

/-- Nothing is missed: the tracker is UNLOCKED, or H_int lies below the flywheel point. -/
def Covered (s : State) : Prop := s.lock = .unlocked ∨ s.hInt < flywheelPoint s

theorem not_covered {s : State} : ¬ Covered s ↔ s.lock = .locked ∧ flywheelPoint s ≤ s.hInt := by
  unfold Covered
  cases s.lock <;> simp

theorem loseLock_covered (s : State) : Covered (loseLock s) := .inl (by simp [loseLock])

theorem flywheelTurn_covered {s : State} (covered : Covered s) (n : Nat) : flywheelTurn n s = s := by
  cases n with
  | zero => rfl
  | succ n => exact if_neg fun missed => not_covered.mpr missed covered

theorem flywheelTurn_miss {s : State} (missed : ¬ Covered s) (few : s.flywheel ≤ 1) (n : Nat) :
    flywheelTurn (n + 1) s = flywheelTurn n (synthesize s) := by
  rw [flywheelTurn, if_pos (not_covered.mp missed), if_pos few]

theorem flywheelTurn_lose {s : State} (missed : ¬ Covered s) (many : ¬ s.flywheel ≤ 1) (n : Nat) :
    flywheelTurn (n + 1) s = loseLock s := by
  rw [flywheelTurn, if_pos (not_covered.mp missed), if_neg many]

/-- A turn after a turn is a turn as long as both. -/
theorem flywheelTurn_add (n m : Nat) (s : State) : flywheelTurn m (flywheelTurn n s) = flywheelTurn (n + m) s := by
  induction n generalizing s with
  | zero => rw [Nat.zero_add]; rfl
  | succ n ih =>
    by_cases covered : Covered s
    · simp only [flywheelTurn_covered covered]
    · rw [Nat.succ_add]
      by_cases few : s.flywheel ≤ 1
      · rw [flywheelTurn_miss covered few, flywheelTurn_miss covered few, ih]
      · rw [flywheelTurn_lose covered few, flywheelTurn_lose covered few,
          flywheelTurn_covered (loseLock_covered s)]

/-- A turn long enough for the syntheses that are left and the loss of the lock goes as far as any longer one. -/
theorem flywheelTurn_succ {n : Nat} {s : State} (pos : 1 ≤ n) (enough : 3 ≤ n + s.flywheel) :
    flywheelTurn (n + 1) s = flywheelTurn n s := by
  induction n generalizing s with
  | zero => omega
  | succ n ih =>
    by_cases covered : Covered s
    · simp only [flywheelTurn_covered covered]
    · by_cases few : s.flywheel ≤ 1
      · obtain ⟨-, count, -, -⟩ := synthesize_keeps s
        rw [flywheelTurn_miss covered few, flywheelTurn_miss covered few, ih (by omega) (by omega)]
      · rw [flywheelTurn_lose covered few, flywheelTurn_lose covered few]

/-- Two syntheses and a loss are the most that one arrival brings. -/
theorem flywheelTurn_full {n : Nat} (full : 3 ≤ n) (s : State) : flywheelTurn n s = flywheelTurn 3 s := by
  induction n, full using Nat.le_induction with
  | base => rfl
  | succ n full ih => rw [flywheelTurn_succ (by omega) (by omega), ih]

theorem flywheelTurn_again {s : State} (missed : ¬ Covered s) (few : s.flywheel ≤ 1) :
    flywheelTurn 3 s = flywheelTurn 3 (synthesize s) := by
  obtain ⟨-, count, -, -⟩ := synthesize_keeps s
  exact (flywheelTurn_miss missed few 2).trans (flywheelTurn_succ (by omega) (by omega)).symm

/-- One synthesis is enough where the next flywheel point is not reached. -/
theorem flywheelTurn_once {s : State} (missed : ¬ Covered s) (few : s.flywheel ≤ 1)
    (short : s.hInt < flywheelPoint s + s.cueCfg.pitch) : flywheelTurn 3 s = synthesize s := by
  obtain ⟨-, -, point, high⟩ := synthesize_keeps s
  rw [flywheelTurn_again missed few, flywheelTurn_covered (.inr (by rw [point, high]; exact short))]

/-! ### An arrival with no page in the queue -/

/-- The tracker's tests that a party's turn comes to. -/
def cueTurns : SchedAct → Nat
  | .cueOnce => 1
  | .cue => 3
  | .rowOnce _ _ | .row _ _ | .load _ => 0

theorem flywheelTurn_noPages {s : State} (empty : s.pages = []) (n : Nat) : (flywheelTurn n s).pages = [] := by
  induction n generalizing s with
  | zero => exact empty
  | succ n ih =>
    by_cases covered : Covered s
    · rw [flywheelTurn_covered covered, empty]
    · by_cases few : s.flywheel ≤ 1
      · rw [flywheelTurn_miss covered few]
        exact ih (by rw [synthesize_noPages empty, offered_pages]; exact empty)
      · rw [flywheelTurn_lose covered few, loseLock_eq, offered_pages]
        exact empty

theorem arrivalTurn_noPages {s : State} (empty : s.pages = []) (a : SchedAct) :
    arrivalTurn a s = flywheelTurn (cueTurns a) s := by
  have unbound : ∀ p ∈ s.pages, p.origin = none := by simp [empty]
  cases a with
  | cueOnce => rfl
  | cue => rfl
  | rowOnce h r => exact rowOnce_unbound unbound h r
  | row h r => exact rowTurn_unbound unbound h r
  | load h => exact loaderTurn_unbound unbound h

theorem arrivalTurns_noPages {s : State} (empty : s.pages = []) (acts : List SchedAct) :
    acts.foldl (fun s a => arrivalTurn a s) s = flywheelTurn (acts.map cueTurns).sum s := by
  induction acts generalizing s with
  | nil => rfl
  | cons a acts ih =>
    rw [List.foldl_cons, arrivalTurn_noPages empty, ih (flywheelTurn_noPages empty _), flywheelTurn_add,
      List.map_cons, List.sum_cons]

/-- With no page in the queue an arrival is the tracker's turn. -/
theorem arrival_noPages {s : State} (empty : s.pages = []) :
    arrival s = flywheelTurn 3 { s with sched := s.sched.tail } := by
  have all : 3 ≤ (((popSched s).1 ++ .cue :: allTurns (popSched s).2).map cueTurns).sum := by
    simp only [List.map_append, List.map_cons, List.sum_append, List.sum_cons, cueTurns]
    omega
  unfold arrival
  dsimp only
  rw [arrivalTurns_noPages (by rw [popSched_snd]; exact empty), flywheelTurn_full all, popSched_snd]

/-! ### The turn of every party -/

theorem popSched_fst (s : State) : (popSched s).1 = s.sched.headD [] := by
  unfold popSched
  split <;> rename_i h <;> rw [h] <;> rfl

/-- The rows by head and row, then the loaders by head. -/
theorem allTurns_eq (s : State) : allTurns s
    = ((List.range 24).flatMap fun h => (List.range (rowsOf s h).length).map fun r => SchedAct.row h r)
      ++ (List.range 24).map SchedAct.load := by
  simp only [allTurns, allRows, List.map_flatMap, List.map_map, Function.comp_def]

theorem arrival_eq (s : State) : arrival s = (s.sched.headD [] ++ [SchedAct.cue]
      ++ ((List.range 24).flatMap fun h => (List.range (rowsOf s h).length).map fun r => SchedAct.row h r)
      ++ (List.range 24).map SchedAct.load).foldl (fun u a => arrivalTurn a u) { s with sched := s.sched.tail } := by
  unfold arrival
  dsimp only
  rw [popSched_fst, popSched_snd, allTurns_eq]
  simp only [List.append_assoc, List.singleton_append]
  rfl

/-! ### A cue edge together with an edge of the substrate -/

theorem moveTo_pages (p : Nat) (s : State) : (moveTo p s).pages = s.pages := by
  unfold moveTo testDeficit
  split <;> split <;> simp

theorem takeEdge_frame (c : EdgeClass) (s : State) : CoreFrame s (takeEdge c s) ∧ (takeEdge c s).pages = s.pages := by
  cases c with
  | same => exact ⟨.refl s, rfl⟩
  | forward => exact ⟨(moveTo_frame ..).1, moveTo_pages ..⟩
  | reverse => exact ⟨(moveTo_frame ..).1, moveTo_pages ..⟩
  | glitch => exact ⟨by constructor <;> rfl, rfl⟩

/-- The Motion Unit's step leaves the pages and what `CoreFrame` names. -/
theorem stepTogether_frame (together : CueWith) (s : State) :
    CoreFrame s (stepTogether together s) ∧ (stepTogether together s).pages = s.pages := by
  cases together with
  | nothing => exact ⟨.refl s, rfl⟩
  | encoder a b =>
    simp only [stepTogether, encoderStep]
    split
    · exact ⟨.refl s, rfl⟩
    · split
      · exact ⟨by constructor <;> rfl, rfl⟩
      · exact ⟨by constructor <;> rfl, rfl⟩
      · obtain ⟨core, pages⟩ := takeEdge_frame ((classify s.decRef ⟨a, b⟩).inverted s.motionCfg.invert)
          { s with encPins := ⟨a, b⟩, decRef := ⟨a, b⟩ }
        exact ⟨.trans (by constructor <;> rfl) core, pages⟩
  | pace =>
    simp only [stepTogether, paceStep]
    split
    · exact ⟨.refl s, rfl⟩
    · obtain ⟨core, pages⟩ := takeEdge_frame .forward { s with pace := .running s.motionCfg.paceInterval }
      exact ⟨.trans (by constructor <;> rfl) core, pages⟩

theorem exec_cueEdge {together : CueWith} {s s1 : State} (comes : CueComes together s s1) :
    exec .cueEdge s = .next (cueThenArrival s1 (stepTogether together s1)) := by
  obtain ⟨rfl, rfl⟩ := comes
  rfl

theorem exec_cueEdge_alone {s s1 : State} (comes : CueComes .nothing s s1) :
    exec .cueEdge s = .next (cueEdge s1) := by
  rw [exec_cueEdge comes]
  exact congrArg _ (if_neg (Nat.lt_irrefl _))

theorem cueThenArrival_noPages {s moved : State} (rises : s.hRaw / 4096 < moved.hRaw / 4096)
    (empty : moved.pages = []) :
    cueThenArrival s moved = arrival (cueEdge { moved with sched := moved.sched.tail }) := by
  have risen : s.hInt < moved.hInt := rises
  rw [cueThenArrival, if_pos risen, rowsFirst_unbound (by simp [empty])]

/-- A relock at `pc` before its events (R25). -/
def relockCue (pc : Nat) (s : State) : State :=
  bumpMotion .relocks 1 { bumpMotion .cuesAccepted 1 s with
    smoothed := pc, predicted := pc + s.cueCfg.pitch, flywheel := 0, lastAccepted := some pc }

/-- A relock at `pc` and its offer, with no page in the queue (R25, R29, R43). -/
def relocked (pc : Nat) (s : State) : State :=
  offered (.cueUnused (pc + s.cueCfg.offset) .edge) (bumpMotion .unusedCues 1
    (offered (.cueRelock pc s.predicted ((pc : Int) - (s.predicted : Int))) (relockCue pc s)))

theorem relocked_withSched (pc : Nat) (s : State) (l : List (List SchedAct)) :
    { relocked pc s with sched := l } = relocked pc { s with sched := l } := by
  have inner := offered_withSched (.cueRelock pc s.predicted ((pc : Int) - (s.predicted : Int))) (relockCue pc s) l
  exact (offered_withSched ..).trans (congrArg (fun u => offered _ (bumpMotion .unusedCues 1 u)) inner)

theorem relocked_keeps (pc : Nat) (s : State) : (relocked pc s).pages = s.pages ∧ (relocked pc s).sched = s.sched
    ∧ (relocked pc s).predicted = pc + s.cueCfg.pitch ∧ (relocked pc s).cueCfg = s.cueCfg
    ∧ (relocked pc s).hRaw = s.hRaw := by
  simp only [relocked, relockCue, ← raise_offered]
  simp

theorem acceptCue_relocked {pc : Nat} {s : State} (locked : s.lock = .locked) (empty : s.pages = [])
    (past : s.predicted + s.cueCfg.window + 1 ≤ pc) : acceptCue pc s = relocked pc s := by
  have outside : ¬ ((pc : Int) - (s.predicted : Int)).natAbs ≤ s.cueCfg.window := by omega
  have followed : followCue pc (bumpMotion .cuesAccepted 1 s)
      = offered (.cueRelock pc s.predicted ((pc : Int) - (s.predicted : Int))) (relockCue pc s) :=
    (if_neg outside).trans (raise_offered ..)
  simp only [acceptCue, bumpMotion_lock, locked, followed, offer]
  rw [takeOffer_noPages (by rw [offered_pages]; exact empty)]
  simp only [← raise_offered, raise_smoothed, raise_cueCfg]
  simp only [raise_offered]
  rfl

/-- A cue edge at H that passes the hold-off is accepted (R21, R22). -/
theorem cueEdge_accepted {s : State} (run : s.engine = .run) (atHigh : s.pRaw = s.hRaw)
    (late : ∀ last, s.lastAccepted = some last → last + s.cueCfg.holdOff ≤ s.hRaw / 4096) :
    cueEdge s = acceptCue (s.hRaw / 4096) s := by
  have passes : inHoldOff s.pInt s = false := by
    unfold inHoldOff
    cases last : s.lastAccepted with
    | none => rfl
    | some l => simpa [State.pInt, atHigh] using late l last
  simp only [cueEdge, run, atHigh, Nat.lt_irrefl, if_false, passes, Bool.false_eq_true]
  rw [State.pInt, atHigh]

/-- Past the old flywheel point the cue edge relocks, and the arrival that follows finds nothing missed. -/
theorem arrival_relocked {pc : Nat} {s : State} (empty : s.pages = []) (at_ : pc = s.hRaw / 4096) :
    arrival (relocked pc s) = { relocked pc s with sched := s.sched.tail } := by
  obtain ⟨pages, sched, predicted, cfg, high⟩ := relocked_keeps pc s
  rw [arrival_noPages (pages.trans empty), sched]
  refine flywheelTurn_covered (.inr ?_) 3
  simp only [State.hInt, flywheelPoint, predicted, cfg, high]
  omega

section
variable {s s1 moved : State} {together : CueWith} (comes : CueComes together s s1)
  (step : moved = stepTogether together s1)
include comes step

theorem cueEdge_together_frame :
    ∃ t, exec .cueEdge s = .next t ∧ CoreFrame s1 t ∧ t.pRaw = moved.pRaw ∧ t.hRaw = moved.hRaw := by
  subst step
  have kept := cueThenArrival_frame s1 (stepTogether together s1)
  exact ⟨_, exec_cueEdge comes, (stepTogether_frame together s1).1.trans kept.core, kept.pRaw, kept.hRaw⟩

theorem cueEdge_together_still (still : moved.hRaw / 4096 ≤ s.hRaw / 4096) {u : State}
    (alone : CueComes .nothing u moved) : exec .cueEdge s = exec .cueEdge u := by
  have high : s1.hRaw = s.hRaw := by rw [comes.2]
  have flat : ¬ s1.hInt < moved.hInt := by simp only [State.hInt, high]; omega
  rw [exec_cueEdge comes, ← step, exec_cueEdge_alone alone, cueThenArrival, if_neg flat]

theorem cueEdge_together_pages (empty : s.pages = []) : moved.pages = [] := by
  rw [step, (stepTogether_frame together s1).2, comes.2]
  exact empty

theorem cueEdge_together_noPages (rises : s.hRaw / 4096 < moved.hRaw / 4096) (empty : s.pages = []) :
    exec .cueEdge s = .next (arrival (cueEdge { moved with sched := moved.sched.tail })) := by
  have high : s1.hRaw = s.hRaw := by rw [comes.2]
  rw [exec_cueEdge comes, ← step,
    cueThenArrival_noPages (high ▸ rises) (cueEdge_together_pages comes step empty)]

/-- Taken first past the old flywheel point, the cue edge relocks (R28). -/
theorem cueEdge_together_relocks (rises : s.hRaw / 4096 < moved.hRaw / 4096) (empty : s.pages = [])
    (run : moved.engine = .run) (locked : moved.lock = .locked) (atHigh : moved.pRaw = moved.hRaw)
    (reached : moved.predicted + moved.cueCfg.window + 1 ≤ moved.hRaw / 4096)
    (late : ∀ last, moved.lastAccepted = some last → last + moved.cueCfg.holdOff ≤ moved.hRaw / 4096) :
    exec .cueEdge s = .next (relocked (moved.hRaw / 4096) { moved with sched := moved.sched.tail.tail }) := by
  have noPages : moved.pages = [] := cueEdge_together_pages comes step empty
  rw [cueEdge_together_noPages comes step rises empty,
    cueEdge_accepted (s := { moved with sched := moved.sched.tail }) run atHigh late,
    acceptCue_relocked (s := { moved with sched := moved.sched.tail }) locked noPages reached,
    arrival_relocked (s := { moved with sched := moved.sched.tail }) noPages rfl, relocked_withSched]

end

/-! ### The statement -/

/-- Settles O31: the tracker's tests by `flywheelTurn`'s cases, the parties' turns by `arrival_eq`, and a cue edge taken
first by `cueThenArrival`. -/
theorem flywheelCoversAMissingCue : Obligations.FlywheelCoversAMissingCue := by
  have missed {s : State} (locked : s.lock = .locked)
      (reached : s.predicted + s.cueCfg.window + 1 ≤ s.hRaw / 4096) : ¬ Covered s := not_covered.mpr ⟨locked, reached⟩
  refine ⟨fun s empty => arrival_noPages empty,
    fun s empty locked => ⟨fun below => ?_, fun reached short few => ?_, fun reached two => ?_⟩,
    fun s => arrival_eq s,
    fun s => ⟨fun covered n => flywheelTurn_covered covered n,
      fun locked reached few => ⟨flywheelTurn_miss (missed locked reached) few 0,
        flywheelTurn_again (missed locked reached) few⟩,
      fun locked reached short few => flywheelTurn_once (missed locked reached) few short,
      fun locked reached two => ?_⟩,
    fun s a b => ⟨rfl, rfl⟩,
    fun s moved => rfl,
    fun s s1 moved together comes step => ⟨cueEdge_together_frame comes step,
      fun still u alone => cueEdge_together_still comes step still alone,
      fun rises empty => ⟨fun u t alone run => ?_, cueEdge_together_relocks comes step rises empty⟩⟩⟩
  · exact (arrival_noPages empty).trans
      (flywheelTurn_covered (s := { s with sched := s.sched.tail }) (.inr below) 3)
  · exact (arrival_noPages empty).trans
      ((flywheelTurn_once (s := { s with sched := s.sched.tail }) (missed locked reached) few short).trans
        (synthesize_noPages empty))
  · have many : ¬ s.flywheel ≤ 1 := by omega
    exact (arrival_noPages empty).trans
      ((flywheelTurn_lose (s := { s with sched := s.sched.tail }) (missed locked reached) many 2).trans (loseLock_eq _))
  · have many : ¬ s.flywheel ≤ 1 := by omega
    exact ⟨(flywheelTurn_lose (missed locked reached) many 0).trans (loseLock_eq s),
      (flywheelTurn_lose (missed locked reached) many 2).trans (loseLock_eq s)⟩
  · rw [exec_cueEdge_alone alone] at run
    rw [cueEdge_together_noPages comes step rises empty, Host.Outcome.next.inj run]

end Sys2Proof.Machine
end

