-- ==== Sys2Proof/Proofs/Coverage.lean ====
section
/-! SUPPORT. The configured tables in increasing order, the spans of a plane's heads in order of start column (R75),
what the coverage rules say of them (R76), and the form of each column (R78). -/

namespace Sys2Proof.Machine

/-! ### Configured planes and heads -/

theorem lt_of_look_some {α : Type} {n i : Nat} {t : Vector (Option α) n} {x : α} (at_ : look t i none = some x) :
    i < n := by
  by_contra beyond
  simp [look, Nat.not_lt.mp beyond] at at_

/-- The entries below `n` of a table that are configured, with their numbers. -/
def entriesBelow {α : Type} (f : Nat → Option α) (n : Nat) : List (Nat × α) :=
  (List.range n).filterMap fun i => (f i).map fun c => (i, c)

theorem mem_entriesBelow {α : Type} {f : Nat → Option α} {n i : Nat} {c : α} :
    (i, c) ∈ entriesBelow f n ↔ i < n ∧ f i = some c := by
  simp only [entriesBelow, List.mem_filterMap, List.mem_range, Option.map_eq_some_iff, Prod.mk.injEq]
  constructor
  · rintro ⟨j, lt, d, at_, rfl, rfl⟩
    exact ⟨lt, at_⟩
  · rintro ⟨lt, at_⟩
    exact ⟨i, lt, c, at_, rfl, rfl⟩

theorem entriesBelow_rising {α : Type} (f : Nat → Option α) (n : Nat) :
    (entriesBelow f n).Pairwise fun a b => a.1 < b.1 := by
  refine List.pairwise_filterMap.mpr (List.pairwise_lt_range.imp ?_)
  intro i j lt a ha b hb
  obtain ⟨c, -, rfl⟩ := Option.map_eq_some_iff.mp ha
  obtain ⟨d, -, rfl⟩ := Option.map_eq_some_iff.mp hb
  exact lt

theorem entriesBelow_succ {α : Type} (f : Nat → Option α) (n : Nat) :
    entriesBelow f (n + 1) = entriesBelow f n ++ ((f n).map fun c => (n, c)).toList := by
  rw [entriesBelow, List.range_succ, List.filterMap_append]
  cases at_ : f n <;> simp [at_, entriesBelow]

/-- The entries of a table up to a configured one. -/
theorem entriesBelow_split {α : Type} {f : Nat → Option α} {n i : Nat} {c : α} (lt : i < n) (at_ : f i = some c) :
    ∃ rest, entriesBelow f n = entriesBelow f i ++ (i, c) :: rest := by
  induction n, lt using Nat.le_induction with
  | base => exact ⟨[], by rw [entriesBelow_succ, at_]; rfl⟩
  | succ n _ ih =>
    obtain ⟨rest, split⟩ := ih
    exact ⟨rest ++ ((f n).map fun d => (n, d)).toList, by rw [entriesBelow_succ, split, List.append_assoc]; rfl⟩

theorem configuredPlanes_eq (s : State) : configuredPlanes s = entriesBelow (fun p => look s.planes p none) 8 := rfl

theorem configuredHeads_eq (s : State) : configuredHeads s = entriesBelow (fun h => look s.heads h none) 24 := rfl

theorem mem_configuredPlanes {s : State} {p : Nat} {c : PlaneCfg} :
    (p, c) ∈ configuredPlanes s ↔ look s.planes p none = some c := by
  rw [configuredPlanes_eq, mem_entriesBelow]
  exact and_iff_right_of_imp lt_of_look_some

theorem mem_configuredHeads {s : State} {h : Nat} {c : HeadCfg} :
    (h, c) ∈ configuredHeads s ↔ look s.heads h none = some c := by
  rw [configuredHeads_eq, mem_entriesBelow]
  exact and_iff_right_of_imp lt_of_look_some

/-! ### Spans in order of start column (R75) -/

theorem insertSpan_perm (a : Span) (l : List Span) : (insertSpan a l).Perm (a :: l) := by
  induction l with
  | nil => exact .refl _
  | cons b bs ih =>
    unfold insertSpan
    split
    · exact (ih.cons b).trans (.swap ..)
    · exact .refl _

theorem insertSpan_sorted {l : List Span} (a : Span) (sorted : l.Pairwise fun a b => a.x ≤ b.x) :
    (insertSpan a l).Pairwise fun a b => a.x ≤ b.x := by
  induction l with
  | nil => exact List.pairwise_singleton ..
  | cons b bs ih =>
    obtain ⟨least, rest⟩ := List.pairwise_cons.mp sorted
    unfold insertSpan
    split
    · rename_i le
      refine List.pairwise_cons.mpr ⟨fun m hm => ?_, ih rest⟩
      rcases List.mem_cons.mp ((insertSpan_perm a bs).mem_iff.mp hm) with rfl | hm
      · exact le
      · exact least m hm
    · rename_i gt
      refine List.pairwise_cons.mpr ⟨fun m hm => ?_, sorted⟩
      rcases List.mem_cons.mp hm with rfl | hm
      · omega
      · have := least m hm; omega

/-- The span of a head (R74). -/
def headSpan (hc : Nat × HeadCfg) : Span := ⟨hc.1, hc.2.x, hc.2.n⟩

theorem insertSpans_perm (hs : List (Nat × HeadCfg)) (acc : List Span) :
    (hs.foldl (fun acc hc => insertSpan (headSpan hc) acc) acc).Perm (hs.map headSpan ++ acc) := by
  induction hs generalizing acc with
  | nil => exact .refl _
  | cons hc hs ih =>
    refine (ih _).trans (((insertSpan_perm _ acc).append_left _).trans ?_)
    exact List.perm_middle

theorem insertSpans_sorted (hs : List (Nat × HeadCfg)) {acc : List Span}
    (sorted : acc.Pairwise fun a b => a.x ≤ b.x) :
    (hs.foldl (fun acc hc => insertSpan (headSpan hc) acc) acc).Pairwise fun a b => a.x ≤ b.x := by
  induction hs generalizing acc with
  | nil => exact sorted
  | cons hc hs ih => exact ih (insertSpan_sorted _ sorted)

theorem planeSpans_perm (s : State) (p : Nat) :
    (planeSpans s p).Perm (((configuredHeads s).filter fun hc => hc.2.plane = p).map headSpan) := by
  have inserted := insertSpans_perm ((configuredHeads s).filter fun hc => hc.2.plane = p) []
  rwa [List.append_nil] at inserted

theorem planeSpans_sorted (s : State) (p : Nat) : (planeSpans s p).Pairwise fun a b => a.x ≤ b.x :=
  insertSpans_sorted _ .nil

theorem planeSpans_nodup (s : State) (p : Nat) : (planeSpans s p).Nodup := by
  refine (planeSpans_perm s p).nodup_iff.mpr (List.pairwise_map.mpr ?_)
  refine ((configuredHeads_eq s ▸ entriesBelow_rising _ 24 :).filter _).imp fun lt same => ?_
  exact Nat.ne_of_lt lt (congrArg Span.head same)

/-- Head `h` is configured as `c` on plane `p`. -/
def HeadOn (s : State) (p h : Nat) (c : HeadCfg) : Prop := look s.heads h none = some c ∧ c.plane = p

theorem mem_planeSpans {s : State} {p : Nat} {a : Span} :
    a ∈ planeSpans s p ↔ ∃ h c, HeadOn s p h c ∧ headSpan (h, c) = a := by
  rw [(planeSpans_perm s p).mem_iff]
  simp only [List.mem_map, List.mem_filter, decide_eq_true_eq, Prod.exists, mem_configuredHeads]
  rfl

theorem HeadOn.span {s : State} {p h : Nat} {c : HeadCfg} (on : HeadOn s p h c) : headSpan (h, c) ∈ planeSpans s p :=
  mem_planeSpans.mpr ⟨h, c, on, rfl⟩

theorem HeadOn.unique {s : State} {p h : Nat} {c d : HeadCfg} (a : HeadOn s p h c) (b : HeadOn s p h d) : c = d :=
  Option.some.inj (a.1.symm.trans b.1)

/-! ### The coverage rules (R76) -/

theorem related_of_pairwise {α : Type} {R : α → α → Prop} {l : List α} (h : l.Pairwise R) {a b : α} (ha : a ∈ l)
    (hb : b ∈ l) : a = b ∨ R a b ∨ R b a := by
  obtain ⟨i, hi, rfl⟩ := List.getElem_of_mem ha
  obtain ⟨j, hj, rfl⟩ := List.getElem_of_mem hb
  have at_ := List.pairwise_iff_getElem.mp h
  rcases Nat.lt_trichotomy i j with lt | rfl | gt
  · exact .inr (.inl (at_ i j hi hj lt))
  · exact .inl rfl
  · exact .inr (.inr (at_ j i hj hi gt))

/-- What conditions 2, 3 and 6 ask of a span and the next. -/
def NeighbourOk (a b : Span) : Prop := a.fin < b.fin ∧ overlapWidth a b ≤ 64

theorem neighboursHold_cons {a b : Span} {l : List Span} :
    neighboursHold (a :: b :: l) = true ↔ a.x ≠ b.x ∧ NeighbourOk a b ∧ neighboursHold (b :: l) = true := by
  simp [neighboursHold, NeighbourOk, and_assoc]

section
variable {l : List Span} (sorted : l.Pairwise fun a b => a.x ≤ b.x)
include sorted

/-- Where neighbours hold, start columns and ends rise along the whole list. -/
theorem neighboursHold_rising (hold : neighboursHold l = true) :
    l.Pairwise fun a b => a.x < b.x ∧ a.fin < b.fin := by
  induction l with
  | nil => exact .nil
  | cons a l ih =>
    cases l with
    | nil => exact List.pairwise_singleton ..
    | cons b l =>
      obtain ⟨differ, ok, hold⟩ := neighboursHold_cons.mp hold
      obtain ⟨least, sorted⟩ := List.pairwise_cons.mp sorted
      have rising := ih sorted hold
      have first : a.x < b.x ∧ a.fin < b.fin := ⟨Nat.lt_of_le_of_ne (least b List.mem_cons_self) differ, ok.1⟩
      refine List.pairwise_cons.mpr ⟨fun m hm => ?_, rising⟩
      rcases List.mem_cons.mp hm with rfl | hm
      · exact first
      · obtain ⟨x, fin⟩ := (List.pairwise_cons.mp rising).1 m hm
        exact ⟨first.1.trans x, first.2.trans fin⟩

/-- Where neighbours hold, of two spans the one that starts first ends first. -/
theorem fin_lt_of_neighboursHold (hold : neighboursHold l = true) {a b : Span} (ha : a ∈ l) (hb : b ∈ l)
    (lt : a.x < b.x) : a.fin < b.fin := by
  rcases related_of_pairwise (neighboursHold_rising sorted hold) ha hb with rfl | ⟨-, fin⟩ | ⟨gt, -⟩
  · omega
  · exact fin
  · omega

/-- Two spans between whose start columns no other starts hold as neighbours. -/
theorem neighbourOk_of_neighboursHold (hold : neighboursHold l = true) {a b : Span} (ha : a ∈ l) (hb : b ∈ l)
    (lt : a.x < b.x) (between : ∀ m ∈ l, m.x ≤ a.x ∨ b.x ≤ m.x) : NeighbourOk a b := by
  induction l with
  | nil => cases ha
  | cons c l ih =>
    cases l with
    | nil => rw [List.mem_singleton] at ha hb; subst ha hb; omega
    | cons d l =>
      obtain ⟨differ, ok, hold'⟩ := neighboursHold_cons.mp hold
      obtain ⟨least, sorted'⟩ := List.pairwise_cons.mp sorted
      have cd := least d List.mem_cons_self
      have tail : b ∈ d :: l := by
        rcases List.mem_cons.mp hb with rfl | hb
        · rcases List.mem_cons.mp ha with rfl | ha
          · omega
          · have := least a ha; omega
        · exact hb
      rcases List.mem_cons.mp ha with rfl | ha
      · rcases List.mem_cons.mp tail with rfl | tail
        · exact ok
        · have db := ((List.pairwise_cons.mp (neighboursHold_rising sorted' hold')).1 b tail).1
          have := between d (by simp)
          omega
      · exact ih sorted' hold' ha tail fun m hm => between m (List.mem_cons_of_mem _ hm)

/-- Neighbours hold where start columns differ and any two spans with none between them do. -/
theorem neighboursHold_of (distinct : l.Pairwise fun a b => a.x ≠ b.x)
    (near : ∀ a ∈ l, ∀ b ∈ l, a.x < b.x → (∀ m ∈ l, m.x ≤ a.x ∨ b.x ≤ m.x) → NeighbourOk a b) :
    neighboursHold l = true := by
  induction l with
  | nil => rfl
  | cons c l ih =>
    cases l with
    | nil => rfl
    | cons d l =>
      obtain ⟨least, sorted'⟩ := List.pairwise_cons.mp sorted
      obtain ⟨differ, distinct'⟩ := List.pairwise_cons.mp distinct
      have cd : c.x < d.x := Nat.lt_of_le_of_ne (least d List.mem_cons_self) (differ d List.mem_cons_self)
      refine neighboursHold_cons.mpr ⟨Nat.ne_of_lt cd, near c (by simp) d (by simp) cd ?_, ih sorted' distinct' ?_⟩
      · intro m hm
        rcases List.mem_cons.mp hm with rfl | hm
        · exact .inl (Nat.le_refl _)
        · rcases List.mem_cons.mp hm with rfl | hm
          · exact .inr (Nat.le_refl _)
          · exact .inr ((List.pairwise_cons.mp sorted').1 m hm)
      · intro a ha b hb lt between
        refine near a (List.mem_cons_of_mem _ ha) b (List.mem_cons_of_mem _ hb) lt fun m hm => ?_
        rcases List.mem_cons.mp hm with rfl | hm
        · exact .inl (least a ha)
        · exact between m hm

end

/-- One or two members of a list that repeats none satisfy `f`, in terms of members. -/
theorem one_or_two_iff {α : Type} {l : List α} (nodup : l.Nodup) (f : α → Bool) :
    (1 ≤ l.countP f ∧ l.countP f ≤ 2)
      ↔ ∃ a ∈ l, ∃ b ∈ l, f a = true ∧ f b = true ∧ ∀ m ∈ l, f m = true → m = a ∨ m = b := by
  have member : ∀ m, m ∈ l.filter f ↔ m ∈ l ∧ f m = true := fun m => List.mem_filter
  rw [List.countP_eq_length_filter]
  have unique := nodup.filter f
  constructor
  · rintro ⟨pos, few⟩
    match at_ : l.filter f, pos, few with
    | [a], _, _ =>
      obtain ⟨ha, fa⟩ := (member a).mp (by simp [at_])
      exact ⟨a, ha, a, ha, fa, fa, fun m hm fm => .inl (by simpa [at_] using (member m).mpr ⟨hm, fm⟩)⟩
    | [a, b], _, _ =>
      obtain ⟨ha, fa⟩ := (member a).mp (by simp [at_])
      obtain ⟨hb, fb⟩ := (member b).mp (by simp [at_])
      exact ⟨a, ha, b, hb, fa, fb, fun m hm fm => by simpa [at_] using (member m).mpr ⟨hm, fm⟩⟩
  · rintro ⟨a, ha, b, -, fa, -, all⟩
    refine ⟨List.length_pos_of_mem ((member a).mpr ⟨ha, fa⟩), ?_⟩
    have within : l.filter f ⊆ [a, b] := fun m hm => by
      obtain ⟨hm, fm⟩ := (member m).mp hm
      simpa using all m hm fm
    exact (List.subperm_of_subset unique within).length_le

/-- A column of a plane lies within a head's span. -/
def Covers (s : State) (p col h : Nat) : Prop := ∃ c, HeadOn s p h c ∧ c.x ≤ col ∧ col < c.x + c.n

/-- The six conditions of R76 for a plane of width `w`, in terms of its heads. -/
def PlaneCovered (s : State) (p w : Nat) : Prop :=
  (∃ h c, HeadOn s p h c)
    ∧ (∀ a ca b cb, HeadOn s p a ca → HeadOn s p b cb → a ≠ b → ca.x ≠ cb.x)
    ∧ (∀ a ca b cb, HeadOn s p a ca → HeadOn s p b cb → ca.x < cb.x →
        (∀ m cm, HeadOn s p m cm → cm.x ≤ ca.x ∨ cb.x ≤ cm.x) →
        ca.x + ca.n < cb.x + cb.n ∧ ca.x + ca.n - cb.x ≤ 64)
    ∧ (∀ col, col < w → ∃ a b, Covers s p col a ∧ Covers s p col b ∧ ∀ m, Covers s p col m → m = a ∨ m = b)

theorem span_covers {a : Span} {col : Nat} : a.covers col = true ↔ a.x ≤ col ∧ col < a.x + a.n := by
  rw [Span.covers, Bool.and_eq_true]
  exact and_congr decide_eq_true_iff decide_eq_true_iff

theorem covers_iff {s : State} {p col h : Nat} :
    Covers s p col h ↔ ∃ a ∈ planeSpans s p, a.head = h ∧ a.covers col = true := by
  simp only [Covers, mem_planeSpans, span_covers]
  constructor
  · rintro ⟨c, on, from_, to_⟩
    exact ⟨_, ⟨h, c, on, rfl⟩, rfl, from_, to_⟩
  · rintro ⟨_, ⟨k, c, on, rfl⟩, rfl, from_, to_⟩
    exact ⟨c, on, from_, to_⟩

/-- Spans of one plane with the same head are the same. -/
theorem span_eq_of_head {s : State} {p : Nat} {a b : Span} (ha : a ∈ planeSpans s p) (hb : b ∈ planeSpans s p)
    (same : a.head = b.head) : a = b := by
  obtain ⟨h, c, onC, rfl⟩ := mem_planeSpans.mp ha
  obtain ⟨k, d, onD, rfl⟩ := mem_planeSpans.mp hb
  obtain rfl : h = k := same
  rw [onC.unique onD]

/-- Every column is covered once or twice, in terms of spans and of heads. -/
theorem columnsCovered_iff {s : State} {p col : Nat} :
    (1 ≤ (planeSpans s p).countP (fun a => a.covers col) ∧ (planeSpans s p).countP (fun a => a.covers col) ≤ 2)
      ↔ ∃ a b, Covers s p col a ∧ Covers s p col b ∧ ∀ m, Covers s p col m → m = a ∨ m = b := by
  rw [one_or_two_iff (planeSpans_nodup s p)]
  simp only [covers_iff]
  constructor
  · rintro ⟨a, ha, b, hb, fa, fb, all⟩
    refine ⟨a.head, b.head, ⟨a, ha, rfl, fa⟩, ⟨b, hb, rfl, fb⟩, ?_⟩
    rintro _ ⟨m, hm, rfl, fm⟩
    exact (all m hm fm).imp (congrArg Span.head) (congrArg Span.head)
  · rintro ⟨_, _, ⟨a, ha, rfl, fa⟩, ⟨b, hb, rfl, fb⟩, all⟩
    exact ⟨a, ha, b, hb, fa, fb, fun m hm fm => (all m.head ⟨m, hm, rfl, fm⟩).imp
      (span_eq_of_head hm ha) (span_eq_of_head hm hb)⟩

/-- What ENGINE_START tests of a plane is what R76 says. -/
theorem coverageHolds_iff {s : State} {p w : Nat} : coverageHolds w (planeSpans s p) = true ↔ PlaneCovered s p w := by
  have sorted := planeSpans_sorted s p
  simp only [coverageHolds, Bool.and_eq_true, Bool.not_eq_true', List.isEmpty_eq_false_iff_exists_mem,
    List.all_eq_true, List.mem_range, decide_eq_true_eq, columnsCovered_iff, PlaneCovered, and_assoc]
  refine and_congr ?_ ⟨fun ⟨hold, columns⟩ => ⟨?_, ?_, columns⟩, fun ⟨distinct, near, columns⟩ => ⟨?_, columns⟩⟩
  · constructor
    · rintro ⟨a, ha⟩
      obtain ⟨h, c, on, -⟩ := mem_planeSpans.mp ha
      exact ⟨h, c, on⟩
    · rintro ⟨h, c, on⟩
      exact ⟨_, on.span⟩
  · intro a ca b cb onA onB ne
    rcases related_of_pairwise (neighboursHold_rising sorted hold) onA.span onB.span with same | ⟨lt, -⟩ | ⟨gt, -⟩
    · exact absurd (congrArg Span.head same) ne
    · exact Nat.ne_of_lt lt
    · exact Nat.ne_of_gt gt
  · intro a ca b cb onA onB lt between
    refine neighbourOk_of_neighboursHold sorted hold onA.span onB.span lt fun m hm => ?_
    obtain ⟨h, c, on, rfl⟩ := mem_planeSpans.mp hm
    exact between h c on
  · refine neighboursHold_of sorted ((planeSpans_nodup s p).imp_of_mem fun ha hb ne => ?_) ?_
    · obtain ⟨h, c, onA, rfl⟩ := mem_planeSpans.mp ha
      obtain ⟨k, d, onB, rfl⟩ := mem_planeSpans.mp hb
      exact distinct h c k d onA onB fun same => ne (span_eq_of_head ha hb same)
    · intro a ha b hb lt between
      obtain ⟨h, c, onA, rfl⟩ := mem_planeSpans.mp ha
      obtain ⟨k, d, onB, rfl⟩ := mem_planeSpans.mp hb
      exact near h c k d onA onB lt fun m cm on => between _ on.span

/-! ### The column decode (R78) -/

/-- A column that one span covers. -/
theorem colForm_single {l : List Span} {a : Span} {col : Nat} (nodup : l.Nodup) (ha : a ∈ l)
    (covers : a.covers col = true) (only : ∀ m ∈ l, m.covers col = true → m = a) :
    colForm l col = .single a.head (col - a.x) := by
  have one : l.filter (fun m => m.covers col) = [a] := by
    have unique := nodup.filter fun m => m.covers col
    refine List.perm_singleton.mp ((List.perm_ext_iff_of_nodup unique (List.nodup_singleton a)).mpr fun m => ?_)
    rw [List.mem_filter, List.mem_singleton]
    exact ⟨fun ⟨hm, fm⟩ => only m hm fm, fun e => e ▸ ⟨ha, covers⟩⟩
  rw [colForm, one]

/-- A column that two spans cover and no third does: the left one is the one that starts first. -/
theorem colForm_pair {l : List Span} {a b : Span} {col : Nat} (sorted : l.Pairwise fun a b => a.x ≤ b.x)
    (ha : a ∈ l) (hb : b ∈ l) (lt : a.x < b.x) (coversA : a.covers col = true) (coversB : b.covers col = true)
    (two : l.countP (fun m => m.covers col) ≤ 2) :
    colForm l col = .pair a.head (col - a.x) b.head (col - b.x) (overlapWidth a b) (col - b.x) := by
  have ne : a ≠ b := by rintro rfl; omega
  have pair : l.filter (fun m => m.covers col) = [a, b] := by
    have sub : [a, b] ⊆ l.filter (fun m => m.covers col) := by simp [ha, hb, coversA, coversB]
    have short : (l.filter fun m => m.covers col).length ≤ [a, b].length := by
      rwa [← List.countP_eq_length_filter]
    have perm : (l.filter fun m => m.covers col).Perm [a, b] :=
      ((List.subperm_of_subset (by simp [ne]) sub).perm_of_length_le short).symm
    have inOrder := sorted.filter fun m => m.covers col
    rcases List.perm_pair.mp perm with same | swapped
    · exact same
    · rw [swapped] at inOrder
      have := (List.pairwise_cons.mp inOrder).1 a List.mem_cons_self
      omega
  rw [colForm, pair]

end Sys2Proof.Machine
end

