-- ==== Sys2Proof/Proofs/EngineStart.lean ====
section
/-! SUPPORT. ENGINE_START: what each of its six checks says of the tables (R34, R76, R77), and what a start sets
(R35). -/

namespace Sys2Proof.Machine

/-! ### The first object that fails a test -/

section
variable {α : Type} {f : Nat → Option α} {n : Nat} {ok : Nat → α → Bool} {good : Nat → α → Prop}
  (test : ∀ i x, ok i x = true ↔ good i x)
include test

theorem firstFailing_none (all : ∀ i x, f i = some x → good i x) : firstFailing ok (entriesBelow f n) = none := by
  have passes : ∀ t ∈ entriesBelow f n, ok t.1 t.2 = true := fun t ht =>
    (test ..).mpr (all t.1 t.2 (mem_entriesBelow.mp ht).2)
  generalize entriesBelow f n = l at passes
  induction l with
  | nil => rfl
  | cons t l ih =>
    rw [firstFailing, if_pos (passes t List.mem_cons_self)]
    exact ih fun u hu => passes u (List.mem_cons_of_mem _ hu)

theorem firstFailing_first {i : Nat} {x : α} (lt : i < n) (at_ : f i = some x) (bad : ¬ good i x)
    (before : ∀ j y, j < i → f j = some y → good j y) : firstFailing ok (entriesBelow f n) = some i := by
  have member : (i, x) ∈ entriesBelow f n := mem_entriesBelow.mpr ⟨lt, at_⟩
  have rising := entriesBelow_rising f n
  have entry : ∀ t ∈ entriesBelow f n, f t.1 = some t.2 := fun t ht => (mem_entriesBelow.mp ht).2
  generalize entriesBelow f n = l at member rising entry
  induction l with
  | nil => cases member
  | cons t l ih =>
    obtain ⟨least, rising⟩ := List.pairwise_cons.mp rising
    rcases List.mem_cons.mp member with rfl | member
    · rw [firstFailing, if_neg fun passes => bad ((test ..).mp passes)]
    · have good : good t.1 t.2 := before t.1 t.2 (least _ member) (entry t List.mem_cons_self)
      rw [firstFailing, if_pos ((test ..).mpr good)]
      exact ih member rising fun u hu => entry u (List.mem_cons_of_mem _ hu)

end

/-! ### The checks one by one -/

section
variable {s : State}

theorem checkPlanes_none {p : Nat} {c : PlaneCfg} (at_ : look s.planes p none = some c) : checkPlanes s = none := by
  have member := mem_configuredPlanes.mpr at_
  exact if_neg fun empty => by simp [List.isEmpty_iff.mp empty] at member

theorem checkPlanes_fault (bare : ∀ p c, ¬ look s.planes p none = some c) :
    checkPlanes s = some (.badArgument, .none) := by
  refine if_pos (List.isEmpty_iff.mpr (List.eq_nil_iff_forall_not_mem.mpr fun t ht => ?_))
  exact bare t.1 t.2 (mem_configuredPlanes.mp ht)

/-- Check 2: N a multiple of R, and R row offsets. -/
def Formed (c : HeadCfg) : Prop := c.n % c.r = 0 ∧ c.offsets.length = c.r

theorem formed_test (c : HeadCfg) : (decide (c.n % c.r = 0) && decide (c.offsets.length = c.r)) = true ↔ Formed c := by
  simp [Formed]

theorem checkHeads_none (all : ∀ h c, look s.heads h none = some c → Formed c) : checkHeads s = none := by
  rw [checkHeads, configuredHeads_eq, firstFailing_none (fun _ c => formed_test c) all]
  rfl

theorem checkHeads_fault {h : Nat} {c : HeadCfg} (at_ : look s.heads h none = some c) (bad : ¬ Formed c)
    (before : ∀ k d, k < h → look s.heads k none = some d → Formed d) :
    checkHeads s = some (.badArgument, .head h) := by
  rw [checkHeads, configuredHeads_eq,
    firstFailing_first (fun _ c => formed_test c) (lt_of_look_some at_) at_ bad before]
  rfl

/-- Check 3, first pass: the head's plane is configured and holds the head (R77). -/
def Placed (s : State) (c : HeadCfg) : Prop := ∃ q, look s.planes c.plane none = some q ∧ c.x + c.n ≤ q.width

theorem checkHeadsPlaced_none (all : ∀ h c, look s.heads h none = some c → Placed s c) :
    checkHeadsPlaced s = none := by
  rw [checkHeadsPlaced, configuredHeads_eq, firstFailing_none (good := fun _ c => Placed s c) ?_ all]
  · rfl
  · intro i c
    cases at_ : look s.planes c.plane none <;> simp [Placed, at_]

theorem checkHeadsPlaced_fault {h : Nat} {c : HeadCfg} (at_ : look s.heads h none = some c) (bad : ¬ Placed s c)
    (before : ∀ k d, k < h → look s.heads k none = some d → Placed s d) :
    checkHeadsPlaced s = some (.geometry, .head h) := by
  rw [checkHeadsPlaced, configuredHeads_eq,
    firstFailing_first (good := fun _ c => Placed s c) ?_ (lt_of_look_some at_) at_ bad before]
  · rfl
  · intro i c
    cases at_ : look s.planes c.plane none <;> simp [Placed, at_]

theorem covered_test (p : Nat) (c : PlaneCfg) :
    coverageHolds c.width (planeSpans s p) = true ↔ PlaneCovered s p c.width := coverageHolds_iff

theorem checkCoverage_none (all : ∀ p c, look s.planes p none = some c → PlaneCovered s p c.width) :
    checkCoverage s = none := by
  rw [checkCoverage, configuredPlanes_eq, firstFailing_none covered_test all]
  rfl

theorem checkCoverage_fault {p : Nat} {c : PlaneCfg} (at_ : look s.planes p none = some c)
    (bad : ¬ PlaneCovered s p c.width)
    (before : ∀ q d, q < p → look s.planes q none = some d → PlaneCovered s q d.width) :
    checkCoverage s = some (.geometry, .plane p) := by
  rw [checkCoverage, configuredPlanes_eq,
    firstFailing_first covered_test (lt_of_look_some at_) at_ bad before]
  rfl

/-- The lanes of a head with a function (R134). -/
def laneCount (s : State) (fn : LaneFunction) (h : Nat) : Nat :=
  (List.range 72).countP fun l => look s.lanes l ⟨.off, 0⟩ = ⟨fn, h⟩

theorem length_lanesOf (fn : LaneFunction) (h : Nat) : (lanesOf s fn h).length = laneCount s fn h := by
  rw [lanesOf, laneCount, List.countP_eq_length_filter]
  congr 2
  funext l
  rcases look s.lanes l ⟨.off, 0⟩ with ⟨function, owner⟩
  simp

/-- Check 4, first part: one or two DATA lanes and one RETURN lane. -/
def Laned (s : State) (h : Nat) : Prop :=
  1 ≤ laneCount s .data h ∧ laneCount s .data h ≤ 2 ∧ laneCount s .ret h = 1

theorem laned_test (h : Nat) : (decide (1 ≤ (lanesOf s .data h).length) && decide ((lanesOf s .data h).length ≤ 2)
    && decide ((lanesOf s .ret h).length = 1)) = true ↔ Laned s h := by
  simp [Laned, length_lanesOf, and_assoc]

theorem checkHeadLanes_none (all : ∀ h c, look s.heads h none = some c → Laned s h) : checkHeadLanes s = none := by
  rw [checkHeadLanes, configuredHeads_eq, firstFailing_none (good := fun h _ => Laned s h) ?_ all]
  · rfl
  · exact fun h _ => laned_test h

theorem checkHeadLanes_fault {h : Nat} {c : HeadCfg} (at_ : look s.heads h none = some c) (bad : ¬ Laned s h)
    (before : ∀ k d, k < h → look s.heads k none = some d → Laned s k) :
    checkHeadLanes s = some (.lanes, .head h) := by
  rw [checkHeadLanes, configuredHeads_eq,
    firstFailing_first (good := fun h _ => Laned s h) ?_ (lt_of_look_some at_) at_ bad before]
  · rfl
  · exact fun h _ => laned_test h

/-- Check 4, second part: a lane in use has a configured owner. -/
def Owned (s : State) (l : Nat) : Prop :=
  (look s.lanes l ⟨.off, 0⟩).function ≠ .off → look s.heads (look s.lanes l ⟨.off, 0⟩).owner none ≠ none

theorem laneEntries_eq : ((List.range 72).map fun l => (l, look s.lanes l ⟨.off, 0⟩))
    = entriesBelow (fun l => some (look s.lanes l ⟨.off, 0⟩)) 72 := by
  rw [entriesBelow, ← List.filterMap_eq_map]
  rfl

theorem owned_test (e : Lane) : (decide (e.function = .off) || (look s.heads e.owner none).isSome) = true
    ↔ (e.function ≠ .off → look s.heads e.owner none ≠ none) := by
  simp [Option.isSome_iff_ne_none, or_iff_not_imp_left]

theorem checkLaneOwners_none (all : ∀ l, l < 72 → Owned s l) : checkLaneOwners s = none := by
  rw [checkLaneOwners, laneEntries_eq, firstFailing_none (fun _ e => owned_test e) ?_]
  · rfl
  · intro l _ at_
    cases at_
    by_cases lt : l < 72
    · exact all l lt
    · simp [look, Nat.not_lt.mp lt]

theorem checkLaneOwners_fault {l : Nat} (lt : l < 72) (bad : ¬ Owned s l) (before : ∀ k, k < l → Owned s k) :
    checkLaneOwners s = some (.lanes, .lane l) := by
  rw [checkLaneOwners, laneEntries_eq, firstFailing_first (fun _ e => owned_test e) lt rfl bad ?_]
  · rfl
  · intro k _ hk at_
    cases at_
    exact before k hk

/-! Check 5. -/

/-- The line memory of a plane: its slots times their footprint (R52). -/
def planeBytes (s : State) (p : Nat) : Nat :=
  match look s.planes p none with
  | some c => c.capacity * footprint c.width
  | none => 0

/-- The line memory of the planes below `n`. -/
def room (s : State) (n : Nat) : Nat := ((List.range n).map (planeBytes s)).sum

/-- The line memory of listed planes. -/
def bytesOf (l : List (Nat × PlaneCfg)) : Nat := (l.map fun t => t.2.capacity * footprint t.2.width).sum

theorem bytesOf_entriesBelow (n : Nat) : bytesOf (entriesBelow (fun p => look s.planes p none) n) = room s n := by
  induction n with
  | zero => rfl
  | succ n ih =>
    rw [entriesBelow_succ, room, List.range_succ, List.map_append, List.sum_append, ← room, ← ih]
    cases at_ : look s.planes n none <;> simp [bytesOf, planeBytes, at_]

theorem firstOver_cons (sum : Nat) (t : Nat × PlaneCfg) (l : List (Nat × PlaneCfg)) : firstOver sum (t :: l)
    = if 268435456 < sum + t.2.capacity * footprint t.2.width then some t.1
      else firstOver (sum + t.2.capacity * footprint t.2.width) l := rfl

theorem firstOver_none {sum : Nat} {l : List (Nat × PlaneCfg)} (fits : sum + bytesOf l ≤ 268435456) :
    firstOver sum l = none := by
  induction l generalizing sum with
  | nil => rfl
  | cons t l ih =>
    simp only [bytesOf, List.map_cons, List.sum_cons] at fits
    rw [firstOver_cons, if_neg (by omega)]
    exact ih (by simp only [bytesOf]; omega)

theorem firstOver_first {sum : Nat} {l rest : List (Nat × PlaneCfg)} {t : Nat × PlaneCfg}
    (fits : sum + bytesOf l ≤ 268435456) (exceeds : 268435456 < sum + bytesOf l + t.2.capacity * footprint t.2.width) :
    firstOver sum (l ++ t :: rest) = some t.1 := by
  induction l generalizing sum with
  | nil =>
    exact if_pos exceeds
  | cons u l ih =>
    simp only [bytesOf, List.map_cons, List.sum_cons] at fits exceeds
    rw [List.cons_append, firstOver_cons, if_neg (by omega)]
    exact ih (by simp only [bytesOf]; omega) (by simp only [bytesOf]; omega)

theorem checkStore_none (fits : room s 8 ≤ 268435456) : checkStore s = none := by
  rw [checkStore, configuredPlanes_eq, firstOver_none (by rw [bytesOf_entriesBelow, Nat.zero_add]; exact fits)]
  rfl

theorem checkStore_fault {p : Nat} {c : PlaneCfg} (at_ : look s.planes p none = some c)
    (fits : room s p ≤ 268435456) (exceeds : 268435456 < room s (p + 1)) :
    checkStore s = some (.storeSize, .plane p) := by
  obtain ⟨rest, split⟩ := entriesBelow_split (f := fun p => look s.planes p none) (lt_of_look_some at_) at_
  have next : room s (p + 1) = room s p + c.capacity * footprint c.width := by
    simp [room, List.range_succ, planeBytes, at_]
  rw [checkStore, configuredPlanes_eq, split, firstOver_first]
  · rfl
  · rw [bytesOf_entriesBelow, Nat.zero_add]
    exact fits
  · rw [bytesOf_entriesBelow, Nat.zero_add, ← next]
    exact exceeds

/-! Check 6. -/

/-- Record `i` of the active bank is WRITTEN. -/
def Written (s : State) (i : Nat) : Prop := look (bankAt s s.activeBank).recs i none ≠ none

theorem complete_iff (b : Bank) : b.complete = true ↔ ∀ i, i < 3 → look b.recs i none ≠ none := by
  simp only [Bank.complete, List.all_eq_true, Vector.mem_toList_iff, Vector.mem_iff_getElem]
  constructor
  · intro all i lt
    simpa [look, lt, Option.isSome_iff_ne_none] using all b.recs[i] ⟨i, lt, rfl⟩
  · rintro all _ ⟨i, lt, rfl⟩
    simpa [look, lt, Option.isSome_iff_ne_none] using all i lt

theorem checkBank_none (all : ∀ i, i < 3 → Written s i) : checkBank s = none :=
  if_pos ((complete_iff _).mpr all)

theorem checkBank_fault (bad : ∃ i, i < 3 ∧ ¬ Written s i) : checkBank s = some (.incomplete, .bank s.activeBank) := by
  obtain ⟨i, lt, erased⟩ := bad
  exact if_neg fun complete => erased ((complete_iff _).mp complete i lt)

/-! ### What a start sets (R35) -/

/-- The state after a start: what R35 lists, the reply, and the handler moved on. -/
def started (tag : BitVec 16) (s : State) : State := replied .control 0x20#8 tag .ok [0, 0] (movedOn (startRun s))

theorem started_eq (tag : BitVec 16) (s : State) : started tag s = { startRun s with
    outgoing := s.outgoing ++ [.reply ⟨.ok, 0x20#8, tag, some .control, [0, 0]⟩]
    handler := (movedOn s).handler, ctlWaiting := (movedOn s).ctlWaiting
    dataWaiting := (movedOn s).dataWaiting } := by
  simp only [started, replied, movedOn_eq]
  rfl

theorem engineStart_ruled {s1 : State} {tag : BitVec 16} (taken : TakesControl s 0x20#8 tag [] s1)
    (setup : s.engine = .setup) :
    exec .engineStart s = .next (takeNext (engineStart ⟨.control, 0x20#8, tag, []⟩ { s with handler := .free })) :=
  congrArg Host.Outcome.next (handleRequest_ruled (q := .engineStart) taken rfl (by rw [setup]; rfl) rfl)

theorem engineStart_starts {s1 : State} {tag : BitVec 16} (taken : TakesControl s 0x20#8 tag [] s1)
    (setup : s.engine = .setup) (clear : startFault s = none) :
    exec .engineStart s = .next (started tag s) := by
  have clear : startFault { s with handler := .free } = none := clear
  rw [engineStart_ruled taken setup, engineStart, clear]
  exact congrArg _ (takeNext_answer _ _ _ (startRun s))

theorem engineStart_refused {s1 : State} {tag : BitVec 16} {status : Status} {fault : StartFault}
    (taken : TakesControl s 0x20#8 tag [] s1) (setup : s.engine = .setup)
    (found : startFault s = some (status, fault)) :
    exec .engineStart s = .next (replied .control 0x20#8 tag status fault.bytes s1) := by
  have found : startFault { s with handler := .free } = some (status, fault) := found
  rw [engineStart_ruled taken setup, engineStart, found]
  obtain ⟨-, rfl⟩ := taken
  exact congrArg _ (takeNext_answer ..)

theorem reservedOn_movedOn (p : Nat) (t : State) (handler : t.handler = (movedOn s).handler) :
    reservedOn t p = 0 := by
  rw [movedOn_eq] at handler
  simp only [reservedOn, handler]
  cases s.ctlWaiting <;> cases s.dataWaiting <;> rfl

theorem look_ofFn {α : Type} {n i : Nat} (g : Fin n → α) (d : α) (lt : i < n) :
    look (Vector.ofFn g) i d = g ⟨i, lt⟩ := by
  simp [look, lt]

theorem started_plane (tag : BitVec 16) {p : Nat} {c : PlaneCfg} (at_ : look s.planes p none = some c) :
    linesOf (started tag s) p = [] ∧ freeSlots (started tag s) p = c.capacity := by
  have empty : linesOf (started tag s) p = [] := by
    rw [started_eq]
    exact look_replicate ..
  have region : look (started tag s).regions p none = some ⟨c.capacity, footprint c.width⟩ := by
    rw [started_eq]
    simp only [startRun]
    rw [look_mapTable _ _ _ none _ (lt_of_look_some at_), at_]
    rfl
  have reserved : reservedOn (started tag s) p = 0 := reservedOn_movedOn (s := s) p _ (by rw [started_eq])
  refine ⟨empty, ?_⟩
  rw [freeSlots, occupancy, empty, region, reserved]
  rfl

theorem started_head (tag : BitVec 16) {h : Nat} {c : HeadCfg} (at_ : look s.heads h none = some c) :
    rowsOf (started tag s) h = List.replicate c.r ⟨.empty, .idle⟩
      ∧ look (started tag s).health h none = some ⟨.active, 0, 0⟩
      ∧ look (started tag s).loaders h none = some ⟨0, none⟩
      ∧ look (started tag s).links h none = some ⟨lanesOf s .data h, (lanesOf s .ret h).headD 0⟩ := by
  have lt := lt_of_look_some at_
  rw [started_eq]
  simp only [rowsOf, startRun]
  refine ⟨?_, ?_, ?_, ?_⟩
  · rw [look_mapTable _ _ _ none _ lt, at_]
  · rw [look_mapTable _ _ _ none _ lt, at_]
    rfl
  · rw [look_mapTable _ _ _ none _ lt, at_]
    rfl
  · rw [look_ofFn _ _ lt, derivedLink, at_]
    rfl

theorem started_decode (tag : BitVec 16) {p : Nat} {c : PlaneCfg} (at_ : look s.planes p none = some c) :
    look (started tag s).decode p none = some ⟨c.width, planeSpans s p⟩ := by
  have lt := lt_of_look_some at_
  rw [started_eq]
  simp only [startRun]
  rw [look_ofFn _ _ lt, derivedDecode, at_]
  rfl

/-! ### The column decode of a start (R78) -/

theorem passes_of_firstFailing {α : Type} {ok : Nat → α → Bool} {l : List (Nat × α)}
    (passed : firstFailing ok l = none) : ∀ t ∈ l, ok t.1 t.2 = true := by
  induction l with
  | nil => simp
  | cons t l ih =>
    rw [firstFailing] at passed
    split at passed
    · rename_i passes
      exact List.forall_mem_cons.mpr ⟨passes, ih passed⟩
    · cases passed

theorem coverageHolds_of_clear {p : Nat} {c : PlaneCfg} (clear : startFault s = none)
    (at_ : look s.planes p none = some c) : coverageHolds c.width (planeSpans s p) = true := by
  have coverage : checkCoverage s = none := by
    simp only [startFault, Option.or_eq_none_iff] at clear
    obtain ⟨-, -, -, coverage, -⟩ := clear
    exact coverage
  exact passes_of_firstFailing (Option.map_eq_none_iff.mp coverage) (p, c) (mem_configuredPlanes.mpr at_)

section
variable {p w : Nat} (holds : coverageHolds w (planeSpans s p) = true) {col : Nat} (lt : col < w)

theorem colForm_of_one {h : Nat} {c : HeadCfg} (on : HeadOn s p h c) (start : c.x ≤ col) (stop : col < c.x + c.n)
    (only : ∀ m, Covers s p col m → m = h) : colForm (planeSpans s p) col = .single h (col - c.x) :=
  colForm_single (planeSpans_nodup s p) on.span (span_covers.mpr ⟨start, stop⟩) fun _ hm covers =>
    span_eq_of_head hm on.span (only _ (covers_iff.mpr ⟨_, hm, rfl, covers⟩))

include holds lt

/-- The right head of an overlap ends after the left one (R76), and so covers what the left one does behind its
start. -/
theorem colForm_of_two {a b : Nat} {ca cb : HeadCfg} (onA : HeadOn s p a ca) (onB : HeadOn s p b cb)
    (order : ca.x < cb.x) (start : cb.x ≤ col) (stop : col < ca.x + ca.n) :
    colForm (planeSpans s p) col = .pair a (col - ca.x) b (col - cb.x) (ca.x + ca.n - cb.x) (col - cb.x) := by
  have sorted := planeSpans_sorted s p
  simp only [coverageHolds, Bool.and_eq_true, List.all_eq_true, List.mem_range, decide_eq_true_eq] at holds
  obtain ⟨⟨-, hold⟩, columns⟩ := holds
  have ends : ca.x + ca.n < cb.x + cb.n := fin_lt_of_neighboursHold sorted hold onA.span onB.span order
  exact colForm_pair sorted onA.span onB.span order (span_covers.mpr ⟨by exact Nat.le_trans order.le start, stop⟩)
    (span_covers.mpr ⟨start, stop.trans ends⟩) (columns col lt).2

end

end

/-! ### The statement -/

/-- Settles O20: the checks in order, the fields that `startRun` sets, and the decode of a plane that passed check 3. -/
theorem engineStartEntersRun : Obligations.EngineStartEntersRun := by
  intro s s1 tag taken setup
  have moved : s1 = movedOn s := taken.2
  refine ⟨fun clear => ?_, fun status fault found => engineStart_refused taken setup found, ?_⟩
  · subst moved
    refine ⟨_, (engineStart_starts taken setup clear).trans (congrArg _ (started_eq tag s)), rfl, rfl, rfl, rfl, rfl,
      fun internal => ?_, fun external => ?_, rfl, rfl, rfl, rfl, rfl, rfl, rfl, fun p c at_ => ?_, fun h c at_ => ?_,
      rfl, rfl, rfl, rfl, rfl, rfl, rfl, rfl, rfl, rfl, rfl, rfl, rfl, rfl, rfl, rfl, rfl, rfl, rfl, rfl⟩
    · simp only [startRun, internal]
    · simp only [startRun, external]
    · rw [← started_eq]
      exact started_plane tag at_
    · rw [← started_eq]
      exact started_head tag at_
  · intro fault plane head on covers formed placed covered lanes laned owned room written
    have refused {status : Status} (found : StartFault) (first : startFault s = some (status, found)) :
        exec .engineStart s = .next (replied .control 0x20#8 tag status found.bytes s1) :=
      engineStart_refused taken setup first
    refine ⟨fun bare => refused .none ?_, fun ⟨_, _, configured⟩ => ?_, fun clear p c at_ => ?_⟩
    · rw [startFault, checkPlanes_fault bare]
      rfl
    · have planesOk := checkPlanes_none configured
      refine ⟨fun h c at_ bad before => refused (.head h) ?_, fun allFormed => ?_⟩
      · rw [startFault, planesOk, checkHeads_fault at_ bad before]
        rfl
      have headsOk := checkHeads_none allFormed
      refine ⟨fun h c at_ bad before => refused (.head h) ?_, fun allPlaced => ?_⟩
      · rw [startFault, planesOk, headsOk, checkHeadsPlaced_fault at_ bad before]
        rfl
      have placedOk := checkHeadsPlaced_none allPlaced
      refine ⟨fun p c at_ bad before => refused (.plane p) ?_, fun allCovered => ?_⟩
      · rw [startFault, planesOk, headsOk, placedOk, checkCoverage_fault at_ bad before]
        rfl
      have coverageOk := checkCoverage_none allCovered
      refine ⟨fun h c at_ bad before => refused (.head h) ?_, fun allLaned => ?_⟩
      · rw [startFault, planesOk, headsOk, placedOk, coverageOk, checkHeadLanes_fault at_ bad before]
        rfl
      have lanesOk := checkHeadLanes_none allLaned
      refine ⟨fun l lt bad before => refused (.lane l) ?_, fun allOwned => ?_⟩
      · rw [startFault, planesOk, headsOk, placedOk, coverageOk, lanesOk, checkLaneOwners_fault lt bad before]
        rfl
      have ownersOk := checkLaneOwners_none allOwned
      refine ⟨fun p c at_ fits exceeds => refused (.plane p) ?_, fun fits => ?_⟩
      · rw [startFault, planesOk, headsOk, placedOk, coverageOk, lanesOk, ownersOk, checkStore_fault at_ fits exceeds]
        rfl
      have storeOk := checkStore_none fits
      refine ⟨fun erased => refused (.bank s.activeBank) ?_, fun allWritten => ?_⟩
      · rw [startFault, planesOk, headsOk, placedOk, coverageOk, lanesOk, ownersOk, storeOk, checkBank_fault erased]
        rfl
      · rw [startFault, planesOk, headsOk, placedOk, coverageOk, lanesOk, ownersOk, storeOk, checkBank_none allWritten]
        rfl
    · have holds := coverageHolds_of_clear clear at_
      refine ⟨started tag s, ⟨c.width, planeSpans s p⟩, engineStart_starts taken setup clear, started_decode tag at_,
        rfl, fun col lt => ⟨fun h ch on start stop only => colForm_of_one on start stop only,
          fun a ca b cb onA onB order start stop => colForm_of_two holds lt onA onB order start stop⟩⟩

end Sys2Proof.Machine
end

