-- ==== Sys2Proof/Proofs/Commands.lean ====
section
/-! SUPPORT. What every command can do that is none of the run's own (the reset occasions, the engine states, SET_CUE,
edges of the substrate and cue edges), once for every relation that the primitive updates of rows, pages, tables, link
and counters keep. -/

namespace Sys2Proof.Machine

/-- A relation that the updates of requests, the host link, health and the ends of transfers and storings keep as well:
`registers` are those that are no part of a run's position, tracker, pages, rows and counters. -/
structure CommandClosed (R : State → State → Prop) : Prop extends PageClosed R where
  registers : ∀ rx ctl data handler out sending sent cfg planes heads lanes nozzles banks active health s, R s { s with
    rx := rx, ctlWaiting := ctl, dataWaiting := data, handler := handler, outgoing := out, sending := sending
    resetSent := sent, motionCfg := cfg, planes := planes, heads := heads, lanes := lanes, nozzles := nozzles
    banks := banks, activeBank := active, health := health }
  bumpLink : ∀ c n s, R s (bumpLink c n s)
  countHead : ∀ h c n s, R s (Machine.bumpHead h c n s)
  peak : ∀ p s, R s (updatePeak p s)
  clearGroup : ∀ g s, R s (clearGroup g s)
  join : ∀ op s, R s (setLines op.plane (linesOf s op.plane ++ joiningLines s op) s)
  emptyLines : ∀ s, R s { s with lines := Vector.replicate 8 [] }

namespace CommandClosed

variable {R : State → State → Prop} (hR : CommandClosed R)
include hR

/-! ### The Link Port -/

theorem answer (f : HostFrame) (st : Status) (b : List Byte) (s : State) : R s (answer f st b s) := hR.registers ..

/-- A reply to what an act has made of the state. -/
theorem answered {s t : State} (act : R s t) (f : HostFrame) (st : Status) (b : List Byte) :
    R s (Machine.answer f st b t) := hR.trans act (hR.answer f st b t)

theorem takeNext (s : State) : R s (takeNext s) := by
  rcases takeNext_cases s with h | ⟨f, rest, h⟩ | ⟨f, rest, h⟩ <;> rw [h]
  · exact hR.refl s
  · exact hR.registers ..
  · exact hR.registers ..

theorem refuseArrival (f : HostFrame) (st : Status) (c : LinkCtr) (s : State) : R s (refuseArrival f st c s) :=
  RowClosed.ite (hR.trans (hR.registers ..) (hR.trans (hR.bumpLink ..) (hR.bumpLink ..))) (hR.bumpLink ..)

theorem acceptFrame (f : HostFrame) (s : State) : R s (acceptFrame f s) := by
  have accepted (ctl data : List HostFrame) :
      R s (Machine.bumpLink .goodFrames 1 (Machine.takeNext { s with ctlWaiting := ctl, dataWaiting := data })) :=
    hR.trans (hR.registers ..) (hR.trans (hR.takeNext _) (hR.bumpLink ..))
  unfold Machine.acceptFrame
  split
  · exact RowClosed.ite (accepted _ _) (hR.refuseArrival ..)
  · exact RowClosed.ite (accepted _ _) (hR.refuseArrival ..)

theorem frameArrived (covered check : List Byte) (s : State) : R s (frameArrived covered check s) := by
  have expecting : R s { s with rx := .expecting } := hR.registers ..
  unfold Machine.frameArrived
  refine RowClosed.ite (hR.trans expecting (hR.bumpLink ..)) ?_
  dsimp only
  split
  · exact hR.trans expecting (hR.bumpLink ..)
  · exact hR.trans expecting (hR.acceptFrame ..)

theorem huntByte (skipped sync1 : Bool) (b : Byte) (s : State) : R s (huntByte skipped sync1 b s) := by
  have paired : R s { s with rx := .header [] } := hR.registers ..
  unfold Machine.huntByte
  exact RowClosed.ite (RowClosed.ite (hR.trans paired (hR.bumpLink ..)) paired)
    (RowClosed.ite (hR.registers ..) (hR.registers ..))

theorem rxByte (b : Byte) (s : State) : R s (rxByte b s) := by
  unfold Machine.rxByte
  split
  case h_1 => exact hR.huntByte ..
  case h_2 => exact RowClosed.ite (hR.registers ..) (hR.huntByte ..)
  case h_3 => exact RowClosed.ite (hR.registers ..) (hR.huntByte ..)
  case h_4 =>
    exact RowClosed.ite (hR.registers ..)
      (RowClosed.ite (hR.trans (hR.registers ..) (hR.bumpLink ..)) (hR.registers ..))
  case h_5 => exact RowClosed.ite (hR.frameArrived ..) (hR.registers ..)

theorem finishSending (s : State) : R s (finishSending s) := by
  unfold Machine.finishSending
  split <;> exact hR.registers ..

theorem beginSending (s : State) : R s (beginSending s) := by
  unfold Machine.beginSending
  refine RowClosed.ite (hR.refl s) ?_
  split
  · exact hR.refl s
  · exact hR.registers ..
  · exact hR.registers ..

/-! ### Requests -/

/-- A row as a whole, its rule coming to act only in an engine state in which it is handled (R33). -/
theorem handleRequest {q : Req} {act : HostFrame → State → State}
    (keeps : ∀ f s, q.handledIn s.engine = true → R s (act f s)) (s : State) : R s (handleRequest q act s) := by
  have freed : R s { s with handler := .free } := hR.registers ..
  rcases handleRequest_cases q act s with h | ⟨f, -, -, ⟨-, h⟩ | ⟨-, -, h⟩ | ⟨handled, -, h⟩⟩ <;> rw [h]
  · exact hR.refl s
  · exact hR.trans (hR.answered freed ..) (hR.takeNext _)
  · exact hR.trans (hR.answered freed ..) (hR.takeNext _)
  · exact hR.trans (hR.trans freed (keeps f { s with handler := .free } handled)) (hR.takeNext _)

theorem statsRead (f : HostFrame) (s : State) : R s (statsRead f s) := by
  unfold Machine.statsRead
  split
  · exact hR.answer ..
  · exact hR.answered (RowClosed.ite (hR.clearGroup ..) (hR.refl s)) ..

theorem setPlaneSet (f : HostFrame) (s : State) : R s (setPlaneSet f s) := by
  unfold Machine.setPlaneSet; split <;> exact hR.registers ..

theorem setPlaneRemove (f : HostFrame) (s : State) : R s (setPlaneRemove f s) := by
  unfold Machine.setPlaneRemove; split <;> exact hR.registers ..

theorem setHeadSet (f : HostFrame) (s : State) : R s (setHeadSet f s) := by
  unfold Machine.setHeadSet; split <;> exact hR.registers ..

theorem setHeadRemove (f : HostFrame) (s : State) : R s (setHeadRemove f s) := by
  unfold Machine.setHeadRemove; split <;> exact hR.registers ..

theorem setLane (f : HostFrame) (s : State) : R s (setLane f s) := by
  unfold Machine.setLane; split <;> exact hR.registers ..

theorem setMotion (f : HostFrame) (s : State) : R s (setMotion f s) := by
  unfold Machine.setMotion; split <;> exact hR.registers ..

theorem engineHalt (f : HostFrame) (s : State) : R s (engineHalt f s) := by
  have cut : R s (Machine.mapBufs LoadBuf.cut (s.pages.foldl Machine.haltPage s)) :=
    hR.trans (hR.foldl hR.haltPage s.pages s) (hR.mapBufs ..)
  unfold Machine.engineHalt
  dsimp only
  generalize Machine.mapBufs LoadBuf.cut (s.pages.foldl Machine.haltPage s) = t at cut
  exact hR.answered (hR.trans cut (hR.trans (hR.pages [] none none t) (hR.emptyLines _))) ..

theorem pageOpen (f : HostFrame) (s : State) : R s (pageOpen f s) := by
  unfold Machine.pageOpen
  split
  · exact hR.answer ..
  · exact RowClosed.ite (hR.answer ..) (RowClosed.ite (hR.answer ..)
      (hR.answered (hR.trans (hR.pages ..) (hR.bindFollows ..)) ..))

theorem pageCancel (f : HostFrame) (s : State) : R s (pageCancel f s) := by
  unfold Machine.pageCancel
  split
  · exact hR.answer ..
  · exact RowClosed.ite (hR.answered (hR.cancelQueued ..) ..) (hR.answered (hR.cancelBound ..) ..)

theorem markAll (h : Nat) (pairs : List (Nat × NozzleStatus)) (s : State) : R s (markAll h pairs s).1 := by
  induction pairs generalizing s with
  | nil => exact hR.refl s
  | cons pair rest ih => exact hR.trans (hR.registers ..) (ih (markNozzle h pair s))

theorem nozzleMark (f : HostFrame) (s : State) : R s (nozzleMark f s) := by
  unfold Machine.nozzleMark
  split
  · exact hR.answered (hR.markAll ..) ..
  · exact hR.answer ..

theorem nozzleClear (f : HostFrame) (s : State) : R s (nozzleClear f s) := by
  unfold Machine.nozzleClear; split <;> exact hR.registers ..

theorem waveErase (f : HostFrame) (s : State) : R s (waveErase f s) := by
  unfold Machine.waveErase
  split
  · exact hR.registers ..
  · exact RowClosed.ite (hR.registers ..) (hR.registers ..)

theorem waveLoad (f : HostFrame) (s : State) : R s (waveLoad f s) := by
  unfold Machine.waveLoad
  split
  · exact hR.registers ..
  · exact RowClosed.ite (hR.registers ..) (RowClosed.ite (hR.registers ..) (hR.registers ..))

theorem waveSelect (f : HostFrame) (s : State) : R s (waveSelect f s) := by
  unfold Machine.waveSelect
  split
  · exact hR.registers ..
  · exact RowClosed.ite (hR.registers ..) (RowClosed.ite (hR.registers ..) (hR.registers ..))

theorem setHealth (h : Nat) (k : Health) (s : State) : R s (setHealth h k s) := hR.registers ..

theorem changeHealth (h : Nat) (old new : Health) (s : State) : R s (changeHealth h old new s) :=
  RowClosed.ite (hR.setHealth ..) (hR.trans (hR.setHealth ..) (hR.raise ..))

theorem headRestore (f : HostFrame) (s : State) : R s (headRestore f s) := by
  unfold Machine.headRestore
  dsimp only
  split
  · exact RowClosed.ite (hR.answered (hR.trans (hR.changeHealth ..) (hR.beginProbe ..)) ..) (hR.answer ..)
  · exact hR.answer ..

theorem band (f : HostFrame) (s : State) : R s (band f s) := by
  unfold Machine.band
  dsimp only
  split
  case h_4 => exact hR.answered (hR.bumpPlane ..) ..
  all_goals exact hR.registers ..

/-! ### The ends of storings and transfers -/

theorem joinLines (op : Storing) (s : State) : R s (joinLines op (joiningLines s op) s) := by
  unfold Machine.joinLines
  exact hR.trans (hR.join op s) (hR.trans (hR.bumpPlane ..) (hR.trans (hR.bumpPlane ..)
    (hR.trans (hR.advancePointer ..) (hR.peak ..))))

theorem storingEnd (s : State) : R s (storingEnd s) := by
  unfold Machine.storingEnd
  split
  · rename_i op _
    exact hR.trans (hR.answered (hR.trans (hR.registers ..) (hR.trans (hR.joinLines op { s with handler := .free })
      (hR.settle _))) ..) (hR.takeNext _)
  · exact hR.refl s

theorem countHealth (h : Nat) (acked : Bool) (s : State) : R s (countHealth h acked s) := by
  unfold Machine.countHealth
  split
  · exact hR.changeHealth ..
  · exact hR.refl s

theorem loadAcked (h r : Nat) (seq : BitVec 8) (s : State) : R s (loadAcked h r seq s) :=
  hR.trans (hR.countHead ..) (hR.trans (hR.bufferAcked ..) (hR.trans (hR.rowTurn ..)
    (hR.trans (hR.countHealth ..) (hR.settle _))))

theorem loadFailed (h r : Nat) (s : State) : R s (loadFailed h r s) := by
  unfold Machine.loadFailed
  refine hR.trans ?_ (hR.settle _)
  have counted := hR.trans (hR.countHead h .transfers 1 s) (hR.trans (hR.countHead h .failures 1 _)
    (hR.trans (hR.bufferFailed h r _) (hR.countHealth h false _)))
  exact RowClosed.ite (hR.trans counted (hR.enterOffline ..)) counted

theorem probeAcked (h : Nat) (s : State) : R s (probeAcked h s) := by
  unfold Machine.probeAcked
  split
  · exact RowClosed.ite (hR.trans (hR.changeHealth ..) (hR.settle _))
      (hR.trans (hR.setHealth ..) (hR.beginProbe ..))
  · exact hR.refl s

theorem probeFailed (h : Nat) (s : State) : R s (probeFailed h s) := by
  unfold Machine.probeFailed
  split
  · exact hR.changeHealth ..
  · exact hR.refl s

theorem endTransfer (h : Nat) (t : Transfer) (acked : Bool) (s : State) : R s (endTransfer h t acked s) := by
  unfold Machine.endTransfer
  split
  · exact hR.refl s
  · rename_i l _
    refine hR.trans (hR.setLoader h ⟨l.seq, none⟩ s) ?_
    dsimp only
    split
    · exact RowClosed.ite (hR.loadAcked ..) (hR.loadFailed ..)
    · exact hR.trans (hR.countHead h .probes 1 _) (RowClosed.ite (hR.probeAcked ..) (hR.probeFailed ..))

theorem headAnswer (lane : Nat) (bits : BitVec 32) (s : State) : R s (headAnswer lane bits s) := by
  unfold Machine.headAnswer
  split
  · split
    · dsimp only
      split
      · exact hR.refl s
      · exact hR.endTransfer ..
      · exact hR.endTransfer ..
    · exact hR.refl s
  · exact hR.refl s

theorem ackTimeout (h : Nat) (s : State) : R s (ackTimeout h s) := by
  unfold Machine.ackTimeout
  split
  · exact hR.endTransfer ..
  · exact hR.refl s

end CommandClosed

/-! ### Every such command -/

/-- The commands that set the run itself: its engine state, its cue configuration, the position or the tracker. -/
def setsRun : Instr → Bool
  | .powerOn | .softReset | .setCue | .engineStart | .engineStop | .encoderChange _ _ | .paceExpiry | .cueEdge => true
  | _ => false

theorem CommandClosed.exec {R : State → State → Prop} (hR : CommandClosed R) {c : Instr} (other : setsRun c = false)
    (s : State) : ∃ t, exec c s = .next t ∧ R s t := by
  have ruled {act : HostFrame → State → State} (q : Req) (keeps : ∀ f s, R s (act f s)) :
      R s (Machine.handleRequest q act s) := hR.handleRequest (fun f s _ => keeps f s) s
  cases c with
  | powerOn | softReset | setCue | engineStart | engineStop | encoderChange | paceExpiry | cueEdge => cases other
  | hostFrameArrival bytes => exact ⟨_, rfl, hR.foldl (fun s b => hR.rxByte b s) bytes s⟩
  | frameSent => exact ⟨_, rfl, hR.trans (hR.finishSending s) (hR.beginSending _)⟩
  | identify => exact ⟨_, rfl, ruled _ fun f s => hR.answer ..⟩
  | statusQuery => exact ⟨_, rfl, ruled _ fun f s => hR.answer ..⟩
  | statsRead => exact ⟨_, rfl, ruled _ hR.statsRead⟩
  | reset => exact ⟨_, rfl, ruled _ fun f s => hR.registers ..⟩
  | setPlaneSet => exact ⟨_, rfl, ruled _ hR.setPlaneSet⟩
  | setPlaneRemove => exact ⟨_, rfl, ruled _ hR.setPlaneRemove⟩
  | setHeadSet => exact ⟨_, rfl, ruled _ hR.setHeadSet⟩
  | setHeadRemove => exact ⟨_, rfl, ruled _ hR.setHeadRemove⟩
  | setLane => exact ⟨_, rfl, ruled _ hR.setLane⟩
  | setMotion => exact ⟨_, rfl, ruled _ hR.setMotion⟩
  | engineHalt => exact ⟨_, rfl, ruled _ hR.engineHalt⟩
  | pageOpen => exact ⟨_, rfl, ruled _ hR.pageOpen⟩
  | pageCancel => exact ⟨_, rfl, ruled _ hR.pageCancel⟩
  | nozzleMark => exact ⟨_, rfl, ruled _ hR.nozzleMark⟩
  | nozzleClear => exact ⟨_, rfl, ruled _ hR.nozzleClear⟩
  | waveErase => exact ⟨_, rfl, ruled _ hR.waveErase⟩
  | waveLoad => exact ⟨_, rfl, ruled _ hR.waveLoad⟩
  | waveSelect => exact ⟨_, rfl, ruled _ hR.waveSelect⟩
  | headRestore => exact ⟨_, rfl, ruled _ hR.headRestore⟩
  | band => exact ⟨_, rfl, ruled _ hR.band⟩
  | unknownCode => exact ⟨_, rfl, ruled _ fun f s => hR.answer ..⟩
  | storingEnd => exact ⟨_, rfl, hR.storingEnd s⟩
  | sendingEnd h => exact ⟨_, rfl, hR.sendingEnd h s⟩
  | headAnswer lane bits => exact ⟨_, rfl, hR.headAnswer lane bits s⟩
  | ackTimeout h => exact ⟨_, rfl, hR.ackTimeout h s⟩
  | windowEnd h r => exact ⟨_, rfl, hR.windowEnd h r s⟩

end Sys2Proof.Machine
end

