-- ==== Sys2Proof/Proofs/Cue.lean ====
section
/-! SUPPORT. SET_CUE (R18), and what the Cue Tracker makes of a cue edge: the two filters (R20 to R22), the hard sync
(R23), the correcting cue (R24) and the relock (R25). -/

namespace Sys2Proof.Machine

/-! ### SET_CUE (R18) -/

/-- The body of SET_CUE (R166). -/
def cueFields (oc q j wc hold gmin : Nat) : List Byte :=
  leBytes 4 oc ++ leBytes 4 q ++ leBytes 2 j ++ leBytes 4 wc ++ leBytes 4 hold ++ leBytes 4 gmin

/-- The values that R18 accepts. -/
def cueGood (oc q j wc hold gmin : Nat) : Prop :=
  oc ≤ 16777215 ∧ (q = 0 ∨ (64 ≤ q ∧ q ≤ 16777215)) ∧ j ≤ 1023 ∧ j ≤ wc ∧ wc ≤ 65535 ∧ hold ≤ 65535 ∧ gmin ≤ 65535

section
variable {oc q j wc hold gmin : Nat} (b1 : oc < 4294967296) (b2 : q < 4294967296) (b3 : j < 65536)
  (b4 : wc < 4294967296) (b5 : hold < 4294967296) (b6 : gmin < 4294967296)
include b1 b2 b3 b4 b5 b6

/-- The body read back field by field. -/
theorem cueFields_read :
    let body := cueFields oc q j wc hold gmin
    field body 0 4 = oc ∧ field body 4 4 = q ∧ field body 8 2 = j ∧ field body 10 4 = wc ∧ field body 14 4 = hold
      ∧ field body 18 4 = gmin := by
  simp [cueFields, field_append, field_zero, field_only, Nat.mod_eq_of_lt b1, Nat.mod_eq_of_lt b2, Nat.mod_eq_of_lt b3,
    Nat.mod_eq_of_lt b4, Nat.mod_eq_of_lt b5, Nat.mod_eq_of_lt b6]

theorem parseCue_good (good : cueGood oc q j wc hold gmin) :
    parseCue (cueFields oc q j wc hold gmin) = some ⟨oc, q, j, wc, hold, gmin⟩ := by
  obtain ⟨f1, f2, f3, f4, f5, f6⟩ := cueFields_read b1 b2 b3 b4 b5 b6
  simp only [parseCue, f1, f2, f3, f4, f5, f6]
  exact if_pos good

theorem parseCue_bad (bad : ¬ cueGood oc q j wc hold gmin) : parseCue (cueFields oc q j wc hold gmin) = none := by
  obtain ⟨f1, f2, f3, f4, f5, f6⟩ := cueFields_read b1 b2 b3 b4 b5 b6
  simp only [parseCue, f1, f2, f3, f4, f5, f6]
  exact if_neg bad

end

/-- Settles O19: the body is accepted or refused whole, and in RUN it is not read. -/
theorem setCueReplacesTheConfiguration : Obligations.SetCueReplacesTheConfiguration := by
  intro s s1 tag oc q j wc hold gmin b1 b2 b3 b4 b5 b6 taken
  have ruled (setup : s.engine = .setup) : exec .setCue s
      = .next (takeNext (setCue ⟨.control, 0x14#8, tag, cueFields oc q j wc hold gmin⟩ { s with handler := .free })) :=
    congrArg Host.Outcome.next (handleRequest_ruled (q := .setCue) taken rfl (by rw [setup]; rfl)
      (by simp [Req.lengthOk, cueFields]))
  refine ⟨fun setup good => ?_, fun setup bad => ?_, fun run => congrArg Host.Outcome.next ?_⟩
  · rw [ruled setup, setCue, parseCue_good b1 b2 b3 b4 b5 b6 good]
    obtain ⟨-, rfl⟩ := taken
    exact congrArg _ ((takeNext_answer _ _ _ { s with cueCfg := _ }).trans (by rw [movedOn_eq, movedOn_eq]))
  · rw [ruled setup, setCue, parseCue_bad b1 b2 b3 b4 b5 b6 bad]
    obtain ⟨-, rfl⟩ := taken
    exact congrArg _ (takeNext_answer ..)
  · exact handleRequest_wrongState taken rfl (by rw [run]; rfl)

/-! ### The filters (R20 to R22) -/

theorem cueEdge_setup {s : State} (setup : s.engine = .setup) : cueEdge s = s := by
  simp only [cueEdge, setup]

theorem cueEdge_reverse {s : State} (run : s.engine = .run) (behind : s.pRaw < s.hRaw) :
    cueEdge s = bumpMotion .ignoredReverse 1 s := by
  simp only [cueEdge, run, if_pos behind]

theorem inHoldOff_iff {pc : Nat} {s : State} :
    inHoldOff pc s = true ↔ ∃ last, s.lastAccepted = some last ∧ pc < last + s.cueCfg.holdOff := by
  simp [inHoldOff, Option.any_eq_true]

theorem cueEdge_holdOff {s : State} (run : s.engine = .run) (ahead : s.hRaw ≤ s.pRaw)
    (within : inHoldOff s.pInt s = true) : cueEdge s = bumpMotion .ignoredHoldOff 1 s := by
  simp only [cueEdge, run, if_neg (Nat.not_lt.mpr ahead), if_pos within]

/-- A cue edge that passes both filters is accepted at P_int. -/
theorem cueEdge_passes {s : State} (run : s.engine = .run) (ahead : s.hRaw ≤ s.pRaw)
    (late : ¬ inHoldOff s.pInt s = true) : cueEdge s = acceptCue s.pInt s := by
  simp only [cueEdge, run, if_neg (Nat.not_lt.mpr ahead), if_neg late]

theorem not_inHoldOff {pc : Nat} {s : State}
    (late : ∀ last, s.lastAccepted = some last → last + s.cueCfg.holdOff ≤ pc) : ¬ inHoldOff pc s = true := by
  rw [inHoldOff_iff]
  rintro ⟨last, at_, early⟩
  exact Nat.not_lt.mpr (late last at_) early

/-- Settles O28: the three ways in which `cueEdge` takes no cue. -/
theorem ignoredCueEdges : Obligations.IgnoredCueEdges := by
  refine ⟨fun s s1 comes setup => ?_, fun s s1 comes run behind => ?_, fun s s1 last comes run ahead at_ early => ?_⟩
  all_goals
    rw [exec_cueEdge_alone comes]
    obtain ⟨-, rfl⟩ := comes
    refine congrArg Host.Outcome.next ?_
  · exact cueEdge_setup setup
  · exact cueEdge_reverse run behind
  · exact cueEdge_holdOff run ahead (inHoldOff_iff.mpr ⟨last, at_, early⟩)

/-! ### What an accepted cue sets (R23 to R25) -/

/-- The state of a tracker locked at a hard sync at `pc`, before its event (R23). -/
def lockedAt (pc : Nat) (s : State) : State :=
  { s with
    lock := .locked, smoothed := pc, lastAccepted := some pc, predicted := pc + s.cueCfg.pitch, flywheel := 0 }

theorem hardSync_locks {s : State} (pitch : 0 < s.cueCfg.pitch) (pc : Nat) :
    hardSync pc s = offered (.cueLocked pc (pc + s.cueCfg.pitch)) (lockedAt pc s) :=
  (if_neg (Nat.ne_of_gt pitch)).trans (raise_offered ..)

theorem hardSync_noPitch {s : State} (pitch : s.cueCfg.pitch = 0) (pc : Nat) :
    hardSync pc s = { s with smoothed := pc, lastAccepted := some pc } := if_pos pitch

/-- Where a correcting cue takes the smoothed cue: the error is limited to −J to J, and a position is no less than 0
(R24). -/
def correctedTo (pc : Nat) (s : State) : Nat :=
  ((s.predicted : Int) + limitError s.cueCfg.jump ((pc : Int) - (s.predicted : Int))).toNat

theorem followCue_corrects {pc : Nat} {s : State}
    (inside : ((pc : Int) - (s.predicted : Int)).natAbs ≤ s.cueCfg.window) :
    followCue pc s = takeCue (correctedTo pc s) s := if_pos inside

theorem followCue_relocks {pc : Nat} {s : State}
    (outside : ¬ ((pc : Int) - (s.predicted : Int)).natAbs ≤ s.cueCfg.window) :
    followCue pc s = offered (.cueRelock pc s.predicted ((pc : Int) - (s.predicted : Int)))
      (bumpMotion .relocks 1 (takeCue pc s)) := (if_neg outside).trans (raise_offered ..)

theorem limitError_eq (j : Nat) (e : Int) :
    limitError j e = if e < -(j : Int) then -(j : Int) else if (j : Int) < e then (j : Int) else e := by
  unfold limitError
  split_ifs <;> omega

theorem acceptCue_unlocked {s : State} (unlocked : s.lock = .unlocked) (pc : Nat) :
    acceptCue pc s = offer .edge (hardSync pc (bumpMotion .cuesAccepted 1 s)) := by
  simp only [acceptCue, bumpMotion_lock, unlocked]

theorem acceptCue_locked {s : State} (locked : s.lock = .locked) (pc : Nat) :
    acceptCue pc s = offer .edge (followCue pc (bumpMotion .cuesAccepted 1 s)) := by
  simp only [acceptCue, bumpMotion_lock, locked]

/-- An event does not touch what an offer's origin is made of (R29). -/
theorem offer_offered (kind : CueKind) (e : Event) (s : State) :
    offer kind (offered e s) = takeOffer (s.smoothed + s.cueCfg.offset) kind (offered e s) := by
  simp only [offer, ← raise_offered, raise_smoothed, raise_cueCfg]

/-- A cue edge that comes alone and passes both filters. -/
theorem exec_cueEdge_accepted {s s1 : State} (comes : CueComes .nothing s s1) (run : s.engine = .run)
    (ahead : s.hRaw ≤ s.pRaw)
    (late : ∀ last, s.lastAccepted = some last → last + s.cueCfg.holdOff ≤ s.pRaw / 4096) :
    exec .cueEdge s = .next (acceptCue (s.pRaw / 4096) s1) := by
  rw [exec_cueEdge_alone comes]
  obtain ⟨-, rfl⟩ := comes
  exact congrArg _ (cueEdge_passes (s := { s with cueWith := s.cueWith.tail }) run ahead (not_inHoldOff late))

/-- Settles O29: the hard sync with Q above 0 and with Q equal to 0, and its offer. -/
theorem hardSyncTakesTheCue : Obligations.HardSyncTakesTheCue := by
  rintro s s1 _ comes run unlocked ahead rfl late
  rw [exec_cueEdge_accepted comes run ahead late]
  obtain ⟨-, rfl⟩ := comes
  rw [acceptCue_unlocked (by exact unlocked)]
  refine ⟨fun pitch => congrArg _ ?_, fun none => congrArg _ ?_⟩
  · rw [hardSync_locks (by exact pitch), offer_offered]
    rfl
  · rw [hardSync_noPitch (by exact none)]
    rfl

/-- Settles O30: the correcting cue and the relock, and the offer of either. -/
theorem lockedCueCorrectsOrRelocks : Obligations.LockedCueCorrectsOrRelocks := by
  rintro s s1 _ sm _ comes run locked ahead rfl late rfl
  rw [exec_cueEdge_accepted comes run ahead late]
  obtain ⟨-, rfl⟩ := comes
  rw [acceptCue_locked (by exact locked)]
  refine ⟨fun low high corrected => congrArg _ ?_, fun outside => congrArg _ ?_⟩
  · rw [← limitError_eq] at corrected
    have there : correctedTo (s.pRaw / 4096) (bumpMotion .cuesAccepted 1 { s with cueWith := s.cueWith.tail }) = sm :=
      (congrArg Int.toNat corrected.symm).trans (Int.toNat_natCast sm)
    rw [followCue_corrects (by simp; omega), there]
    rfl
  · rw [followCue_relocks (by simp; omega), offer_offered]
    rfl

end Sys2Proof.Machine
end

