-- ==== Sys2Proof/Proofs/FlywheelInvariant.lean ====
section
/-! SUPPORT. In RUN nothing is missed after any command (R26, R27): an arrival of H_int ends with nothing missed, an
accepted cue takes the flywheel point past H_int, and everything else leaves what the flywheel reads. -/

namespace Sys2Proof.Machine

theorem flywheelInv_iff {s : State} : flywheelInv s ↔ (s.engine = .run → Covered s) := by
  unfold flywheelInv Covered flywheelPoint
  cases s.lock <;> simp

/-- A state with the lock, the prediction and the configuration of one with nothing missed, and H_int no further on. -/
theorem Covered.of_same {s t : State} (covered : Covered s) (lock : t.lock = s.lock)
    (predicted : t.predicted = s.predicted) (cfg : t.cueCfg = s.cueCfg) (high : t.hInt ≤ s.hInt) : Covered t := by
  unfold Covered flywheelPoint at *
  rw [lock, predicted, cfg]
  exact covered.imp_right high.trans_lt

theorem RowFrame.covered {s t : State} (a : RowFrame s t) (covered : Covered s) : Covered t :=
  covered.of_same a.lock a.predicted a.cueCfg (congrArg (· / 4096) a.hRaw).le

theorem RowFrame.flywheelInv {s t : State} (a : RowFrame s t) (inv : flywheelInv s) : flywheelInv t :=
  flywheelInv_iff.mpr fun run => a.covered (flywheelInv_iff.mp inv (a.engine ▸ run))

/-! ### An arrival of H_int -/

theorem flywheelTurn_covers {n : Nat} {s : State} (enough : 3 ≤ n + s.flywheel) (pos : 1 ≤ n) :
    Covered (flywheelTurn n s) := by
  induction n generalizing s with
  | zero => omega
  | succ n ih =>
    by_cases covered : Covered s
    · rwa [flywheelTurn_covered covered]
    · by_cases few : s.flywheel ≤ 1
      · obtain ⟨-, count, -, -⟩ := synthesize_keeps s
        rw [flywheelTurn_miss covered few]
        exact ih (by omega) (by omega)
      · rw [flywheelTurn_lose covered few]
        exact loseLock_covered s

/-- No party's turn uncovers a miss. -/
theorem arrivalTurn_covered {s : State} (covered : Covered s) (a : SchedAct) : Covered (arrivalTurn a s) := by
  cases a with
  | cueOnce => rwa [arrivalTurn, flywheelTurn_covered covered]
  | cue => rwa [arrivalTurn, flywheelTurn_covered covered]
  | rowOnce h r => exact (rowFrame_closed.rowOnce h r s).covered covered
  | row h r => exact (rowFrame_closed.rowTurn h r s).covered covered
  | load h => exact (rowFrame_closed.loaderTurn h s).covered covered

theorem arrivalTurns_covered {s : State} (covered : Covered s) (acts : List SchedAct) :
    Covered (acts.foldl (fun s a => arrivalTurn a s) s) := by
  induction acts generalizing s with
  | nil => exact covered
  | cons a acts ih => exact ih (arrivalTurn_covered covered a)

/-- Whatever the free order puts first, the tracker's own turn covers every miss, and the turns behind it keep that. -/
theorem arrival_covered (s : State) : Covered (arrival s) := by
  unfold arrival
  dsimp only
  rw [List.foldl_append, List.foldl_cons]
  exact arrivalTurns_covered (flywheelTurn_covers (by omega) (by omega)) _

/-! ### A cue edge -/

theorem hardSync_covered {pc : Nat} {s : State} (unlocked : s.lock = .unlocked) (reached : s.hInt ≤ pc) :
    Covered (hardSync pc s) := by
  by_cases pitch : s.cueCfg.pitch = 0
  · rw [hardSync_noPitch pitch]
    exact .inl unlocked
  · rw [hardSync_locks (Nat.pos_of_ne_zero pitch), ← raise_offered]
    refine (rowFrame_closed.raise _ (lockedAt pc s)).covered (.inr ?_)
    simp only [flywheelPoint, lockedAt, State.hInt] at *
    omega

/-- A correcting cue leaves the smoothed cue no more than the capture window behind it: the limited error has the sign of
the error and is no greater (R24). -/
theorem le_correctedTo {pc : Nat} {s : State}
    (inside : ((pc : Int) - (s.predicted : Int)).natAbs ≤ s.cueCfg.window) :
    pc ≤ correctedTo pc s + s.cueCfg.window := by
  unfold correctedTo limitError
  omega

theorem followCue_covered {pc : Nat} {s : State} (reached : s.hInt ≤ pc) : Covered (followCue pc s) := by
  by_cases inside : ((pc : Int) - (s.predicted : Int)).natAbs ≤ s.cueCfg.window
  · rw [followCue_corrects inside]
    have near := le_correctedTo inside
    refine .inr ?_
    simp only [flywheelPoint, takeCue, State.hInt] at *
    omega
  · rw [followCue_relocks inside, ← raise_offered]
    refine (rowFrame_closed.raise _ (bumpMotion .relocks 1 (takeCue pc s))).covered (.inr ?_)
    simp only [flywheelPoint, bumpMotion_predicted, bumpMotion_cueCfg, takeCue, State.hInt, bumpMotion_hRaw] at *
    omega

theorem offer_covered {s : State} (covered : Covered s) (kind : CueKind) : Covered (offer kind s) := by
  obtain ⟨lock, -, predicted, cfg, high⟩ := takeOffer_keeps (s.smoothed + s.cueCfg.offset) kind s
  exact covered.of_same lock predicted cfg (congrArg (· / 4096) high).le

/-- A cue accepted at H_int or past it leaves nothing missed. -/
theorem acceptCue_covered {pc : Nat} {s : State} (reached : s.hInt ≤ pc) : Covered (acceptCue pc s) := by
  have counted : (bumpMotion .cuesAccepted 1 s).hInt ≤ pc := reached
  cases lock : s.lock with
  | unlocked =>
    rw [acceptCue_unlocked lock]
    exact offer_covered (hardSync_covered (by exact lock) counted) _
  | locked =>
    rw [acceptCue_locked lock]
    exact offer_covered (followCue_covered counted) _

theorem cueEdge_flywheelInv {s : State} (inv : flywheelInv s) : flywheelInv (cueEdge s) := by
  cases engine : s.engine with
  | setup => rwa [cueEdge_setup engine]
  | run =>
    by_cases behind : s.pRaw < s.hRaw
    · rw [cueEdge_reverse engine behind]
      exact inv
    · have ahead := Nat.not_lt.mp behind
      by_cases held : inHoldOff s.pInt s = true
      · rw [cueEdge_holdOff engine ahead held]
        exact inv
      · rw [cueEdge_passes engine ahead held]
        exact flywheelInv_iff.mpr fun _ => acceptCue_covered (Nat.div_le_div_right ahead)

/-! ### An edge of the substrate -/

theorem moveTo_tracker (p : Nat) (s : State) : (moveTo p s).lock = s.lock ∧ (moveTo p s).predicted = s.predicted := by
  unfold moveTo testDeficit
  split <;> split <;> simp

theorem takeEdge_tracker (c : EdgeClass) (s : State) :
    (takeEdge c s).lock = s.lock ∧ (takeEdge c s).predicted = s.predicted := by
  cases c with
  | same => exact ⟨rfl, rfl⟩
  | forward => exact moveTo_tracker ..
  | reverse => exact moveTo_tracker ..
  | glitch => exact ⟨rfl, rfl⟩

/-- The Motion Unit's step leaves the lock and the prediction. -/
theorem stepTogether_tracker (together : CueWith) (s : State) :
    (stepTogether together s).lock = s.lock ∧ (stepTogether together s).predicted = s.predicted := by
  cases together with
  | nothing => exact ⟨rfl, rfl⟩
  | encoder a b =>
    simp only [stepTogether, encoderStep]
    split
    · exact ⟨rfl, rfl⟩
    · split
      · exact ⟨rfl, rfl⟩
      · exact ⟨rfl, rfl⟩
      · exact takeEdge_tracker _ { s with encPins := ⟨a, b⟩, decRef := ⟨a, b⟩ }
  | pace =>
    simp only [stepTogether, paceStep]
    split
    · exact ⟨rfl, rfl⟩
    · exact takeEdge_tracker .forward { s with pace := .running s.motionCfg.paceInterval }

/-- An edge that does not raise H_int uncovers nothing. -/
theorem stepTogether_flywheelInv {together : CueWith} {s : State} (inv : flywheelInv s)
    (still : ¬ s.hInt < (stepTogether together s).hInt) : flywheelInv (stepTogether together s) := by
  obtain ⟨core, -⟩ := stepTogether_frame together s
  obtain ⟨lock, predicted⟩ := stepTogether_tracker together s
  refine flywheelInv_iff.mpr fun run => ?_
  have covered := flywheelInv_iff.mp inv (core.engine.symm.trans run)
  exact covered.of_same lock predicted core.cueCfg (Nat.not_lt.mp still)

theorem present_flywheelInv {s : State} (inv : flywheelInv s) (together : CueWith) :
    flywheelInv (present s (stepTogether together s)) := by
  unfold present
  split
  · exact flywheelInv_iff.mpr fun _ => arrival_covered _
  · rename_i still
    exact stepTogether_flywheelInv inv still

/-- A cue edge together with an edge of the substrate: the arrival behind it covers every miss, and with none the cue
edge comes to a state with nothing missed (R28). -/
theorem cueThenArrival_flywheelInv {s : State} (inv : flywheelInv s) (together : CueWith) :
    flywheelInv (cueThenArrival s (stepTogether together s)) := by
  unfold cueThenArrival
  split
  · exact flywheelInv_iff.mpr fun _ => arrival_covered _
  · rename_i still
    exact cueEdge_flywheelInv (stepTogether_flywheelInv inv still)

/-! ### Every command -/

theorem flywheelInv_closed : CommandClosed fun s t => flywheelInv s → flywheelInv t where
  refl _ := id
  trans a b := b ∘ a
  raise e s := (rowFrame_closed.raise e s).flywheelInv
  planeCtr _ _ _ _ _ := id
  bumpHead _ _ _ _ := id
  rows _ _ := id
  report _ _ _ _ _ _ _ _ := id
  dropPage _ _ := id
  pages _ _ _ _ := id
  lines _ _ _ _ := id
  loaders _ _ := id
  sched _ _ := id
  registers _ _ _ _ _ _ _ _ _ _ _ _ _ _ _ _ := id
  bumpLink _ _ _ := id
  countHead _ _ _ _ := id
  peak _ _ := id
  clearGroup g _ := by cases g <;> exact id
  join _ _ := id
  emptyLines _ := id

theorem flywheelInv_of_unlocked {s : State} (unlocked : s.lock = .unlocked) : flywheelInv s :=
  flywheelInv_iff.mpr fun _ => .inl unlocked

theorem flywheelInv_of_setup {s : State} (setup : s.engine = .setup) : flywheelInv s := fun run => by
  rw [setup] at run
  cases run

/-- SET_CUE is handled in SETUP only (R33), where nothing is asked of the flywheel. -/
theorem setCue_flywheelInv (f : HostFrame) {s : State} (handled : Req.setCue.handledIn s.engine = true) :
    flywheelInv (setCue f s) := by
  refine flywheelInv_of_setup ?_
  have setup : s.engine = .setup := of_decide_eq_true handled
  unfold setCue
  split <;> exact setup

theorem engineStart_flywheelInv (f : HostFrame) {s : State} (inv : flywheelInv s) : flywheelInv (engineStart f s) := by
  unfold engineStart
  split
  · exact inv
  · exact flywheelInv_of_unlocked rfl

theorem engineStop_flywheelInv (f : HostFrame) {s : State} (inv : flywheelInv s) : flywheelInv (engineStop f s) := by
  unfold engineStop
  split
  · exact flywheelInv_of_setup rfl
  · exact inv

theorem exec_flywheelInv (c : Instr) {s : State} (inv : flywheelInv s) : ∃ t, exec c s = .next t ∧ flywheelInv t := by
  cases own : setsRun c with
  | false =>
    obtain ⟨t, run, keeps⟩ := flywheelInv_closed.exec own s
    exact ⟨t, run, keeps inv⟩
  | true =>
    cases c with
    | powerOn => exact ⟨_, rfl, flywheelInv_of_unlocked rfl⟩
    | softReset =>
      refine ⟨_, rfl, ?_⟩
      split
      · exact flywheelInv_of_unlocked rfl
      · exact inv
    | setCue =>
      exact ⟨_, rfl, flywheelInv_closed.handleRequest (fun f _ handled _ => setCue_flywheelInv f handled) s inv⟩
    | engineStart => exact ⟨_, rfl, flywheelInv_closed.handleRequest (fun f _ _ => engineStart_flywheelInv f) s inv⟩
    | engineStop => exact ⟨_, rfl, flywheelInv_closed.handleRequest (fun f _ _ => engineStop_flywheelInv f) s inv⟩
    | encoderChange a b => exact ⟨_, rfl, present_flywheelInv inv (.encoder a b)⟩
    | paceExpiry => exact ⟨_, rfl, present_flywheelInv inv .pace⟩
    | cueEdge => exact ⟨_, rfl, cueThenArrival_flywheelInv (s := (popCueWith s).2) inv (popCueWith s).1⟩
    | _ => cases own

/-- Settles O56: every command keeps the invariant, and taking it from the queue does not touch it. -/
theorem flywheelIsNeverBehind : Obligations.FlywheelIsNeverBehind := by
  intro s t inv run
  unfold Machine.step at run
  split at run
  · obtain rfl := Host.Outcome.next.inj run
    exact inv
  · rename_i c rest _
    obtain ⟨u, ran, keeps⟩ := exec_flywheelInv c (s := { s with pending := rest }) inv
    obtain rfl := Host.Outcome.next.inj (run.symm.trans ran)
    exact keeps

end Sys2Proof.Machine
end

