-- ==== Sys2Proof/Proofs/RunRecord.lean ====
section
/-! SUPPORT. What the link, the nozzle map, the banks, health and the counters are no part of: the configuration, the engine
state, the page records and the rows; and which commands leave all of that alone. -/

namespace Sys2Proof.Machine

/-- Engine state, configuration with what ENGINE_START derives of it, page records and rows. -/
structure RunRecord where
  engine    : EngineState
  motionCfg : MotionCfg
  cueCfg    : CueCfg
  planes    : Vector (Option PlaneCfg) 8
  heads     : Vector (Option HeadCfg) 24
  lanes     : Vector Lane 72
  regions   : Vector (Option Region) 8
  decode    : Vector (Option PlaneDecode) 8
  links     : Vector (Option HeadLink) 24
  pages     : List Page
  rows      : Vector (List Row) 24

def runRecord (s : State) : RunRecord :=
  ⟨s.engine, s.motionCfg, s.cueCfg, s.planes, s.heads, s.lanes, s.regions, s.decode, s.links, s.pages, s.rows⟩

/-- Nothing of the run's record has changed. -/
def SameRun (s t : State) : Prop := runRecord t = runRecord s

namespace SameRun

theorem trans {s t u : State} (a : SameRun s t) (b : SameRun t u) : SameRun s u := Eq.trans b a

theorem pages {s t : State} (a : SameRun s t) : t.pages = s.pages := congrArg RunRecord.pages a

theorem rows {s t : State} (a : SameRun s t) : t.rows = s.rows := congrArg RunRecord.rows a

theorem foldl {α : Type} {f : State → α → State} (step : ∀ s a, SameRun s (f s a)) (l : List α) (s : State) :
    SameRun s (l.foldl f s) := by
  induction l generalizing s with
  | nil => rfl
  | cons a l ih => exact (step s a).trans (ih _)

theorem raise (e : Event) (s : State) : SameRun s (raise e s) := by
  rcases raise_cases s e with ⟨-, h⟩ | ⟨-, h⟩ <;> rw [h] <;> rfl

theorem raised {s t : State} (a : SameRun s t) (e : Event) : SameRun s (Machine.raise e t) := a.trans (raise e t)

/-! ### The Link Port -/

theorem takeNext (s : State) : SameRun s (takeNext s) := by
  rcases takeNext_cases s with h | ⟨f, rest, h⟩ | ⟨f, rest, h⟩ <;> rw [h] <;> rfl

theorem refuseArrival (f : HostFrame) (st : Status) (c : LinkCtr) (s : State) : SameRun s (refuseArrival f st c s) :=
  RowClosed.ite rfl rfl

theorem acceptFrame (f : HostFrame) (s : State) : SameRun s (acceptFrame f s) := by
  have accepted (ctl data : List HostFrame) :
      SameRun s (bumpLink .goodFrames 1 (Machine.takeNext { s with ctlWaiting := ctl, dataWaiting := data })) :=
    takeNext { s with ctlWaiting := ctl, dataWaiting := data }
  unfold Machine.acceptFrame
  split
  · exact RowClosed.ite (accepted _ _) (refuseArrival ..)
  · exact RowClosed.ite (accepted _ _) (refuseArrival ..)

theorem frameArrived (covered check : List Byte) (s : State) : SameRun s (frameArrived covered check s) := by
  unfold Machine.frameArrived
  refine RowClosed.ite rfl ?_
  dsimp only
  split
  · rfl
  · exact acceptFrame _ { s with rx := .expecting }

theorem huntByte (skipped sync1 : Bool) (b : Byte) (s : State) : SameRun s (huntByte skipped sync1 b s) :=
  RowClosed.ite (RowClosed.ite rfl rfl) (RowClosed.ite rfl rfl)

theorem rxByte (b : Byte) (s : State) : SameRun s (rxByte b s) := by
  unfold Machine.rxByte
  split
  case h_1 => exact huntByte ..
  case h_2 => exact RowClosed.ite rfl (huntByte ..)
  case h_3 => exact RowClosed.ite rfl (huntByte ..)
  case h_4 => exact RowClosed.ite rfl (RowClosed.ite rfl rfl)
  case h_5 => exact RowClosed.ite (frameArrived ..) rfl

theorem finishSending (s : State) : SameRun s (finishSending s) := by
  unfold Machine.finishSending
  split <;> rfl

theorem beginSending (s : State) : SameRun s (beginSending s) := by
  unfold Machine.beginSending
  refine RowClosed.ite rfl ?_
  split <;> rfl

/-! ### Requests -/

theorem handleRequest {q : Req} {act : HostFrame → State → State} (keeps : ∀ f s, SameRun s (act f s)) (s : State) :
    SameRun s (handleRequest q act s) := by
  rcases handleRequest_cases q act s with h | ⟨f, -, -, ⟨-, h⟩ | ⟨-, -, h⟩ | ⟨-, -, h⟩⟩ <;> rw [h]
  · rfl
  · exact takeNext (answer f .wrongState [] { s with handler := .free })
  · exact takeNext (answer f .badArgument (q.lengthRefusalBody s) { s with handler := .free })
  · exact (keeps f { s with handler := .free }).trans (takeNext _)

theorem statsRead (f : HostFrame) (s : State) : SameRun s (statsRead f s) := by
  have cleared (g : Group) : SameRun s (clearGroup g s) := by cases g <;> rfl
  unfold Machine.statsRead
  split
  · rfl
  · exact trans (RowClosed.ite (cleared _) rfl) rfl

theorem markAll (h : Nat) (pairs : List (Nat × NozzleStatus)) (s : State) : SameRun s (markAll h pairs s).1 := by
  induction pairs generalizing s with
  | nil => rfl
  | cons pair rest ih => exact ih (markNozzle h pair s)

theorem nozzleMark (f : HostFrame) (s : State) : SameRun s (nozzleMark f s) := by
  unfold Machine.nozzleMark
  split
  · exact markAll _ _ s
  · rfl

theorem nozzleClear (f : HostFrame) (s : State) : SameRun s (nozzleClear f s) := by
  unfold Machine.nozzleClear; split <;> rfl

theorem waveErase (f : HostFrame) (s : State) : SameRun s (waveErase f s) := by
  unfold Machine.waveErase
  split
  · rfl
  · exact RowClosed.ite rfl rfl

theorem waveLoad (f : HostFrame) (s : State) : SameRun s (waveLoad f s) := by
  unfold Machine.waveLoad
  split
  · rfl
  · exact RowClosed.ite rfl (RowClosed.ite rfl rfl)

theorem waveSelect (f : HostFrame) (s : State) : SameRun s (waveSelect f s) := by
  unfold Machine.waveSelect
  split
  · rfl
  · exact RowClosed.ite rfl (RowClosed.ite rfl rfl)

theorem changeHealth (h : Nat) (old new : Health) (s : State) : SameRun s (changeHealth h old new s) :=
  RowClosed.ite rfl (raise _ (setHealth h new s))

theorem beginProbe (h n : Nat) (s : State) : SameRun s (beginProbe h n s) := by
  unfold Machine.beginProbe
  split <;> rfl

theorem headRestore (f : HostFrame) (s : State) : SameRun s (headRestore f s) := by
  unfold Machine.headRestore
  dsimp only
  split
  · exact RowClosed.ite ((changeHealth ..).trans (beginProbe ..)) rfl
  · rfl

theorem band (f : HostFrame) (s : State) : SameRun s (band f s) := by
  unfold Machine.band
  dsimp only
  split <;> rfl

/-! ### Lines, transfers and health -/

theorem sendingEnd (h : Nat) (s : State) : SameRun s (sendingEnd h s) := by
  unfold Machine.sendingEnd
  split <;> rfl

theorem retireLine (p : Nat) (e : Entry) (s : State) : SameRun s (retireLine p e s) := by
  unfold Machine.retireLine
  split
  · rfl
  · exact RowClosed.ite rfl rfl

theorem composeLine (p : Nat) (l : StoredLine) (s : State) : SameRun s (composeLine p l s) := by
  unfold Machine.composeLine
  split <;> rfl

theorem composeNext (h r : Nat) (s : State) : SameRun s (composeNext h r s) := by
  unfold Machine.composeNext
  split
  · split
    · exact composeLine ..
    · rfl
  · rfl

theorem countEntries (k : Kind) (p : Page) (g : Nat → Nat) (s : State) : SameRun s (countEntries k p g s) := by
  have counted (h n : Nat) (u : State) : SameRun u (bumpHead h (.retired k) n u) := rfl
  unfold Machine.countEntries
  exact foldl (fun u h => counted h _ u) _ s

theorem freeLinesFrom (p : Page) (m : Nat) (s : State) : SameRun s (freeLinesFrom p m s) := by
  have freed (plane : Nat) (ls : List StoredLine) (u : State) : SameRun u (setLines plane ls u) := rfl
  unfold Machine.freeLinesFrom
  exact foldl (fun u plane => RowClosed.ite (freed plane _ u) rfl) _ s

theorem countHealth (h : Nat) (acked : Bool) (s : State) : SameRun s (countHealth h acked s) := by
  unfold Machine.countHealth
  split
  · exact changeHealth ..
  · rfl

theorem probeFailed (h : Nat) (s : State) : SameRun s (probeFailed h s) := by
  unfold Machine.probeFailed
  split
  · exact changeHealth ..
  · rfl

end SameRun

/-- The commands that act on engine state, configuration, pages or rows. -/
def actsOnRun : Instr → Bool
  | .hostFrameArrival _ | .frameSent | .identify | .statusQuery | .statsRead | .reset | .nozzleMark | .nozzleClear
  | .waveErase | .waveLoad | .waveSelect | .headRestore | .band | .unknownCode | .sendingEnd _ => false
  | _ => true

/-- The other commands leave the run's record as it stands. -/
theorem exec_sameRun {c : Instr} (aside : actsOnRun c = false) (s : State) : ∃ t, exec c s = .next t ∧ SameRun s t := by
  have ruled {act : HostFrame → State → State} (q : Req) (keeps : ∀ f s, SameRun s (act f s)) :
      SameRun s (handleRequest q act s) := SameRun.handleRequest keeps s
  cases c with
  | hostFrameArrival bytes => exact ⟨_, rfl, SameRun.foldl (fun s b => SameRun.rxByte b s) bytes s⟩
  | frameSent => exact ⟨_, rfl, (SameRun.finishSending s).trans (SameRun.beginSending _)⟩
  | identify => exact ⟨_, rfl, ruled _ fun _ _ => rfl⟩
  | statusQuery => exact ⟨_, rfl, ruled _ fun _ _ => rfl⟩
  | statsRead => exact ⟨_, rfl, ruled _ SameRun.statsRead⟩
  | reset => exact ⟨_, rfl, ruled _ fun _ _ => rfl⟩
  | nozzleMark => exact ⟨_, rfl, ruled _ SameRun.nozzleMark⟩
  | nozzleClear => exact ⟨_, rfl, ruled _ SameRun.nozzleClear⟩
  | waveErase => exact ⟨_, rfl, ruled _ SameRun.waveErase⟩
  | waveLoad => exact ⟨_, rfl, ruled _ SameRun.waveLoad⟩
  | waveSelect => exact ⟨_, rfl, ruled _ SameRun.waveSelect⟩
  | headRestore => exact ⟨_, rfl, ruled _ SameRun.headRestore⟩
  | band => exact ⟨_, rfl, ruled _ SameRun.band⟩
  | unknownCode => exact ⟨_, rfl, ruled _ fun _ _ => rfl⟩
  | sendingEnd h => exact ⟨_, rfl, SameRun.sendingEnd h s⟩
  | _ => cases aside

end Sys2Proof.Machine
end

