-- ==== Sys2Proof/Proofs/Turns.lean ====
section
/-! SUPPORT. What rows and loaders do in their turns, act by act, and what the ends of transfers, windows and storings add
to that: once for every relation that the single acts keep. -/

namespace Sys2Proof.Machine

/-- A relation of a state and a later one that the single acts of rows and loaders keep: composing a line, a fire start,
one decision at due, and the choice of an entry to load. -/
structure TurnClosed (R : State → State → Prop) : Prop where
  refl : ∀ s, R s s
  trans : ∀ {s t u}, R s t → R t u → R s u
  compose : ∀ p l s, R s (composeLine p l s)
  transfer : ∀ h c l s, R s (beginTransfer h c l s)
  sched : ∀ l s, R s { s with sched := l }
  fire : ∀ {k h r e seq d s} new, rowAt s h r = some ⟨.full e seq, .idle⟩ → dueOf s h r e = some d → d ≤ s.hInt →
    k = .fired ∨ k = .overspeed → R s (retire k h r e (setRow h r ⟨.empty, new⟩ s))
  decide : ∀ {k h r e s}, ripeEntry s h r = some e → decisionAtDue s h r e = some k → R s (retire k h r e s)
  load : ∀ {h r e fire s}, rowAt s h r = some ⟨.empty, fire⟩ → nextEntry s h r = some e →
    R s (setRow h r ⟨.loading e false, fire⟩ s)

/-- What `RowClosed` relations keep, the acts keep. -/
theorem RowClosed.turnClosed {R : State → State → Prop} (hR : RowClosed R) : TurnClosed R where
  refl := hR.refl
  trans := hR.trans
  compose := hR.composeLine
  transfer := hR.beginTransfer
  sched := hR.sched
  fire _ _ _ _ _ := hR.trans (hR.setRow ..) (hR.retire ..)
  decide _ _ := hR.retire ..
  load _ _ := hR.setRow ..

/-- The candidate chosen is one of the list. -/
theorem leastDue_mem {cs : List Candidate} {c : Candidate} (least : leastDue cs = some c) : c ∈ cs := by
  induction cs with
  | nil => cases least
  | cons a cs ih =>
    unfold leastDue at least
    split at least
    · rename_i d hd
      split at least
      · exact List.mem_cons_of_mem _ (ih (hd.trans least))
      · exact Option.some.inj least ▸ List.mem_cons_self
    · exact Option.some.inj least ▸ List.mem_cons_self

/-- A candidate is its row's next entry, the row's buffer EMPTY (R108). -/
theorem candidate_some {s : State} {h r : Nat} {c : Candidate} (eligible : candidate s h r = some c) :
    c.row = r ∧ nextEntry s h r = some c.entry ∧ ∃ fire, rowAt s h r = some ⟨.empty, fire⟩ := by
  unfold candidate at eligible
  split at eligible
  · rename_i fire e row next
    split at eligible
    · split at eligible
      · cases eligible
      · obtain rfl := Option.some.inj eligible
        exact ⟨rfl, next, fire, row⟩
    · cases eligible
  · cases eligible

namespace TurnClosed

variable {R : State → State → Prop} (hR : TurnClosed R)
include hR

theorem foldl {α : Type} {f : State → α → State} (step : ∀ s a, R s (f s a)) (l : List α) (s : State) :
    R s (l.foldl f s) := by
  induction l generalizing s with
  | nil => exact hR.refl s
  | cons a l ih => exact hR.trans (step s a) (ih _)

theorem composeNext (h r : Nat) (s : State) : R s (composeNext h r s) := by
  unfold Machine.composeNext
  split
  · split
    · exact hR.compose ..
    · exact hR.refl s
  · exact hR.refl s

theorem decideRow (fuel h r : Nat) (s : State) : R s (decideRow fuel h r s) := by
  induction fuel generalizing s with
  | zero => exact hR.composeNext h r s
  | succ fuel ih =>
    unfold Machine.decideRow
    refine hR.trans (hR.composeNext h r s) ?_
    dsimp only
    split
    · exact hR.refl _
    · rename_i e ripe
      split
      · exact hR.refl _
      · rename_i k due
        exact hR.trans (hR.decide ripe due) (ih _)

theorem fireStart (h r : Nat) (s : State) : R s (fireStart h r s) := by
  unfold Machine.fireStart
  split
  · rename_i e seq row
    split
    · exact hR.refl s
    · rename_i d due
      by_cases early : s.hInt < d
      · rw [if_pos early]; exact hR.refl s
      · rw [if_neg early]
        exact RowClosed.ite (hR.fire _ row due (Nat.not_lt.mp early) (.inl rfl))
          (hR.fire _ row due (Nat.not_lt.mp early) (.inr rfl))
  · exact hR.refl s

theorem rowTurn (h r : Nat) (s : State) : R s (rowTurn h r s) := hR.trans (hR.fireStart h r s) (hR.decideRow ..)

theorem rowOnce (h r : Nat) (s : State) : R s (rowOnce h r s) := by
  unfold Machine.rowOnce
  split
  · exact hR.trans (hR.fireStart h r s) (hR.composeNext ..)
  · exact hR.decideRow ..

theorem loaderTurn (h : Nat) (s : State) : R s (loaderTurn h s) := by
  unfold Machine.loaderTurn
  split
  · split
    · split
      · rename_i c chosen
        obtain ⟨r, -, eligible⟩ := List.mem_filterMap.mp (leastDue_mem chosen)
        obtain ⟨rfl, next, fire, row⟩ := candidate_some eligible
        unfold beginLoad
        rw [row]
        exact hR.trans (hR.load row next) (hR.trans (hR.transfer ..) (hR.composeNext ..))
      · exact hR.refl s
    · exact hR.refl s
  · exact hR.refl s

theorem turn (a : SchedAct) (s : State) : R s (turn a s) := by
  cases a with
  | cueOnce => exact hR.refl s
  | cue => exact hR.refl s
  | rowOnce h r => exact hR.rowOnce h r s
  | row h r => exact hR.rowTurn h r s
  | load h => exact hR.loaderTurn h s

theorem popSched (s : State) : R s (popSched s).2 := by
  rw [popSched_snd]; exact hR.sched _ s

theorem composeAll (s : State) : R s (composeAll s) :=
  hR.foldl (fun s (t : Nat × Nat) => hR.composeNext t.1 t.2 s) _ s

theorem settle (s : State) : R s (settle s) :=
  hR.trans (hR.popSched s) (hR.trans (hR.composeAll _) (hR.foldl (fun s a => hR.turn a s) _ _))

end TurnClosed

/-- A relation that the ends of transfers, windows and storings keep as well: what leaves the run's record, a change of a
buffer that takes up no entry, the loss of a buffered entry, and an arrival pointer's advance. -/
structure EndClosed (R : State → State → Prop) : Prop extends TurnClosed R where
  aside : ∀ {s t}, SameRun s t → R s t
  buffer : ∀ {h r old s} new, rowAt s h r = some old → new.buf.held = none ∨ new.buf.held = old.buf.held →
    R s (setRow h r new s)
  lose : ∀ {h r old e s} fire, rowAt s h r = some old → old.buf.held = some e →
    R s (retire .linkLoss h r e (setRow h r ⟨.empty, fire⟩ s))
  pointer : ∀ {g s} arrival, pageById s g.id = some g → R s (setPage { g with arrival := arrival } s)

theorem PageClosed.endClosed {R : State → State → Prop} (hR : PageClosed R) (aside : ∀ {s t}, SameRun s t → R s t) :
    EndClosed R where
  toTurnClosed := hR.toRowClosed.turnClosed
  aside := aside
  buffer _ _ _ := hR.setRow ..
  lose _ _ _ := hR.trans (hR.setRow ..) (hR.retire ..)
  pointer _ _ := hR.setPage ..

namespace EndClosed

variable {R : State → State → Prop} (hR : EndClosed R)
include hR

theorem windowEnd (h r : Nat) (s : State) : R s (windowEnd h r s) := by
  unfold Machine.windowEnd
  split
  · rename_i buf _ _ row
    exact hR.trans (hR.buffer ⟨buf, .idle⟩ row (.inr rfl)) (hR.settle _)
  · exact hR.refl s

theorem loseFull (h r : Nat) (s : State) : R s (loseFull h r s) := by
  unfold Machine.loseFull
  split
  · rename_i e _ fire row
    exact hR.lose fire row rfl
  · exact hR.refl s

theorem enterOffline (h : Nat) (s : State) : R s (enterOffline h s) := hR.foldl (fun s r => hR.loseFull h r s) _ s

theorem bufferAcked (h r : Nat) (seq : BitVec 8) (s : State) : R s (bufferAcked h r seq s) := by
  unfold Machine.bufferAcked
  split
  · rename_i e spent fire row
    refine hR.buffer _ row ?_
    cases spent
    · exact .inr rfl
    · exact .inl rfl
  · exact hR.refl s

theorem bufferFailed (h r : Nat) (s : State) : R s (bufferFailed h r s) := by
  unfold Machine.bufferFailed
  split
  · rename_i e spent fire row
    cases spent
    · exact hR.lose fire row rfl
    · exact hR.buffer ⟨.empty, fire⟩ row (.inl rfl)
  · exact hR.refl s

theorem loadAcked (h r : Nat) (seq : BitVec 8) (s : State) : R s (loadAcked h r seq s) :=
  hR.trans (hR.aside (t := bumpHead h .transfers 1 s) rfl) (hR.trans (hR.bufferAcked ..) (hR.trans (hR.rowTurn ..)
    (hR.trans (hR.aside (SameRun.countHealth ..)) (hR.settle _))))

theorem loadFailed (h r : Nat) (s : State) : R s (loadFailed h r s) := by
  unfold Machine.loadFailed
  refine hR.trans ?_ (hR.settle _)
  have counted : R s (bumpHead h .failures 1 (bumpHead h .transfers 1 s)) := hR.aside rfl
  have lost := hR.trans counted (hR.trans (hR.bufferFailed h r _) (hR.aside (SameRun.countHealth h false _)))
  exact RowClosed.ite (hR.trans lost (hR.enterOffline ..)) lost

theorem probeAcked (h : Nat) (s : State) : R s (probeAcked h s) := by
  unfold Machine.probeAcked
  split
  · exact RowClosed.ite (hR.trans (hR.aside (SameRun.changeHealth ..)) (hR.settle _))
      (hR.aside (SameRun.trans (t := setHealth h _ s) rfl (SameRun.beginProbe ..)))
  · exact hR.refl s

theorem endTransfer (h : Nat) (t : Transfer) (acked : Bool) (s : State) : R s (endTransfer h t acked s) := by
  unfold Machine.endTransfer
  split
  · exact hR.refl s
  · rename_i l _
    have idle : R s (setLoader h ⟨l.seq, none⟩ s) := hR.aside rfl
    dsimp only
    split
    · exact hR.trans idle (RowClosed.ite (hR.loadAcked ..) (hR.loadFailed ..))
    · have counted : R s (bumpHead h .probes 1 (setLoader h ⟨l.seq, none⟩ s)) := hR.aside rfl
      exact hR.trans counted (RowClosed.ite (hR.probeAcked ..) (hR.aside (SameRun.probeFailed ..)))

theorem headAnswer (lane : Nat) (bits : BitVec 32) (s : State) : R s (headAnswer lane bits s) := by
  unfold Machine.headAnswer
  split
  · split
    · dsimp only
      split
      · exact hR.refl s
      · exact hR.endTransfer ..
      · exact hR.endTransfer ..
    · exact hR.refl s
  · exact hR.refl s

theorem ackTimeout (h : Nat) (s : State) : R s (ackTimeout h s) := by
  unfold Machine.ackTimeout
  split
  · exact hR.endTransfer ..
  · exact hR.refl s

theorem advancePointer (op : Storing) (s : State) : R s (advancePointer op s) := by
  unfold Machine.advancePointer
  split
  · rename_i g page
    exact hR.pointer _ (by rw [pageById_id page]; exact page)
  · exact hR.refl s

theorem joinLines (op : Storing) (joined : List StoredLine) (s : State) : R s (joinLines op joined s) := by
  have peak (u : State) : R u (updatePeak op.plane u) := hR.aside rfl
  have placed : R s (bumpPlane op.plane .discardedLate (op.lines.length - joined.length)
      (bumpPlane op.plane .linesStored joined.length (setLines op.plane (linesOf s op.plane ++ joined) s))) :=
    hR.aside rfl
  exact hR.trans placed (hR.trans (hR.advancePointer op _) (peak _))

theorem storingEnd (s : State) : R s (storingEnd s) := by
  unfold Machine.storingEnd
  split
  · rename_i op _
    have freed : R s { s with handler := .free } := hR.aside rfl
    have done (f : HostFrame) (st : Status) (b : List Byte) (u : State) : R u (takeNext (answer f st b u)) :=
      hR.aside (SameRun.takeNext (answer f st b u))
    exact hR.trans freed (hR.trans (hR.joinLines op (joiningLines s op) _) (hR.trans (hR.settle _) (done ..)))
  · exact hR.refl s

end EndClosed

end Sys2Proof.Machine
end

