-- ==== Sys2Proof/Proofs/ConfigurationFixed.lean ====
section
/-! SUPPORT. Within a run no command changes the configuration or what ENGINE_START derived of it (R33, R52, R78, R136),
and no command but ENGINE_START, ENGINE_STOP and the resets changes the engine state (R32). -/

namespace Sys2Proof.Machine

/-! ### The engine state -/

def EngineKept (s t : State) : Prop := t.engine = s.engine

theorem engineKept_closed : CommandClosed EngineKept where
  refl _ := rfl
  trans a b := Eq.trans b a
  raise e s := raise_engine s e
  planeCtr _ _ _ _ _ := rfl
  bumpHead _ _ _ _ := rfl
  rows _ _ := rfl
  report _ _ _ _ _ _ _ _ := rfl
  dropPage _ _ := rfl
  pages _ _ _ _ := rfl
  lines _ _ _ _ := rfl
  loaders _ _ := rfl
  sched _ _ := rfl
  registers _ _ _ _ _ _ _ _ _ _ _ _ _ _ _ _ := rfl
  bumpLink _ _ _ := rfl
  countHead _ _ _ _ := rfl
  peak _ _ := rfl
  clearGroup g _ := by cases g <;> rfl
  join _ _ := rfl
  emptyLines _ := rfl

/-- The steps of the Motion Unit and the Cue Tracker leave everything but the position, the tracker, pages and rows. -/
theorem exec_coreFrame {c : Instr} (moves : (∃ a b, c = .encoderChange a b) ∨ c = .paceExpiry) (s : State) :
    ∃ t, exec c s = .next t ∧ CoreFrame s t := by
  rcases moves with ⟨a, b, rfl⟩ | rfl
  · exact ⟨_, rfl, (stepTogether_frame (.encoder a b) s).1.trans (present_frame s _).core⟩
  · exact ⟨_, rfl, (stepTogether_frame .pace s).1.trans (present_frame s _).core⟩

/-- A cue edge leaves them too, the free value `cueWith` apart, which it uses up. -/
theorem exec_cueEdge_coreFrame (s : State) :
    ∃ t, exec .cueEdge s = .next t ∧ CoreFrame { s with cueWith := s.cueWith.tail } t :=
  ⟨_, rfl, (stepTogether_frame (popCueWith s).1 (popCueWith s).2).1.trans (cueThenArrival_frame ..).core⟩

theorem setCue_engine (f : HostFrame) (s : State) : EngineKept s (setCue f s) := by
  unfold setCue; split <;> rfl

theorem exec_engineKept {c : Instr} (notPower : c ≠ .powerOn) (notReset : c ≠ .softReset) (notStart : c ≠ .engineStart)
    (notStop : c ≠ .engineStop) (s : State) : ∃ t, exec c s = .next t ∧ EngineKept s t := by
  cases own : setsRun c with
  | false => exact engineKept_closed.exec own s
  | true =>
    cases c with
    | powerOn => exact absurd rfl notPower
    | softReset => exact absurd rfl notReset
    | engineStart => exact absurd rfl notStart
    | engineStop => exact absurd rfl notStop
    | setCue => exact ⟨_, rfl, engineKept_closed.handleRequest (fun f s _ => setCue_engine f s) s⟩
    | encoderChange a b =>
      obtain ⟨t, run, core⟩ := exec_coreFrame (.inl ⟨a, b, rfl⟩) s
      exact ⟨t, run, core.engine⟩
    | paceExpiry =>
      obtain ⟨t, run, core⟩ := exec_coreFrame (.inr rfl) s
      exact ⟨t, run, core.engine⟩
    | cueEdge =>
      obtain ⟨t, run, core⟩ := exec_cueEdge_coreFrame s
      exact ⟨t, run, core.engine⟩
    | _ => cases own

/-! ### The configuration -/

/-- The configuration and what ENGINE_START derives of it stand. -/
def ConfigKept (s t : State) : Prop :=
  t.motionCfg = s.motionCfg ∧ t.cueCfg = s.cueCfg ∧ t.planes = s.planes ∧ t.heads = s.heads
    ∧ t.lanes = s.lanes ∧ t.regions = s.regions ∧ t.decode = s.decode ∧ t.links = s.links

theorem ConfigKept.refl (s : State) : ConfigKept s s := ⟨rfl, rfl, rfl, rfl, rfl, rfl, rfl, rfl⟩

theorem ConfigKept.trans {s t u : State} (a : ConfigKept s t) (b : ConfigKept t u) : ConfigKept s u := by
  obtain ⟨a1, a2, a3, a4, a5, a6, a7, a8⟩ := a
  obtain ⟨b1, b2, b3, b4, b5, b6, b7, b8⟩ := b
  exact ⟨b1.trans a1, b2.trans a2, b3.trans a3, b4.trans a4, b5.trans a5, b6.trans a6, b7.trans a7, b8.trans a8⟩

theorem CoreFrame.configKept {s t : State} (a : CoreFrame s t) : ConfigKept s t :=
  ⟨a.motionCfg, a.cueCfg, a.planes, a.heads, a.lanes, a.regions, a.decode, a.links⟩

theorem RowFrame.configKept {s t : State} (a : RowFrame s t) : ConfigKept s t := a.tracker.core.configKept

theorem SameRun.configKept {s t : State} (a : SameRun s t) : ConfigKept s t := by
  have field {α : Type} (f : RunRecord → α) : f (runRecord t) = f (runRecord s) := congrArg f a
  exact ⟨field RunRecord.motionCfg, field RunRecord.cueCfg, field RunRecord.planes, field RunRecord.heads,
    field RunRecord.lanes, field RunRecord.regions, field RunRecord.decode, field RunRecord.links⟩

theorem configKept_closed : PageClosed ConfigKept where
  refl := .refl
  trans := .trans
  raise e s := (rowFrame_closed.raise e s).configKept
  planeCtr p c x s h := (rowFrame_closed.planeCtr p c x s h).configKept
  bumpHead h c n s := (rowFrame_closed.bumpHead h c n s).configKept
  rows rs s := (rowFrame_closed.rows rs s).configKept
  report p k h r n pl s hp := (rowFrame_closed.report p k h r n pl s hp).configKept
  dropPage id s := (rowFrame_closed.dropPage id s).configKept
  lines p ls s h := (rowFrame_closed.lines p ls s h).configKept
  loaders ls s := (rowFrame_closed.loaders ls s).configKept
  sched l s := (rowFrame_closed.sched l s).configKept
  pages ps te tp s := (rowFrame_closed.pages ps te tp s).configKept

theorem configKept_ends : EndClosed ConfigKept := configKept_closed.endClosed SameRun.configKept

namespace ConfigKept

/-- A request's row in RUN, its rule coming to act only if it is handled there (R33). -/
theorem handleRequest {q : Req} {act : HostFrame → State → State} {s : State} (run : s.engine = .run)
    (keeps : q.handledIn .run = true → ∀ f, ConfigKept { s with handler := .free } (act f { s with handler := .free })) :
    ConfigKept s (handleRequest q act s) := by
  rcases handleRequest_cases q act s with h | ⟨f, -, -, ⟨-, h⟩ | ⟨-, -, h⟩ | ⟨handled, -, h⟩⟩ <;> rw [h]
  · exact refl s
  · exact SameRun.configKept (SameRun.takeNext (answer f .wrongState [] { s with handler := .free }))
  · exact SameRun.configKept
      (SameRun.takeNext (answer f .badArgument (q.lengthRefusalBody s) { s with handler := .free }))
  · exact trans (keeps (run ▸ handled) f) (SameRun.takeNext _).configKept

/-- A reply to what an act has made of the state. -/
theorem answered {s t : State} (act : ConfigKept s t) (f : HostFrame) (st : Status) (b : List Byte) :
    ConfigKept s (answer f st b t) := act

theorem pageOpen (f : HostFrame) (s : State) : ConfigKept s (pageOpen f s) := by
  unfold Machine.pageOpen
  split
  · exact answered (refl s) ..
  · exact RowClosed.ite (answered (refl s) ..) (RowClosed.ite (answered (refl s) ..)
      (answered (trans (configKept_closed.pages ..) (configKept_closed.bindFollows ..)) ..))

theorem pageCancel (f : HostFrame) (s : State) : ConfigKept s (pageCancel f s) := by
  unfold Machine.pageCancel
  split
  · exact answered (refl s) ..
  · exact RowClosed.ite (answered (configKept_closed.cancelQueued ..) ..) (answered (configKept_closed.cancelBound ..) ..)

theorem engineHalt (f : HostFrame) (s : State) : ConfigKept s (engineHalt f s) := by
  have cut : ConfigKept s (Machine.mapBufs LoadBuf.cut (s.pages.foldl Machine.haltPage s)) :=
    configKept_closed.trans (configKept_closed.foldl configKept_closed.haltPage s.pages s) (configKept_closed.mapBufs ..)
  unfold Machine.engineHalt
  dsimp only
  generalize Machine.mapBufs LoadBuf.cut (s.pages.foldl Machine.haltPage s) = t at cut
  exact cut

theorem engineStop (f : HostFrame) (s : State) : ConfigKept s (engineStop f s) := RowClosed.ite (refl s) (refl s)

end ConfigKept

/-- In RUN every command but the reset occasions keeps the configuration: the requests that set it are refused (R33). -/
theorem exec_configKept {c : Instr} (notPower : c ≠ .powerOn) (notReset : c ≠ .softReset) {s : State}
    (run : s.engine = .run) : ∃ t, exec c s = .next t ∧ ConfigKept s t := by
  have refused {act : HostFrame → State → State} {q : Req} (setup : q.handledIn .run = false) :
      ConfigKept s (handleRequest q act s) := ConfigKept.handleRequest run fun handled => by simp [setup] at handled
  have ruled {act : HostFrame → State → State} (q : Req) (keeps : ∀ f s, ConfigKept s (act f s)) :
      ConfigKept s (handleRequest q act s) := ConfigKept.handleRequest run fun _ f => keeps f _
  cases acts : actsOnRun c with
  | false =>
    obtain ⟨t, ran, same⟩ := exec_sameRun acts s
    exact ⟨t, ran, same.configKept⟩
  | true =>
    cases c with
    | powerOn => exact absurd rfl notPower
    | softReset => exact absurd rfl notReset
    | setPlaneSet => exact ⟨_, rfl, refused rfl⟩
    | setPlaneRemove => exact ⟨_, rfl, refused rfl⟩
    | setHeadSet => exact ⟨_, rfl, refused rfl⟩
    | setHeadRemove => exact ⟨_, rfl, refused rfl⟩
    | setLane => exact ⟨_, rfl, refused rfl⟩
    | setMotion => exact ⟨_, rfl, refused rfl⟩
    | setCue => exact ⟨_, rfl, refused rfl⟩
    | engineStart => exact ⟨_, rfl, refused rfl⟩
    | engineStop => exact ⟨_, rfl, ruled _ ConfigKept.engineStop⟩
    | engineHalt => exact ⟨_, rfl, ruled _ ConfigKept.engineHalt⟩
    | pageOpen => exact ⟨_, rfl, ruled _ ConfigKept.pageOpen⟩
    | pageCancel => exact ⟨_, rfl, ruled _ ConfigKept.pageCancel⟩
    | storingEnd => exact ⟨_, rfl, configKept_ends.storingEnd s⟩
    | headAnswer lane bits => exact ⟨_, rfl, configKept_ends.headAnswer lane bits s⟩
    | ackTimeout h => exact ⟨_, rfl, configKept_ends.ackTimeout h s⟩
    | windowEnd h r => exact ⟨_, rfl, configKept_ends.windowEnd h r s⟩
    | encoderChange a b =>
      obtain ⟨t, ran, core⟩ := exec_coreFrame (.inl ⟨a, b, rfl⟩) s
      exact ⟨t, ran, core.configKept⟩
    | paceExpiry =>
      obtain ⟨t, ran, core⟩ := exec_coreFrame (.inr rfl) s
      exact ⟨t, ran, core.configKept⟩
    | cueEdge =>
      obtain ⟨t, ran, core⟩ := exec_cueEdge_coreFrame s
      exact ⟨t, ran, core.configKept⟩
    | _ => cases acts

/-- Settles O59: in RUN every command but the reset occasions keeps the configuration, a power-on or a soft reset that
acts ends the run, and only four commands set the engine state. -/
theorem configurationIsFixedInRun : Obligations.ConfigurationIsFixedInRun := by
  unfold Obligations.ConfigurationIsFixedInRun
  refine ⟨fun c s t run ran still => ?_, fun c s t notPower notReset notStart notStop ran => ?_⟩
  · by_cases power : c = .powerOn
    · subst power
      obtain rfl := Host.Outcome.next.inj ran
      cases still
    by_cases reset : c = .softReset
    · subst reset
      obtain rfl := Host.Outcome.next.inj ran
      by_cases sent : s.resetSent = true
      · rw [if_pos sent] at still
        cases still
      · rw [if_neg sent]
        exact ConfigKept.refl s
    · obtain ⟨u, ranU, kept⟩ := exec_configKept power reset run
      obtain rfl := Host.Outcome.next.inj (ran.symm.trans ranU)
      exact kept
  · obtain ⟨u, ranU, kept⟩ := exec_engineKept notPower notReset notStart notStop s
    obtain rfl := Host.Outcome.next.inj (ran.symm.trans ranU)
    exact kept

end Sys2Proof.Machine
end

