-- ==== Sys2Proof/Proofs/Balance.lean ====
section
/-! SUPPORT. The balance of one page record (R39, R47, R176): what a report of the Row Scheduler, a cut and an opening
make of its counts, its unretired count and its rows' next-line indices. -/

namespace Sys2Proof

/-- A table around one of its entries, before and after a write to it. -/
theorem toList_put_split {α : Type} {n i : Nat} (t : Vector α n) (d : α) (lt : i < n) :
    ∃ a b, t.toList = a ++ look t i d :: b ∧ ∀ x, (put t i x).toList = a ++ x :: b := by
  have len : i < t.toList.length := by simpa using lt
  refine ⟨t.toList.take i, t.toList.drop (i + 1), ?_, fun x => ?_⟩
  · have at_ : look t i d = t.toList[i] := by simp [look, lt]
    rw [at_, List.getElem_cons_drop, List.take_append_drop]
  · rw [put, Vector.toList_setIfInBounds, List.set_eq_take_append_cons_drop, if_pos len]

namespace Machine

/-- No row is past the page's length, the unretired count is what the rows have still to retire, and the counts of entries
make up the opened length times T with it. -/
structure Page.Balanced (p : Page) : Prop where
  inside : ∀ n ∈ p.passed.toList.flatten, n ≤ p.length
  unretired : p.unretired = p.entriesLeft
  counts : p.entryCounts + p.unretired + look p.counts 6 0 * p.rowCount = (p.length + look p.counts 6 0) * p.rowCount

/-! ### Counts -/

theorem look_le_sum {n : Nat} (t : Vector Nat n) (i : Nat) : look t i 0 ≤ t.toList.sum := by
  by_cases lt : i < n
  · obtain ⟨a, b, old, -⟩ := toList_put_split t 0 lt
    rw [old, List.sum_append, List.sum_cons]
    omega
  · simp [look, lt]

theorem sum_put {n i : Nat} (t : Vector Nat n) (lt : i < n) (x : Nat) :
    (put t i x).toList.sum + look t i 0 = t.toList.sum + x := by
  obtain ⟨a, b, old, new⟩ := toList_put_split t 0 lt
  rw [new x, old]
  simp only [List.sum_append, List.sum_cons]
  omega

theorem withdrawn_of_code {k : Kind} (code : k.code = 6) : k = .withdrawn := by
  cases k <;> simp [Kind.code] at code ⊢

/-- A count of entries rises, the count of withdrawn lines stands (R47). -/
theorem entryCounts_count {p : Page} {k : Kind} (entry : k ≠ .withdrawn) (n : Nat) :
    (p.count k n).entryCounts = p.entryCounts + n ∧ look (p.count k n).counts 6 0 = look p.counts 6 0 := by
  have other : look (put p.counts k.code (look p.counts k.code 0 + n)) 6 0 = look p.counts 6 0 :=
    look_put_ne _ _ _ _ _ fun same => entry (withdrawn_of_code same)
  refine ⟨?_, other⟩
  have rise := sum_put p.counts k.code_lt (look p.counts k.code 0 + n)
  have le := look_le_sum p.counts 6
  simp only [Page.entryCounts, Page.count, other]
  omega

/-- The count of withdrawn lines rises, those of entries stand. -/
theorem entryCounts_withdraw (p : Page) (n : Nat) : (p.count .withdrawn n).entryCounts = p.entryCounts
    ∧ look (p.count .withdrawn n).counts 6 0 = look p.counts 6 0 + n := by
  have lines : look (put p.counts 6 (look p.counts 6 0 + n)) 6 0 = look p.counts 6 0 + n :=
    look_put_same _ _ _ _ (by decide)
  refine ⟨?_, lines⟩
  have rise := sum_put p.counts (show 6 < 8 by decide) (look p.counts 6 0 + n)
  simp only [Page.entryCounts, Page.count, Kind.code, lines]
  omega

/-! ### Rows -/

theorem rowCount_eq (p : Page) : p.rowCount = p.passed.toList.flatten.length := List.length_flatten.symm

/-- The page's indices around that of one row, before and after the row has moved on. -/
theorem passed_split {p : Page} {h r n : Nat} (next : p.nextLine h r = some n) :
    ∃ a b, p.passed.toList.flatten = a ++ n :: b
      ∧ ∀ x, (put p.passed h ((look p.passed h []).set r x)).toList.flatten = a ++ x :: b := by
  have lt : h < 24 := by
    by_contra ge
    simp [Page.nextLine, look, ge] at next
  obtain ⟨inRow, rfl⟩ := List.getElem?_eq_some_iff.mp next
  obtain ⟨a, b, old, new⟩ := toList_put_split p.passed [] lt
  refine ⟨a.flatten ++ (look p.passed h []).take r, (look p.passed h []).drop (r + 1) ++ b.flatten, ?_, fun x => ?_⟩
  · calc p.passed.toList.flatten
        = a.flatten ++ look p.passed h [] ++ b.flatten := by rw [old]; simp
      _ = a.flatten ++ ((look p.passed h []).take r ++ (look p.passed h [])[r] :: (look p.passed h []).drop (r + 1))
            ++ b.flatten := by rw [List.getElem_cons_drop, List.take_append_drop]
      _ = _ := by simp only [List.append_assoc, List.cons_append]
  · rw [new, List.set_eq_take_append_cons_drop, if_pos inRow]
    simp

theorem nextLine_mem {p : Page} {h r n : Nat} (next : p.nextLine h r = some n) : n ∈ p.passed.toList.flatten := by
  obtain ⟨a, b, all, -⟩ := passed_split next
  simp [all]

/-- With nothing left to retire every row has passed the whole page. -/
theorem nextLine_of_finished {p : Page} {h r n : Nat} (bal : p.Balanced) (done : p.unretired = 0)
    (next : p.nextLine h r = some n) : n = p.length := by
  obtain ⟨a, b, all, -⟩ := passed_split next
  have le := bal.inside n (nextLine_mem next)
  have left := bal.unretired
  simp only [Page.entriesLeft, all, List.map_append, List.map_cons, List.sum_append, List.sum_cons] at left
  omega

/-- A row's next-line index after a report, of that row and of another (R49). -/
theorem nextLine_report {p : Page} {k : Kind} {h r line i j : Nat} (other : ¬ (h = i ∧ r = j)) :
    (p.report k h r line).nextLine i j = p.nextLine i j := by
  simp only [Page.nextLine, Page.report, Page.count, look_put]
  by_cases hi : h = i
  · subst hi
    have rj : r ≠ j := fun e => other ⟨rfl, e⟩
    split
    · rw [List.getElem?_set_ne rj]
    · rfl
  · simp [hi]

theorem entriesLeft_report {p : Page} {k : Kind} {h r line : Nat} (next : p.nextLine h r = some line)
    (inside : line < p.length) : (p.report k h r line).entriesLeft + 1 = p.entriesLeft := by
  obtain ⟨a, b, old, new⟩ := passed_split next
  have moved : (p.report k h r line).passed.toList.flatten = a ++ (line + 1) :: b := new _
  have same : (p.report k h r line).length = p.length := rfl
  simp only [Page.entriesLeft, moved, same, old, List.map_append, List.map_cons, List.sum_append, List.sum_cons]
  omega

theorem rowCount_report (p : Page) (k : Kind) (h r line : Nat) (next : p.nextLine h r = some line) :
    (p.report k h r line).rowCount = p.rowCount := by
  obtain ⟨a, b, old, new⟩ := passed_split next
  have moved : (p.report k h r line).passed.toList.flatten = a ++ (line + 1) :: b := new _
  rw [rowCount_eq, rowCount_eq, moved, old]
  simp

/-! ### The three records -/

/-- A balance that only names its parts. -/
theorem Page.Balanced.congr {p q : Page} (bal : p.Balanced) (length : q.length = p.length) (counts : q.counts = p.counts)
    (unretired : q.unretired = p.unretired) (passed : q.passed = p.passed) : q.Balanced := by
  obtain ⟨inside, left, sum⟩ := bal
  constructor
  · rwa [passed, length]
  · rw [unretired, left]; simp only [Page.entriesLeft, passed, length]
  · simpa only [Page.entryCounts, Page.rowCount, counts, unretired, passed, length] using sum

theorem Page.Balanced.report {p : Page} (bal : p.Balanced) {k : Kind} {h r line : Nat} (entry : k ≠ .withdrawn)
    (next : p.nextLine h r = some line) (inside : line < p.length) : (p.report k h r line).Balanced := by
  obtain ⟨a, b, old, new⟩ := passed_split next
  have moved : (p.report k h r line).passed.toList.flatten = a ++ (line + 1) :: b := new _
  have left := entriesLeft_report (k := k) next inside
  have fewer : (p.report k h r line).unretired = p.unretired - 1 := rfl
  refine ⟨fun n hn => ?_, ?_, ?_⟩
  · show n ≤ p.length
    rw [moved] at hn
    rcases List.mem_append.mp hn with hn | hn
    · exact bal.inside n (by simp [old, hn])
    · rcases List.mem_cons.mp hn with rfl | hn
      · exact inside
      · exact bal.inside n (by simp [old, hn])
  · have := bal.unretired
    omega
  · obtain ⟨risen, lines⟩ := entryCounts_count (p := p) entry 1
    have risen : (p.report k h r line).entryCounts = p.entryCounts + 1 := risen
    have lines : look (p.report k h r line).counts 6 0 = look p.counts 6 0 := lines
    have sum := bal.counts
    have := bal.unretired
    rw [risen, lines, fewer, rowCount_report p k h r line next]
    show _ = (p.length + _) * _
    omega

theorem flagUnderrun_fields (k : Kind) (plane : Nat) (p : Page) :
    (p.flagUnderrun k plane).id = p.id ∧ (p.flagUnderrun k plane).length = p.length
      ∧ (p.flagUnderrun k plane).counts = p.counts ∧ (p.flagUnderrun k plane).unretired = p.unretired
      ∧ (p.flagUnderrun k plane).passed = p.passed ∧ (p.flagUnderrun k plane).pstate = p.pstate
      ∧ (p.flagUnderrun k plane).origin = p.origin ∧ (p.flagUnderrun k plane).mode = p.mode
      ∧ (p.flagUnderrun k plane).cancelled = p.cancelled := by
  unfold Page.flagUnderrun
  split <;> exact ⟨rfl, rfl, rfl, rfl, rfl, rfl, rfl, rfl, rfl⟩

/-- The cut line is at or above every index, and one of them unless it is 0 (R49). -/
theorem cutLine_spec (p : Page) : (∀ n ∈ p.passed.toList.flatten, n ≤ cutLine p)
    ∧ (cutLine p = 0 ∨ cutLine p ∈ p.passed.toList.flatten) := by
  unfold cutLine
  have above : ∀ (l : List Nat) (a : Nat), a ≤ l.foldl max a ∧ (∀ n ∈ l, n ≤ l.foldl max a)
      ∧ (l.foldl max a = a ∨ l.foldl max a ∈ l) := by
    intro l
    induction l with
    | nil => simp
    | cons x l ih =>
      intro a
      obtain ⟨le, all, mem⟩ := ih (max a x)
      rw [List.foldl_cons]
      refine ⟨by omega, fun n hn => ?_, ?_⟩
      · rcases List.mem_cons.mp hn with rfl | hn
        · omega
        · exact all n hn
      · rcases mem with mem | mem
        · rcases Nat.le_total a x with h | h
          · exact .inr (by rw [mem, Nat.max_eq_right h]; exact List.mem_cons_self)
          · exact .inl (by rw [mem, Nat.max_eq_left h])
        · exact .inr (List.mem_cons_of_mem _ mem)
  obtain ⟨-, all, mem⟩ := above p.passed.toList.flatten 0
  exact ⟨all, mem⟩

theorem sum_sub_add {l : List Nat} {m len : Nat} (all : ∀ n ∈ l, n ≤ m) (le : m ≤ len) :
    (l.map fun n => len - n).sum = (l.map fun n => m - n).sum + (len - m) * l.length := by
  induction l with
  | nil => simp
  | cons x l ih =>
    have hx := all x List.mem_cons_self
    simp only [List.map_cons, List.sum_cons, List.length_cons, Nat.mul_succ,
      ih fun n hn => all n (List.mem_cons_of_mem _ hn)]
    omega

/-- A page cut at its cut line stays balanced: what it loses is w lines for each of its rows (R49, R50). -/
theorem Page.Balanced.cutAt {p : Page} (bal : p.Balanced) : (p.cutAt (cutLine p)).Balanced := by
  obtain ⟨all, mem⟩ := cutLine_spec p
  have le : cutLine p ≤ p.length := by
    rcases mem with zero | mem
    · omega
    · exact bal.inside _ mem
  have left : p.entriesLeft = (p.cutAt (cutLine p)).entriesLeft + (p.length - cutLine p) * p.rowCount := by
    rw [rowCount_eq]
    exact sum_sub_add all le
  have fewer : (p.cutAt (cutLine p)).unretired = p.unretired - (p.length - cutLine p) * p.rowCount := rfl
  refine ⟨all, by rw [fewer, bal.unretired]; omega, ?_⟩
  obtain ⟨same, lines⟩ := entryCounts_withdraw p (p.length - cutLine p)
  have same : (p.cutAt (cutLine p)).entryCounts = p.entryCounts := same
  have lines : look (p.cutAt (cutLine p)).counts 6 0 = look p.counts 6 0 + (p.length - cutLine p) := lines
  have sum := bal.counts
  have un := bal.unretired
  rw [same, lines, fewer]
  show _ + _ + _ * p.rowCount = (cutLine p + _) * p.rowCount
  have whole : cutLine p + (look p.counts 6 0 + (p.length - cutLine p)) = p.length + look p.counts 6 0 := by omega
  rw [whole, ← sum, Nat.add_mul]
  omega

theorem freshRows_zero {mask : BitVec 8} {s : State} {n : Nat} (mem : n ∈ (freshRows mask s).toList.flatten) : n = 0 := by
  obtain ⟨l, hl, hn⟩ := List.mem_flatten.mp mem
  simp only [freshRows, mapTable, Vector.toList_ofFn, List.mem_ofFn] at hl
  obtain ⟨i, rfl⟩ := hl
  split at hn
  · split at hn
    · exact List.eq_of_mem_replicate hn
    · cases hn
  · cases hn

/-- An opened page is balanced: nothing counted, every row at line 0 (R40). -/
theorem newPage_balanced (a : OpenArgs) (s : State) : (newPage a s).Balanced := by
  have zero : ∀ n ∈ (newPage a s).passed.toList.flatten, n = 0 := fun n hn => freshRows_zero hn
  have all : (newPage a s).unretired = (newPage a s).length * (newPage a s).rowCount := rfl
  refine ⟨fun n hn => by rw [zero n hn]; exact Nat.zero_le _, ?_, ?_⟩
  · rw [all, rowCount_eq, Page.entriesLeft, List.map_congr_left (g := fun _ => (newPage a s).length)
      fun n hn => by rw [zero n hn, Nat.sub_zero], List.map_const', List.sum_replicate, smul_eq_mul, Nat.mul_comm]
  · have none : (newPage a s).entryCounts = 0 := rfl
    have lines : look (newPage a s).counts 6 0 = 0 := rfl
    rw [none, lines, all, Nat.zero_add, Nat.zero_mul, Nat.add_zero, Nat.add_zero]

end Machine
end Sys2Proof
end

