-- ==== Sys2Proof/Proofs/Accounts.lean ====
section
/-! SUPPORT. The page queue's form and the account of every entry, the front page apart, through all that rows, loaders and
the ends of transfers, windows and storings do (R39, R41, R101, R176). -/

namespace Sys2Proof.Machine

/-- The entry is its row's earliest unretired entry of its page, which is bound (R101). -/
def IsNext (s : State) (h r : Nat) (e : Entry) : Prop :=
  ∃ p, pageById s e.page = some p ∧ p.pstate ≠ .queued ∧ p.nextLine h r = some e.line ∧ e.line < p.length

/-- `queueInv` and `entriesInv`, but for what they ask of the front page's mode. -/
structure Accounted (s : State) : Prop where
  room : s.pages.length ≤ 4
  ids : (s.pages.map Page.id).Nodup
  origins : ∀ p ∈ s.pages, p.origin = none ↔ p.pstate = .queued
  order : s.pages.Pairwise fun a b => a.pstate = .queued → b.pstate = .queued
  balanced : ∀ p ∈ s.pages, p.Balanced
  held : ∀ h r row e, rowAt s h r = some row → row.buf.held = some e → IsNext s h r e

/-- The modes of the QUEUED pages in queue order; the front page's comes first (R41). -/
def queuedModes (s : State) : List PageMode := (s.pages.filter fun p => p.pstate = .queued).map Page.mode

theorem accounted_iff {s : State} : queueInv s ∧ entriesInv s
    ↔ Accounted s ∧ ∀ m, (queuedModes s).head? = some m → m = .onCue := by
  have front : (∀ p, s.pages.find? (fun q => q.pstate = .queued) = some p → p.mode = .onCue)
      ↔ ∀ m, (queuedModes s).head? = some m → m = .onCue := by
    simp [queuedModes, List.head?_map, List.head?_filter]
  constructor
  · rintro ⟨⟨room, ids, origins, order, first⟩, pages, held⟩
    exact ⟨⟨room, ids, origins, order, fun p hp =>
      ⟨(pages p hp).1, (pages p hp).2.1, (pages p hp).2.2⟩, held⟩, front.mp first⟩
  · rintro ⟨⟨room, ids, origins, order, bal, held⟩, first⟩
    exact ⟨⟨room, ids, origins, order, front.mpr first⟩, fun p hp =>
      ⟨(bal p hp).inside, (bal p hp).unretired, (bal p hp).counts⟩, held⟩

/-! ### Reading pages -/

theorem pageById_mem {s : State} {id : Nat} {p : Page} (page : pageById s id = some p) : p ∈ s.pages :=
  List.mem_of_find?_eq_some page

/-- With ids that differ a page is the one its id names. -/
theorem pageById_of_mem {s : State} (ids : (s.pages.map Page.id).Nodup) {p : Page} (mem : p ∈ s.pages) :
    pageById s p.id = some p := by
  unfold pageById
  generalize s.pages = ps at ids mem
  induction ps with
  | nil => cases mem
  | cons q qs ih =>
    rw [List.map_cons, List.nodup_cons] at ids
    rcases List.mem_cons.mp mem with rfl | mem
    · simp
    · have ne : q.id ≠ p.id := fun e => ids.1 (e ▸ List.mem_map_of_mem mem)
      rw [List.find?_cons, beq_eq_false_iff_ne.mpr ne]
      exact ih ids.2 mem

/-- The next entry of a row is its page's next line, or the one behind it when the buffer holds that (R101). -/
theorem nextIn_some {held : Option Entry} {h r : Nat} {ps : List Page} {e : Entry} (next : nextIn held h r ps = some e) :
    ∃ p ∈ ps, p.id = e.page ∧ p.origin.isSome ∧ e.line < p.length
      ∧ ∃ n, p.nextLine h r = some n ∧ (held = none → e.line = n) := by
  induction ps with
  | nil => cases next
  | cons p ps ih =>
    have later (tail : nextIn held h r ps = some e) : ∃ q ∈ p :: ps, q.id = e.page ∧ q.origin.isSome ∧ e.line < q.length
        ∧ ∃ n, q.nextLine h r = some n ∧ (held = none → e.line = n) := by
      obtain ⟨q, hq, rest⟩ := ih tail
      exact ⟨q, List.mem_cons_of_mem _ hq, rest⟩
    unfold nextIn at next
    split at next
    · exact later next
    · rename_i n line
      dsimp only at next
      have own : held = none → (if held.any fun f => f.page = p.id then n + 1 else n) = n := fun none => by simp [none]
      generalize (if held.any fun f => f.page = p.id then n + 1 else n) = first at next own
      split at next
      · rename_i inside
        split at next
        · rename_i bound
          obtain rfl := Option.some.inj next
          exact ⟨p, List.mem_cons_self, rfl, bound, inside, n, line, own⟩
        · cases next
      · exact later next

theorem nextEntry_isNext {s : State} (acc : Accounted s) {h r : Nat} {row : Row} {e : Entry} (at_ : rowAt s h r = some row)
    (free : row.buf.held = none) (next : nextEntry s h r = some e) : IsNext s h r e := by
  unfold nextEntry at next
  rw [at_] at next
  obtain ⟨p, hp, id, bound, inside, n, line, first⟩ := nextIn_some next
  refine ⟨p, id ▸ pageById_of_mem acc.ids hp, fun queued => ?_, by rw [line, first free], inside⟩
  rw [(acc.origins p hp).mpr queued] at bound
  cases bound

theorem ripeEntry_some {s : State} {h r : Nat} {e : Entry} (ripe : ripeEntry s h r = some e) :
    ∃ row d, rowAt s h r = some row ∧ row.buf.held = none ∧ nextEntry s h r = some e ∧ dueOf s h r e = some d
      ∧ d ≤ s.hInt := by
  unfold ripeEntry at ripe
  split at ripe
  · rename_i row f at_ next
    split at ripe
    · rename_i d due
      split at ripe
      · rename_i reached
        obtain rfl := Option.some.inj ripe
        exact ⟨row, d, at_, reached.2, next, due, reached.1⟩
      · cases ripe
    · cases ripe
  · cases ripe

/-! ### Writing pages and rows -/

theorem Accounted.of_same {s t : State} (acc : Accounted s) (pages : t.pages = s.pages) (rows : t.rows = s.rows) :
    Accounted t := by
  obtain ⟨room, ids, origins, order, bal, held⟩ := acc
  refine ⟨pages ▸ room, pages ▸ ids, pages ▸ origins, pages ▸ order, pages ▸ bal, ?_⟩
  simpa only [rowAt, rowsOf, rows, IsNext, pageById, pages] using held

/-- Other rows, holding no more than before. -/
theorem Accounted.of_rows {s t : State} (acc : Accounted s) (pages : t.pages = s.pages)
    (holds : ∀ h r row e, rowAt t h r = some row → row.buf.held = some e →
      ∃ old, rowAt s h r = some old ∧ old.buf.held = some e) : Accounted t := by
  obtain ⟨room, ids, origins, order, bal, held⟩ := acc
  refine ⟨pages ▸ room, pages ▸ ids, pages ▸ origins, pages ▸ order, pages ▸ bal, fun h r row e at_ buf => ?_⟩
  obtain ⟨old, atOld, bufOld⟩ := holds h r row e at_ buf
  simpa only [IsNext, pageById, pages] using held h r old e atOld bufOld

theorem map_setPage_ids (p : Page) (ps : List Page) :
    (ps.map fun q => if q.id = p.id then p else q).map Page.id = ps.map Page.id := by
  rw [List.map_map]
  refine List.map_congr_left fun q _ => ?_
  by_cases same : q.id = p.id <;> simp [same]

/-- The old record of a page that replaces one: the first with its id, and with ids that differ the only one. -/
theorem eq_of_id {s : State} (ids : (s.pages.map Page.id).Nodup) {p q : Page} {id : Nat} (page : pageById s id = some p)
    (mem : q ∈ s.pages) (same : q.id = id) : q = p := by
  have own := pageById_of_mem ids mem
  rw [same] at own
  exact Option.some.inj (own.symm.trans page)

/-- A record replaced by a balanced one that keeps id and mode, is QUEUED as it was, and still has the entries held. -/
theorem Accounted.setPage {s : State} (acc : Accounted s) {p q : Page} (page : pageById s q.id = some p)
    (mode : q.mode = p.mode) (origin : q.origin = none ↔ q.pstate = .queued)
    (state : q.pstate = .queued ↔ p.pstate = .queued) (bal : q.Balanced)
    (held : ∀ h r row e, rowAt s h r = some row → row.buf.held = some e → e.page = q.id → p.nextLine h r = some e.line →
      e.line < p.length → q.nextLine h r = some e.line ∧ e.line < q.length) :
    Accounted (setPage q s) ∧ queuedModes (setPage q s) = queuedModes s := by
  have old {x : Page} (hx : x ∈ s.pages) (same : x.id = q.id) : x = p := eq_of_id acc.ids page hx same
  have each {P : Page → Prop} (all : ∀ x ∈ s.pages, P x) (new : P q) : ∀ x ∈ (Machine.setPage q s).pages, P x := by
    intro y hy
    obtain ⟨x, hx, rfl⟩ := List.mem_map.mp hy
    split
    · exact new
    · exact all x hx
  have states : ∀ x ∈ s.pages, (if x.id = q.id then q else x).pstate = .queued ↔ x.pstate = .queued := by
    intro x hx
    split
    · rw [state, old hx ‹_›]
    · exact Iff.rfl
  refine ⟨⟨?_, ?_, each acc.origins origin, ?_, each acc.balanced bal, ?_⟩, ?_⟩
  · simpa using acc.room
  · rw [setPage_pages, map_setPage_ids]; exact acc.ids
  · rw [setPage_pages, List.pairwise_map]
    refine acc.order.imp_of_mem fun {a b} ha hb imp => ?_
    rw [states a ha, states b hb]
    exact imp
  · intro h r row e at_ buf
    have at_ : rowAt s h r = some row := at_
    obtain ⟨x, found, bound, line, inside⟩ := acc.held h r row e at_ buf
    by_cases same : e.page = q.id
    · obtain rfl : x = p := eq_of_id acc.ids page (pageById_mem found) ((pageById_id found).trans same)
      obtain ⟨line, inside⟩ := held h r row e at_ buf same line inside
      exact ⟨q, by rw [same]; exact pageById_setPage q page rfl, fun queued => bound (state.mp queued), line, inside⟩
    · exact ⟨x, by rw [pageById_setPage_other s e.page q (Ne.symm same)]; exact found, bound, line, inside⟩
  · have kept : s.pages.filter ((fun x : Page => decide (x.pstate = .queued)) ∘ fun x => if x.id = q.id then q else x)
        = s.pages.filter fun x => decide (x.pstate = .queued) :=
      List.filter_congr fun x hx => decide_eq_decide.mpr (states x hx)
    simp only [queuedModes, setPage_pages, List.filter_map, List.map_map, kept]
    refine List.map_congr_left fun x hx => ?_
    simp only [Function.comp]
    split
    · rw [mode, old (List.mem_filter.mp hx).1 ‹_›]
    · rfl

/-- A page that is not QUEUED, and of which no buffer holds an entry, leaves the queue. -/
theorem Accounted.dropPage {s : State} (acc : Accounted s) {id : Nat}
    (free : ∀ h r row e, rowAt s h r = some row → row.buf.held = some e → e.page ≠ id) :
    Accounted (dropPage id s) := by
  have each {P : Page → Prop} (all : ∀ x ∈ s.pages, P x) : ∀ x ∈ (Machine.dropPage id s).pages, P x :=
    fun x hx => all x (List.mem_filter.mp hx).1
  refine ⟨(List.length_filter_le ..).trans acc.room, ?_, each acc.origins, acc.order.filter _, each acc.balanced, ?_⟩
  · exact acc.ids.sublist (List.filter_sublist.map _)
  · intro h r row e at_ buf
    obtain ⟨x, found, rest⟩ := acc.held h r row e at_ buf
    exact ⟨x, by rw [pageById_dropPage_other s id e.page (Ne.symm (free h r row e at_ buf))]; exact found, rest⟩

theorem queuedModes_dropPage {s : State} (ids : (s.pages.map Page.id).Nodup) {id : Nat} {p : Page}
    (page : pageById s id = some p) (bound : p.pstate ≠ .queued) :
    queuedModes (dropPage id s) = queuedModes s := by
  simp only [queuedModes, dropPage_pages, List.filter_filter]
  rw [List.filter_congr fun x hx => ?_]
  by_cases same : x.id = id
  · simp [eq_of_id ids page hx same, bound]
  · simp [same]

/-- A row's buffer that takes up no entry but its row's earliest of a bound page. -/
theorem Accounted.setRow {s : State} (acc : Accounted s) {h r : Nat} {old new : Row} (at_ : rowAt s h r = some old)
    (fits : ∀ e, new.buf.held = some e → IsNext s h r e) : Accounted (setRow h r new s) := by
  refine ⟨acc.room, acc.ids, acc.origins, acc.order, acc.balanced, fun i j row e atNew buf => ?_⟩
  by_cases same : h = i ∧ r = j
  · obtain ⟨rfl, rfl⟩ := same
    rw [rowAt_setRow_same new at_] at atNew
    obtain rfl := Option.some.inj atNew
    exact fits e buf
  · rw [rowAt_setRow_other s h r i j new same] at atNew
    exact acc.held i j row e atNew buf

/-! ### Retirement -/

theorem raiseStarted_sameRun (p : Page) (k : Kind) (h r line : Nat) (s : State) :
    SameRun s (raiseStarted p k h r line s) := RowClosed.ite (SameRun.raise ..) rfl

theorem raiseUnderrun_sameRun (p : Page) (k : Kind) (plane h r line : Nat) (s : State) :
    SameRun s (raiseUnderrun p k plane h r line s) := RowClosed.ite (SameRun.raise ..) rfl

/-- A retirement before the page's departure (R116): the record replaced, its events, the line and the head's counter. -/
def reported (k : Kind) (h r : Nat) (e : Entry) (p : Page) (plane : Nat) (s : State) : State :=
  bumpHead h (.retired k) 1 (retireLine plane e (raiseUnderrun p k plane h r e.line (raiseStarted p k h r e.line
    (setPage ((p.report k h r e.line).flagUnderrun k plane) s))))

theorem retire_eq {s : State} {e : Entry} {p : Page} {plane : Nat} (k : Kind) {h : Nat} (r : Nat)
    (page : pageById s e.page = some p) (head : headPlane s h = some plane) :
    retire k h r e s = finishPage e.page (reported k h r e p plane s) := by
  simp only [retire, page, head, reported]

theorem reported_sameRun (k : Kind) (h r : Nat) (e : Entry) (p : Page) (plane : Nat) (s : State) :
    SameRun (setPage ((p.report k h r e.line).flagUnderrun k plane) s) (reported k h r e p plane s) :=
  (raiseStarted_sameRun ..).trans ((raiseUnderrun_sameRun ..).trans ((SameRun.retireLine ..).trans rfl))

/-- A page with nothing left of it leaves the queue; any other stays (R47). -/
theorem finishPage_sameRun {s : State} {id : Nat} {p : Page} (page : pageById s id = some p) :
    SameRun (if p.unretired = 0 then dropPage id s else s) (finishPage id s) := by
  unfold finishPage
  rw [page]
  by_cases done : p.unretired = 0
  · simp only [done, if_true]
    exact SameRun.raise ..
  · simp only [done, if_false]
    rfl

theorem queuedModes_of_pages {s t : State} (pages : t.pages = s.pages) : queuedModes t = queuedModes s := by
  simp only [queuedModes, pages]

/-- The books are kept: pages and entries stay accounted for, and the QUEUED pages are still of the same modes. -/
def BooksKept (s t : State) : Prop := Accounted s → Accounted t ∧ queuedModes t = queuedModes s

theorem BooksKept.trans {s t u : State} (a : BooksKept s t) (b : BooksKept t u) : BooksKept s u := fun acc =>
  ⟨(b (a acc).1).1, (b (a acc).1).2.trans (a acc).2⟩

theorem booksKept_of_same {s t : State} (pages : t.pages = s.pages) (rows : t.rows = s.rows) : BooksKept s t := fun acc =>
  ⟨acc.of_same pages rows, queuedModes_of_pages pages⟩

theorem SameRun.booksKept {s t : State} (same : SameRun s t) : BooksKept s t := booksKept_of_same same.pages same.rows

/-- A page that is not QUEUED and has nothing left of it departs with the books kept: no buffer can hold an entry of it. -/
theorem finishPage_booksKept {s : State} {id : Nat} {p : Page} (page : pageById s id = some p)
    (bound : p.pstate ≠ .queued) : BooksKept s (finishPage id s) := by
  refine BooksKept.trans ?_ (finishPage_sameRun page).booksKept
  split
  · rename_i done
    refine fun acc => ⟨acc.dropPage fun h r row e at_ buf same => ?_, queuedModes_dropPage acc.ids page bound⟩
    obtain ⟨x, found, -, line, inside⟩ := acc.held h r row e at_ buf
    rw [same, page] at found
    obtain rfl := Option.some.inj found
    exact absurd (nextLine_of_finished (acc.balanced p (pageById_mem page)) done line) inside.ne
  · exact fun acc => ⟨acc, rfl⟩

/-- The retirement of a row's earliest unretired entry, its buffer holding none, keeps the books (R116, R176). -/
theorem retire_booksKept {s : State} {k : Kind} {h r : Nat} {e : Entry} (entry : k ≠ .withdrawn) (next : IsNext s h r e)
    (free : ∀ row, rowAt s h r = some row → row.buf.held = none) : BooksKept s (retire k h r e s) := by
  obtain ⟨p, page, bound, line, inside⟩ := next
  have id := pageById_id page
  cases head : headPlane s h with
  | none => unfold retire; rw [page, head]; exact fun acc => ⟨acc, rfl⟩
  | some plane =>
    rw [retire_eq k r page head]
    obtain ⟨qid, qlen, qcounts, qun, qpassed, qstate, qorigin, qmode, -⟩ :=
      flagUnderrun_fields k plane (p.report k h r e.line)
    have still : ((p.report k h r e.line).flagUnderrun k plane).pstate ≠ .queued := by
      rw [qstate]; show (if p.pstate = .bound then PageState.firing else p.pstate) ≠ _
      split
      · simp
      · exact bound
    have same := reported_sameRun k h r e p plane s
    generalize (p.report k h r e.line).flagUnderrun k plane = q at *
    have qid : q.id = e.page := qid.trans id
    have old : pageById s q.id = some p := qid ▸ page
    have new : pageById (reported k h r e p plane s) e.page = some q := by
      rw [pageById, same.pages]; exact pageById_setPage q page qid
    refine BooksKept.trans (fun acc => ?_) (same.booksKept.trans (finishPage_booksKept new still))
    have origin : q.origin = p.origin := qorigin
    refine acc.setPage old qmode ?_ ⟨fun queued => absurd queued still, fun queued => absurd queued bound⟩
      (((acc.balanced p (pageById_mem page)).report entry line inside).congr qlen qcounts qun qpassed) ?_
    · rw [origin, acc.origins p (pageById_mem page)]
      exact ⟨fun queued => absurd queued bound, fun queued => absurd queued still⟩
    · intro i j row f at_ buf _ lineF insideF
      have other : ¬ (h = i ∧ r = j) := by
        rintro ⟨rfl, rfl⟩
        rw [free row at_] at buf
        cases buf
      refine ⟨?_, by rw [qlen]; exact insideF⟩
      calc q.nextLine i j = (p.report k h r e.line).nextLine i j := by simp only [Page.nextLine, qpassed]
        _ = some f.line := (nextLine_report other).trans lineF

theorem rowAt_emptied {s : State} {h r : Nat} {old : Row} {fire : FireState} (at_ : rowAt s h r = some old) :
    ∀ row, rowAt (setRow h r ⟨.empty, fire⟩ s) h r = some row → row.buf.held = none := by
  intro row atNew
  rw [rowAt_setRow_same _ at_] at atNew
  obtain rfl := Option.some.inj atNew
  rfl

/-- A buffered entry retired, its buffer emptied with it, keeps the books. -/
theorem retireHeld_booksKept {s : State} {k : Kind} {h r : Nat} {old : Row} {e : Entry} {fire : FireState}
    (entry : k ≠ .withdrawn) (at_ : rowAt s h r = some old) (buf : old.buf.held = some e) :
    BooksKept s (retire k h r e (setRow h r ⟨.empty, fire⟩ s)) := fun acc => by
  have next : IsNext s h r e := acc.held h r old e at_ buf
  have emptied : BooksKept s (setRow h r ⟨.empty, fire⟩ s) := fun _ =>
    ⟨acc.setRow at_ (fun _ none => nomatch none), rfl⟩
  exact (emptied.trans (retire_booksKept entry next (rowAt_emptied at_))) acc

/-! ### Rows, loaders and the ends of transfers, windows and storings -/

/-- A decision at due never withdraws (R104). -/
theorem decisionAtDue_kind {s : State} {h r : Nat} {e : Entry} {k : Kind} (due : decisionAtDue s h r e = some k) :
    k = .skipped ∨ k = .underrun ∨ k = .empty := by
  unfold decisionAtDue at due
  split at due
  · exact .inl (Option.some.inj due).symm
  · split at due
    · exact .inr (.inl (Option.some.inj due).symm)
    · split at due
      · split at due
        · exact .inr (.inr (Option.some.inj due).symm)
        · cases due
      · cases due

theorem booksKept_ends : EndClosed BooksKept where
  refl s acc := ⟨acc, rfl⟩
  trans := .trans
  compose p l s := (SameRun.composeLine p l s).booksKept
  transfer h c l s := SameRun.booksKept (s := s) rfl
  sched l s := SameRun.booksKept (s := s) rfl
  fire new at_ _ _ kind := retireHeld_booksKept (by rcases kind with rfl | rfl <;> decide) at_ rfl
  decide ripe due := fun acc => by
    obtain ⟨row, d, at_, free, next, -, -⟩ := ripeEntry_some ripe
    have entry := decisionAtDue_kind due
    refine retire_booksKept (by rcases entry with rfl | rfl | rfl <;> decide) (nextEntry_isNext acc at_ free next)
      (fun row' at' => ?_) acc
    obtain rfl := Option.some.inj (at_.symm.trans at')
    exact free
  load at_ next := fun acc => ⟨acc.setRow at_ fun f buf => by
    obtain rfl := Option.some.inj buf
    exact nextEntry_isNext acc at_ rfl next, rfl⟩
  aside := SameRun.booksKept
  buffer new at_ buf := fun acc => ⟨acc.setRow at_ fun e held => by
    rcases buf with none | same
    · rw [none] at held; cases held
    · exact acc.held _ _ _ e at_ (same ▸ held), rfl⟩
  lose fire at_ buf := retireHeld_booksKept (by decide) at_ buf
  pointer arrival page := fun acc => by
    have origin := acc.origins _ (pageById_mem page)
    have bal := acc.balanced _ (pageById_mem page)
    exact acc.setPage page rfl origin Iff.rfl (bal.congr rfl rfl rfl rfl)
      fun _ _ _ _ _ _ _ line inside => ⟨line, inside⟩

end Sys2Proof.Machine
end

