-- ==== Sys2Proof/Proofs/PageBooks.lean ====
section
/-! SUPPORT. Opening, binding, cue offers, cancellation and halt keep the page queue's form and every entry accounted for,
and so does every command (R39 to R50, R176). -/

namespace Sys2Proof.Machine

/-! ### Binding -/

/-- Replacing the one record of an id replaces one place of the queue. -/
theorem setPage_place {s : State} {pre post : List Page} {p q : Page} (pages : s.pages = pre ++ p :: post)
    (apart : ∀ x ∈ pre ++ post, x.id ≠ p.id) (same : q.id = p.id) : (setPage q s).pages = pre ++ q :: post := by
  have kept {l : List Page} (others : ∀ x ∈ l, x.id ≠ p.id) : l.map (fun x => if x.id = p.id then q else x) = l :=
    (List.map_congr_left fun x hx => if_neg (others x hx)).trans (List.map_id' l)
  rw [setPage_pages, same, pages, List.map_append, List.map_cons, if_pos rfl,
    kept fun x hx => apart x (List.mem_append_left _ hx), kept fun x hx => apart x (List.mem_append_right _ hx)]

/-- With ids that differ no other page has a page's id. -/
theorem apart_of_nodup {pre post : List Page} {p : Page} (ids : ((pre ++ p :: post).map Page.id).Nodup) :
    ∀ x ∈ pre ++ post, x.id ≠ p.id := by
  rw [List.map_append, List.map_cons, List.nodup_middle, ← List.map_append, List.nodup_cons] at ids
  exact fun x hx e => ids.1 (e ▸ List.mem_map_of_mem hx)

/-- The front page: the pages ahead of it are not QUEUED (R41). -/
theorem frontPage_split {s : State} {p : Page} (front : frontPage s = some p) : p.pstate = .queued
    ∧ ∃ pre post, s.pages = pre ++ p :: post ∧ ∀ x ∈ pre, x.pstate ≠ .queued := by
  obtain ⟨queued, pre, post, pages, ahead⟩ := List.find?_eq_some_iff_append.mp front
  exact ⟨of_decide_eq_true queued, pre, post, pages, fun x hx => by simpa using ahead x hx⟩

theorem queuedModes_split {pre post : List Page} {p : Page} {s : State} (pages : s.pages = pre ++ p :: post)
    (ahead : ∀ x ∈ pre, x.pstate ≠ .queued) : queuedModes s = (if p.pstate = .queued then [p.mode] else [])
      ++ (post.filter fun x => x.pstate = .queued).map Page.mode := by
  have none : (pre.filter fun x => decide (x.pstate = .queued)) = [] := List.filter_eq_nil_iff.mpr fun x hx => by
    simpa using ahead x hx
  rw [queuedModes, pages, List.filter_append, none, List.nil_append, List.filter_cons]
  by_cases queued : p.pstate = .queued <;> simp [queued]

/-- The record of a page just bound (R44). -/
def boundAt (origin : Nat) (p : Page) : Page := { p with origin := some origin, pstate := .bound }

/-- A page bound, before the rows and the loaders take it up (R44). -/
def boundState (p : Page) (origin : Nat) (s : State) : State :=
  raise (.pageBound p.id origin)
    { setPage (boundAt origin p) s with tailEnd := some (origin + 32 * p.length), tailPage := some p.id }

theorem bindPage_eq (p : Page) (origin : Nat) (s : State) : bindPage p origin s = settle (boundState p origin s) := rfl

theorem boundState_sameRun (p : Page) (origin : Nat) (s : State) :
    SameRun (setPage (boundAt origin p) s) (boundState p origin s) :=
  SameRun.raised (by rfl) _

theorem bindPage_accounted {s : State} (acc : Accounted s) {p : Page} (front : frontPage s = some p) (origin : Nat) :
    Accounted (bindPage p origin s) ∧ queuedModes s = p.mode :: queuedModes (bindPage p origin s) := by
  obtain ⟨queued, pre, post, pages, ahead⟩ := frontPage_split front
  have mem : p ∈ s.pages := by simp [pages]
  have page := pageById_of_mem acc.ids mem
  have new : (setPage (boundAt origin p) s).pages = pre ++ boundAt origin p :: post := setPage_place pages (apart_of_nodup (pages ▸ acc.ids)) rfl
  have bound : Accounted (setPage (boundAt origin p) s) := by
    have each {P : Page → Prop} (all : ∀ x ∈ s.pages, P x) (own : P (boundAt origin p)) :
        ∀ x ∈ (setPage (boundAt origin p) s).pages, P x := by
      rw [pages] at all
      rw [new]
      simp only [List.mem_append, List.mem_cons] at all ⊢
      rintro x (hx | rfl | hx)
      · exact all x (.inl hx)
      · exact own
      · exact all x (.inr (.inr hx))
    refine ⟨by simpa using acc.room, ?_, each acc.origins (by simp [boundAt]), ?_,
      each acc.balanced ((acc.balanced p mem).congr rfl rfl rfl rfl), fun h r row e at_ buf => ?_⟩
    · rw [setPage_pages, map_setPage_ids]; exact acc.ids
    · have order := acc.order
      rw [pages, List.pairwise_append, List.pairwise_cons] at order
      obtain ⟨first, ⟨-, last⟩, across⟩ := order
      rw [new, List.pairwise_append, List.pairwise_cons]
      refine ⟨first, ⟨fun _ _ q => by simp [boundAt] at q, last⟩, fun a ha b hb q => absurd q (ahead a ha)⟩
    · obtain ⟨x, found, still, rest⟩ := acc.held h r row e at_ buf
      have other : p.id ≠ e.page := fun same => by
        rw [← same, page] at found
        exact still (Option.some.inj found ▸ queued)
      exact ⟨x, (pageById_setPage_other s e.page (boundAt origin p) other).trans found, still, rest⟩
  obtain ⟨acc1, modes1⟩ := (boundState_sameRun p origin s).booksKept bound
  obtain ⟨acc2, modes2⟩ := booksKept_ends.settle _ acc1
  refine ⟨acc2, ?_⟩
  rw [bindPage_eq, modes2, modes1, queuedModes_split pages ahead, queuedModes_split new ahead, if_pos queued,
    if_neg (by simp [boundAt])]
  rfl

/-- Pages and entries accounted for, and no FOLLOW page as the front page: the two invariants. -/
def InOrder (s : State) : Prop := Accounted s ∧ ∀ m, (queuedModes s).head? = some m → m = .onCue

theorem BooksKept.inOrder {s t : State} (kept : BooksKept s t) (inv : InOrder s) : InOrder t := by
  obtain ⟨acc, modes⟩ := kept inv.1
  exact ⟨acc, modes ▸ inv.2⟩

theorem queuedModes_head (s : State) : (queuedModes s).head? = (frontPage s).map Page.mode := by
  rw [queuedModes, List.head?_map, List.head?_filter]; rfl

/-- Binding FOLLOW pages, as often as there are QUEUED pages, leaves none of them as the front page (R42). -/
theorem bindFollows_inOrder {fuel : Nat} {s : State} (acc : Accounted s) (enough : (queuedModes s).length ≤ fuel) :
    InOrder (bindFollows fuel s) := by
  induction fuel generalizing s with
  | zero =>
    refine ⟨acc, fun m head => ?_⟩
    rw [bindFollows, List.eq_nil_of_length_eq_zero (Nat.le_zero.mp enough)] at head
    cases head
  | succ fuel ih =>
    have head := queuedModes_head s
    unfold bindFollows
    split
    · rename_i p front
      obtain ⟨acc', modes⟩ := bindPage_accounted acc front (followOrigin p s)
      split
      · rw [modes, List.length_cons] at enough
        exact ih acc' (Nat.le_of_succ_le_succ enough)
      · rename_i notFollow
        refine ⟨acc, fun m first => ?_⟩
        rw [front, Option.map_some, first] at head
        rw [Option.some.inj head]
        cases mode : p.mode
        · rfl
        · exact absurd mode notFollow
    · rename_i front
      refine ⟨acc, fun m first => ?_⟩
      rw [head, front] at first
      cases first

theorem queuedModes_length_le (s : State) : (queuedModes s).length ≤ s.pages.length := by
  rw [queuedModes, List.length_map]; exact List.length_filter_le ..

theorem takeOffer_inOrder (origin : Nat) (kind : CueKind) {s : State} (inv : InOrder s) :
    InOrder (takeOffer origin kind s) := by
  have refused (c : MotionCtr) (e : Event) : InOrder (raise e (bumpMotion c 1 s)) :=
    (SameRun.raised (s := s) (by rfl) e).booksKept.inOrder inv
  unfold takeOffer
  split
  · exact refused ..
  · rename_i p front
    obtain ⟨acc, modes⟩ := bindPage_accounted inv.1 front origin
    have fewer := queuedModes_length_le s
    rw [modes, List.length_cons] at fewer
    dsimp only
    split
    · exact refused ..
    · exact bindFollows_inOrder acc (Nat.le_of_succ_le fewer)

/-! ### The Cue Tracker and the arrivals of H_int -/

theorem SameRun.inOrder {s t : State} (same : SameRun s t) (inv : InOrder s) : InOrder t := same.booksKept.inOrder inv

theorem flywheelTurn_inOrder (fuel : Nat) {s : State} (inv : InOrder s) : InOrder (flywheelTurn fuel s) := by
  induction fuel generalizing s with
  | zero => exact inv
  | succ fuel ih =>
    have synthesized : InOrder (synthesize s) := takeOffer_inOrder _ _ (SameRun.inOrder (s := s) rfl inv)
    have lost : InOrder (loseLock s) :=
      (SameRun.raised (s := s) (by rfl) _).booksKept.inOrder inv
    unfold flywheelTurn
    split
    · split
      · exact ih synthesized
      · exact lost
    · exact inv

theorem arrivalTurn_inOrder (a : SchedAct) {s : State} (inv : InOrder s) : InOrder (arrivalTurn a s) := by
  cases a with
  | cueOnce => exact flywheelTurn_inOrder 1 inv
  | cue => exact flywheelTurn_inOrder 3 inv
  | rowOnce h r => exact (booksKept_ends.rowOnce h r s).inOrder inv
  | row h r => exact (booksKept_ends.rowTurn h r s).inOrder inv
  | load h => exact (booksKept_ends.loaderTurn h s).inOrder inv

theorem arrival_inOrder {s : State} (inv : InOrder s) : InOrder (arrival s) := by
  unfold arrival
  refine List.foldlRecOn _ _ ((booksKept_ends.popSched s).inOrder inv) fun u held a _ => arrivalTurn_inOrder a held

theorem acceptCue_inOrder (pc : Nat) {s : State} (inv : InOrder s) : InOrder (acceptCue pc s) := by
  have took (sm : Nat) (u : State) : SameRun u (takeCue sm u) := rfl
  have synced (u : State) : SameRun u (hardSync pc u) := by
    unfold hardSync
    exact RowClosed.ite rfl (SameRun.raised (s := u) (by rfl) _)
  have followed (u : State) : SameRun u (followCue pc u) := by
    unfold followCue
    exact RowClosed.ite (took _ u) (SameRun.raised (s := u) (by rfl) _)
  have counted : InOrder (bumpMotion .cuesAccepted 1 s) := SameRun.inOrder (s := s) rfl inv
  unfold acceptCue
  refine takeOffer_inOrder _ _ (SameRun.inOrder ?_ counted)
  split
  · exact synced _
  · exact followed _

theorem cueEdge_inOrder {s : State} (inv : InOrder s) : InOrder (cueEdge s) := by
  unfold cueEdge
  split
  · exact inv
  · split
    · exact SameRun.inOrder (s := s) rfl inv
    · split
      · exact SameRun.inOrder (s := s) rfl inv
      · exact acceptCue_inOrder _ inv

theorem moveTo_sameRun (p : Nat) (s : State) : SameRun s (moveTo p s) := by
  unfold moveTo testDeficit
  split
  · exact RowClosed.ite (SameRun.raised (s := s) (by rfl) _) rfl
  · exact RowClosed.ite rfl rfl

theorem stepTogether_sameRun (together : CueWith) (s : State) : SameRun s (stepTogether together s) := by
  have edge (c : EdgeClass) (u : State) : SameRun u (takeEdge c u) := by
    cases c with
    | same => rfl
    | forward => exact moveTo_sameRun ..
    | reverse => exact moveTo_sameRun ..
    | glitch => rfl
  cases together with
  | nothing => rfl
  | encoder a b =>
    show SameRun s (encoderStep ⟨a, b⟩ s)
    unfold encoderStep
    refine RowClosed.ite rfl ?_
    dsimp only
    split
    · rfl
    · rfl
    · exact edge _ { s with encPins := ⟨a, b⟩, decRef := ⟨a, b⟩ }
  | pace =>
    show SameRun s (paceStep s)
    unfold paceStep
    split
    · rfl
    · exact moveTo_sameRun _ { s with pace := .running s.motionCfg.paceInterval }

theorem present_inOrder {s : State} (inv : InOrder s) (together : CueWith) :
    InOrder (present s (stepTogether together s)) := by
  have moved := (stepTogether_sameRun together s).inOrder inv
  unfold present
  split
  · exact arrival_inOrder moved
  · exact moved

theorem cueThenArrival_inOrder {s moved : State} (inv : InOrder moved) : InOrder (cueThenArrival s moved) := by
  have rows : InOrder (rowsFirst moved) :=
    (booksKept_ends.trans (booksKept_ends.popSched moved)
      (booksKept_ends.foldl (fun u a => booksKept_ends.turn a u) _ _)).inOrder inv
  unfold cueThenArrival
  split
  · exact arrival_inOrder (cueEdge_inOrder rows)
  · exact cueEdge_inOrder inv

/-! ### Requests on pages -/

theorem answered_inOrder {s : State} (inv : InOrder s) (f : HostFrame) (st : Status) (b : List Byte) :
    InOrder (answer f st b s) := SameRun.inOrder (s := s) rfl inv

theorem pageById_none {s : State} {id : Nat} (absent : ¬ (pageById s id).isSome = true) : ∀ p ∈ s.pages, p.id ≠ id := by
  simpa [pageById] using absent

/-- A new record at the tail of the queue (R40). -/
theorem Accounted.append {s : State} (acc : Accounted s) {q : Page} (room : s.pages.length < 4)
    (fresh : ∀ p ∈ s.pages, p.id ≠ q.id) (queued : q.pstate = .queued) (origin : q.origin = none) (bal : q.Balanced) :
    Accounted { s with pages := s.pages ++ [q] } := by
  have each {P : Page → Prop} (all : ∀ x ∈ s.pages, P x) (own : P q) : ∀ x ∈ s.pages ++ [q], P x := by
    simpa only [List.forall_mem_append, List.forall_mem_singleton] using And.intro all own
  refine ⟨?_, ?_, each acc.origins (by simp [queued, origin]), ?_, each acc.balanced bal, fun h r row e at_ buf => ?_⟩
  · simpa using room
  · simp only [List.map_append, List.map_cons, List.map_nil, List.nodup_append, List.nodup_singleton]
    refine ⟨acc.ids, trivial, fun a ha b hb => ?_⟩
    obtain ⟨p, hp, rfl⟩ := List.mem_map.mp ha
    rw [List.mem_singleton.mp hb]
    exact fresh p hp
  · rw [List.pairwise_append]
    exact ⟨acc.order, List.pairwise_singleton .., fun a _ b hb _ => by rw [List.mem_singleton.mp hb, queued]⟩
  · obtain ⟨x, found, rest⟩ := acc.held h r row e at_ buf
    refine ⟨x, ?_, rest⟩
    unfold pageById at found ⊢
    rw [List.find?_append, found]
    rfl

theorem pageOpen_inOrder (f : HostFrame) {s : State} (inv : InOrder s) : InOrder (pageOpen f s) := by
  unfold pageOpen
  split
  · exact answered_inOrder inv ..
  · rename_i a _
    split
    · exact answered_inOrder inv ..
    · rename_i accepted
      split
      · exact answered_inOrder inv ..
      · rename_i room
        have fresh := pageById_none fun present => accepted (.inr present)
        have acc := inv.1.append (q := newPage a s) (Nat.not_le.mp room) fresh rfl rfl (newPage_balanced a s)
        exact answered_inOrder (bindFollows_inOrder acc (queuedModes_length_le _)) ..

theorem cancelQueued_inOrder {s : State} (acc : Accounted s) {p : Page} (page : pageById s p.id = some p)
    (queued : p.pstate = .queued) : InOrder (cancelQueued p s) := by
  have counted := (SameRun.countEntries .withdrawn p (fun _ => p.length) s).trans (SameRun.freeLinesFrom p 0 _)
  have acc1 := acc.of_same counted.pages counted.rows
  have page1 := page
  rw [pageById, ← counted.pages] at page1
  unfold cancelQueued
  dsimp only
  generalize freeLinesFrom p 0 (countEntries .withdrawn p (fun _ => p.length) s) = u at *
  have dropped : Accounted (dropPage p.id u) := acc1.dropPage fun h r row e at_ buf same => by
    obtain ⟨x, found, bound, -⟩ := acc1.held h r row e at_ buf
    rw [same, pageById, page1] at found
    exact bound (Option.some.inj found ▸ queued)
  exact bindFollows_inOrder (dropped.of_same (SameRun.raise _ _).pages (SameRun.raise _ _).rows)
    (queuedModes_length_le _)

theorem rowAt_mapBufs (g : LoadBuf → LoadBuf) (s : State) (h r : Nat) :
    rowAt (mapBufs g s) h r = (rowAt s h r).map fun row => { row with buf := g row.buf } := by
  by_cases lt : h < 24
  · simp only [rowAt, rowsOf, mapBufs, look_mapTable _ _ _ [] _ lt, List.getElem?_map]
  · simp [rowAt, rowsOf, look, lt]

/-- What a buffer still holds when entries are withdrawn (R50). -/
theorem withdraw_held {b : LoadBuf} {id m : Nat} {e : Entry} (held : (b.withdraw id m).held = some e) :
    b.held = some e ∧ ¬ (e.page = id ∧ m ≤ e.line) := by
  cases b with
  | empty => cases held
  | loading f spent =>
    by_cases gone : f.page = id ∧ m ≤ f.line
    · simp [LoadBuf.withdraw, gone, LoadBuf.held] at held
    · cases spent <;> simp [LoadBuf.withdraw, gone, LoadBuf.held] at held ⊢
      subst held
      exact ⟨rfl, by simpa using gone⟩
  | full f seq =>
    by_cases gone : f.page = id ∧ m ≤ f.line
    · simp [LoadBuf.withdraw, gone, LoadBuf.held] at held
    · simp [LoadBuf.withdraw, gone, LoadBuf.held] at held ⊢
      subst held
      exact ⟨rfl, by simpa using gone⟩

theorem cut_held (b : LoadBuf) : b.cut.held = none := by cases b <;> rfl

/-- A change of every buffer that takes up no entry. -/
theorem Accounted.mapBufs {s : State} (acc : Accounted s) {g : LoadBuf → LoadBuf}
    (keeps : ∀ b e, (g b).held = some e → b.held = some e) : Accounted (mapBufs g s) := by
  refine acc.of_rows (mapBufs_pages ..) fun h r row e at_ buf => ?_
  rw [rowAt_mapBufs] at at_
  obtain ⟨old, atOld, rfl⟩ := Option.map_eq_some_iff.mp at_
  exact ⟨old, atOld, keeps _ _ buf⟩

/-- The cut itself, before the page's departure, keeps the books (R49, R50). -/
theorem cutAt_booksKept {s : State} {p : Page} (page : pageById s p.id = some p) :
    BooksKept s (setPage (p.cutAt (cutLine p)) (mapBufs (LoadBuf.withdraw p.id (cutLine p)) s)) := fun acc => by
  have mem := pageById_mem page
  have withdrawn : Accounted (mapBufs (LoadBuf.withdraw p.id (cutLine p)) s) :=
    acc.mapBufs fun b e held => (withdraw_held held).1
  have modes : queuedModes (mapBufs (LoadBuf.withdraw p.id (cutLine p)) s) = queuedModes s :=
    queuedModes_of_pages (mapBufs_pages ..)
  have page1 : pageById (mapBufs (LoadBuf.withdraw p.id (cutLine p)) s) p.id = some p := by
    rw [pageById, mapBufs_pages]; exact page
  rw [← modes]
  have lines : ∀ h r row e, rowAt (mapBufs (LoadBuf.withdraw p.id (cutLine p)) s) h r = some row →
      row.buf.held = some e → e.page = p.id → e.line < cutLine p := by
    intro h r row e at_ buf same
    rw [rowAt_mapBufs] at at_
    obtain ⟨old, -, rfl⟩ := Option.map_eq_some_iff.mp at_
    exact Nat.not_le.mp fun above => (withdraw_held buf).2 ⟨same, above⟩
  generalize mapBufs (LoadBuf.withdraw p.id (cutLine p)) s = u at *
  exact withdrawn.setPage (q := p.cutAt (cutLine p)) page1 rfl (acc.origins p mem) Iff.rfl
    (acc.balanced p mem).cutAt fun h r row e at_ buf same line _ => ⟨line, lines h r row e at_ buf same⟩

/-- The cut of a BOUND or FIRING page before its departure, if nothing of it is left, and before what rows and loaders make
of it (R49, R50). -/
def cutState (p : Page) (s : State) : State :=
  let cut := setPage (p.cutAt (cutLine p)) (freeLinesFrom p (cutLine p) (mapBufs (LoadBuf.withdraw p.id (cutLine p))
    (countEntries .withdrawn p (fun _ => p.length - cutLine p) s)))
  if s.tailPage = some p.id then { cut with tailEnd := some (p.cutAt (cutLine p)).endAt } else cut

theorem cancelBound_eq (p : Page) (s : State) : cancelBound p s = settle (finishPage p.id (cutState p s)) := rfl

theorem cutState_run (p : Page) (s : State) : SameRun (setPage (p.cutAt (cutLine p)) (freeLinesFrom p (cutLine p)
    (mapBufs (LoadBuf.withdraw p.id (cutLine p)) (countEntries .withdrawn p (fun _ => p.length - cutLine p) s))))
    (cutState p s) := by
  unfold cutState
  exact RowClosed.ite rfl rfl

theorem cutState_pages (p : Page) (s : State) :
    (cutState p s).pages = (setPage (p.cutAt (cutLine p)) s).pages := by
  rw [(cutState_run p s).pages, setPage_pages, setPage_pages, (SameRun.freeLinesFrom ..).pages, mapBufs_pages,
    (SameRun.countEntries ..).pages]

theorem mapBufs_rows (g : LoadBuf → LoadBuf) (s : State) : (mapBufs g s).rows
    = mapTable (fun rs => rs.map fun row : Row => { row with buf := g row.buf }) s.rows := rfl

theorem cutState_rows (p : Page) (s : State) :
    (cutState p s).rows = (mapBufs (LoadBuf.withdraw p.id (cutLine p)) s).rows := by
  rw [(cutState_run p s).rows, setPage_rows, (SameRun.freeLinesFrom ..).rows, mapBufs_rows, mapBufs_rows,
    (SameRun.countEntries ..).rows]

theorem cancelBound_booksKept {s : State} {p : Page} (page : pageById s p.id = some p) (bound : p.pstate ≠ .queued) :
    BooksKept s (cancelBound p s) := by
  have cut : BooksKept s (cutState p s) := (cutAt_booksKept page).trans (booksKept_of_same
    (by rw [cutState_pages, setPage_pages, setPage_pages, mapBufs_pages]) (by rw [cutState_rows, setPage_rows]))
  have left : pageById (cutState p s) p.id = some (p.cutAt (cutLine p)) := by
    rw [pageById, cutState_pages]; exact pageById_setPage _ page rfl
  rw [cancelBound_eq]
  exact cut.trans ((finishPage_booksKept left bound).trans (booksKept_ends.settle _))

theorem pageCancel_inOrder (f : HostFrame) {s : State} (inv : InOrder s) : InOrder (pageCancel f s) := by
  unfold pageCancel
  split
  · exact answered_inOrder inv ..
  · rename_i p found
    have page : pageById s p.id = some p := pageById_id found ▸ found
    split
    · rename_i queued
      exact answered_inOrder (cancelQueued_inOrder inv.1 page queued) ..
    · rename_i bound
      exact answered_inOrder ((cancelBound_booksKept page bound).inOrder inv) ..

/-! ### Halt, start, stop and the resets -/

/-- With no page in the queue and no entry in a buffer everything is in order. -/
theorem inOrder_of_empty {s : State} (pages : s.pages = [])
    (free : ∀ h r row, rowAt s h r = some row → row.buf.held = none) : InOrder s := by
  refine ⟨⟨by simp [pages], by simp [pages], by simp [pages], by simp [pages], by simp [pages],
    fun h r row e at_ buf => ?_⟩, by simp [queuedModes, pages]⟩
  rw [free h r row at_] at buf
  cases buf

theorem engineHalt_inOrder (f : HostFrame) (s : State) : InOrder (engineHalt f s) := by
  unfold engineHalt
  dsimp only
  have free : ∀ h r row, rowAt (mapBufs LoadBuf.cut (s.pages.foldl haltPage s)) h r = some row →
      row.buf.held = none := by
    intro h r row at_
    rw [rowAt_mapBufs] at at_
    obtain ⟨old, -, rfl⟩ := Option.map_eq_some_iff.mp at_
    exact cut_held old.buf
  generalize mapBufs LoadBuf.cut (s.pages.foldl haltPage s) = u at free
  exact inOrder_of_empty rfl free

theorem engineStart_inOrder (f : HostFrame) {s : State} (inv : InOrder s) : InOrder (engineStart f s) := by
  unfold engineStart
  split
  · exact answered_inOrder inv ..
  · refine answered_inOrder (inOrder_of_empty rfl fun h r row at_ => ?_) ..
    have lt := (rowAt_some at_).1
    have mem := List.mem_of_getElem? at_
    rw [rowsOf, startRun, look_mapTable _ _ _ none _ lt] at mem
    split at mem
    · rw [List.eq_of_mem_replicate mem]; rfl
    · cases mem

theorem powerOn_inOrder {t : State} (pages : t.pages = []) (rows : t.rows = Vector.replicate 24 []) : InOrder t := by
  refine inOrder_of_empty pages fun h r row at_ => ?_
  have mem := List.mem_of_getElem? at_
  rw [rowsOf, rows, look_replicate] at mem
  cases mem

theorem handleRequest_inOrder {q : Req} {act : HostFrame → State → State} {s : State} (inv : InOrder s)
    (keeps : ∀ f {u}, InOrder u → InOrder (act f u)) : InOrder (handleRequest q act s) := by
  have freed : InOrder { s with handler := .free } := SameRun.inOrder (s := s) rfl inv
  rcases handleRequest_cases q act s with h | ⟨f, -, -, ⟨-, h⟩ | ⟨-, -, h⟩ | ⟨-, -, h⟩⟩ <;> rw [h]
  · exact inv
  · exact (SameRun.takeNext _).inOrder (answered_inOrder freed ..)
  · exact (SameRun.takeNext _).inOrder (answered_inOrder freed ..)
  · exact (SameRun.takeNext _).inOrder (keeps f freed)

/-! ### Every command -/

/-- The requests that set the configuration do not touch pages and rows. -/
theorem configuration_books (f : HostFrame) (s : State) :
    (∀ act ∈ [setPlaneSet, setPlaneRemove, setHeadSet, setHeadRemove, setLane, setMotion, setCue, engineStop],
      (act f s).pages = s.pages ∧ (act f s).rows = s.rows) := by
  simp only [List.forall_mem_cons, List.not_mem_nil, false_imp_iff, implies_true, and_true]
  unfold setPlaneSet setPlaneRemove setHeadSet setHeadRemove setLane setMotion setCue engineStop
  refine ⟨?_, ?_, ?_, ?_, ?_, ?_, ?_, ?_⟩ <;> split <;> exact ⟨rfl, rfl⟩

theorem exec_inOrder (c : Instr) {s : State} (inv : InOrder s) : ∃ t, exec c s = .next t ∧ InOrder t := by
  have configured {q : Req} {act : HostFrame → State → State}
      (own : act ∈ [setPlaneSet, setPlaneRemove, setHeadSet, setHeadRemove, setLane, setMotion, setCue, engineStop]) :
      InOrder (handleRequest q act s) := handleRequest_inOrder inv fun f {u} held =>
    (booksKept_of_same (configuration_books f u act own).1 (configuration_books f u act own).2).inOrder held
  cases acts : actsOnRun c with
  | false =>
    obtain ⟨t, ran, same⟩ := exec_sameRun acts s
    exact ⟨t, ran, same.inOrder inv⟩
  | true =>
    cases c with
    | powerOn => exact ⟨_, rfl, powerOn_inOrder rfl rfl⟩
    | softReset =>
      refine ⟨_, rfl, ?_⟩
      split
      · exact powerOn_inOrder rfl rfl
      · exact inv
    | setPlaneSet => exact ⟨_, rfl, configured (by simp)⟩
    | setPlaneRemove => exact ⟨_, rfl, configured (by simp)⟩
    | setHeadSet => exact ⟨_, rfl, configured (by simp)⟩
    | setHeadRemove => exact ⟨_, rfl, configured (by simp)⟩
    | setLane => exact ⟨_, rfl, configured (by simp)⟩
    | setMotion => exact ⟨_, rfl, configured (by simp)⟩
    | setCue => exact ⟨_, rfl, configured (by simp)⟩
    | engineStop => exact ⟨_, rfl, configured (by simp)⟩
    | engineStart => exact ⟨_, rfl, handleRequest_inOrder inv fun f _ held => engineStart_inOrder f held⟩
    | engineHalt => exact ⟨_, rfl, handleRequest_inOrder inv fun f u _ => engineHalt_inOrder f u⟩
    | pageOpen => exact ⟨_, rfl, handleRequest_inOrder inv fun f _ held => pageOpen_inOrder f held⟩
    | pageCancel => exact ⟨_, rfl, handleRequest_inOrder inv fun f _ held => pageCancel_inOrder f held⟩
    | storingEnd => exact ⟨_, rfl, (booksKept_ends.storingEnd s).inOrder inv⟩
    | headAnswer lane bits => exact ⟨_, rfl, (booksKept_ends.headAnswer lane bits s).inOrder inv⟩
    | ackTimeout h => exact ⟨_, rfl, (booksKept_ends.ackTimeout h s).inOrder inv⟩
    | windowEnd h r => exact ⟨_, rfl, (booksKept_ends.windowEnd h r s).inOrder inv⟩
    | encoderChange a b => exact ⟨_, rfl, present_inOrder inv (.encoder a b)⟩
    | paceExpiry => exact ⟨_, rfl, present_inOrder inv .pace⟩
    | cueEdge =>
      have used : InOrder (popCueWith s).2 := SameRun.inOrder (s := s) rfl inv
      exact ⟨_, rfl, cueThenArrival_inOrder ((stepTogether_sameRun ..).inOrder used)⟩
    | _ => cases acts

/-- Settles O60: every command keeps the two invariants, which are `InOrder`, and taking it from the queue of commands does
not touch them. -/
theorem everyEntryIsAccountedFor : Obligations.EveryEntryIsAccountedFor := by
  intro s t queue entries run
  have inv : InOrder s := accounted_iff.mp ⟨queue, entries⟩
  refine accounted_iff.mpr (show InOrder t from ?_)
  unfold Machine.step at run
  split at run
  · obtain rfl := Host.Outcome.next.inj run
    exact inv
  · rename_i c rest _
    obtain ⟨u, ran, held⟩ := exec_inOrder c (s := { s with pending := rest }) (SameRun.inOrder (s := s) rfl inv)
    obtain rfl := Host.Outcome.next.inj (run.symm.trans ran)
    exact held

end Sys2Proof.Machine
end

