-- ==== Sys2Proof/Proofs/EngineRequests.lean ====
section
/-! SUPPORT. Requests refused for the engine state (R33), ENGINE_STOP (R36) and ENGINE_HALT (R37, R38, R66), with what a
count over the heads' groups and a run of events come to. -/

namespace Sys2Proof.Machine

/-! ### Requests refused for the engine state (R33) -/

/-- A request's command is its row of the handler. -/
theorem exec_instr (q : Req) : ∃ act, ∀ s, exec q.instr s = .next (handleRequest q act s) := by
  cases q <;> exact ⟨_, fun _ => rfl⟩

/-- The codes refused in an engine state are those of requests not handled in it. -/
theorem handledIn_of_refused {e : EngineState} {code : Byte} (refused : code.toNat ∈ refusedCodes e) (tag : BitVec 16)
    (body : List Byte) : (reqOf ⟨.control, code, tag, body⟩).handledIn e = false := by
  cases e with
  | run =>
    simp only [refusedCodes, List.mem_cons, List.not_mem_nil, or_false] at refused
    rcases refused with h | h | h | h | h | h <;> simp only [reqOf, h]
    case inl => split <;> rfl
    case inr.inl => split <;> rfl
    all_goals rfl
  | setup =>
    simp only [refusedCodes, List.mem_cons, List.not_mem_nil, or_false] at refused
    rcases refused with h | h | h | h | h <;> simp only [reqOf, h] <;> rfl

/-- Settles O8: step 1 of the handler comes before its reading of the body, and the handler then moves on. -/
theorem refusedInTheWrongEngineState : Obligations.RefusedInTheWrongEngineState := by
  refine ⟨fun s s1 code tag body taken refused => ?_, fun s s1 tag body taken setup => ?_⟩
  · obtain ⟨act, ran⟩ := exec_instr (reqOf ⟨.control, code, tag, body⟩)
    rw [ran, handleRequest_wrongState taken rfl (handledIn_of_refused refused tag body)]
  · obtain ⟨holds, rfl⟩ := taken
    refine congrArg Host.Outcome.next ?_
    rw [handleRequest_taken (q := .band) holds rfl, handleFrame, if_pos (by show decide (s.engine = .run) = _; simp [setup]),
      takeNext_answer]

/-! ### ENGINE_STOP (R36) -/

/-- A test of every entry of a table. -/
theorem all_look {α : Type} {n : Nat} {t : Vector α n} {d : α} {ok : α → Bool} (outside : ok d = true) :
    t.toList.all ok = true ↔ ∀ i, ok (look t i d) = true := by
  rw [List.all_eq_true]
  constructor
  · intro all i
    by_cases lt : i < n
    · simpa [look, lt] using all t[i] (by simp)
    · simpa [look, lt] using outside
  · intro all x hx
    obtain ⟨i, lt, rfl⟩ := List.getElem_of_mem hx
    have lt : i < n := by simpa using lt
    simpa [look, lt] using all i

theorem quiet_iff {s : State} : s.quiet = true ↔ (∀ h, transferOf s h = none)
    ∧ (∀ h k, look s.health h none = some k → k.state ≠ .probing)
    ∧ (∀ h r row, rowAt s h r = some row → row.fire = .idle) := by
  have idle (l : Option Loader) : (!(l.any Loader.busy)) = true ↔ l.bind Loader.xfer = none := by
    cases l <;> simp [Loader.busy]
  have calm (k : Option Health) : (!(k.any fun k => decide (k.state = .probing))) = true
      ↔ ∀ x, k = some x → x.state ≠ .probing := by
    cases k <;> simp
  have dark (rs : List Row) : (rs.all fun row => !row.isFiring) = true
      ↔ ∀ (r : Nat) (row : Row), rs[r]? = some row → row.fire = .idle := by
    rw [List.all_eq_true]
    have firing (row : Row) : (!row.isFiring) = true ↔ row.fire = .idle := by
      unfold Row.isFiring; split <;> simp [*]
    exact ⟨fun all r row at_ => (firing row).mp (all row (List.mem_of_getElem? at_)), fun all row mem => by
      obtain ⟨r, at_⟩ := List.mem_iff_getElem?.mp mem
      exact (firing row).mpr (all r row at_)⟩
  unfold State.quiet
  rw [Bool.and_eq_true, Bool.and_eq_true, all_look (d := none) rfl, all_look (d := none) rfl, all_look (d := []) rfl,
    and_assoc]
  simp only [idle, calm, dark]
  rfl

/-- Settles O21. -/
theorem engineStopNeedsAQuietPart : Obligations.EngineStopNeedsAQuietPart := by
  intro s s1 tag taken run
  have ruled := handleRequest_ruled (q := .engineStop) (act := engineStop) taken rfl (by rw [run]; rfl) rfl
  have test : ((({ s with handler := .free } : State).pages.isEmpty
      && ({ s with handler := .free } : State).quiet) = true) ↔ s.pages = [] ∧ s.quiet = true := by
    show (s.pages.isEmpty && s.quiet) = true ↔ _
    rw [Bool.and_eq_true, List.isEmpty_iff]
  rw [quiet_iff] at test
  obtain ⟨-, rfl⟩ := taken
  refine ⟨fun quiet => congrArg Host.Outcome.next ?_, fun busy => congrArg Host.Outcome.next ?_⟩
  · rw [ruled, engineStop, if_pos (test.mpr quiet)]
    refine (takeNext_answer _ _ _ { s with engine := .setup, pace := .stopped }).trans ?_
    rw [movedOn_eq, movedOn_eq]
  · rw [ruled, engineStop, if_neg fun pass => busy (test.mp pass), takeNext_answer]

/-! ### Counts over the heads' groups (R100, R116) -/

/-- A run of counts in the heads' groups sets nothing but them. -/
theorem countEntries_eq (k : Kind) (p : Page) (g : Nat → Nat) (s : State) :
    ∃ ctrs, countEntries k p g s = { s with headCtrs := ctrs } := by
  have all (l : List Nat) : ∀ u : State, ∃ ctrs,
      l.foldl (fun s h => bumpHead h (.retired k) ((look p.passed h []).map g).sum s) u = { u with headCtrs := ctrs } := by
    induction l with
    | nil => exact fun u => ⟨u.headCtrs, rfl⟩
    | cons h l ih => exact fun u => ih (bumpHead h (.retired k) ((look p.passed h []).map g).sum u)
  exact all _ s

/-- What a run of counts makes of one head's group: the count of its kind rises by the head's entries. -/
theorem headGroup_countEntries (k : Kind) (p : Page) (g : Nat → Nat) (s : State) {h : Nat} (lt : h < 24) :
    headGroup (countEntries k p g s) h = put (headGroup s h) k.code
      (satAdd (look (headGroup s h) k.code 0) ((look p.passed h []).map g).sum) := by
  have all (l : List Nat) (nodup : l.Nodup) (below : ∀ i ∈ l, i < 24) : ∀ u : State,
      headGroup (l.foldl (fun s h => bumpHead h (.retired k) ((look p.passed h []).map g).sum s) u) h
        = if h ∈ l then put (headGroup u h) k.code
            (satAdd (look (headGroup u h) k.code 0) ((look p.passed h []).map g).sum) else headGroup u h := by
    induction l with
    | nil => exact fun _ => by simp
    | cons i l ih =>
      intro u
      obtain ⟨notin, nodup⟩ := List.nodup_cons.mp nodup
      rw [List.foldl_cons, ih nodup fun j hj => below j (List.mem_cons_of_mem _ hj),
        headGroup_bumpHead _ _ _ _ _ (below i List.mem_cons_self)]
      by_cases same : i = h
      · subst same
        simp [notin, HeadCtr.pos]
      · simp [same, Ne.symm same]
  have mem : h ∈ List.range 24 := List.mem_range.mpr lt
  exact (all _ List.nodup_range (fun i hi => List.mem_range.mp hi) s).trans (if_pos mem)

theorem headGroup_countEntries_count (k : Kind) (p : Page) (g : Nat → Nat) (s : State) {h : Nat} (lt : h < 24) :
    look (headGroup (countEntries k p g s) h) k.code 0
      = satAdd (look (headGroup s h) k.code 0) ((look p.passed h []).map g).sum := by
  rw [headGroup_countEntries k p g s lt, look_put_same _ _ _ _ (Nat.lt_trans k.code_lt (by decide))]

/-- A head beyond the table has no group to count in. -/
theorem headGroup_outside (s : State) {h : Nat} (ge : ¬ h < 24) : headGroup s h = Vector.replicate 11 0 := by
  simp [headGroup, look, ge]

theorem headGroup_countEntries_other (k : Kind) (p : Page) (g : Nat → Nat) (s : State) (h : Nat) {i : Nat}
    (other : i ≠ k.code) : look (headGroup (countEntries k p g s) h) i 0 = look (headGroup s h) i 0 := by
  by_cases lt : h < 24
  · rw [headGroup_countEntries k p g s lt, look_put_ne _ _ _ _ _ (Ne.symm other)]
  · rw [headGroup_outside _ lt, headGroup_outside _ lt]

theorem satAdd_satAdd (x a b : Nat) : satAdd (satAdd x a) b = satAdd x (a + b) := by
  unfold satAdd; omega

theorem sum_map_const {α : Type} (l : List α) (w : Nat) : (l.map fun _ => w).sum = w * l.length := by
  rw [List.map_const', List.sum_replicate, smul_eq_mul, Nat.mul_comm]

/-! ### Events in a row -/

/-- The outgoing order and the event queue's numbering are the same in both states. -/
def SameQueue (u t : State) : Prop := t.outgoing = u.outgoing ∧ SameEvents u t

theorem SameQueue.refl (s : State) : SameQueue s s := ⟨rfl, rfl, rfl, rfl⟩

theorem SameQueue.trans {s t u : State} (a : SameQueue s t) (b : SameQueue t u) : SameQueue s u := by
  obtain ⟨a1, a2, a3, a4⟩ := a
  obtain ⟨b1, b2, b3, b4⟩ := b
  exact ⟨b1.trans a1, b2.trans a2, b3.trans a3, b4.trans a4⟩

/-- An event comes to the same wherever the event queue is the same. -/
theorem SameQueue.offered {u t : State} (same : SameQueue u t) (e : Event) :
    SameQueue (offered e u) (Machine.offered e t) := by
  obtain ⟨out, seq, lost, ctrs⟩ := same
  have count : t.eventCount = u.eventCount := by simp only [State.eventCount, out]
  unfold Machine.offered
  rw [count]
  split
  · exact ⟨by simp only [joined, out, seq, lost], by simp only [joined, seq], rfl, ctrs⟩
  · exact ⟨out, seq, by simp only [lost], by simp only [ctrs]⟩

theorem SameQueue.raise {u t : State} (same : SameQueue u t) (e : Event) :
    SameQueue (Machine.offered e u) (raise e t) := raise_offered e t ▸ same.offered e

theorem countEntries_sameQueue (k : Kind) (p : Page) (g : Nat → Nat) (s : State) :
    SameQueue s (countEntries k p g s) := by
  obtain ⟨ctrs, eq⟩ := countEntries_eq k p g s
  rw [eq]
  exact .refl s

/-! ### After a request that leaves the handler free -/

/-- What a request's rule leaves alone, left alone as well by its reply and the handler moving on (R157). -/
theorem RowFrame.replied {s u : State} (frame : RowFrame { s with handler := .free } u) (f : HostFrame) (st : Status)
    (b : List Byte) : RowFrame (movedOn s) (takeNext (answer f st b u)) := by
  have free : (answer f st b u).handler = .free := frame.handler
  rw [takeNext_eq, if_pos free, movedOn_eq, movedOn_eq]
  obtain ⟨h1, h2, h3, -, h5, h6, h7, h8, h9, h10, h11, h12, h13, h14, h15, h16, h17, h18, h19, h20, h21, h22, h23, h24,
    h25, h26, h27, h28, h29, h30, h31, h32, h33⟩ := frame
  constructor <;> simp only [answer, h1, h2, h3, h5, h6, h7, h8, h9, h10, h11, h12, h13, h14, h15, h16, h17, h18, h19,
    h20, h21, h22, h23, h24, h25, h26, h27, h28, h29, h30, h31, h32, h33]

/-! ### ENGINE_HALT (R37, R38, R66) -/

/-- What a halt says of a page in its PAGE_DONE: HALTED, the unretired entries counted CUT (R37). -/
def haltedEvent (p : Page) : Event :=
  .pageDone p.id .halted p.length (put p.counts 7 (look p.counts 7 0 + p.unretired))

/-- The unretired entries of a page at a head. -/
def entriesAt (h : Nat) (p : Page) : Nat := ((look p.passed h []).map fun n => p.length - n).sum

theorem haltPage_eq (s : State) (p : Page) : haltPage s p
    = raise (haltedEvent p) (dropPage p.id (countEntries .cut p (fun n => p.length - n) s)) := rfl

theorem haltPage_keeps (s : State) (p : Page) : (haltPage s p).rows = s.rows ∧ (haltPage s p).loaders = s.loaders
    ∧ (haltPage s p).planeCtrs = s.planeCtrs := by
  obtain ⟨ctrs, eq⟩ := countEntries_eq .cut p (fun n => p.length - n) s
  rw [haltPage_eq, eq]
  simp

theorem haltPage_sameQueue {u t : State} (same : SameQueue u t) (p : Page) :
    SameQueue (offered (haltedEvent p) u) (haltPage t p) := by
  have counted := same.trans (countEntries_sameQueue .cut p (fun n => p.length - n) t)
  have dropped : SameQueue u (dropPage p.id (countEntries .cut p (fun n => p.length - n) t)) := counted
  exact dropped.raise (haltedEvent p)

theorem headGroup_of_ctrs {s t : State} (ctrs : t.headCtrs = s.headCtrs) (h : Nat) : headGroup t h = headGroup s h := by
  simp only [headGroup, ctrs]

theorem headGroup_haltPage (s : State) (p : Page) (h : Nat) :
    headGroup (haltPage s p) h = headGroup (countEntries .cut p (fun n => p.length - n) s) h := by
  rw [haltPage_eq]
  exact headGroup_of_ctrs (raise_headCtrs _ _) h

/-- Every page halted in queue order (R37): the events one after another, rows, loaders and plane counters left, and of
the heads' counters only CUT raised, by the entries that the pages had left at the head. -/
theorem haltPages_spec (ps : List Page) : ∀ {u s : State}, SameQueue u s →
    SameQueue ((ps.map haltedEvent).foldl (fun u e => offered e u) u) (ps.foldl haltPage s)
    ∧ (ps.foldl haltPage s).rows = s.rows ∧ (ps.foldl haltPage s).loaders = s.loaders
    ∧ (ps.foldl haltPage s).planeCtrs = s.planeCtrs
    ∧ (∀ h i, i ≠ 7 → look (headGroup (ps.foldl haltPage s) h) i 0 = look (headGroup s h) i 0)
    ∧ ∀ h, h < 24 → look (headGroup s h) 7 0 ≤ Config.counterMax → look (headGroup (ps.foldl haltPage s) h) 7 0
        = satAdd (look (headGroup s h) 7 0) (ps.map (entriesAt h)).sum := by
  induction ps with
  | nil => exact fun same => ⟨same, rfl, rfl, rfl, fun _ _ _ => rfl, fun h _ le =>
    (Nat.min_eq_left le).symm⟩
  | cons p ps ih =>
    intro u s same
    obtain ⟨rows, loaders, ctrs⟩ := haltPage_keeps s p
    obtain ⟨queue, rows', loaders', ctrs', others, cut⟩ := ih (haltPage_sameQueue same p)
    refine ⟨queue, rows'.trans rows, loaders'.trans loaders, ctrs'.trans ctrs, fun h i ne => ?_, fun h lt _ => ?_⟩
    · rw [List.foldl_cons, others h i ne, headGroup_haltPage]
      exact headGroup_countEntries_other .cut p _ s h ne
    · have first : look (headGroup (haltPage s p) h) 7 0 = satAdd (look (headGroup s h) 7 0) (entriesAt h p) := by
        rw [headGroup_haltPage]
        exact headGroup_countEntries_count .cut p _ s lt
      rw [List.foldl_cons, cut h lt (first ▸ Nat.min_le_right ..), first, satAdd_satAdd, List.map_cons, List.sum_cons]

/-- The state of a halt before its reply. -/
def halted (s : State) : State :=
  { mapBufs LoadBuf.cut (s.pages.foldl haltPage s) with
    pages := [], tailEnd := none, tailPage := none, lines := Vector.replicate 8 [] }

theorem halted_frame (s : State) : RowFrame s (halted s) := by
  have cut : RowFrame s (mapBufs LoadBuf.cut (s.pages.foldl haltPage s)) :=
    rowFrame_closed.trans (rowFrame_closed.foldl rowFrame_closed.haltPage s.pages s) (rowFrame_closed.mapBufs ..)
  unfold halted
  generalize mapBufs LoadBuf.cut (s.pages.foldl haltPage s) = t at cut
  exact cut.trans (by constructor <;> rfl)

theorem halted_rowAt (s : State) (h r : Nat) :
    rowAt (halted s) h r = (rowAt s h r).map fun row => { row with buf := row.buf.cut } := by
  obtain ⟨-, rows, -⟩ := haltPages_spec s.pages (SameQueue.refl s)
  have same : rowAt (s.pages.foldl haltPage s) h r = rowAt s h r := by simp only [rowAt, rowsOf, rows]
  rw [← same, ← rowAt_mapBufs]
  unfold halted
  generalize mapBufs LoadBuf.cut (s.pages.foldl haltPage s) = t
  rfl

/-- What a halt keeps of the halted pages' counts, events and loaders: all that `haltPages_spec` says. -/
theorem halted_keeps (s : State) : SameQueue (s.pages.foldl haltPage s) (halted s)
    ∧ (halted s).headCtrs = (s.pages.foldl haltPage s).headCtrs
    ∧ (halted s).loaders = (s.pages.foldl haltPage s).loaders
    ∧ (halted s).planeCtrs = (s.pages.foldl haltPage s).planeCtrs := by
  have same (u : State) : SameQueue u (mapBufs LoadBuf.cut u) := ⟨by simp, by simp, by simp, by simp⟩
  have queue := same (s.pages.foldl haltPage s)
  have ctrs := mapBufs_headCtrs (s.pages.foldl haltPage s) LoadBuf.cut
  have loaders := mapBufs_loaders (s.pages.foldl haltPage s) LoadBuf.cut
  have planes := mapBufs_planeCtrs (s.pages.foldl haltPage s) LoadBuf.cut
  unfold halted
  generalize mapBufs LoadBuf.cut (s.pages.foldl haltPage s) = t at *
  exact ⟨queue, ctrs, loaders, planes⟩

/-- A counter within its range. -/
theorem headCtr_le {s : State} (inv : countersInv s) {h : Nat} (lt : h < 24) (i : Nat) :
    look (headGroup s h) i 0 ≤ Config.counterMax := by
  obtain ⟨-, -, -, heads, -⟩ := inv
  have group : headGroup s h ∈ s.headCtrs.toList := by
    simp [headGroup, look, lt]
  by_cases small : i < 11
  · refine heads _ group _ ?_
    simp [look, small]
  · simp [look, small]

/-- Settles O22. -/
theorem engineHaltDropsEveryPage : Obligations.EngineHaltDropsEveryPage := by
  intro s s1 tag taken run _ inv
  have ruled := handleRequest_ruled (q := .engineHalt) (act := engineHalt) taken rfl (by rw [run]; rfl) rfl
  obtain ⟨-, rfl⟩ := taken
  intro done
  have frame := halted_frame { s with handler := .free }
  have rows := halted_rowAt { s with handler := .free }
  obtain ⟨queue, ctrs, loaders, planes⟩ := halted_keeps { s with handler := .free }
  have freed : SameQueue s { s with handler := .free } := .refl s
  obtain ⟨events, -, loaders', planes', others, cut⟩ := haltPages_spec s.pages freed
  have answered : engineHalt ⟨.control, 0x22#8, tag, []⟩ { s with handler := .free }
      = answer ⟨.control, 0x22#8, tag, []⟩ .ok (leBytes 1 s.pages.length) (halted { s with handler := .free }) := rfl
  have empty : (halted { s with handler := .free }).pages = [] ∧ (halted { s with handler := .free }).tailEnd = none
      ∧ ∀ p, linesOf (halted { s with handler := .free }) p = [] := ⟨rfl, rfl, fun p => look_replicate ..⟩
  rw [answered] at ruled
  obtain ⟨out, seq, lost, link⟩ := events.trans queue
  obtain ⟨pages, tail, lines⟩ := empty
  generalize halted { s with handler := .free } = t at *
  refine ⟨_, congrArg Host.Outcome.next ruled, by simpa using pages, by simpa using tail, fun p _ => ?_,
    ⟨(takeNext_eventSeq _).trans seq, (takeNext_lostCount _).trans lost, (takeNext_linkCtrs _).trans link⟩, ?_, fun h r row at_ => ?_, ?_, ?_, fun h lt => ?_,
    fun h i ne => ?_, frame.replied ..⟩
  · simpa [linesOf] using lines p
  · simp only [takeNext_outgoing, answer_outgoing, out]
    rfl
  · refine ⟨row.buf.cut, ?_, fun e q full => by rw [full]; rfl, fun e b loading => by rw [loading]; rfl,
      fun none => by rw [none]; rfl⟩
    have same := rows h r
    have at_ : rowAt { s with handler := .free } h r = some row := at_
    rw [at_] at same
    simpa [rowAt, rowsOf] using same
  · simpa using loaders.trans loaders'
  · simpa using planes.trans planes'
  · rw [headGroup_of_ctrs (t := takeNext _) (s := t) (by simp), headGroup_of_ctrs ctrs]
    exact (cut h lt (headCtr_le inv lt 7)).trans (Nat.min_comm ..)
  · rw [headGroup_of_ctrs (t := takeNext _) (s := t) (by simp), headGroup_of_ctrs ctrs]
    exact others h i ne

end Sys2Proof.Machine
end

