-- ==== Sys2Proof/Proofs/PageOpen.lean ====
section
/-! SUPPORT. PAGE_OPEN: its body (R40, R166), the record it appends, and a FOLLOW page that binds as it is opened (R42). -/

namespace Sys2Proof.Machine

/-! ### The body of PAGE_OPEN -/

/-- The body of PAGE_OPEN (R166). -/
def openFields (id length mask mode gap : Nat) : List Byte :=
  leBytes 2 id ++ leBytes 4 length ++ leBytes 1 mask ++ leBytes 1 mode ++ leBytes 4 gap

/-- The values that R40 accepts, the tables apart. -/
def openGood (length mask mode gap : Nat) : Prop :=
  1 ≤ length ∧ length ≤ 1048576 ∧ mask ≠ 0 ∧ (mode = 0 ∨ (mode = 1 ∧ gap ≤ 16777215))

section
variable {id length mask mode gap : Nat} (b1 : id < 65536) (b2 : length < 4294967296) (b3 : mask < 256)
  (b4 : mode < 256) (b5 : gap < 4294967296)
include b1 b2 b3 b4 b5

/-- The body read back field by field. -/
theorem openFields_read :
    let body := openFields id length mask mode gap
    field body 0 2 = id ∧ field body 2 4 = length ∧ byteAt body 6 = mask ∧ byteAt body 7 = mode
      ∧ field body 8 4 = gap := by
  simp [openFields, byteAt, field_append, field_zero, field_only, Nat.mod_eq_of_lt b1, Nat.mod_eq_of_lt b2,
    Nat.mod_eq_of_lt b3, Nat.mod_eq_of_lt b4, Nat.mod_eq_of_lt b5]

theorem parseOpen_good (good : openGood length mask mode gap) : parseOpen (openFields id length mask mode gap)
    = some ⟨id, length, BitVec.ofNat 8 mask, if mode = 0 then .onCue else .follow, gap⟩ := by
  obtain ⟨f1, f2, f3, f4, f5⟩ := openFields_read b1 b2 b3 b4 b5
  obtain ⟨least, most, named, modes⟩ := good
  simp only [parseOpen, f1, f2, f3, f4, f5]
  rcases modes with rfl | ⟨rfl, gapOk⟩
  · exact if_pos ⟨least, most, named, fun follow => nomatch follow⟩
  · exact if_pos ⟨least, most, named, fun _ => gapOk⟩

theorem parseOpen_bad (bad : ¬ openGood length mask mode gap) :
    parseOpen (openFields id length mask mode gap) = none := by
  obtain ⟨f1, f2, f3, f4, f5⟩ := openFields_read b1 b2 b3 b4 b5
  simp only [parseOpen, f1, f2, f3, f4, f5]
  split
  · rfl
  · rename_i m code
    refine if_neg fun ⟨least, most, named, gapOk⟩ => bad ⟨least, most, named, ?_⟩
    unfold PageMode.ofCode at code
    split at code
    · exact .inl rfl
    · exact .inr ⟨rfl, gapOk (Option.some.inj code).symm⟩
    · cases code

end

/-! ### The record it appends -/

theorem getLsbD_mask {mask p : Nat} (small : mask < 256) : (BitVec.ofNat 8 mask).getLsbD p = mask.testBit p := by
  rw [BitVec.getLsbD_ofNat]
  by_cases lt : p < 8
  · simp [lt]
  · have pow : 256 ≤ 2 ^ p := Nat.pow_le_pow_right (n := 2) (by decide) (show 8 ≤ p by omega)
    simp [lt, Nat.testBit_lt_two_pow (Nat.lt_of_lt_of_le small pow)]

theorem maskConfigured_iff {mask : Nat} (small : mask < 256) (s : State) :
    maskConfigured (BitVec.ofNat 8 mask) s = true ↔ ∀ p, p < 8 → mask.testBit p = true → look s.planes p none ≠ none := by
  simp only [maskConfigured, List.all_eq_true, List.mem_range, getLsbD_mask small, Bool.or_eq_true, Bool.not_eq_true',
    Option.isSome_iff_ne_none]
  refine forall₂_congr fun p _ => ?_
  cases mask.testBit p <;> simp

/-- T of an opened page: the rows of the heads of its planes (R40). -/
theorem newPage_unretired {mask : Nat} (small : mask < 256) (id length gap : Nat) (mode : PageMode) (s : State) :
    (newPage ⟨id, length, BitVec.ofNat 8 mask, mode, gap⟩ s).unretired = length * ((List.range 24).map fun h =>
      match look s.heads h none with
      | some c => if mask.testBit c.plane then c.r else 0
      | none => 0).sum := by
  have rows : (freshRows (BitVec.ofNat 8 mask) s).toList.map List.length = (List.range 24).map fun h =>
      match look s.heads h none with
      | some c => if mask.testBit c.plane then c.r else 0
      | none => 0 := by
    refine List.ext_getElem (by simp) fun i h1 h2 => ?_
    have lt : i < 24 := by simpa using h2
    have at_ : look s.heads i none = s.heads[i] := by simp [look, lt]
    simp only [List.getElem_map, List.getElem_range, freshRows, mapTable, Vector.getElem_toList, Vector.getElem_ofFn, at_,
      getLsbD_mask small]
    cases s.heads[i] with
    | none => rfl
    | some c =>
      dsimp only
      split
      · exact List.length_replicate
      · rfl
  exact congrArg (fun l : List Nat => length * l.sum) rows

/-! ### Binding FOLLOW pages -/

theorem frontPage_none {s : State} (none : ∀ p ∈ s.pages, p.pstate ≠ .queued) : frontPage s = .none :=
  List.find?_eq_none.mpr fun p hp => by simpa using none p hp

theorem frontPage_of_split {s : State} {pre post : List Page} {p : Page} (pages : s.pages = pre ++ p :: post)
    (ahead : ∀ q ∈ pre, q.pstate ≠ .queued) (queued : p.pstate = .queued) : frontPage s = some p :=
  List.find?_eq_some_iff_append.mpr ⟨by simpa using queued, pre, post, pages, fun q hq => by simpa using ahead q hq⟩

/-- With no page QUEUED, or an ON_CUE page in front, no FOLLOW page binds (R42). -/
theorem bindFollows_none {s : State} (front : frontPage s = none) (n : Nat) : bindFollows n s = s := by
  cases n with
  | zero => rfl
  | succ n => simp [bindFollows, front]

theorem bindFollows_onCue {s : State} {p : Page} (front : frontPage s = some p) (mode : p.mode = .onCue) (n : Nat) :
    bindFollows n s = s := by
  cases n with
  | zero => rfl
  | succ n => simp [bindFollows, front, mode]

theorem bindFollows_follow {s : State} {p : Page} (front : frontPage s = some p) (mode : p.mode = .follow) (n : Nat) :
    bindFollows (n + 1) s = bindFollows n (bindPage p (followOrigin p s) s) := by
  simp [bindFollows, front, mode]

/-- R42's three origins. -/
theorem followOrigin_eq {p : Page} {s : State} {origin : Nat}
    (behind : anyBound s = true → ∃ te, s.tailEnd = some te ∧ origin = te + max p.gap s.cueCfg.minGap)
    (first : anyBound s = false → s.tailEnd = none → origin = s.hInt + p.gap)
    (empty : anyBound s = false → ∀ te, s.tailEnd = some te →
      origin = max (te + max p.gap s.cueCfg.minGap) (s.hInt + p.gap)) : followOrigin p s = origin := by
  unfold followOrigin
  dsimp only
  cases bound : anyBound s with
  | true =>
    obtain ⟨te, tail, rfl⟩ := behind bound
    simp [tail]
  | false =>
    cases tail : s.tailEnd with
    | none => simp [first bound tail]
    | some te => simp [empty bound te tail]

/-- The most recently bound page is known for as long as it is in the queue (R41). -/
def TailKept (s t : State) : Prop :=
  (∀ q ∈ t.pages, ∃ p ∈ s.pages, p.id = q.id)
    ∧ ∀ id, s.tailPage = some id → t.tailPage = some id ∨ ∀ q ∈ t.pages, q.id ≠ id

theorem TailKept.of_same {s t : State} (pages : t.pages = s.pages) (tail : t.tailPage = s.tailPage) : TailKept s t :=
  ⟨fun q hq => ⟨q, pages ▸ hq, rfl⟩, fun _ h => .inl (tail.trans h)⟩

theorem tailKept_closed : RowClosed TailKept where
  refl s := .of_same rfl rfl
  trans := by
    intro s t u a b
    refine ⟨fun q hq => ?_, fun id known => ?_⟩
    · obtain ⟨p, hp, same⟩ := b.1 q hq
      obtain ⟨o, ho, same'⟩ := a.1 p hp
      exact ⟨o, ho, same'.trans same⟩
    · rcases a.2 id known with known' | gone
      · exact b.2 id known'
      · refine .inr fun q hq same => ?_
        obtain ⟨p, hp, id'⟩ := b.1 q hq
        exact gone p hp (id'.trans same)
  raise e s := .of_same (by simp) (by simp)
  planeCtr _ _ _ _ _ := .of_same rfl rfl
  bumpHead _ _ _ _ := .of_same rfl rfl
  rows _ _ := .of_same rfl rfl
  report p k h r n plane s hp := by
    refine ⟨fun q hq => ?_, fun id known => .inl known⟩
    obtain ⟨o, ho, rfl⟩ := List.mem_map.mp hq
    split
    · rename_i same
      exact ⟨o, ho, same⟩
    · exact ⟨o, ho, rfl⟩
  dropPage id s := by
    refine ⟨fun q hq => ⟨q, (List.mem_filter.mp hq).1, rfl⟩, fun k known => ?_⟩
    by_cases same : k = id
    · exact .inr fun q hq e => by
        have := (List.mem_filter.mp hq).2
        simp [e, same] at this
    · exact .inl (by simp only [dropPage, known, Option.some.injEq, same, if_false])
  lines _ _ _ _ := .of_same rfl rfl
  loaders _ _ := .of_same rfl rfl
  sched _ _ := .of_same rfl rfl

/-- A page being bound, before rows and loaders take it up: its PAGE_BOUND offered, its record in its place, the tail end its
end (R44). -/
theorem boundState_spec {s : State} {pre post : List Page} {p : Page} (pages : s.pages = pre ++ p :: post)
    (apart : ∀ x ∈ pre ++ post, x.id ≠ p.id) (origin : Nat) :
    (boundState p origin s).pages = pre ++ boundAt origin p :: post
    ∧ SameQueue (offered (.pageBound p.id origin) s) (boundState p origin s)
    ∧ (boundState p origin s).tailEnd = some (origin + 32 * p.length)
    ∧ (boundState p origin s).tailPage = some p.id ∧ (boundState p origin s).hRaw = s.hRaw := by
  refine ⟨(boundState_sameRun p origin s).pages.trans (setPage_place pages apart rfl), ?_, by simp [boundState],
    by simp [boundState], by simp [boundState]⟩
  have same : SameQueue s { setPage (boundAt origin p) s with
    tailEnd := some (origin + 32 * p.length), tailPage := some p.id } := .refl s
  exact same.raise _

/-- What a binding leaves of a page's record for as long as it is in the queue. -/
structure BoundTo (p : Page) (origin : Nat) (q : Page) : Prop where
  origin : q.origin = some origin
  state : q.pstate ≠ .queued
  length : q.length = p.length
  mask : q.mask = p.mask
  mode : q.mode = p.mode

/-- A page's binding (R44): PAGE_BOUND first, its record BOUND at its origin and the most recently bound for as long as it
is in the queue, the tail end its end; with the origin ahead of H_int the record stands. -/
theorem bindPage_spec {s : State} {pre post : List Page} {p : Page} (pages : s.pages = pre ++ p :: post)
    (apart : ∀ x ∈ pre ++ post, x.id ≠ p.id) (origin : Nat) :
    (∃ evs, (bindPage p origin s).outgoing = (offered (.pageBound p.id origin) s).outgoing ++ evs
      ∧ ∀ o ∈ evs, o.isEvent = true)
    ∧ (bindPage p origin s).tailEnd = some (origin + 32 * p.length)
    ∧ (∀ q ∈ (bindPage p origin s).pages, q.id = p.id →
        BoundTo p origin q ∧ (bindPage p origin s).tailPage = some p.id)
    ∧ (s.hInt < origin → Ahead (boundAt origin p) (bindPage p origin s))
    ∧ PagesKept (boundState p origin s) (bindPage p origin s) := by
  obtain ⟨placed, ⟨out, -⟩, tail, tailPage, high⟩ := boundState_spec pages apart origin
  have kept := pagesKept_closed.settle (boundState p origin s)
  have known := tailKept_closed.settle (boundState p origin s)
  obtain ⟨⟨evs, settled, all⟩, -⟩ := eventsOnly_closed.settle (boundState p origin s)
  have here : pageById (boundState p origin s) p.id = some (boundAt origin p) := by
    rw [pageById, placed, List.find?_append, List.find?_eq_none.mpr fun x hx => by
      simpa using apart x (List.mem_append_left _ hx)]
    simp [boundAt]
  rw [bindPage_eq]
  refine ⟨⟨evs, by rw [settled, out], all⟩, kept.1.trans tail, fun q hq same => ?_, fun ahead => ?_, kept⟩
  · obtain ⟨x, hx, id, length, mask, mode, org, -, -, state⟩ := kept.2 q hq
    rw [placed] at hx
    have own : x = boundAt origin p := by
      rcases List.mem_append.mp hx with hx | hx
      · exact absurd (id.trans same) (apart x (List.mem_append_left _ hx))
      · rcases List.mem_cons.mp hx with rfl | hx
        · rfl
        · exact absurd (id.trans same) (apart x (List.mem_append_right _ hx))
    subst own
    refine ⟨⟨org.symm, fun queued => ?_, length.symm, mask.symm, mode.symm⟩, ?_⟩
    · cases state.mp queued
    · rcases known.2 p.id tailPage with tail' | gone
      · exact tail'
      · exact absurd same (gone q hq)
  · refine Ahead.settle ⟨here, fun o own => ?_⟩
    obtain rfl := Option.some.inj own
    rw [State.hInt, high]
    exact ahead

/-! ### The statements -/

section
variable {s s1 : State} {tag : BitVec 16} {id length mask mode gap : Nat} (b1 : id < 65536) (b2 : length < 4294967296)
  (b3 : mask < 256) (b4 : mode < 256) (b5 : gap < 4294967296) (run : s.engine = .run)
  (taken : TakesControl s 0x30#8 tag (openFields id length mask mode gap) s1)
include run taken

theorem pageOpen_ruled : exec .pageOpen s = .next (takeNext
    (pageOpen ⟨.control, 0x30#8, tag, openFields id length mask mode gap⟩ { s with handler := .free })) :=
  congrArg Host.Outcome.next (handleRequest_ruled (q := .pageOpen) taken rfl (by rw [run]; rfl)
    (by simp [Req.lengthOk, openFields]))

include b1 b2 b3 b4 b5

/-- PAGE_OPEN as a whole: the two refusals, or the record appended and FOLLOW pages bound (R40, R42). -/
theorem pageOpen_cases :
    let tables := (∀ p, p < 8 → mask.testBit p = true → look s.planes p none ≠ none) ∧ ∀ p ∈ s.pages, p.id ≠ id
    (¬ (openGood length mask mode gap ∧ tables) →
      exec .pageOpen s = .next (replied .control 0x30#8 tag .badArgument [] s1))
    ∧ (openGood length mask mode gap → tables → 4 ≤ s.pages.length →
      exec .pageOpen s = .next (replied .control 0x30#8 tag .queueFull [] s1))
    ∧ (openGood length mask mode gap → tables → s.pages.length < 4 → ∀ u, u = { s with
          handler := .free
          pages := s.pages ++ [newPage ⟨id, length, BitVec.ofNat 8 mask, if mode = 0 then .onCue else .follow, gap⟩ s] } →
        exec .pageOpen s = .next (takeNext (answer ⟨.control, 0x30#8, tag, openFields id length mask mode gap⟩ .ok []
          (bindFollows (s.pages.length + 1) u)))) := by
  intro tables
  have ruled := pageOpen_ruled run taken
  have refused (st : Status) : takeNext (answer ⟨.control, 0x30#8, tag, openFields id length mask mode gap⟩ st []
      { s with handler := .free }) = replied .control 0x30#8 tag st [] s1 := by rw [takeNext_answer, taken.2]
  have test (good : openGood length mask mode gap) : (maskConfigured (BitVec.ofNat 8 mask) { s with handler := .free } = false
      ∨ (pageById { s with handler := .free } id).isSome = true) ↔ ¬ tables := by
    have planes : maskConfigured (BitVec.ofNat 8 mask) { s with handler := .free } = true ↔ _ :=
      maskConfigured_iff b3 { s with handler := .free }
    have ids : (pageById { s with handler := .free } id).isSome = true ↔ ¬ ∀ p ∈ s.pages, p.id ≠ id := by
      simp [pageById]
    rw [← Bool.not_eq_true, planes, ids, ← not_and_or]
  unfold pageOpen at ruled
  refine ⟨fun bad => ?_, fun good tabled full => ?_, fun good tabled room u appended => ?_⟩
  · by_cases good : openGood length mask mode gap
    · rw [ruled, parseOpen_good b1 b2 b3 b4 b5 good]
      dsimp only
      rw [if_pos ((test good).mpr fun tabled => bad ⟨good, tabled⟩), refused]
    · rw [ruled, parseOpen_bad b1 b2 b3 b4 b5 good]
      exact congrArg _ (refused .badArgument)
  · rw [ruled, parseOpen_good b1 b2 b3 b4 b5 good]
    dsimp only
    rw [if_neg fun fails => (test good).mp fails tabled, if_pos (by exact full), refused]
  · rw [ruled, parseOpen_good b1 b2 b3 b4 b5 good, appended]
    dsimp only
    rw [if_neg fun fails => (test good).mp fails tabled, if_neg (by exact Nat.not_le.mpr room), List.length_append]
    rfl

end

/-- Settles O23: with an ON_CUE page in front no FOLLOW page binds, and the state is the one with the record appended. -/
theorem pageOpenAppendsARecord : Obligations.PageOpenAppendsARecord := by
  intro s s1 tag id length mask mode gap b1 b2 b3 b4 b5 run taken good
  obtain ⟨bad, full, opens⟩ := pageOpen_cases b1 b2 b3 b4 b5 run taken
  have split : good ↔ openGood length mask mode gap
      ∧ (∀ p, p < 8 → mask.testBit p = true → look s.planes p none ≠ none) ∧ ∀ p ∈ s.pages, p.id ≠ id := by
    simp only [good, openGood]
    tauto
  refine ⟨fun notGood => bad fun pass => notGood (split.mpr pass), fun ok => full (split.mp ok).1 (split.mp ok).2,
    fun ok room shape => ?_⟩
  have ran := opens (split.mp ok).1 (split.mp ok).2 room _ rfl
  generalize hq : newPage ⟨id, length, BitVec.ofNat 8 mask, if mode = 0 then .onCue else .follow, gap⟩ s = q at ran
  have queued : q.pstate = .queued := hq ▸ rfl
  have still (n : Nat) : bindFollows n { s with handler := .free, pages := s.pages ++ [q] }
      = { s with handler := .free, pages := s.pages ++ [q] } := by
    rcases shape with ⟨pre, p, post, pages, ahead, front, mode⟩ | ⟨onCue, none⟩
    · exact bindFollows_onCue (frontPage_of_split (pre := pre) (post := post ++ [q]) (by simp [pages]) ahead front) mode n
    · exact bindFollows_onCue (frontPage_of_split (pre := s.pages) (post := []) rfl none queued)
        (by rw [← hq, if_pos onCue]; rfl) n
  refine ⟨q, ?_, hq ▸ rfl, hq ▸ rfl, hq ▸ rfl, hq ▸ rfl, hq ▸ rfl, queued, hq ▸ rfl, hq ▸ rfl,
    hq ▸ newPage_unretired b3 id length gap _ s, hq ▸ rfl, hq ▸ rfl, hq ▸ rfl⟩
  obtain ⟨-, rfl⟩ := taken
  rw [ran, still]
  refine congrArg Host.Outcome.next ((takeNext_answer _ _ _ { s with pages := s.pages ++ [q] }).trans ?_)
  rw [movedOn_eq, movedOn_eq]

/-- Settles O24: the record just appended is the front page, binds, and no page is QUEUED behind it. -/
theorem followPageBindsWhenOpened : Obligations.FollowPageBindsWhenOpened := by
  intro s s1 tag id length mask gap origin b1 least most named small gapOk run taken planes fresh room none first empty
    behind
  have b2 : length < 4294967296 := by omega
  have b5 : gap < 4294967296 := by omega
  obtain ⟨-, -, opens⟩ := pageOpen_cases b1 b2 small (show 1 < 256 by decide) b5 run taken
  have good : openGood length mask 1 gap := ⟨least, most, by omega, .inr ⟨rfl, gapOk⟩⟩
  have ran := opens good ⟨planes, fresh⟩ room _ rfl
  generalize hq : newPage ⟨id, length, BitVec.ofNat 8 mask, if (1 : Nat) = 0 then .onCue else .follow, gap⟩ s = q at ran
  obtain ⟨qid, qlen, qmask, qmode, qgap, queued⟩ : q.id = id ∧ q.length = length ∧ q.mask = BitVec.ofNat 8 mask
      ∧ q.mode = .follow ∧ q.gap = gap ∧ q.pstate = .queued := hq ▸ ⟨rfl, rfl, rfl, rfl, rfl, rfl⟩
  generalize hu : ({ s with handler := .free, pages := s.pages ++ [q] } : State) = u at ran
  obtain ⟨pages, high, tail, cfg⟩ : u.pages = s.pages ++ [q] ∧ u.hInt = s.hRaw / 4096 ∧ u.tailEnd = s.tailEnd
      ∧ u.cueCfg = s.cueCfg := hu ▸ ⟨rfl, rfl, rfl, rfl⟩
  have queue : SameQueue s u := hu ▸ .refl s
  have frame : RowFrame { s with handler := .free } u := hu ▸ rowFrame_closed.pages _ _ _ { s with handler := .free }
  have apart : ∀ x ∈ s.pages ++ [], x.id ≠ q.id := by simpa [qid] using fresh
  have front : frontPage u = some q := frontPage_of_split pages none queued
  have anyBound_u : anyBound u = true ↔ s.pages ≠ [] := by
    have : s.pages.any (fun p => decide (p.pstate ≠ .queued)) = true ↔ s.pages ≠ [] := by
      cases hp : s.pages with
      | nil => simp
      | cons x xs => simp [none x (hp ▸ List.mem_cons_self)]
    rw [← this]
    simp [anyBound, pages, queued]
  have at_ : followOrigin q u = origin := by
    refine followOrigin_eq (fun any => ?_) (fun notAny absent => ?_) (fun notAny te known => ?_)
    · cases known : s.tailEnd with
      | none => exact absurd (first known).1 (anyBound_u.mp any)
      | some te => exact ⟨te, tail.trans known, by rw [qgap, cfg]; exact behind te known (anyBound_u.mp any)⟩
    · rw [high, qgap]; exact (first (tail ▸ absent)).2
    · have emptied : s.pages = [] := by
        by_contra some
        rw [anyBound_u.mpr some] at notAny
        cases notAny
      rw [high, qgap, cfg]
      exact empty te (tail ▸ known) emptied
  obtain ⟨⟨evs, out, all⟩, tailEnd, bound, standing, kept⟩ := bindPage_spec (post := []) pages apart origin
  have boundFrame : RowFrame u (bindPage q origin u) := rowFrame_closed.bindPage q origin u
  have ended : bindFollows (s.pages.length + 1) u = bindPage q origin u := by
    rw [bindFollows_follow front qmode, at_]
    refine bindFollows_none (frontPage_none fun x hx queuedX => ?_) _
    obtain ⟨y, hy, -, -, -, -, -, -, -, state⟩ := kept.2 x hx
    rw [(boundState_spec (post := []) pages apart origin).1] at hy
    rcases List.mem_append.mp hy with hy | hy
    · exact none y hy (state.mp queuedX)
    · rw [List.mem_singleton.mp hy] at state
      cases state.mp queuedX
  obtain ⟨-, rfl⟩ := taken
  rw [ended] at ran
  generalize bindPage q origin u = t at *
  refine ⟨_, evs, ran, ?_, all, by simpa [qlen] using tailEnd, fun x hx same => ?_, fun ahead => ?_,
    (frame.trans boundFrame).replied ..⟩
  · rw [takeNext_outgoing, answer_outgoing, out, qid, (queue.offered _).1]
  · obtain ⟨⟨o, st, len, mk, md⟩, known⟩ := bound x (by simpa using hx) (same.trans qid.symm)
    exact ⟨o, st, len.trans qlen, mk.trans qmask, md.trans qmode, by simpa [qid] using known⟩
  · have stands := standing (high ▸ ahead)
    exact ⟨boundAt origin q, by simpa using pageById_mem stands.page, qid, rfl⟩

end Sys2Proof.Machine
end

