-- ==== Sys2Proof/Proofs/CancelBound.lean ====
section
/-! SUPPORT. PAGE_CANCEL of a BOUND or FIRING page (R49, R50, R65): what the cut itself sets, the page's departure if nothing
of it is left, and what compositions, rows and loaders then leave of it. -/

namespace Sys2Proof.Machine

/-! ### What the cut sets -/

/-- Freeing a page's lines sets nothing but the line lists, in the planes of its mask (R65). -/
theorem freeLinesFrom_spec (p : Page) (m : Nat) (s : State) : ∃ lines, freeLinesFrom p m s = { s with lines := lines }
    ∧ ∀ plane, plane < 8 → look lines plane [] = if p.holdsPlane plane
        then (linesOf s plane).filter (fun l => !(l.page = p.id && m ≤ l.line)) else linesOf s plane := by
  have all (l : List Nat) (nodup : l.Nodup) (below : ∀ i ∈ l, i < 8) : ∀ u : State,
      ∃ lines, l.foldl (fun s plane => if p.holdsPlane plane then
          setLines plane ((linesOf s plane).filter fun l => !(l.page = p.id && m ≤ l.line)) s else s) u
        = { u with lines := lines }
      ∧ ∀ plane, look lines plane [] = if plane ∈ l ∧ p.holdsPlane plane = true
          then (linesOf u plane).filter (fun l => !(l.page = p.id && m ≤ l.line)) else linesOf u plane := by
    induction l with
    | nil => exact fun u => ⟨u.lines, rfl, fun plane => by simp [linesOf]⟩
    | cons i l ih =>
      intro u
      obtain ⟨notin, nodup⟩ := List.nodup_cons.mp nodup
      have lt := below i List.mem_cons_self
      rw [List.foldl_cons]
      by_cases holds : p.holdsPlane i = true
      · rw [if_pos holds]
        obtain ⟨lines, eq, reads⟩ := ih nodup (fun j hj => below j (List.mem_cons_of_mem _ hj)) (setLines i
          ((linesOf u i).filter fun l => !(l.page = p.id && m ≤ l.line)) u)
        refine ⟨lines, eq, fun plane => ?_⟩
        rw [reads, linesOf_setLines _ _ _ _ lt]
        by_cases same : i = plane
        · subst same; simp [notin, holds]
        · simp [same, Ne.symm same]
      · rw [if_neg holds]
        obtain ⟨lines, eq, reads⟩ := ih nodup (fun j hj => below j (List.mem_cons_of_mem _ hj)) u
        refine ⟨lines, eq, fun plane => ?_⟩
        rw [reads]
        by_cases same : i = plane
        · subst same; simp [notin, holds]
        · simp [Ne.symm same]
  obtain ⟨lines, eq, reads⟩ := all _ List.nodup_range (fun i hi => List.mem_range.mp hi) s
  refine ⟨lines, eq, fun plane lt => ?_⟩
  rw [reads]
  simp [lt]

/-- All that the cut sets: the heads' counters, the line lists, the buffers, the page's record and the tail end (R49, R50). -/
theorem cutState_eq (p : Page) (s : State) : ∃ ctrs lines rows, cutState p s = { s with
      headCtrs := ctrs, lines := lines, rows := rows, pages := (setPage (p.cutAt (cutLine p)) s).pages
      tailEnd := if s.tailPage = some p.id then some (p.cutAt (cutLine p)).endAt else s.tailEnd }
    ∧ ctrs = (countEntries .withdrawn p (fun _ => p.length - cutLine p) s).headCtrs
    ∧ rows = (mapBufs (LoadBuf.withdraw p.id (cutLine p)) s).rows
    ∧ ∀ plane, plane < 8 → look lines plane [] = if p.holdsPlane plane
        then (linesOf s plane).filter (fun l => !(l.page = p.id && cutLine p ≤ l.line)) else linesOf s plane := by
  obtain ⟨ctrs, counted⟩ := countEntries_eq .withdrawn p (fun _ => p.length - cutLine p) s
  obtain ⟨rows, cut⟩ : ∃ rows, mapBufs (LoadBuf.withdraw p.id (cutLine p)) { s with headCtrs := ctrs }
      = { s with headCtrs := ctrs, rows := rows } := ⟨_, rfl⟩
  obtain ⟨lines, freed, reads⟩ := freeLinesFrom_spec p (cutLine p) { s with headCtrs := ctrs, rows := rows }
  have rowsEq : rows = (mapBufs (LoadBuf.withdraw p.id (cutLine p)) s).rows := by
    have := congrArg State.rows cut
    rw [mapBufs_rows] at this
    rw [mapBufs_rows]
    exact this.symm
  refine ⟨ctrs, lines, rows, ?_, by rw [counted], rowsEq, reads⟩
  unfold cutState
  rw [counted, cut, freed]
  dsimp only
  split <;> rfl

/-- A page's departure, or its record left (R47). -/
theorem finishPage_eq {s : State} {id : Nat} {p : Page} (page : pageById s id = some p) : finishPage id s
    = if p.unretired = 0 then raise (.pageDone p.id p.doneStatus p.length p.counts) (dropPage id s) else s := by
  simp [finishPage, page]

/-- Pages of another id are the same in a queue in which a record has been replaced. -/
theorem filter_replaced {id : Nat} {q : Page} (same : q.id = id) (ps : List Page) :
    (ps.map fun x => if x.id = q.id then q else x).filter (fun x => x.id ≠ id) = ps.filter fun x => x.id ≠ id := by
  subst same
  induction ps with
  | nil => rfl
  | cons x ps ih =>
    by_cases own : x.id = q.id
    · simpa [own] using ih
    · simpa [own] using ih

/-- The greatest next-line index is the cut line. -/
theorem cutLine_eq {p : Page} {m : Nat} (all : ∀ n ∈ p.passed.toList.flatten, n ≤ m)
    (mem : m = 0 ∨ m ∈ p.passed.toList.flatten) : cutLine p = m := by
  obtain ⟨above, at_⟩ := cutLine_spec p
  have le : m ≤ cutLine p := by
    rcases mem with rfl | mem
    · exact Nat.zero_le _
    · exact above m mem
  rcases at_ with zero | at_
  · omega
  · exact Nat.le_antisymm (all _ at_) le

/-! ### The request -/

/-- A page read by the body of PAGE_CANCEL. -/
theorem cancel_field {id : Nat} (small : id < 65536) : field (leBytes 2 id) 0 2 = id := by
  rw [field_only]
  exact Nat.mod_eq_of_lt small

theorem pageCancel_ruled {s s1 : State} {tag : BitVec 16} {id : Nat} (taken : TakesControl s 0x31#8 tag (leBytes 2 id) s1)
    (run : s.engine = .run) : exec .pageCancel s
      = .next (takeNext (pageCancel ⟨.control, 0x31#8, tag, leBytes 2 id⟩ { s with handler := .free })) :=
  congrArg Host.Outcome.next (handleRequest_ruled (q := .pageCancel) taken rfl (by rw [run]; rfl)
    (by simp [Req.lengthOk]))

/-- The handler moving on after the reply to a rule that leaves it free. -/
theorem takeNext_replied {u : State} (free : u.handler = .free) (f : HostFrame) (st : Status) (b : List Byte) :
    takeNext (answer f st b u) = movedOn (replied f.kind f.code f.tag st b u) := by
  rw [takeNext_eq, if_pos (by exact free)]
  rfl

section
variable {s : State} {id m : Nat} {p : Page} (page : pageById s id = some p)
  (cut : cutLine p = m)
include page cut

theorem cutState_page : pageById (cutState p s) id = some (p.cutAt m) := by
  have same := pageById_id page
  rw [pageById, cutState_pages, ← cut]
  exact pageById_setPage _ page same

/-- The cut's own fields, in the words of R49 and R50. -/
theorem cutState_spec :
    let w := p.length - m
    (cutState p s).pages = s.pages.map (fun x => if x.id = id then p.cutAt m else x)
    ∧ SameQueue s (cutState p s) ∧ (cutState p s).tailPage = s.tailPage
    ∧ (∀ plane, plane < 8 → linesOf (cutState p s) plane = if p.mask.getLsbD plane
        then (linesOf s plane).filter (fun l => l.page ≠ id ∨ l.line < m) else linesOf s plane)
    ∧ (∀ h r, rowAt (cutState p s) h r = (rowAt s h r).map fun row => { row with buf := row.buf.withdraw id m })
    ∧ (∀ h, h < 24 → look (headGroup (cutState p s) h) 6 0
        = min 4294967295 (look (headGroup s h) 6 0 + w * (look p.passed h []).length))
    ∧ (∀ h i, i ≠ 6 → look (headGroup (cutState p s) h) i 0 = look (headGroup s h) i 0)
    ∧ (cutState p s).tailEnd = (if s.tailPage = some id then some (p.origin.getD 0 + 32 * m) else s.tailEnd)
    ∧ (cutState p s).loaders = s.loaders ∧ (cutState p s).planeCtrs = s.planeCtrs ∧ (cutState p s).sched = s.sched
    ∧ RowFrame s (cutState p s) := by
  intro w
  have same := pageById_id page
  obtain ⟨ctrs, lines, rows, eq, ctrsEq, rowsEq, reads⟩ := cutState_eq p s
  rw [cut, same] at eq reads
  have counted (h : Nat) : headGroup (cutState p s) h
      = headGroup (countEntries .withdrawn p (fun _ => p.length - cutLine p) s) h :=
    headGroup_of_ctrs (by rw [eq]; exact ctrsEq) h
  have buffers (h r : Nat) : rowAt (cutState p s) h r = rowAt (mapBufs (LoadBuf.withdraw p.id (cutLine p)) s) h r := by
    simp only [rowAt, rowsOf, cutState_rows]
  refine ⟨?_, ?_, by rw [eq], fun plane lt => ?_, fun h r => ?_, fun h lt => ?_, fun h i ne => ?_, ?_, by rw [eq],
    by rw [eq], by rw [eq], ?_⟩
  · rw [eq]
    show (s.pages.map fun x => if x.id = p.id then p.cutAt m else x) = _
    rw [same]
  · rw [eq]; exact .refl s
  · have line : linesOf (cutState p s) plane = look lines plane [] := by rw [linesOf, eq]
    rw [line, reads plane lt]
    show (if p.mask.getLsbD plane = true then _ else _) = _
    rw [List.filter_congr fun l _ => ?_]
    simp only [Bool.not_and, ← decide_not, Nat.not_le, Bool.decide_or]
  · rw [buffers, rowAt_mapBufs, cut, same]
  · have count := headGroup_countEntries_count .withdrawn p (fun _ => p.length - cutLine p) s lt
    rw [sum_map_const, cut] at count
    rw [counted, cut]
    exact count.trans (Nat.min_comm ..)
  · rw [counted]
    exact headGroup_countEntries_other .withdrawn p _ s h ne
  · rw [eq]
    show (if s.tailPage = some id then some (p.origin.getD 0 + 32 * m) else s.tailEnd) = _
    rfl
  · rw [eq]; constructor <;> rfl

/-- A cut page's departure (R50): PAGE_DONE CANCELLED, the record out of the queue, the most recently bound page forgotten
with it; all else stands. -/
theorem finishCut_gone (done : (p.cutAt m).unretired = 0) : finishPage id (cutState p s)
    = raise (.pageDone id .cancelled m (p.cutAt m).counts) (dropPage id (cutState p s)) := by
  rw [finishPage_eq (cutState_page page cut), if_pos done]
  have own : (p.cutAt m).id = id := (pageById_id page : p.id = id)
  rw [own]
  rfl

theorem finishCut_left (left : (p.cutAt m).unretired ≠ 0) : finishPage id (cutState p s) = cutState p s := by
  rw [finishPage_eq (cutState_page page cut), if_neg left]

/-- The pages after the cut and the page's departure. -/
theorem finishCut_pages : (finishPage id (cutState p s)).pages = if (p.cutAt m).unretired = 0
    then s.pages.filter (fun x => x.id ≠ id) else s.pages.map (fun x => if x.id = id then p.cutAt m else x) := by
  obtain ⟨pages, -⟩ := cutState_spec page cut
  have own : (p.cutAt m).id = id := (pageById_id page : p.id = id)
  split
  · rename_i done
    rw [finishCut_gone page cut done, raise_pages, dropPage_pages, pages, ← own]
    exact filter_replaced rfl s.pages
  · rename_i left
    rw [finishCut_left page cut left, pages]

/-- What the departure leaves of the cut's fields. -/
theorem finishCut_fields {α : Type} (f : State → α) (raised : ∀ e u, f (raise e u) = f u)
    (dropped : ∀ u, f (dropPage id u) = f u) : f (finishPage id (cutState p s)) = f (cutState p s) := by
  by_cases done : (p.cutAt m).unretired = 0
  · rw [finishCut_gone page cut done, raised, dropped]
  · rw [finishCut_left page cut done]

end

/-- Settles O27: the cut itself field by field, and what `settle`, which drops pages and frees lines at most, leaves of it. -/
theorem cancelOfABoundPageCutsIt : Obligations.CancelOfABoundPageCutsIt := by
  intro s s1 tag id m p small taken run page bound all mem w
  have cut := cutLine_eq all mem
  have ruled := pageCancel_ruled taken run
  have here : pageById { s with handler := .free } id = some p := page
  have request : pageCancel ⟨.control, 0x31#8, tag, leBytes 2 id⟩ { s with handler := .free }
      = answer ⟨.control, 0x31#8, tag, leBytes 2 id⟩ .ok (leBytes 4 m ++ leBytes 4 w)
        (settle (finishPage id (cutState p { s with handler := .free }))) := by
    unfold pageCancel
    rw [cancel_field small, here]
    dsimp only
    rw [if_neg bound, cut, cancelBound_eq, pageById_id page]
  obtain ⟨-, queue, tailPage, lines, rows, withdrawn, others, tailEnd, loaders, planes, sched, frame⟩ :=
    cutState_spec here cut
  have pages := finishCut_pages here cut
  have gone := finishCut_gone here cut
  have left := finishCut_left here cut
  have field {α : Type} (f : State → α) := finishCut_fields here cut f
  have linesU := field State.lines (fun e u => raise_lines u e) (fun _ => rfl)
  have rowsU := field State.rows (fun e u => raise_rows u e) (fun _ => rfl)
  have ctrsU := field State.headCtrs (fun e u => raise_headCtrs u e) (fun _ => rfl)
  have tailU := field State.tailEnd (fun e u => raise_tailEnd u e) (fun _ => rfl)
  have loadersU := field State.loaders (fun e u => raise_loaders u e) (fun _ => rfl)
  have planesU := field State.planeCtrs (fun e u => raise_planeCtrs u e) (fun _ => rfl)
  have schedU := field State.sched (fun e u => raise_sched u e) (fun _ => rfl)
  have frameU : RowFrame { s with handler := .free } (finishPage id (cutState p { s with handler := .free })) :=
    frame.trans (rowFrame_closed.finishPage ..)
  have eventsU : EventsOnly (cutState p { s with handler := .free }) (finishPage id (cutState p { s with handler := .free })) :=
    eventsOnly_closed.finishPage ..
  generalize cutState p { s with handler := .free } = v at *
  generalize finishPage id v = u at *
  have settledFrame := frameU.trans (rowFrame_closed.settle u)
  have kept := pagesKept_closed.settle u
  have keptLines := linesKept_closed.settle u
  obtain ⟨⟨evs, out, events⟩, -⟩ := eventsU.trans (eventsOnly_closed.settle u)
  have linesOfU (plane : Nat) : linesOf u plane = linesOf v plane := by simp only [linesOf, linesU]
  have tailEndU := tailU.trans tailEnd
  have unretired : (p.cutAt m).unretired = p.unretired - w * (p.passed.toList.map List.length).sum := rfl
  rw [request] at ruled
  have own : (p.cutAt m).id = id := (pageById_id page : p.id = id)
  refine ⟨⟨u, p.cutAt m, ?_, own, rfl, rfl, rfl, unretired, fun plane => ?_, rfl, rfl, rfl, rfl, rfl, rfl,
    rfl, fun some => ?_, fun none => ?_, fun plane lt => ?_, fun h r row at_ => ?_, fun h lt => ?_, fun h i ne => ?_,
    tailEndU, loadersU.trans loaders, planesU.trans planes, schedU.trans sched, frameU⟩, fun few t ran q hq => ?_, ?_⟩
  · rw [ruled, takeNext_replied settledFrame.handler]
  · by_cases lt : plane < 8
    · exact look_mapTable (fun a => min a m) p.arrival plane 0 0 lt
    · simp [look, lt]
  · have same := left some
    subst same
    refine ⟨pages.trans (if_neg some), queue.1, queue.2, tailPage⟩
  · have dropped := gone none
    have raised : SameQueue (offered (.pageDone id .cancelled m (p.cutAt m).counts) s) u := by
      have out : SameQueue s (dropPage id v) := queue
      rw [dropped]
      exact out.raise _
    refine ⟨pages.trans (if_pos none), raised.1, raised.2, ?_⟩
    rw [dropped, raise_tailPage, dropPage, tailPage]
  · rw [linesOfU, lines plane lt]
    rfl
  · have same : rowAt u h r = rowAt v h r := by simp only [rowAt, rowsOf, rowsU]
    have at_ : rowAt { s with handler := .free } h r = some row := at_
    rw [same, rows, at_, Option.map_some]
    cases row.buf <;> rfl
  · rw [headGroup_of_ctrs ctrsU]; exact withdrawn h lt
  · rw [headGroup_of_ctrs ctrsU]; exact others h i ne
  · have zero : (p.cutAt m).unretired = 0 := by rw [unretired]; omega
    obtain rfl := Host.Outcome.next.inj (ruled.symm.trans ran)
    obtain ⟨x, hx, same, -⟩ := kept.2 q (by simpa using hq)
    rw [pages, if_pos zero] at hx
    rw [← same]
    simpa using (List.mem_filter.mp hx).2
  · obtain ⟨-, rfl⟩ := taken
    refine ⟨_, evs, ruled, ?_, events, fun q hq same => ?_, fun plane lt holds l hl own => ?_, ?_,
      settledFrame.replied ..⟩
    · rw [takeNext_outgoing, answer_outgoing, out, queue.1]
    · obtain ⟨x, hx, id', length, -, -, origin, -, cancelled, -⟩ := kept.2 q (by simpa using hq)
      rw [pages] at hx
      have xid : x.id = id := id'.trans same
      have cutPage : x = p.cutAt m := by
        split at hx
        · have := (List.mem_filter.mp hx).2
          simp [xid] at this
        · obtain ⟨y, hy, rfl⟩ := List.mem_map.mp hx
          split
          · rfl
          · rename_i other
            rw [if_neg other] at xid
            exact absurd xid other
      subst cutPage
      exact ⟨length.symm, cancelled.symm, origin.symm⟩
    · obtain ⟨k, hk, samePage, sameLine⟩ := keptLines plane l (by simpa [linesOf] using hl)
      rw [linesOfU, lines plane lt, if_pos holds] at hk
      have := (List.mem_filter.mp hk).2
      rw [samePage, sameLine] at this
      simpa [own] using this
    · simpa using kept.1.trans tailEndU

end Sys2Proof.Machine
end

