-- ==== Sys2Proof/Proofs/FollowChain.lean ====
section
/-! SUPPORT. FOLLOW pages bound one behind the other (R42, R44): rows and loaders leave the QUEUED pages as they stand, so the
chain of bindings runs down the queue, and with its first origin ahead of H_int every page of it stays BOUND. -/

namespace Sys2Proof.Machine

/-! ### The QUEUED pages -/

/-- The QUEUED pages in queue order (R41). -/
def queuedPages (s : State) : List Page := s.pages.filter fun p => p.pstate = .queued

/-- Ids differ and no QUEUED page has an origin (R39). -/
def Unbound (s : State) : Prop := (s.pages.map Page.id).Nodup ∧ ∀ p ∈ s.pages, p.pstate = .queued → p.origin = none

theorem frontPage_eq_head (s : State) : frontPage s = (queuedPages s).head? := (List.head?_filter ..).symm

/-- The QUEUED pages stand. -/
def QueuedKept (s t : State) : Prop := Unbound s → Unbound t ∧ queuedPages t = queuedPages s

theorem QueuedKept.of_pages {s t : State} (pages : t.pages = s.pages) : QueuedKept s t := fun unbound =>
  ⟨by simpa only [Unbound, pages] using unbound, by simp only [queuedPages, pages]⟩

theorem QueuedKept.trans {s t u : State} (a : QueuedKept s t) (b : QueuedKept t u) : QueuedKept s u := fun unbound =>
  ⟨(b (a unbound).1).1, (b (a unbound).1).2.trans (a unbound).2⟩

theorem setPage_queuedKept {s : State} {p q : Page} (page : pageById s q.id = some p) (old : p.pstate ≠ .queued)
    (new : q.pstate ≠ .queued) : QueuedKept s (setPage q s) := fun ⟨ids, origins⟩ => by
  refine ⟨⟨by rw [setPage_pages, map_setPage_ids]; exact ids, fun x hx queued => ?_⟩, ?_⟩
  · obtain ⟨y, hy, rfl⟩ := List.mem_map.mp hx
    by_cases same : y.id = q.id
    · rw [if_pos same] at queued
      exact absurd queued new
    · rw [if_neg same] at queued ⊢
      exact origins y hy queued
  · simp only [queuedPages, setPage_pages]
    have each : ∀ l : List Page, (∀ x ∈ l, x.id = q.id → x.pstate ≠ .queued) →
        (l.map fun x => if x.id = q.id then q else x).filter (fun x => x.pstate = .queued)
          = l.filter fun x => x.pstate = .queued := by
      intro l
      induction l with
      | nil => exact fun _ => rfl
      | cons x l ih =>
        intro others
        have rest := ih fun y hy => others y (List.mem_cons_of_mem _ hy)
        by_cases same : x.id = q.id
        · have nx := others x List.mem_cons_self same
          simpa [same, new, nx] using rest
        · simp only [List.map_cons, if_neg same, List.filter_cons, rest]
    exact each s.pages fun x hx same => by rw [eq_of_id ids page hx same]; exact old

theorem dropPage_queuedKept {s : State} {id : Nat} {p : Page} (page : pageById s id = some p) (old : p.pstate ≠ .queued) :
    QueuedKept s (dropPage id s) := fun ⟨ids, origins⟩ => by
  refine ⟨⟨ids.sublist (List.filter_sublist.map _), fun x hx => origins x (List.mem_filter.mp hx).1⟩, ?_⟩
  simp only [queuedPages, dropPage_pages, List.filter_filter]
  refine List.filter_congr fun x hx => ?_
  by_cases same : x.id = id
  · simp [eq_of_id ids page hx same, old]
  · simp [same]

theorem finishPage_queuedKept {s : State} {id : Nat} {p : Page} (page : pageById s id = some p)
    (old : p.pstate ≠ .queued) : QueuedKept s (finishPage id s) := by
  rw [finishPage_eq page]
  split
  · exact (dropPage_queuedKept page old).trans (.of_pages (raise_pages ..))
  · exact .of_pages rfl

/-- An entry that has a due is one of a page with an origin, so not of a QUEUED one: its retirement leaves those. -/
theorem retire_queuedKept {s : State} {k : Kind} {h r d : Nat} {e : Entry} (due : dueOf s h r e = some d) :
    QueuedKept s (retire k h r e s) := fun unbound => by
  unfold dueOf at due
  split at due
  · rename_i p c page _
    have old : p.pstate ≠ .queued := fun queued => by
      rw [unbound.2 p (pageById_mem page) queued] at due
      cases due
    cases head : headPlane s h with
    | none => unfold retire; rw [page, head]; exact ⟨unbound, rfl⟩
    | some plane =>
      rw [retire_eq k r page head]
      obtain ⟨qid, -, -, -, -, qstate, -⟩ := flagUnderrun_fields k plane (p.report k h r e.line)
      have new : ((p.report k h r e.line).flagUnderrun k plane).pstate ≠ .queued := by
        rw [qstate]
        show (if p.pstate = .bound then PageState.firing else p.pstate) ≠ _
        split
        · simp
        · exact old
      have same := reported_sameRun k h r e p plane s
      generalize (p.report k h r e.line).flagUnderrun k plane = q at *
      have qid : q.id = e.page := qid.trans (pageById_id page : p.id = e.page)
      have there : pageById (reported k h r e p plane s) e.page = some q := by
        rw [pageById, same.pages]; exact pageById_setPage q page qid
      exact ((setPage_queuedKept (qid ▸ page) old new).trans
        ((QueuedKept.of_pages same.pages).trans (finishPage_queuedKept there new))) unbound
  · cases due

theorem queuedKept_turns : TurnClosed QueuedKept where
  refl _ := .of_pages rfl
  trans := .trans
  compose p l s := .of_pages (SameRun.composeLine p l s).pages
  transfer _ _ _ _ := .of_pages rfl
  sched _ _ := .of_pages rfl
  fire {k h r e seq d s} new _ due _ _ := by
    have emptied : QueuedKept s (setRow h r ⟨.empty, new⟩ s) := .of_pages rfl
    exact emptied.trans (retire_queuedKept (s := setRow h r ⟨.empty, new⟩ s) due)
  decide ripe _ := by
    obtain ⟨row, d, -, -, -, due, -⟩ := ripeEntry_some ripe
    exact retire_queuedKept due
  load _ _ := .of_pages rfl

/-- A binding takes the front page from the QUEUED ones. -/
theorem bindPage_queued {s : State} (unbound : Unbound s) {p : Page} (front : frontPage s = some p) (origin : Nat) :
    Unbound (bindPage p origin s) ∧ queuedPages s = p :: queuedPages (bindPage p origin s) := by
  obtain ⟨queued, pre, post, pages, ahead⟩ := frontPage_split front
  obtain ⟨placed, -⟩ := boundState_spec pages (apart_of_nodup (pages ▸ unbound.1)) origin
  have notBound : (boundAt origin p).pstate ≠ .queued := by simp [boundAt]
  have now : Unbound (boundState p origin s) := by
    refine ⟨?_, fun x hx state => ?_⟩
    · have ids := unbound.1
      rw [pages, List.map_append, List.map_cons] at ids
      rw [placed, List.map_append, List.map_cons]
      exact ids
    · rw [placed] at hx
      rcases List.mem_append.mp hx with hx | hx
      · exact absurd state (ahead x hx)
      · rcases List.mem_cons.mp hx with rfl | hx
        · exact absurd state notBound
        · exact unbound.2 x (by simp [pages, hx]) state
  obtain ⟨after, kept⟩ := queuedKept_turns.settle _ now
  have none : (pre.filter fun x => decide (x.pstate = .queued)) = [] :=
    List.filter_eq_nil_iff.mpr fun x hx => by simpa using ahead x hx
  refine ⟨after, ?_⟩
  rw [bindPage_eq, kept]
  simp only [queuedPages, pages, placed, List.filter_append, none, List.nil_append, List.filter_cons, queued, notBound,
    decide_true, decide_false, if_true, Bool.false_eq_true, if_false]

/-- A page BOUND ahead of H_int stays so when another binds. -/
theorem Ahead.bindPage {p f : Page} {s : State} (a : Ahead p s) (other : f.id ≠ p.id) (origin : Nat) :
    Ahead p (bindPage f origin s) := by
  rw [bindPage_eq]
  refine Ahead.settle ⟨?_, ?_⟩
  · have kept := (pageById_setPage_other s p.id (boundAt origin f) other).trans a.page
    rw [pageById, (boundState_sameRun f origin s).pages]
    exact kept
  · have high : (boundState f origin s).hRaw = s.hRaw := by simp [boundState]
    have := a.ahead
    simpa only [State.hInt, high] using this

theorem anyBound_of_ahead {p : Page} {s : State} (a : Ahead p s) (bound : p.pstate = .bound) : anyBound s = true :=
  List.any_eq_true.mpr ⟨p, pageById_mem a.page, by simp [bound]⟩

theorem lastEnd_cons (te : Nat) (f : Page) (o : Nat) (bound : List (Page × Nat)) :
    lastEnd te ((f, o) :: bound) = lastEnd (o + 32 * f.length) bound := List.getLastD_cons

/-- The chain of FOLLOW pages (R42, R44): with a page bound ahead of H_int, each binds at the end of the one before plus the
greater of its gap and Gmin, and none of them is reached. -/
theorem bindFollows_chain (fs : List Page) : ∀ {s : State} {n te : Nat} {post : List Page} {p : Page}, Unbound s →
    queuedPages s = fs ++ post → (∀ f ∈ fs, f.mode = .follow) → (∀ q qs, post = q :: qs → q.mode = .onCue) →
    s.tailEnd = some te → s.hInt < te → Ahead p s → p.pstate = .bound → fs.length ≤ n →
    areBound (followBindings s.cueCfg.minGap te fs) (bindFollows n s)
    ∧ (bindFollows n s).tailEnd = some (lastEnd te (followBindings s.cueCfg.minGap te fs))
    ∧ ∀ q, q.pstate = .bound → Ahead q s → Ahead q (bindFollows n s) := by
  induction fs with
  | nil =>
    intro s n te post p unbound queued _ onCue tail _ _ _ _
    have stays : bindFollows n s = s := by
      cases post with
      | nil => exact bindFollows_none (by rw [frontPage_eq_head, queued]; rfl) n
      | cons q qs => exact bindFollows_onCue (by rw [frontPage_eq_head, queued]; rfl) (onCue q qs rfl) n
    rw [stays]
    exact ⟨fun b hb => (nomatch hb), tail, fun q _ a => a⟩
  | cons f fs ih =>
    intro s n te post p unbound queued follow onCue tail high a bound enough
    obtain ⟨n, rfl⟩ : ∃ k, n = k + 1 := ⟨n - 1, by simp only [List.length_cons] at enough; omega⟩
    have front : frontPage s = some f := by rw [frontPage_eq_head, queued]; rfl
    have at_ : followOrigin f s = te + max f.gap s.cueCfg.minGap := by
      simp only [followOrigin, anyBound_of_ahead a bound, if_true, tail, Option.getD_some]
    rw [bindFollows_follow front (follow f List.mem_cons_self), at_, followBindings]
    have le : te ≤ te + max f.gap s.cueCfg.minGap := Nat.le_add_right ..
    generalize te + max f.gap s.cueCfg.minGap = o at *
    have distinct {q : Page} (boundQ : q.pstate = .bound) (aq : Ahead q s) : f.id ≠ q.id := fun same => by
      obtain ⟨queuedF, pre, rest, pages, -⟩ := frontPage_split front
      have own := eq_of_id unbound.1 aq.page (show f ∈ s.pages by simp [pages]) same
      rw [own, boundQ] at queuedF
      cases queuedF
    obtain ⟨queuedF, pre, rest, pages, -⟩ := frontPage_split front
    obtain ⟨-, tail1, -, stands, -⟩ := bindPage_spec pages (apart_of_nodup (pages ▸ unbound.1)) o
    obtain ⟨unbound1, fewer⟩ := bindPage_queued unbound front o
    have frame := rowFrame_closed.bindPage f o s
    have high1 : (bindPage f o s).hInt = s.hInt := by simp only [State.hInt, frame.hRaw]
    have persist {q : Page} (boundQ : q.pstate = .bound) (aq : Ahead q s) : Ahead q (bindPage f o s) :=
      aq.bindPage (distinct boundQ aq) o
    have standsF : Ahead (boundAt o f) (bindPage f o s) := stands (by omega)
    generalize bindPage f o s = t at *
    rw [queued, List.cons_append, List.cons.injEq] at fewer
    obtain ⟨chain, tailEnd, later⟩ := ih unbound1 fewer.2.symm (fun g hg => follow g (List.mem_cons_of_mem _ hg)) onCue
      tail1 (by omega) standsF rfl (Nat.le_of_succ_le_succ enough)
    rw [frame.cueCfg] at chain tailEnd
    refine ⟨fun b hb => ?_, by rw [lastEnd_cons]; exact tailEnd, fun q boundQ aq => later q boundQ (persist boundQ aq)⟩
    rcases List.mem_cons.mp hb with rfl | hb
    · exact ⟨boundAt o f, pageById_mem (later _ rfl standsF).page, rfl, rfl, rfl, rfl⟩
    · exact chain b hb

/-! ### What a chain of bindings leaves of a page and of the counters -/

/-- What is so of every page of an id, is kept by rows and loaders and never of a QUEUED page, a chain of bindings keeps. -/
theorem bindFollows_pages {id : Nat} {P : Page → Prop} (notQueued : ∀ q, P q → q.pstate ≠ .queued)
    (kept : ∀ {s t}, PagesKept s t → (∀ q ∈ s.pages, q.id = id → P q) → ∀ q ∈ t.pages, q.id = id → P q) (n : Nat) :
    ∀ {s : State}, (∀ q ∈ s.pages, q.id = id → P q) → ∀ q ∈ (bindFollows n s).pages, q.id = id → P q := by
  induction n with
  | zero => exact fun all => all
  | succ n ih =>
    intro s all
    unfold bindFollows
    split
    · rename_i g front
      split
      · obtain ⟨queued, pre, post, pages, -⟩ := frontPage_split front
        refine ih (kept (pagesKept_closed.settle (boundState g (followOrigin g s) s)) fun q hq same => ?_)
        rw [(boundState_sameRun ..).pages] at hq
        obtain ⟨x, hx, rfl⟩ := List.mem_map.mp hq
        split at same
        · exact absurd queued (notQueued g (all g (by simp [pages]) same))
        · rename_i other
          rw [if_neg other]
          exact all x hx same
      · exact all
    · exact all

theorem BoundTo.kept {s t : State} {f : Page} {o : Nat} (kept : PagesKept s t)
    (all : ∀ q ∈ s.pages, q.id = f.id → BoundTo f o q) : ∀ q ∈ t.pages, q.id = f.id → BoundTo f o q := by
  intro q hq same
  obtain ⟨x, hx, id, length, mask, mode, origin, -, -, state⟩ := kept.2 q hq
  obtain ⟨o', s', l', m', md'⟩ := all x hx (id.trans same)
  exact ⟨origin.symm.trans o', fun queued => s' (state.mp queued), length.symm.trans l', mask.symm.trans m',
    mode.symm.trans md'⟩

/-- The heads' WITHDRAWN counters stand. -/
def WithdrawnKept (s t : State) : Prop := ∀ h, look (headGroup t h) 6 0 = look (headGroup s h) 6 0

theorem WithdrawnKept.of_ctrs {s t : State} (ctrs : t.headCtrs = s.headCtrs) : WithdrawnKept s t := fun h => by
  rw [headGroup_of_ctrs ctrs]

theorem WithdrawnKept.trans {s t u : State} (a : WithdrawnKept s t) (b : WithdrawnKept t u) : WithdrawnKept s u :=
  fun h => (b h).trans (a h)

theorem bumpHead_withdrawnKept {k : Kind} (other : k ≠ .withdrawn) (h n : Nat) (s : State) :
    WithdrawnKept s (bumpHead h (.retired k) n s) := fun i => by
  by_cases lt : h < 24
  · rw [headGroup_bumpHead _ _ _ _ _ lt]
    split
    · rename_i same
      rw [← same]
      exact look_put_ne _ _ _ _ _ fun code => other (withdrawn_of_code code)
    · rfl
  · simp only [headGroup, bumpHead, look_put, lt, and_false, if_false]

theorem retireLine_headCtrs (p : Nat) (e : Entry) (s : State) : (retireLine p e s).headCtrs = s.headCtrs := by
  unfold retireLine
  split
  · rfl
  · split <;> rfl

theorem finishPage_headCtrs (id : Nat) (s : State) : (finishPage id s).headCtrs = s.headCtrs := by
  unfold finishPage
  split
  · rfl
  · split
    · exact raise_headCtrs ..
    · rfl

theorem raiseStarted_headCtrs (p : Page) (k : Kind) (h r line : Nat) (s : State) :
    (raiseStarted p k h r line s).headCtrs = s.headCtrs := by
  unfold raiseStarted; split <;> simp

theorem raiseUnderrun_headCtrs (p : Page) (k : Kind) (plane h r line : Nat) (s : State) :
    (raiseUnderrun p k plane h r line s).headCtrs = s.headCtrs := by
  unfold raiseUnderrun; split <;> simp

theorem retire_withdrawnKept {k : Kind} (other : k ≠ .withdrawn) (h r : Nat) (e : Entry) (s : State) :
    WithdrawnKept s (retire k h r e s) := by
  unfold retire
  split
  · refine WithdrawnKept.trans ?_ (.of_ctrs (finishPage_headCtrs ..))
    refine WithdrawnKept.trans (.of_ctrs ?_) (bumpHead_withdrawnKept other h 1 _)
    rw [retireLine_headCtrs, raiseUnderrun_headCtrs, raiseStarted_headCtrs, setPage_headCtrs]
  · exact .of_ctrs rfl

theorem withdrawnKept_turns : TurnClosed WithdrawnKept where
  refl _ := .of_ctrs rfl
  trans := .trans
  compose p l s := .of_ctrs (by unfold composeLine; split <;> rfl)
  transfer _ _ _ _ := .of_ctrs rfl
  sched _ _ := .of_ctrs rfl
  fire {k h r e seq d s} new _ _ _ kind := by
    have emptied : WithdrawnKept s (setRow h r ⟨.empty, new⟩ s) := .of_ctrs rfl
    have entry : k ≠ .withdrawn := by rcases kind with rfl | rfl <;> decide
    exact emptied.trans (retire_withdrawnKept entry h r e _)
  decide {k h r e s} _ due := by
    have kind := decisionAtDue_kind due
    have entry : k ≠ .withdrawn := by rcases kind with rfl | rfl | rfl <;> decide
    exact retire_withdrawnKept entry h r e s
  load _ _ := .of_ctrs rfl

theorem bindFollows_withdrawnKept (n : Nat) (s : State) : WithdrawnKept s (bindFollows n s) := by
  induction n generalizing s with
  | zero => exact .of_ctrs rfl
  | succ n ih =>
    unfold bindFollows
    split
    · split
      · rw [bindPage_eq]
        exact WithdrawnKept.trans (.of_ctrs (by simp [boundState])) ((withdrawnKept_turns.settle _).trans (ih _))
      · exact .of_ctrs rfl
    · exact .of_ctrs rfl

/-- Binding changes no line list. -/
theorem linesKept_pages : PageClosed LinesKept where
  toRowClosed := linesKept_closed
  pages _ _ _ _ := .of_lines rfl

theorem queuedPages_of_split {s : State} {pre queue : List Page} (pages : s.pages = pre ++ queue)
    (ahead : ∀ q ∈ pre, q.pstate ≠ .queued) (queued : ∀ q ∈ queue, q.pstate = .queued) : queuedPages s = queue := by
  have none : (pre.filter fun x => decide (x.pstate = .queued)) = [] :=
    List.filter_eq_nil_iff.mpr fun x hx => by simpa using ahead x hx
  have all : (queue.filter fun x => decide (x.pstate = .queued)) = queue :=
    List.filter_eq_self.mpr fun x hx => by simpa using queued x hx
  rw [queuedPages, pages, List.filter_append, none, all, List.nil_append]

/-- A FOLLOW front page and the FOLLOW pages behind it bind (R42, R44): the front page's PAGE_BOUND first, its record bound at
its origin for as long as it is in the queue; with that origin ahead of H_int the whole chain stays BOUND. -/
theorem bindFollows_front {s : State} {pre fs post : List Page} {f : Page} {origin n : Nat}
    (pages : s.pages = pre ++ f :: (fs ++ post)) (unbound : Unbound s) (ahead : ∀ q ∈ pre, q.pstate ≠ .queued)
    (follow : ∀ q ∈ f :: fs, q.pstate = .queued ∧ q.mode = .follow) (last : ∀ q ∈ post, q.pstate = .queued)
    (onCue : ∀ q qs, post = q :: qs → q.mode = .onCue) (at_ : followOrigin f s = origin) (enough : fs.length ≤ n) :
    (∃ evs, (bindFollows (n + 1) s).outgoing = (offered (.pageBound f.id origin) s).outgoing ++ evs
      ∧ ∀ o ∈ evs, o.isEvent = true)
    ∧ (∀ q ∈ (bindFollows (n + 1) s).pages, q.id = f.id → BoundTo f origin q)
    ∧ (s.hInt < origin →
        let bound := (f, origin) :: followBindings s.cueCfg.minGap (origin + 32 * f.length) fs
        areBound bound (bindFollows (n + 1) s) ∧ (bindFollows (n + 1) s).tailEnd = some (lastEnd 0 bound)) := by
  obtain ⟨queuedF, followF⟩ := follow f List.mem_cons_self
  have front := frontPage_of_split pages ahead queuedF
  have queued : queuedPages s = f :: (fs ++ post) := queuedPages_of_split pages ahead fun q hq => by
    rcases List.mem_cons.mp hq with rfl | hq
    · exact queuedF
    · rcases List.mem_append.mp hq with hq | hq
      · exact (follow q (List.mem_cons_of_mem _ hq)).1
      · exact last q hq
  obtain ⟨⟨evs1, out, events1⟩, tail, bound, standing, -⟩ := bindPage_spec pages (apart_of_nodup (pages ▸ unbound.1)) origin
  obtain ⟨unbound1, fewer⟩ := bindPage_queued unbound front origin
  have frame := rowFrame_closed.bindPage f origin s
  obtain ⟨⟨evs2, more, events2⟩, -⟩ := eventsOnly_closed.bindFollows n (bindPage f origin s)
  rw [bindFollows_follow front followF, at_]
  generalize bindPage f origin s = t at *
  have later := bindFollows_pages (id := f.id) (fun q own => own.state) BoundTo.kept n fun q hq same => (bound q hq same).1
  refine ⟨⟨evs1 ++ evs2, by rw [more, out, List.append_assoc], fun o ho => ?_⟩, later, fun high => ?_⟩
  · rcases List.mem_append.mp ho with ho | ho
    · exact events1 o ho
    · exact events2 o ho
  · rw [queued, List.cons.injEq] at fewer
    have standsF := standing high
    have high1 : t.hInt < origin + 32 * f.length := by
      rw [State.hInt, frame.hRaw]
      exact Nat.lt_add_right _ high
    obtain ⟨chain, tailEnd, persist⟩ := bindFollows_chain fs unbound1 fewer.2.symm
      (fun g hg => (follow g (List.mem_cons_of_mem _ hg)).2) onCue tail high1 standsF rfl enough
    rw [frame.cueCfg] at chain tailEnd
    refine ⟨fun b hb => ?_, by rw [lastEnd_cons]; exact tailEnd⟩
    rcases List.mem_cons.mp hb with rfl | hb
    · exact ⟨boundAt origin f, pageById_mem (persist _ rfl standsF).page, rfl, rfl, rfl, rfl⟩
    · exact chain b hb

end Sys2Proof.Machine
end

