-- ==== Sys2Proof/Proofs/CancelQueued.lean ====
section
/-! SUPPORT. PAGE_CANCEL of an id that no page has, and of a QUEUED page (R48, R65, R100), with the FOLLOW pages that bind by
it (R42, R44). -/

namespace Sys2Proof.Machine

/-- What a cancelled QUEUED page's PAGE_DONE says: CANCELLED, length 0, all its lines withdrawn (R48). -/
def withdrawnEvent (p : Page) : Event :=
  .pageDone p.id .cancelled 0 (put p.counts 6 (look p.counts 6 0 + p.length))

/-- The removal of a QUEUED page, before any FOLLOW page binds by it (R48). -/
def removed (p : Page) (s : State) : State :=
  raise (withdrawnEvent p)
    (dropPage p.id (freeLinesFrom p 0 (countEntries .withdrawn p (fun _ => p.length) s)))

theorem cancelQueued_eq (p : Page) (s : State) :
    cancelQueued p s = bindFollows (removed p s).pages.length (removed p s) := rfl

section
variable {s : State} {pre post : List Page} {p : Page} (pages : s.pages = pre ++ p :: post)
  (apart : ∀ x ∈ pre ++ post, x.id ≠ p.id)
include pages apart

/-- All that the removal does (R48, R65, R100). -/
theorem removed_spec :
    (removed p s).pages = pre ++ post ∧ SameQueue (offered (withdrawnEvent p) s) (removed p s)
    ∧ (removed p s).tailEnd = s.tailEnd
    ∧ (∀ h, h < 24 → look (headGroup (removed p s) h) 6 0
        = min 4294967295 (look (headGroup s h) 6 0 + p.length * (look p.passed h []).length))
    ∧ (∀ h i, i ≠ 6 → look (headGroup (removed p s) h) i 0 = look (headGroup s h) i 0)
    ∧ (∀ plane, plane < 8 → linesOf (removed p s) plane = if p.mask.getLsbD plane
        then (linesOf s plane).filter (fun l => l.page ≠ p.id) else linesOf s plane)
    ∧ (removed p s).rows = s.rows ∧ (removed p s).loaders = s.loaders ∧ (removed p s).planeCtrs = s.planeCtrs
    ∧ RowFrame s (removed p s) := by
  have kept : s.pages.filter (fun x => x.id ≠ p.id) = pre ++ post := by
    have all {l : List Page} (others : ∀ x ∈ l, x.id ≠ p.id) : l.filter (fun x => x.id ≠ p.id) = l :=
      List.filter_eq_self.mpr fun x hx => by simpa using others x hx
    rw [pages, List.filter_append, List.filter_cons_of_neg (by simp),
      all fun x hx => apart x (List.mem_append_left _ hx), all fun x hx => apart x (List.mem_append_right _ hx)]
  have count (h : Nat) (lt : h < 24) := headGroup_countEntries_count .withdrawn p (fun _ => p.length) s lt
  have other (h i : Nat) (ne : i ≠ 6) := headGroup_countEntries_other .withdrawn p (fun _ => p.length) s h ne
  have frame : RowFrame s (removed p s) := rowFrame_closed.trans (rowFrame_closed.countEntries ..)
    (rowFrame_closed.trans (rowFrame_closed.freeLinesFrom ..) (rowFrame_closed.trans (rowFrame_closed.dropPage ..)
      (rowFrame_closed.raise ..)))
  obtain ⟨ctrs, counted⟩ := countEntries_eq .withdrawn p (fun _ => p.length) s
  obtain ⟨lines, freed, reads⟩ := freeLinesFrom_spec p 0 { s with headCtrs := ctrs }
  have eq : removed p s = raise (withdrawnEvent p) (dropPage p.id { s with headCtrs := ctrs, lines := lines }) := by
    rw [removed, counted, freed]
  have groups (h : Nat) : headGroup (removed p s) h = headGroup (countEntries .withdrawn p (fun _ => p.length) s) h :=
    headGroup_of_ctrs (by rw [eq, counted, raise_headCtrs]; rfl) h
  have queue : SameQueue s (dropPage p.id { s with headCtrs := ctrs, lines := lines }) := .refl s
  refine ⟨?_, eq ▸ queue.raise _, by rw [eq, raise_tailEnd]; rfl, fun h lt => ?_, fun h i ne => ?_, fun plane lt => ?_,
    by rw [eq, raise_rows]; rfl, by rw [eq, raise_loaders]; rfl, by rw [eq, raise_planeCtrs]; rfl, frame⟩
  · rw [eq, raise_pages, dropPage_pages]
    exact kept
  · rw [groups, ← sum_map_const]
    exact (count h lt).trans (Nat.min_comm ..)
  · rw [groups]
    exact other h i ne
  · have line : linesOf (removed p s) plane = look lines plane [] := by rw [linesOf, eq, raise_lines]; rfl
    rw [line, reads plane lt]
    show (if p.mask.getLsbD plane = true then _ else _) = _
    rw [List.filter_congr fun l _ => ?_]
    · rfl
    · simp

end

/-- Settles O26: the page removed; then no FOLLOW page in front, or the chain of FOLLOW pages bound. -/
theorem cancelOfAQueuedPage : Obligations.CancelOfAQueuedPage := by
  intro s s1 tag id small taken run
  have ruled := pageCancel_ruled taken run
  have none : (∀ p ∈ s.pages, p.id ≠ id) → pageCancel ⟨.control, 0x31#8, tag, leBytes 2 id⟩ { s with handler := .free }
      = answer ⟨.control, 0x31#8, tag, leBytes 2 id⟩ .noSuchPage [] { s with handler := .free } := fun absent => by
    have gone : pageById { s with handler := .free } id = .none :=
      List.find?_eq_none.mpr fun p hp => by simpa using absent p hp
    unfold pageCancel
    rw [cancel_field small, gone]
  have request {pre p post} (pages : s.pages = pre ++ p :: post) (own : p.id = id) (ids : (s.pages.map Page.id).Nodup)
      (queued : p.pstate = .queued) : pageCancel ⟨.control, 0x31#8, tag, leBytes 2 id⟩ { s with handler := .free }
      = answer ⟨.control, 0x31#8, tag, leBytes 2 id⟩ .ok (leBytes 4 0 ++ leBytes 4 p.length)
        (bindFollows (removed p { s with handler := .free }).pages.length (removed p { s with handler := .free })) := by
    have here : pageById { s with handler := .free } id = some p :=
      own ▸ pageById_of_mem (s := { s with handler := .free }) ids (show p ∈ s.pages by simp [pages])
    unfold pageCancel
    rw [cancel_field small, here]
    dsimp only
    rw [if_pos queued, cancelQueued_eq]
  have queue : SameQueue s { s with handler := .free } := .refl s
  refine ⟨fun absent => ?_, fun pre p post pages own ids queued onCue => ?_,
    fun pre p f fs post origin pages own ids queued ahead follow last onCue behind first empty => ?_⟩
  · obtain ⟨-, rfl⟩ := taken
    rw [ruled, none absent, takeNext_answer]
  · have apart := apart_of_nodup (pages ▸ ids)
    obtain ⟨left, events, tail, withdrawn, others, lines, rows, loaders, planes, frame⟩ :=
      removed_spec (s := { s with handler := .free }) pages apart
    have stays (n : Nat) : bindFollows n (removed p { s with handler := .free }) = removed p { s with handler := .free } := by
      cases front : frontPage (removed p { s with handler := .free }) with
      | none => exact bindFollows_none front n
      | some q =>
        obtain ⟨queuedQ, a, b, split, aheadQ⟩ := frontPage_split front
        exact bindFollows_onCue front (onCue a q b (left ▸ split) aheadQ queuedQ) n
    rw [request pages own ids queued, stays] at ruled
    obtain ⟨out, seq, lost, link⟩ := (queue.offered (withdrawnEvent p)).trans events
    obtain ⟨-, rfl⟩ := taken
    subst own
    generalize removed p { s with handler := .free } = u at *
    refine ⟨_, ruled, by simpa using left, by simpa using tail,
      ⟨(takeNext_eventSeq _).trans seq, (takeNext_lostCount _).trans lost, (takeNext_linkCtrs _).trans link⟩, ?_,
      fun h lt => ?_, fun h i ne => ?_, fun plane lt => ?_, by simpa using rows, by simpa using loaders,
      by simpa using planes, frame.replied ..⟩
    · rw [takeNext_outgoing, answer_outgoing, out]
      rfl
    · rw [headGroup_of_ctrs (t := takeNext _) (s := u) (by simp)]
      exact withdrawn h lt
    · rw [headGroup_of_ctrs (t := takeNext _) (s := u) (by simp)]
      exact others h i ne
    · have same : linesOf (takeNext (answer ⟨.control, 0x31#8, tag, leBytes 2 p.id⟩ .ok
          (leBytes 4 0 ++ leBytes 4 p.length) u)) plane = linesOf u plane := by simp [linesOf]
      rw [same]
      exact lines plane lt
  · have pages : s.pages = pre ++ p :: (f :: fs ++ post) := by simpa using pages
    have apart := apart_of_nodup (pages ▸ ids)
    obtain ⟨left, events, tail, withdrawn, -, lines, -, -, -, frame⟩ :=
      removed_spec (s := { s with handler := .free }) pages apart
    have absent : ∀ q ∈ (removed p { s with handler := .free }).pages, q.id = p.id → False := by
      rw [left]; exact apart
    rw [request pages own ids queued] at ruled
    replace events := (queue.offered (withdrawnEvent p)).trans events
    obtain ⟨-, rfl⟩ := taken
    subst own
    generalize removed p { s with handler := .free } = u at *
    have unbound : Unbound u := by
      refine ⟨?_, fun x hx state => ?_⟩
      · rw [pages] at ids
        rw [left]
        exact ids.sublist (List.Sublist.map _ (List.Sublist.append_left (List.sublist_cons_self ..) _))
      · rw [left] at hx
        rcases List.mem_append.mp hx with hx | hx
        · exact absurd state (ahead x hx)
        · rcases List.mem_append.mp hx with hx | hx
          · exact (follow x hx).2.2
          · exact (last x hx).2
    have high : u.hInt = s.hRaw / 4096 := by rw [State.hInt, frame.hRaw]
    have cfg : u.cueCfg = s.cueCfg := frame.cueCfg
    have any : anyBound u = true ↔ pre ≠ [] := by
      have others : ∀ q ∈ f :: fs ++ post, q.pstate = .queued := fun q hq => by
        rcases List.mem_append.mp hq with hq | hq
        · exact (follow q hq).1
        · exact (last q hq).1
      rw [anyBound, left, List.any_append, Bool.or_eq_true, List.any_eq_true, List.any_eq_true]
      constructor
      · rintro (⟨q, hq, -⟩ | ⟨q, hq, state⟩)
        · exact List.ne_nil_of_mem hq
        · simp [others q hq] at state
      · intro some
        obtain ⟨q, hq⟩ := List.exists_mem_of_ne_nil _ some
        exact .inl ⟨q, hq, by simpa using ahead q hq⟩
    have noneAhead (notAny : anyBound u = false) : pre = [] := by
      by_contra some
      rw [any.mpr some] at notAny
      cases notAny
    have at_ : followOrigin f u = origin := by
      refine followOrigin_eq (fun bound => ?_) (fun notAny none => ?_) (fun notAny te known => ?_)
      · obtain ⟨te, known, eq⟩ := behind (any.mp bound)
        exact ⟨te, tail.trans known, cfg ▸ eq⟩
      · exact high ▸ first (noneAhead notAny) (tail ▸ none)
      · rw [high, cfg]; exact empty (noneAhead notAny) te (tail ▸ known)
    obtain ⟨n, length, enough⟩ : ∃ n, u.pages.length = n + 1 ∧ fs.length ≤ n :=
      ⟨pre.length + (fs.length + post.length), by rw [left]; simp; omega, by omega⟩
    rw [length] at ruled
    obtain ⟨⟨evs, out, events2⟩, bound, chain⟩ := bindFollows_front left unbound ahead
      (fun q hq => ⟨(follow q hq).1, (follow q hq).2.1⟩) (fun q hq => (last q hq).1) onCue at_ enough
    have ctrs := bindFollows_withdrawnKept (n + 1) u
    have gone := bindFollows_pages (id := p.id) (P := fun _ => False) (fun _ => False.elim)
      (fun kept all q hq same => by
        obtain ⟨x, hx, id, -⟩ := kept.2 q hq
        exact all x hx (id.trans same)) (n + 1) absent
    have keptLines := linesKept_pages.bindFollows (n + 1) u
    have frameT := frame.trans (rowFrame_closed.bindFollows (n + 1) u)
    rw [high, cfg] at chain
    generalize bindFollows (n + 1) u = t at *
    refine ⟨_, evs, ruled, ?_, events2, fun q hq same => gone q (by simpa using hq) same, fun q hq same => ?_,
      fun before => ?_, fun h lt => ?_, fun plane lt holds l hl same => ?_, frameT.replied ..⟩
    · rw [takeNext_outgoing, answer_outgoing, out, (events.offered _).1]
      rfl
    · obtain ⟨o, st, len, -, -⟩ := bound q (by simpa using hq) same
      exact ⟨o, st, len⟩
    · obtain ⟨all, ended⟩ := chain before
      exact ⟨by simpa [areBound] using all, by simpa using ended⟩
    · rw [headGroup_of_ctrs (t := takeNext _) (s := t) (by simp), ctrs]
      exact withdrawn h lt
    · obtain ⟨k, hk, samePage, -⟩ := keptLines plane l (by simpa [linesOf] using hl)
      rw [lines plane lt, if_pos holds] at hk
      have other := (List.mem_filter.mp hk).2
      simp [samePage, same] at other

end Sys2Proof.Machine
end

