-- ==== Sys2Proof/Proofs/CueOffer.lean ====
section
/-! SUPPORT. A cue offer (R43): unused, early, or binding the front page; what it binds rests on QUEUED pages having no
origin (R39), which the statement about any state does not ask. -/

namespace Sys2Proof.Machine

/-! ### With no origin on any QUEUED page -/

theorem takeOffer_unused {s : State} (none : ∀ p ∈ s.pages, p.pstate ≠ .queued) (origin : Nat) (kind : CueKind) :
    takeOffer origin kind s = offered (.cueUnused origin kind) (bumpMotion .unusedCues 1 s) := by
  unfold takeOffer
  rw [frontPage_none none, ← raise_offered]

theorem takeOffer_early {s : State} {p : Page} {te origin : Nat} (front : frontPage s = some p)
    (tail : s.tailEnd = some te) (early : origin < te + s.cueCfg.minGap) (kind : CueKind) : takeOffer origin kind s
      = offered (.cueEarly p.id origin (te + s.cueCfg.minGap)) (bumpMotion .earlyCues 1 s) := by
  unfold takeOffer
  rw [front]
  simp only [tail, Option.map_some, Option.any_some, early, decide_true, if_true, Option.getD_some, raise_offered]

theorem takeOffer_binds {s : State} {p : Page} {origin : Nat} (front : frontPage s = some p)
    (room : ∀ te, s.tailEnd = some te → te + s.cueCfg.minGap ≤ origin) (kind : CueKind) :
    takeOffer origin kind s = bindFollows s.pages.length (bindPage p origin s) := by
  unfold takeOffer
  rw [front]
  dsimp only
  refine if_neg fun early => ?_
  cases tail : s.tailEnd with
  | none => simp [tail] at early
  | some te => simp [tail] at early; exact absurd (room te tail) (by omega)

/-- With no origin on any QUEUED page an offer binds the front page alone when the next QUEUED page is no FOLLOW page: what
rows and loaders then retire leaves the QUEUED pages as they stand (R43, R44). -/
theorem takeOffer_binds_alone {s : State} (unbound : Unbound s) {p : Page} {origin : Nat} (front : frontPage s = some p)
    (room : ∀ te, s.tailEnd = some te → te + s.cueCfg.minGap ≤ origin)
    (onCue : ∀ q qs, queuedPages s = p :: q :: qs → q.mode = .onCue) (kind : CueKind) :
    takeOffer origin kind s = bindPage p origin s
    ∧ (takeOffer origin kind s).tailEnd = some (origin + 32 * p.length) := by
  obtain ⟨-, pre, post, pages, -⟩ := frontPage_split front
  obtain ⟨-, tail, -⟩ := bindPage_spec pages (apart_of_nodup (pages ▸ unbound.1)) origin
  obtain ⟨-, fewer⟩ := bindPage_queued unbound front origin
  have alone : takeOffer origin kind s = bindPage p origin s := by
    rw [takeOffer_binds front room]
    cases next : queuedPages (bindPage p origin s) with
    | nil => exact bindFollows_none (by rw [frontPage_eq_head, next]; rfl) _
    | cons q qs => exact bindFollows_onCue (by rw [frontPage_eq_head, next]; rfl) (onCue q qs (next ▸ fewer)) _
  exact ⟨alone, alone ▸ tail⟩

/-! ### A QUEUED page with an origin -/

/-- A QUEUED page of one line, with next-line indices for the rows of head 0. -/
def oneLinePage (id : Nat) (mode : PageMode) (origin : Option Nat) (rows : List Nat) : Page where
  id := id
  length := 1
  mask := 1
  mode := mode
  gap := 0
  pstate := .queued
  origin := origin
  cancelled := false
  unretired := rows.length
  counts := Vector.replicate 8 0
  underrun := Vector.replicate 8 false
  arrival := Vector.replicate 8 0
  passed := put (Vector.replicate 24 []) 0 rows

/-- A RUN whose second QUEUED page, an ON_CUE page, has an origin and one entry left, which is due at a head out of service;
behind it stands a FOLLOW page. -/
def strayOrigin : State := { State.reset with
  engine := .run
  pages := [oneLinePage 1 .onCue none [], oneLinePage 2 .onCue (some 0) [0], oneLinePage 3 .follow none []]
  heads := put (Vector.replicate 24 none) 0 (some ⟨0, 0, 1, 1, 0, [0], 1, 1⟩)
  rows := put (Vector.replicate 24 []) 0 [⟨.empty, .idle⟩] }

/-- The offer at 5 binds page 1; page 2's last entry is retired SKIPPED and page 2 leaves the queue, and page 3, then the
front page, binds behind page 1. -/
theorem strayOrigin_offer : (takeOffer 5 .edge strayOrigin).tailEnd = some 69 := by decide +kernel

/-- Refutes O25: its third part asks nothing of the origins of QUEUED pages, and in `strayOrigin` a QUEUED page with an
origin leaves the queue within the offer, so that the FOLLOW page behind it binds and the tail end is that page's end, 69,
and not the front page's, 37. With `queueInv`, which forbids such a page, `takeOffer_binds_alone` has the tail end stated. -/
theorem not_cueOfferBindsTheFrontPage : ¬ Obligations.CueOfferBindsTheFrontPage := by
  intro claim
  obtain ⟨-, -, binds, -⟩ := claim strayOrigin 5 .edge
  have onCue : ∀ a q b, [oneLinePage 2 .onCue (some 0) [0], oneLinePage 3 .follow none []] = a ++ q :: b →
      (∀ x ∈ a, x.pstate ≠ .queued) → q.pstate = .queued → q.mode = .onCue := by
    intro a q b split ahead _
    cases a with
    | nil => rw [List.nil_append, List.cons.injEq] at split; rw [← split.1]; rfl
    | cons x a =>
      rw [List.cons_append, List.cons.injEq] at split
      exact absurd (split.1 ▸ rfl) (ahead x List.mem_cons_self)
  obtain ⟨-, -, -, tail, -⟩ := binds [] (oneLinePage 1 .onCue none [])
    [oneLinePage 2 .onCue (some 0) [0], oneLinePage 3 .follow none []] rfl (fun _ none => nomatch none) rfl
    (fun _ none => nomatch none) (by decide) onCue
  rw [strayOrigin_offer] at tail
  exact absurd tail (by decide)

end Sys2Proof.Machine
end

