-- ==== Sys2Proof/Proofs/RowTurns.lean ====
section
/-! SUPPORT. Dues, next entries, ripeness and the decision at due (R79, R101 to R104), and the repetition of the decision: each
retirement leaves the row fewer entries, so a turn ends with the row not ripe or its entry pending (R105). -/

namespace Sys2Proof.Machine

/-! ### Dues and the decision -/

theorem dueOf_iff {s : State} {h r d : Nat} {e : Entry} : dueOf s h r e = some d ↔ ∃ p c o, pageById s e.page = some p
    ∧ look s.heads h none = some c ∧ p.origin = some o ∧ d = o + 32 * e.line + c.offset + c.offsets.getD r 0 := by
  unfold dueOf
  cases page : pageById s e.page with
  | none => simp
  | some p =>
    cases head : look s.heads h none with
    | none => simp
    | some c => cases origin : p.origin <;> simp [eq_comm]

theorem shareEmpty_iff {share : List Level} : shareEmpty share = true ↔ ∀ x ∈ share, x = 0 := by
  simp [shareEmpty]

/-- The decision at due, case by case (R104). -/
theorem decisionAtDue_cases (s : State) (h r : Nat) (e : Entry) (plane : Nat) (head : headPlane s h = some plane) :
    (available s h = false → decisionAtDue s h r e = some .skipped) ∧
    (available s h = true → storedLine s plane e = none → decisionAtDue s h r e = some .underrun) ∧
    (∀ l share, available s h = true → storedLine s plane e = some l → lineShare s h r l = some share →
      (∀ x ∈ share, x = 0) → decisionAtDue s h r e = some .empty) ∧
    (∀ l share, available s h = true → storedLine s plane e = some l → lineShare s h r l = some share →
      (∃ x ∈ share, x ≠ 0) → decisionAtDue s h r e = none) := by
  unfold decisionAtDue
  refine ⟨fun out => if_pos out, fun serves missing => ?_, fun l share serves stored composed empty => ?_,
    fun l share serves stored composed full => ?_⟩
  · simp [serves, head, missing]
  · simp [serves, head, stored, composed, shareEmpty_iff.mpr empty]
  · have notEmpty : ¬ shareEmpty share = true := fun empty => by
      obtain ⟨x, hx, ne⟩ := full
      exact ne (shareEmpty_iff.mp empty x hx)
    simp [serves, head, stored, composed, notEmpty]

theorem held_none_iff {b : LoadBuf} : b.held = none ↔ b = .empty ∨ ∃ f, b = .loading f true := by
  cases b with
  | empty => simp [LoadBuf.held]
  | loading e spent => cases spent <;> simp [LoadBuf.held]
  | full e seq => simp [LoadBuf.held]

theorem ripeEntry_iff {s : State} {h r : Nat} {e : Entry} : ripeEntry s h r = some e ↔ nextEntry s h r = some e
    ∧ (∃ d, dueOf s h r e = some d ∧ d ≤ s.hRaw / 4096)
    ∧ ∃ row, rowAt s h r = some row ∧ (row.buf = .empty ∨ ∃ f, row.buf = .loading f true) := by
  constructor
  · intro ripe
    obtain ⟨row, d, at_, free, next, due, reached⟩ := ripeEntry_some ripe
    exact ⟨next, ⟨d, due, reached⟩, row, at_, held_none_iff.mp free⟩
  · rintro ⟨next, ⟨d, due, reached⟩, row, at_, free⟩
    have now : d ≤ s.hInt ∧ row.buf.held = none := ⟨reached, held_none_iff.mpr free⟩
    simp [ripeEntry, at_, next, due, now]

/-! ### The next entry -/

/-- The entries of lines `n` up to `len` of a page. -/
def lineEntries (id n len : Nat) : List Entry := (List.range (len - n)).map fun i => ⟨id, n + i⟩

theorem lineEntries_cons {id n len : Nat} (inside : n < len) :
    lineEntries id n len = ⟨id, n⟩ :: lineEntries id (n + 1) len := by
  obtain ⟨k, hk⟩ : ∃ k, len - n = k + 1 := ⟨len - n - 1, by omega⟩
  have rest : len - (n + 1) = k := by omega
  simp only [lineEntries, hk, rest, List.range_succ_eq_map, List.map_cons, List.map_map, Nat.add_zero]
  refine congrArg _ (List.map_congr_left fun i _ => ?_)
  simp only [Function.comp, Nat.succ_eq_add_one, Entry.mk.injEq, true_and]
  omega

theorem lineEntries_nil {id n len : Nat} (past : len ≤ n) : lineEntries id n len = [] := by
  simp [lineEntries, Nat.sub_eq_zero_of_le past]

/-- A page's unretired entries for a row. -/
def pageEntries (h r : Nat) (p : Page) : List Entry :=
  match p.nextLine h r with
  | some n => lineEntries p.id n p.length
  | none => []

theorem rowEntries_eq (s : State) (h r : Nat) : rowEntries s h r = s.pages.flatMap (pageEntries h r) := rfl

/-- The first of a page's entries outside the buffer: its next line, or the one behind it when the buffer holds that. -/
theorem find_lineEntries {held : Option Entry} {id n len : Nat} (own : ∀ e, held = some e → e.page = id → e.line = n) :
    (lineEntries id n len).find? (fun e => held ≠ some e)
      = if (if held.any (fun e => e.page = id) then n + 1 else n) < len
        then some ⟨id, if held.any (fun e => e.page = id) then n + 1 else n⟩ else none := by
  have head {m : Nat} (free : held ≠ some ⟨id, m⟩) :
      (lineEntries id m len).find? (fun e => held ≠ some e) = if m < len then some ⟨id, m⟩ else none := by
    by_cases inside : m < len
    · rw [lineEntries_cons inside, List.find?_cons_of_pos (by simpa using free), if_pos inside]
    · rw [lineEntries_nil (Nat.not_lt.mp inside), if_neg inside]
      rfl
  by_cases holds : held.any (fun e => e.page = id) = true
  · obtain ⟨e, rfl, page⟩ : ∃ e, held = some e ∧ e.page = id := by
      cases held with
      | none => simp at holds
      | some e => exact ⟨e, rfl, by simpa using holds⟩
    obtain ⟨ep, el⟩ := e
    obtain rfl : ep = id := page
    obtain rfl : el = n := own _ rfl rfl
    simp only [holds, if_true]
    rw [← head (m := el + 1) (by simp)]
    by_cases inside : el < len
    · rw [lineEntries_cons inside, List.find?_cons_of_neg (by simp)]
    · rw [lineEntries_nil (Nat.not_lt.mp inside), lineEntries_nil (by omega)]
  · simp only [holds, Bool.false_eq_true, if_false]
    refine head fun same => holds ?_
    simp [same]

/-- `nextIn` over a part of the queue, its pages read by their ids, and the buffer holding a page's next line only. -/
theorem nextIn_eq {s : State} (held : Option Entry) (h r : Nat) (ps : List Page)
    (reads : ∀ p ∈ ps, pageById s p.id = some p) (origins : ∀ p ∈ ps, p.origin = none ↔ p.pstate = .queued)
    (own : ∀ p ∈ ps, ∀ e, held = some e → e.page = p.id → p.nextLine h r = some e.line) :
    nextIn held h r ps = ((ps.flatMap (pageEntries h r)).find? fun e => held ≠ some e).filter fun e =>
      (pageById s e.page).any fun p => p.pstate ≠ .queued := by
  induction ps with
  | nil => rfl
  | cons p ps ih =>
    have rest := ih (fun q hq => reads q (List.mem_cons_of_mem _ hq)) (fun q hq => origins q (List.mem_cons_of_mem _ hq))
      fun q hq => own q (List.mem_cons_of_mem _ hq)
    have isBound : p.origin.isSome = decide (p.pstate ≠ .queued) := by
      have := origins p List.mem_cons_self
      cases origin : p.origin <;> simp [origin] at this ⊢ <;> exact this
    rw [List.flatMap_cons, List.find?_append]
    unfold nextIn pageEntries
    cases line : p.nextLine h r with
    | none => exact rest
    | some n =>
      dsimp only
      rw [find_lineEntries fun e held page => by
        have := own p List.mem_cons_self e held page
        rw [line] at this
        exact (Option.some.inj this).symm]
      generalize (if held.any (fun e => e.page = p.id) then n + 1 else n) = first
      by_cases inside : first < p.length
      · simp only [inside, if_true, Option.some_or, Option.filter_some, reads p List.mem_cons_self, Option.any_some, isBound]
      · simp only [inside, if_false, Option.none_or]
        exact rest

/-- A row's next entry is its earliest unretired one outside the buffer, if that entry's page is bound (R101, R103). -/
theorem nextEntry_eq {s : State} {h r : Nat} {row : Row} (queue : queueInv s) (entries : entriesInv s)
    (at_ : rowAt s h r = some row) : nextEntry s h r
      = ((rowEntries s h r).find? fun e => row.buf.held ≠ some e).filter fun e =>
          (pageById s e.page).any fun p => p.pstate ≠ .queued := by
  obtain ⟨-, ids, origins, -⟩ := queue
  have reads : ∀ p ∈ s.pages, pageById s p.id = some p := fun p hp => pageById_of_mem ids hp
  unfold nextEntry
  rw [at_, rowEntries_eq]
  refine nextIn_eq row.buf.held h r s.pages reads origins fun p hp e held page => ?_
  obtain ⟨q, found, -, line, -⟩ := entries.2 h r row e at_ held
  rw [page, reads p hp] at found
  exact Option.some.inj found ▸ line

/-! ### The repetition of the decision -/

/-- The ids of the queue stay apart. -/
def IdsKept (s t : State) : Prop := (s.pages.map Page.id).Nodup → (t.pages.map Page.id).Nodup

theorem IdsKept.of_pages {s t : State} (pages : t.pages = s.pages) : IdsKept s t := fun ids => by rwa [pages]

theorem idsKept_closed : RowClosed IdsKept where
  refl _ := .of_pages rfl
  trans a b := b ∘ a
  raise e s := .of_pages (raise_pages s e)
  planeCtr _ _ _ _ _ := .of_pages rfl
  bumpHead _ _ _ _ := .of_pages rfl
  rows _ _ := .of_pages rfl
  report _ _ _ _ _ _ s _ := fun ids => by rw [setPage_pages, map_setPage_ids]; exact ids
  dropPage _ _ := fun ids => ids.sublist (List.filter_sublist.map _)
  lines _ _ _ _ := .of_pages rfl
  loaders _ _ := .of_pages rfl
  sched _ _ := .of_pages rfl

/-- A page's share of `rowRemaining`. -/
def remainingIn (h r : Nat) (p : Page) : Nat := p.length - (p.nextLine h r).getD p.length

theorem rowRemaining_of_pages {s t : State} (pages : t.pages = s.pages) (h r : Nat) :
    rowRemaining t h r = rowRemaining s h r := by simp only [rowRemaining, pages]

theorem rowRemaining_split {s : State} {pre post : List Page} {p : Page} (pages : s.pages = pre ++ p :: post) (h r : Nat) :
    rowRemaining s h r = (pre.map (remainingIn h r)).sum + remainingIn h r p + (post.map (remainingIn h r)).sum := by
  show (s.pages.map (remainingIn h r)).sum = _
  rw [pages, List.map_append, List.sum_append, List.map_cons, List.sum_cons, Nat.add_assoc]

/-- A retirement leaves the other pages in their places, its own page with the report made or gone. -/
theorem retire_places {s : State} {e : Entry} {p : Page} {plane : Nat} (ids : (s.pages.map Page.id).Nodup) (k : Kind)
    {h : Nat} (r : Nat) (page : pageById s e.page = some p) (head : headPlane s h = some plane) :
    ∃ pre post, s.pages = pre ++ p :: post
      ∧ ((retire k h r e s).pages = pre ++ (p.report k h r e.line).flagUnderrun k plane :: post
        ∨ (retire k h r e s).pages = pre ++ post) := by
  obtain ⟨pre, post, pages⟩ := List.append_of_mem (pageById_mem page)
  have apart := apart_of_nodup (pages ▸ ids)
  obtain ⟨qid, -⟩ := flagUnderrun_fields k plane (p.report k h r e.line)
  have same := reported_sameRun k h r e p plane s
  refine ⟨pre, post, pages, ?_⟩
  rw [retire_eq k r page head]
  have qid : ((p.report k h r e.line).flagUnderrun k plane).id = p.id := qid
  generalize (p.report k h r e.line).flagUnderrun k plane = q at *
  have placed := same.pages.trans (setPage_place pages apart qid)
  have there : pageById (reported k h r e p plane s) e.page = some q := by
    rw [pageById, same.pages]; exact pageById_setPage q page (qid.trans (pageById_id page))
  rw [finishPage_eq there]
  split
  · refine .inr ?_
    have all {l : List Page} (others : ∀ x ∈ l, x.id ≠ p.id) : l.filter (fun x => x.id ≠ e.page) = l :=
      List.filter_eq_self.mpr fun x hx => by simpa [pageById_id page] using others x hx
    rw [raise_pages, dropPage_pages, placed, List.filter_append,
      List.filter_cons_of_neg (by simp [qid, pageById_id page]), all fun x hx => apart x (List.mem_append_left _ hx),
      all fun x hx => apart x (List.mem_append_right _ hx)]
  · exact .inl placed

/-- A ripe entry is the next line of its page, whose head is configured. -/
theorem ripeEntry_page {s : State} {h r : Nat} {e : Entry} (ids : (s.pages.map Page.id).Nodup)
    (ripe : ripeEntry s h r = some e) : ∃ p plane, pageById s e.page = some p ∧ headPlane s h = some plane
      ∧ p.nextLine h r = some e.line ∧ e.line < p.length := by
  obtain ⟨row, d, at_, free, next, due, -⟩ := ripeEntry_some ripe
  obtain ⟨-, c, -, -, head, -⟩ := dueOf_iff.mp due
  unfold nextEntry at next
  rw [at_] at next
  obtain ⟨p, hp, id, -, inside, n, line, first⟩ := nextIn_some next
  exact ⟨p, c.plane, id ▸ pageById_of_mem ids hp, by simp [headPlane, head], by rw [line, first free], inside⟩

/-- A row that is ripe has entries left, and the retirement of the ripe one leaves fewer. -/
theorem rowRemaining_retire {s : State} {h r : Nat} {e : Entry} (ids : (s.pages.map Page.id).Nodup)
    (ripe : ripeEntry s h r = some e) (k : Kind) : rowRemaining (retire k h r e s) h r < rowRemaining s h r := by
  obtain ⟨p, plane, page, head, line, inside⟩ := ripeEntry_page ids ripe
  obtain ⟨pre, post, pages, after⟩ := retire_places ids k r page head
  have before : remainingIn h r p = p.length - e.line := by rw [remainingIn, line]; rfl
  rcases after with left | gone
  · have moved : remainingIn h r ((p.report k h r e.line).flagUnderrun k plane) = p.length - (e.line + 1) := by
      obtain ⟨-, length, -, -, passed, -⟩ := flagUnderrun_fields k plane (p.report k h r e.line)
      have own : (p.report k h r e.line).nextLine h r = some (e.line + 1) := by
        have lt : h < 24 := by
          by_contra ge
          simp [Page.nextLine, look, ge] at line
        have inRow := (List.getElem?_eq_some_iff.mp line).1
        simp [Page.nextLine, Page.report, Page.count, look_put, lt, inRow]
      rw [remainingIn, length, Page.nextLine, passed]
      exact congrArg (fun n : Option Nat => p.length - n.getD p.length) own
    rw [rowRemaining_split left, rowRemaining_split pages, moved, before]
    omega
  · have rest : rowRemaining (retire k h r e s) h r
        = (pre.map (remainingIn h r)).sum + (post.map (remainingIn h r)).sum := by
      show ((retire k h r e s).pages.map (remainingIn h r)).sum = _
      rw [gone, List.map_append, List.sum_append]
    rw [rest, rowRemaining_split pages, before]
    omega

theorem decideRow_succ (n h r : Nat) (s : State) : decideRow (n + 1) h r s
    = match ripeEntry (composeNext h r s) h r with
      | none => composeNext h r s
      | some e => match decisionAtDue (composeNext h r s) h r e with
        | none => composeNext h r s
        | some k => decideRow n h r (retire k h r e (composeNext h r s)) := rfl

/-- What a run of decisions begins with, for any fuel that the row's entries do not exceed. -/
theorem decideRow_step {n h r : Nat} {s : State} (ids : (s.pages.map Page.id).Nodup) (enough : rowRemaining s h r ≤ n) :
    decideRow n h r s = match ripeEntry (composeNext h r s) h r with
      | none => composeNext h r s
      | some e => match decisionAtDue (composeNext h r s) h r e with
        | none => composeNext h r s
        | some k => decideRow (n - 1) h r (retire k h r e (composeNext h r s)) := by
  cases n with
  | succ n => exact decideRow_succ n h r s
  | zero =>
    cases ripe : ripeEntry (composeNext h r s) h r with
    | none => rfl
    | some e =>
      have fewer := rowRemaining_retire (by rw [composeNext_pages]; exact ids) ripe .fired
      rw [rowRemaining_of_pages (composeNext_pages h r s)] at fewer
      omega

/-- More fuel than a row has entries left makes no difference. -/
theorem decideRow_fuel {h r : Nat} : ∀ {n m : Nat} {s : State}, (s.pages.map Page.id).Nodup → rowRemaining s h r ≤ n →
    rowRemaining s h r ≤ m → decideRow n h r s = decideRow m h r s := by
  intro n
  induction n with
  | zero =>
    intro m s ids enough enough'
    rw [decideRow_step ids enough, decideRow_step ids enough']
    cases ripe : ripeEntry (composeNext h r s) h r with
    | none => rfl
    | some e =>
      have fewer := rowRemaining_retire (by rw [composeNext_pages]; exact ids) ripe .fired
      rw [rowRemaining_of_pages (composeNext_pages h r s)] at fewer
      omega
  | succ n ih =>
    intro m s ids enough enough'
    rw [decideRow_step ids enough, decideRow_step ids enough']
    cases ripe : ripeEntry (composeNext h r s) h r with
    | none => rfl
    | some e =>
      dsimp only
      cases decisionAtDue (composeNext h r s) h r e with
      | none => rfl
      | some k =>
        have ids' : ((composeNext h r s).pages.map Page.id).Nodup := by rw [composeNext_pages]; exact ids
        have fewer := rowRemaining_retire ids' ripe k
        rw [rowRemaining_of_pages (composeNext_pages h r s)] at fewer
        exact ih (idsKept_closed.retire k h r e _ ids') (by omega) (by omega)

/-- A run of decisions ends with the row not ripe or its entry pending (R105). -/
theorem decideRow_pending {h r : Nat} : ∀ {n : Nat} {s : State}, (s.pages.map Page.id).Nodup → rowRemaining s h r ≤ n →
    ∀ e, ripeEntry (decideRow n h r s) h r = some e → decisionAtDue (decideRow n h r s) h r e = none := by
  intro n
  induction n with
  | zero =>
    intro s ids enough e ripe
    have ripe : ripeEntry (composeNext h r s) h r = some e := ripe
    have fewer := rowRemaining_retire (by rw [composeNext_pages]; exact ids) ripe .fired
    rw [rowRemaining_of_pages (composeNext_pages h r s)] at fewer
    omega
  | succ n ih =>
    intro s ids enough e
    rw [decideRow_succ]
    cases ripe : ripeEntry (composeNext h r s) h r with
    | none => intro none; rw [ripe] at none; cases none
    | some f =>
      dsimp only
      cases due : decisionAtDue (composeNext h r s) h r f with
      | none =>
        intro same
        rw [ripe] at same
        obtain rfl := Option.some.inj same
        exact due
      | some k =>
        have ids' : ((composeNext h r s).pages.map Page.id).Nodup := by rw [composeNext_pages]; exact ids
        have fewer := rowRemaining_retire ids' ripe k
        rw [rowRemaining_of_pages (composeNext_pages h r s)] at fewer
        exact ih (idsKept_closed.retire k h r f _ ids') (by omega) e

/-- A row whose buffer holds no entry has no fire start. -/
theorem fireStart_free {s : State} {h r : Nat} (free : ∀ row, rowAt s h r = some row → row.buf.held = none) :
    fireStart h r s = s := by
  unfold fireStart
  split
  · rename_i at_
    cases free _ at_
  · rfl

theorem retire_rows (k : Kind) (h r : Nat) (e : Entry) (s : State) : (retire k h r e s).rows = s.rows := by
  cases page : pageById s e.page with
  | none => unfold retire; rw [page]
  | some p =>
    cases head : headPlane s h with
    | none => unfold retire; rw [page, head]
    | some plane =>
      rw [retire_eq k r page head, finishPage]
      have same := (reported_sameRun k h r e p plane s).rows
      split
      · exact same
      · split
        · rw [raise_rows]; exact same
        · exact same

/-- A row's turn (R105): its fire start, and then the decision, made again after each retirement. -/
theorem rowTurn_step {s : State} (ids : (s.pages.map Page.id).Nodup) (h r : Nat) :
    rowTurn h r s = match ripeEntry (composeNext h r (fireStart h r s)) h r with
      | none => composeNext h r (fireStart h r s)
      | some e => match decisionAtDue (composeNext h r (fireStart h r s)) h r e with
        | none => composeNext h r (fireStart h r s)
        | some k => rowTurn h r (retire k h r e (composeNext h r (fireStart h r s))) := by
  have ids1 := idsKept_closed.fireStart h r s ids
  have ids2 := idsKept_closed.composeNext h r _ ids1
  rw [rowTurn, decideRow_step ids1 le_rfl]
  cases ripe : ripeEntry (composeNext h r (fireStart h r s)) h r with
  | none => rfl
  | some e =>
    dsimp only
    cases decisionAtDue (composeNext h r (fireStart h r s)) h r e with
    | none => rfl
    | some k =>
      have fewer := rowRemaining_retire ids2 ripe k
      rw [rowRemaining_of_pages (composeNext_pages h r _)] at fewer
      obtain ⟨row, -, at_, free, -⟩ := ripeEntry_some ripe
      have idle : fireStart h r (retire k h r e (composeNext h r (fireStart h r s)))
          = retire k h r e (composeNext h r (fireStart h r s)) := fireStart_free fun row' at' => by
        rw [rowAt, rowsOf, retire_rows] at at'
        obtain rfl := Option.some.inj (at_.symm.trans at')
        exact free
      dsimp only
      rw [rowTurn, idle]
      exact decideRow_fuel (idsKept_closed.retire k h r e _ ids2) (by omega) le_rfl

theorem rowTurn_pending {s : State} (ids : (s.pages.map Page.id).Nodup) (h r : Nat) :
    ∀ e, ripeEntry (rowTurn h r s) h r = some e → decisionAtDue (rowTurn h r s) h r e = none :=
  decideRow_pending (idsKept_closed.fireStart h r s ids) le_rfl

/-- A single act of a row's turn (log 8). -/
theorem rowOnce_eq (h r : Nat) (s : State) : rowOnce h r s = (match rowAt s h r with
    | some ⟨.full _ _, _⟩ => composeNext h r (fireStart h r s)
    | _ =>
      let u := composeNext h r s
      match ripeEntry u h r with
      | none => u
      | some e => match decisionAtDue u h r e with
        | none => u
        | some k => composeNext h r (retire k h r e u)) := by
  unfold rowOnce
  cases rowAt s h r with
  | none => rfl
  | some row => obtain ⟨buf, fire⟩ := row; cases buf <;> rfl

end Sys2Proof.Machine
end

