-- ==== Sys2Proof/Proofs/Retirement.lean ====
section
/-! SUPPORT. What a retirement does to its page, its events, its head's counter and its stored line (R46, R47, R63, R64,
R106, R116, R117); the decision at due and the retirement at due together (O43). -/

namespace Sys2Proof.Machine

/-! ### The page -/

/-- The page's record once the report is made. -/
theorem reported_page {s : State} {e : Entry} {p : Page} (k : Kind) (h r plane : Nat)
    (page : pageById s e.page = some p) :
    pageById (reported k h r e p plane s) e.page = some ((p.report k h r e.line).flagUnderrun k plane) := by
  obtain ⟨id, -⟩ := flagUnderrun_fields k plane (p.report k h r e.line)
  have id : _ = p.id := id
  rw [pageById, (reported_sameRun k h r e p plane s).pages]
  exact pageById_setPage _ page (id.trans (pageById_id page))

/-- The page reported, with nothing left of it gone (R46, R47). -/
theorem retire_page {s : State} {e : Entry} {p : Page} {plane : Nat} (k : Kind) {h : Nat} (r : Nat)
    (page : pageById s e.page = some p) (head : headPlane s h = some plane) :
    pageById (retire k h r e s) e.page
      = if p.unretired ≤ 1 then none else some ((p.report k h r e.line).flagUnderrun k plane) := by
  obtain ⟨-, -, -, unretired, -⟩ := flagUnderrun_fields k plane (p.report k h r e.line)
  have there := reported_page k h r plane page
  have left : ((p.report k h r e.line).flagUnderrun k plane).unretired = p.unretired - 1 := unretired
  rw [retire_eq k r page head, finishPage_eq there]
  by_cases last : p.unretired ≤ 1
  · rw [if_pos (by omega), if_pos last, pageById, raise_pages]
    exact pageById_dropPage ..
  · rw [if_neg (by omega), if_neg last]
    exact there

theorem retire_otherPage {s : State} {e : Entry} {p : Page} {plane : Nat} (k : Kind) {h : Nat} (r : Nat)
    (page : pageById s e.page = some p) (head : headPlane s h = some plane) {id : Nat} (other : id ≠ e.page) :
    pageById (retire k h r e s) id = pageById s id := by
  obtain ⟨qid, -⟩ := flagUnderrun_fields k plane (p.report k h r e.line)
  have qid : _ = p.id := qid
  have kept : pageById (reported k h r e p plane s) id = pageById s id := by
    rw [pageById, (reported_sameRun k h r e p plane s).pages]
    exact pageById_setPage_other _ _ _ fun same => other (same.symm.trans (qid.trans (pageById_id page)))
  rw [retire_eq k r page head, finishPage]
  split
  · exact kept
  · split
    · rw [pageById, raise_pages]
      exact (pageById_dropPage_other _ _ _ other.symm).trans kept
    · exact kept

theorem report_nextLine (p : Page) (k : Kind) {h : Nat} (r line : Nat) (lt : h < 24) :
    (p.report k h r line).nextLine h r = (p.nextLine h r).map fun _ => line + 1 := by
  simp only [Page.nextLine, Page.report, Page.count, look_put, lt, and_self, if_true, List.getElem?_set_self']
  rfl

theorem flagUnderrun_underrun (p : Page) (k : Kind) (plane : Nat) :
    (p.flagUnderrun k plane).underrun = if k = .underrun then put p.underrun plane true else p.underrun := by
  unfold Page.flagUnderrun
  split <;> rfl

/-! ### The events -/

/-- An event raised under a condition comes to an event offered under it. -/
theorem SameQueue.raiseIf {u t : State} (same : SameQueue u t) (c : Prop) [Decidable c] (e : Event) :
    SameQueue ((if c then [e] else []).foldl (fun u e => Machine.offered e u) u) (if c then Machine.raise e t else t) := by
  split
  · exact same.raise e
  · exact same

theorem raiseStarted_hInt (p : Page) (k : Kind) (h r line : Nat) (s : State) :
    (raiseStarted p k h r line s).hInt = s.hInt := by
  unfold raiseStarted State.hInt
  split <;> simp

theorem retireLine_sameQueue (p : Nat) (e : Entry) (s : State) : SameQueue s (retireLine p e s) := by
  unfold retireLine
  split
  · exact .refl s
  · split <;> exact .refl s

/-- The status of a page's PAGE_DONE after its last entry (R47). -/
theorem doneStatus_reported (p : Page) (k : Kind) (h r line plane : Nat) :
    ((p.report k h r line).flagUnderrun k plane).doneStatus = (p.report k h r line).doneStatus := by
  obtain ⟨-, -, counts, -, -, -, -, -, cancelled⟩ := flagUnderrun_fields k plane (p.report k h r line)
  simp only [Page.doneStatus, counts, cancelled]

/-- The events of a retirement before the page's departure (R106, R117). -/
theorem reported_sameQueue (k : Kind) (h r : Nat) (e : Entry) (p : Page) (plane : Nat) (s : State) :
    SameQueue (((if p.pstate = .bound then [Event.pageStarted p.id h r e.line k s.hInt] else [])
        ++ (if k = .underrun ∧ look p.underrun plane false = false then
          [Event.underrun p.id plane e.line h r s.hInt] else [])).foldl (fun u ev => offered ev u) s)
      (reported k h r e p plane s) := by
  have replaced : SameQueue s (setPage ((p.report k h r e.line).flagUnderrun k plane) s) := .refl s
  have started : SameQueue _ (raiseStarted p k h r e.line (setPage ((p.report k h r e.line).flagUnderrun k plane) s)) :=
    replaced.raiseIf (p.pstate = .bound) (.pageStarted p.id h r e.line k s.hInt)
  have underrun := started.raiseIf (k = .underrun ∧ look p.underrun plane false = false)
    (.underrun p.id plane e.line h r s.hInt)
  rw [List.foldl_append, reported, raiseUnderrun, raiseStarted_hInt]
  exact underrun.trans (retireLine_sameQueue plane e _)

/-- The events of a retirement, offered in the order of R117. -/
theorem retire_sameQueue {s : State} {e : Entry} {p : Page} {plane : Nat} (k : Kind) {h : Nat} (r : Nat)
    (page : pageById s e.page = some p) (head : headPlane s h = some plane) :
    SameQueue (((if p.pstate = .bound then [Event.pageStarted p.id h r e.line k s.hInt] else [])
        ++ (if k = .underrun ∧ look p.underrun plane false = false then
          [Event.underrun p.id plane e.line h r s.hInt] else [])
        ++ (if p.unretired ≤ 1 then [Event.pageDone p.id (p.report k h r e.line).doneStatus p.length
          (p.report k h r e.line).counts] else [])).foldl (fun u ev => offered ev u) s) (retire k h r e s) := by
  obtain ⟨id, length, counts, unretired, -⟩ := flagUnderrun_fields k plane (p.report k h r e.line)
  have last : (p.report k h r e.line).unretired = 0 ↔ p.unretired ≤ 1 := by
    show p.unretired - 1 = 0 ↔ _
    omega
  rw [retire_eq k r page head, finishPage_eq (reported_page k h r plane page), doneStatus_reported, id, length, counts,
    unretired,
    List.foldl_append]
  have before := reported_sameQueue k h r e p plane s
  by_cases done : p.unretired ≤ 1
  · rw [if_pos (last.mpr done), if_pos done]
    have dropped : SameQueue (reported k h r e p plane s) (dropPage e.page (reported k h r e p plane s)) := .refl _
    exact (before.trans dropped).raise _
  · rw [if_neg fun none => done (last.mp none), if_neg done]
    exact before

/-! ### The head's counter -/

theorem retire_headCounter {s : State} {e : Entry} {p : Page} {plane : Nat} (k : Kind) {h : Nat} (r : Nat) (lt : h < 24)
    (page : pageById s e.page = some p) (head : headPlane s h = some plane) :
    look (headGroup (retire k h r e s) h) k.code 0 = satAdd (look (headGroup s h) k.code 0) 1 := by
  have before : headGroup (retireLine plane e (raiseUnderrun p k plane h r e.line (raiseStarted p k h r e.line
      (setPage ((p.report k h r e.line).flagUnderrun k plane) s)))) h = headGroup s h := by
    rw [headGroup, retireLine_headCtrs, raiseUnderrun_headCtrs, raiseStarted_headCtrs, setPage_headCtrs, headGroup]
  rw [retire_eq k r page head, headGroup, finishPage_headCtrs, ← headGroup, reported, headGroup_bumpHead _ _ _ _ _ lt,
    if_pos rfl, before]
  exact look_put_same _ _ _ _ (Nat.lt_trans k.code_lt (by decide))

/-! ### The stored line -/

/-- What happens to the lines depends on the lines and the plane counters only. -/
theorem retireLine_congr {s u : State} (p : Nat) (e : Entry) (lines : u.lines = s.lines)
    (ctrs : u.planeCtrs = s.planeCtrs) : (retireLine p e u).lines = (retireLine p e s).lines
      ∧ (retireLine p e u).planeCtrs = (retireLine p e s).planeCtrs := by
  have stored : storedLine u p e = storedLine s p e := by simp only [storedLine, linesOf, lines]
  unfold retireLine
  rw [stored]
  cases storedLine s p e with
  | none => exact ⟨lines, ctrs⟩
  | some l =>
    by_cases last : l.consumers ≤ 1
    · simp only [last, if_true, bumpPlane, setPlaneCtr, planeGroup, setLines, linesOf, occupancy, lines, ctrs, and_self]
    · simp only [last, if_false, setLines, linesOf, lines, ctrs, and_self]

/-- A retirement does to lines and plane counters what its line's share of it does. -/
theorem retire_lines {s : State} {e : Entry} {p : Page} {plane : Nat} (k : Kind) {h : Nat} (r : Nat)
    (page : pageById s e.page = some p) (head : headPlane s h = some plane) :
    (retire k h r e s).lines = (retireLine plane e s).lines
      ∧ (retire k h r e s).planeCtrs = (retireLine plane e s).planeCtrs := by
  have finish (u : State) : (finishPage e.page u).lines = u.lines ∧ (finishPage e.page u).planeCtrs = u.planeCtrs := by
    unfold finishPage
    split
    · exact ⟨rfl, rfl⟩
    · split <;> simp
  obtain ⟨lines, ctrs⟩ := finish (reported k h r e p plane s)
  rw [retire_eq k r page head, lines, ctrs]
  exact retireLine_congr plane e (by unfold raiseUnderrun raiseStarted; split <;> split <;> simp)
    (by unfold raiseUnderrun raiseStarted; split <;> split <;> simp)

theorem storedLine_of_lines {s t : State} (lines : t.lines = s.lines) (p : Nat) (e : Entry) :
    storedLine t p e = storedLine s p e := by simp only [storedLine, linesOf, lines]

theorem retireLine_none {s : State} {p : Nat} {e : Entry} (absent : storedLine s p e = none) : retireLine p e s = s := by
  rw [retireLine, absent]

theorem retireLine_lowered {s : State} {p : Nat} {e : Entry} {l : StoredLine} (stored : storedLine s p e = some l)
    (more : 1 < l.consumers) : retireLine p e s
      = setLines p ((linesOf s p).map fun k => if k.is e then { k with consumers := k.consumers - 1 } else k) s := by
  rw [retireLine, stored]
  exact if_neg (Nat.not_le.mpr more)

theorem retireLine_released {s : State} {p : Nat} {e : Entry} {l : StoredLine} (stored : storedLine s p e = some l)
    (last : l.consumers ≤ 1) : retireLine p e s = bumpPlane p .releases 1 (bumpPlane p .occupancySum (occupancy s p)
      (setLines p ((linesOf s p).filter fun k => !k.is e) s)) := by
  rw [retireLine, stored]
  exact if_pos last

/-- A line is that of one entry only. -/
theorem is_unique {k : StoredLine} {e f : Entry} (own : k.is e = true) (ne : f ≠ e) : k.is f = false := by
  rw [Bool.eq_false_iff]
  intro own'
  simp only [StoredLine.is, Bool.and_eq_true, decide_eq_true_eq] at own own'
  obtain ⟨page, line⟩ := own
  obtain ⟨page', line'⟩ := own'
  obtain ⟨fp, fl⟩ := f
  obtain ⟨ep, el⟩ := e
  exact ne (by rw [Entry.mk.injEq]; exact ⟨page'.symm.trans page, line'.symm.trans line⟩)

theorem storedLine_lowered (ls : List StoredLine) (e f : Entry) :
    (ls.map fun k => if k.is e then { k with consumers := k.consumers - 1 } else k).find? (StoredLine.is f)
      = if f = e then (ls.find? (StoredLine.is e)).map fun k => { k with consumers := k.consumers - 1 }
        else ls.find? (StoredLine.is f) := by
  induction ls with
  | nil => simp
  | cons k ls ih =>
    rw [List.map_cons, List.find?_cons, ih]
    cases own : k.is e with
    | true =>
      by_cases same : f = e
      · subst same
        have own' : StoredLine.is f { k with consumers := k.consumers - 1 } = true := own
        simp [own, own']
      · have other : StoredLine.is f { k with consumers := k.consumers - 1 } = false := is_unique own same
        simp [same, other, is_unique own same]
    | false =>
      by_cases same : f = e
      · subst same
        simp [own]
      · simp [same, List.find?_cons]

theorem storedLine_released (ls : List StoredLine) (e f : Entry) :
    (ls.filter fun k => !k.is e).find? (StoredLine.is f) = if f = e then none else ls.find? (StoredLine.is f) := by
  rw [List.find?_filter]
  by_cases same : f = e
  · subst same
    simp
  · rw [if_neg same]
    congr 1
    funext k
    cases own : k.is e with
    | true => simp [is_unique own same]
    | false => simp

/-- On its own plane, whether the line is absent, keeps consumers or is released, every other line stays (R63, R64). -/
theorem storedLine_retireLine {s : State} {plane : Nat} (e : Entry) {f : Entry} (other : f ≠ e) (lt : plane < 8) :
    storedLine (retireLine plane e s) plane f = storedLine s plane f := by
  cases stored : storedLine s plane e with
  | none => rw [retireLine_none stored]
  | some l =>
    by_cases last : l.consumers ≤ 1
    · rw [retireLine_released stored last]
      show (linesOf (setLines ..) plane).find? _ = _
      rw [linesOf_setLines _ _ _ _ lt, if_pos rfl, storedLine_released, if_neg other, storedLine]
    · rw [retireLine_lowered stored (Nat.not_le.mp last), storedLine, linesOf_setLines _ _ _ _ lt, if_pos rfl,
        storedLine_lowered, if_neg other, storedLine]

theorem linesOf_retireLine_other (e : Entry) (s : State) {plane other : Nat} (ne : other ≠ plane) :
    linesOf (retireLine plane e s) other = linesOf s other := by
  have set (ls : List StoredLine) : linesOf (setLines plane ls s) other = linesOf s other :=
    look_put_ne _ _ _ _ _ ne.symm
  unfold retireLine
  split
  · rfl
  · split
    · exact set _
    · exact set _

/-- A plane that does not exist stores no lines. -/
theorem storedLine_none_of_ge {s : State} {plane : Nat} (ge : ¬ plane < 8) (e : Entry) : storedLine s plane e = none := by
  simp [storedLine, linesOf, look, ge]

/-- A line with consumers left is stored still, with one fewer (R63). -/
theorem retireLine_keepsLine {s : State} {plane : Nat} {e : Entry} {l : StoredLine} (lt : plane < 8)
    (stored : storedLine s plane e = some l) (more : 1 < l.consumers) :
    storedLine (retireLine plane e s) plane e = some { l with consumers := l.consumers - 1 }
      ∧ occupancy (retireLine plane e s) plane = occupancy s plane
      ∧ (retireLine plane e s).planeCtrs = s.planeCtrs := by
  rw [retireLine_lowered stored more]
  refine ⟨?_, ?_, rfl⟩
  · rw [storedLine, linesOf_setLines _ _ _ _ lt, if_pos rfl, storedLine_lowered, if_pos rfl, ← storedLine, stored]
    rfl
  · rw [occupancy, linesOf_setLines _ _ _ _ lt, if_pos rfl, List.length_map, occupancy]

/-- A line without consumers is released, and the release counted with the occupancy before it (R64). -/
theorem retireLine_releasesLine {s : State} {plane : Nat} {e : Entry} {l : StoredLine} (lt : plane < 8)
    (stored : storedLine s plane e = some l) (last : l.consumers ≤ 1) :
    storedLine (retireLine plane e s) plane e = none
      ∧ look (planeGroup (retireLine plane e s) plane) 4 0 = satAdd (look (planeGroup s plane) 4 0) 1
      ∧ look (planeGroup (retireLine plane e s) plane) 5 0
          = satAdd (look (planeGroup s plane) 5 0) (linesOf s plane).length := by
  rw [retireLine_released stored last]
  refine ⟨?_, ?_, ?_⟩
  · show (linesOf (setLines ..) plane).find? _ = _
    rw [linesOf_setLines _ _ _ _ lt, if_pos rfl, storedLine_released, if_pos rfl]
  · rw [bumpPlane, planeGroup_setPlaneCtr _ _ _ _ _ lt, if_pos rfl, bumpPlane, planeGroup_setPlaneCtr _ _ _ _ _ lt,
      if_pos rfl]
    exact (look_put_same _ _ _ _ (by decide)).trans (congrArg (satAdd · 1) (look_put_ne _ _ _ _ _ (by decide)))
  · rw [bumpPlane, planeGroup_setPlaneCtr _ _ _ _ _ lt, if_pos rfl]
    refine (look_put_ne _ _ _ _ _ (by decide)).trans ?_
    rw [bumpPlane, planeGroup_setPlaneCtr _ _ _ _ _ lt, if_pos rfl]
    exact look_put_same _ _ _ _ (by decide)

/-- The stored line of another entry is left as it is. -/
theorem retireLine_otherLine {s : State} {plane : Nat} {e f : Entry} (other : f ≠ e) :
    storedLine (retireLine plane e s) plane f = storedLine s plane f := by
  by_cases lt : plane < 8
  · exact storedLine_retireLine e other lt
  · rw [retireLine_none (storedLine_none_of_ge lt e)]

theorem satAdd_eq (c n : Nat) : satAdd c n = min 4294967295 (c + n) := Nat.min_comm ..

/-! ### The decision and the retirement at due -/

/-- Settles O43, part by part: the dues, the next entries and the turns of `RowTurns`, and the retirement above. -/
theorem decisionAndRetirementAtDue : Obligations.DecisionAndRetirementAtDue := by
  unfold Obligations.DecisionAndRetirementAtDue
  refine ⟨decisionAtDue_cases, fun _ _ _ _ _ => dueOf_iff, fun s h r => ⟨fun none => by rw [nextEntry, none],
    fun row queue entries at_ => nextEntry_eq queue entries at_⟩, fun _ _ _ _ => ripeEntry_iff,
    fun s h r ids => ⟨rowTurn_step ids h r, rowTurn_pending ids h r⟩, fun s h r => rowOnce_eq h r s, ?_⟩
  rintro s _ k h r e p plane lt page head rfl
  have record := retire_page k r page head
  obtain ⟨lines, ctrs⟩ := retire_lines k r page head
  have stored := storedLine_of_lines lines plane
  refine ⟨fun more => ?_, fun last => ?_, fun id other => retire_otherPage k r page head other,
    retire_sameQueue k r page head, ?_, fun absent => ?_, fun l inside line more => ?_, fun l inside line last => ?_,
    fun f other => ?_, fun other ne => ?_, retire_rows k h r e s, rowFrame_closed.retire k h r e s⟩
  · obtain ⟨-, -, counts, unretired, passed, pstate, -⟩ := flagUnderrun_fields k plane (p.report k h r e.line)
    rw [if_neg (Nat.not_le.mpr more)] at record
    refine ⟨_, record, unretired, counts, pstate, ?_, flagUnderrun_underrun _ k plane⟩
    rw [Page.nextLine, passed]
    exact report_nextLine p k r e.line lt
  · rw [record, if_pos last.le]
  · rw [retire_headCounter k r lt page head, satAdd_eq]
  · rw [lines, ctrs, retireLine_none absent]
    exact ⟨rfl, rfl⟩
  · obtain ⟨kept, occ, same⟩ := retireLine_keepsLine inside line more
    refine ⟨(stored e).trans kept, ?_, ctrs.trans same⟩
    rw [← occ, occupancy, occupancy, linesOf, lines, linesOf]
  · obtain ⟨gone, releases, sum⟩ := retireLine_releasesLine inside line last
    have group : planeGroup (retire k h r e s) plane = planeGroup (retireLine plane e s) plane := by
      rw [planeGroup, ctrs, planeGroup]
    exact ⟨(stored e).trans gone, by rw [group, releases, satAdd_eq], by rw [group, sum, satAdd_eq]⟩
  · exact (stored f).trans (retireLine_otherLine other)
  · rw [linesOf, lines]
    exact linesOf_retireLine_other e s ne

end Sys2Proof.Machine
end

