-- ==== Sys2Proof/Proofs/StoringEnd.lean ====
section
/-! SUPPORT. The end of a storing (R60, R61, R68): the lines that join, what the act sets of lines, pointer and counters,
and what follows it. -/

namespace Sys2Proof.Machine

/-! ### What the act sets -/

/-- The lines of a storing that some row has still to retire, in line order (R60). -/
def wantedLines (s : State) (op : Storing) : List StoredLine :=
  (List.range op.lines.length).filterMap fun i =>
    if 0 < consumerCount s op.page op.plane (op.first + i) then
      some ⟨op.page, op.first + i, op.lines.getD i [], consumerCount s op.page op.plane (op.first + i), none⟩
    else none

theorem joiningLines_eq (s : State) (op : Storing) : joiningLines s op = wantedLines s op := by
  have numbered : (op.lines.zipIdx.map fun t =>
        (⟨op.page, op.first + t.2, t.1, consumerCount s op.page op.plane (op.first + t.2), none⟩ : StoredLine))
      = (List.range op.lines.length).map fun i =>
        ⟨op.page, op.first + i, op.lines.getD i [], consumerCount s op.page op.plane (op.first + i), none⟩ :=
    List.ext_getElem (by simp) fun i lt _ => by
      rw [List.length_map, List.length_zipIdx] at lt
      simp [lt]
  rw [joiningLines, numbered, ← List.filterMap_eq_filter, List.filterMap_map, wantedLines]
  refine List.filterMap_congr fun i _ => ?_
  simp [Option.guard]

theorem wantedLines_length_le (s : State) (op : Storing) : (wantedLines s op).length ≤ op.lines.length :=
  (List.length_filterMap_le _ _).trans_eq List.length_range

/-- The plane's counters after `stored` lines have joined a list of `held` and `late` lines were discarded (R60, R68). -/
def storedCounters (counters : Vector Nat 7) (held stored late : Nat) : Vector Nat 7 :=
  put (put (put counters 0 (min (look counters 0 0 + stored) 4294967295))
    1 (min (look counters 1 0 + late) 4294967295)) 3 (max (look counters 3 0) (min (held + stored) 4294967295))

/-- The state after the act of a storing's end, before compositions, rows and loaders follow (R60). -/
def storedState (s : State) (op : Storing) : State :=
  { s with
    handler := .free
    lines := put s.lines op.plane (linesOf s op.plane ++ wantedLines s op)
    pages := match pageById s op.page with
      | some g => s.pages.map fun q => if q.id = op.page then
          { g with arrival := put g.arrival op.plane (look g.arrival op.plane 0 + op.lines.length) } else q
      | none => s.pages
    planeCtrs := put s.planeCtrs op.plane (storedCounters (planeGroup s op.plane) (linesOf s op.plane).length
      (wantedLines s op).length (op.lines.length - (wantedLines s op).length)) }

theorem advancePointer_pages (op : Storing) (s : State) : (advancePointer op s).pages = match pageById s op.page with
    | some g => s.pages.map fun q => if q.id = op.page then
        { g with arrival := put g.arrival op.plane (look g.arrival op.plane 0 + op.lines.length) } else q
    | none => s.pages := by
  unfold advancePointer
  cases page : pageById s op.page with
  | none => rfl
  | some g => simp only [setPage_pages, pageById_id page]

theorem advancePointer_eq (op : Storing) (s : State) :
    advancePointer op s = { s with pages := (advancePointer op s).pages } := by
  unfold advancePointer
  cases pageById s op.page <;> rfl

/-- Lines stored and lines discarded rise together. -/
theorem bumpPlane_storedDiscarded {p : Nat} (lt : p < 8) (stored late : Nat) (s : State) :
    bumpPlane p .discardedLate late (bumpPlane p .linesStored stored s)
      = { s with
          planeCtrs := put s.planeCtrs p
            (put (put (planeGroup s p) 0 (satAdd (look (planeGroup s p) 0 0) stored))
              1 (satAdd (look (planeGroup s p) 1 0) late)) } := by
  simp only [bumpPlane, planeGroup_setPlaneCtr _ _ _ _ _ lt, if_true, PlaneCtr.pos]
  rw [look_put_ne _ _ _ _ _ (by decide), setPlaneCtr, planeGroup_setPlaneCtr _ _ _ _ _ lt, if_pos rfl]
  simp only [setPlaneCtr, put_put, PlaneCtr.pos]

theorem joinLines_eq {op : Storing} (lt : op.plane < 8) (joined : List StoredLine) (s : State) :
    joinLines op joined s = { s with
      lines := put s.lines op.plane (linesOf s op.plane ++ joined)
      pages := (advancePointer op s).pages
      planeCtrs := put s.planeCtrs op.plane (storedCounters (planeGroup s op.plane) (linesOf s op.plane).length
        joined.length (op.lines.length - joined.length)) } := by
  have peak (c : Vector Nat 7) (x y : Nat) : look (put (put c 0 x) 1 y) 3 0 = look c 3 0 := by
    rw [look_put_ne _ _ _ _ _ (by decide), look_put_ne _ _ _ _ _ (by decide)]
  rw [joinLines, bumpPlane_storedDiscarded lt, advancePointer_eq, advancePointer_pages, advancePointer_pages]
  simp only [updatePeak, setPlaneCtr, setLines, planeGroup, look_put_same _ _ _ _ lt, put_put, occupancy, linesOf,
    PlaneCtr.pos, peak, pageById, List.length_append, storedCounters, satAdd, Config.counterMax]

/-- What the end of a storing comes to: the act, what follows it, the reply, and the handler moving on (R60, R157). -/
theorem storingEnd_eq {s : State} {op : Storing} (storing : s.handler = .storing op) (lt : op.plane < 8) :
    storingEnd s = movedOn (replied .data 0x80#8 op.tag .ok
      (leBytes 1 (wantedLines s op).length ++ leBytes 1 (op.lines.length - (wantedLines s op).length))
      (settle (storedState s op))) := by
  have act : joinLines op (joiningLines s op) { s with handler := .free } = storedState s op := by
    rw [joinLines_eq lt, joiningLines_eq, advancePointer_pages]
    rfl
  have free : (settle (storedState s op)).handler = .free := (rowFrame_closed.settle _).handler
  have ended : storingEnd s = takeNext (answer op.frame .ok (leBytes 1 (joiningLines s op).length
      ++ leBytes 1 (op.lines.length - (joiningLines s op).length))
      (settle (joinLines op (joiningLines s op) { s with handler := .free }))) := by
    unfold storingEnd
    rw [storing]
  rw [ended, act, joiningLines_eq]
  exact takeNext_replied free op.frame _ _

/-! ### What follows the act -/

theorem linesOf_storedState (s : State) {op : Storing} (lt : op.plane < 8) :
    linesOf (storedState s op) op.plane = linesOf s op.plane ++ wantedLines s op := look_put_same _ _ _ _ lt

/-- The act writes none of what retirements, compositions and loads leave alone, but the handler. -/
theorem storedState_frame (s : State) (op : Storing) : RowFrame { s with handler := .free } (storedState s op) := by
  constructor <;> rfl

/-- A page record after the act: the storing's page with its pointer advanced, or one that another id names. -/
theorem storedState_page {s : State} {op : Storing} {p : Page} (mem : p ∈ (storedState s op).pages) :
    (p ∈ s.pages ∧ (pageById s op.page = none ∨ p.id ≠ op.page)) ∨
    ∃ g, pageById s op.page = some g ∧
      p = { g with arrival := put g.arrival op.plane (look g.arrival op.plane 0 + op.lines.length) } := by
  unfold storedState at mem
  cases page : pageById s op.page with
  | none =>
    simp only [page] at mem
    exact .inl ⟨mem, .inl rfl⟩
  | some g =>
    simp only [page] at mem
    obtain ⟨q, inside, rfl⟩ := List.mem_map.mp mem
    by_cases same : q.id = op.page
    · exact .inr ⟨g, rfl, if_pos same⟩
    · rw [if_neg same]
      exact .inl ⟨inside, .inr same⟩

/-- The act gives no page an origin. -/
theorem storedState_unbound {s : State} {op : Storing} (unbound : ∀ p ∈ s.pages, p.origin = none) :
    ∀ p ∈ (storedState s op).pages, p.origin = none := by
  intro p mem
  obtain ⟨inside, -⟩ | ⟨g, page, rfl⟩ := storedState_page mem
  · exact unbound p inside
  · exact unbound g (pageById_mem page)

/-- The arrival pointer after the act (R60). -/
theorem storedState_arrival {s : State} {op : Storing} (lt : op.plane < 8) {g p : Page}
    (page : pageById s op.page = some g) (mem : p ∈ (storedState s op).pages) (id : p.id = op.page) :
    look p.arrival op.plane 0 = look g.arrival op.plane 0 + op.lines.length := by
  obtain ⟨-, absent | other⟩ | ⟨f, first, rfl⟩ := storedState_page mem
  · exact absurd (absent.symm.trans page) (by simp)
  · exact absurd id other
  · obtain rfl : f = g := Option.some.inj (first.symm.trans page)
    exact look_put_same _ _ _ _ lt

/-- Settles O37: the act is `storedState`, and what follows it is what `settle` keeps. -/
theorem storingEndJoinsOrDiscards : Obligations.StoringEndJoinsOrDiscards := by
  refine ⟨fun s op storing lt => ?_, fun s none => ?_⟩
  · have ended := congrArg (Host.Outcome.next (φ := Fault) (ρ := Refusal)) (storingEnd_eq storing lt)
    obtain ⟨evs, sent, events⟩ := (eventsOnly_closed.settle (storedState s op)).1
    have lines := linesKept_closed.settle (storedState s op) op.plane
    have pages := (pagesKept_closed.settle (storedState s op)).2
    have frame := ((storedState_frame s op).trans (rowFrame_closed.settle _)).replied op.frame .ok
      (leBytes 1 (wantedLines s op).length ++ leBytes 1 (op.lines.length - (wantedLines s op).length))
    rw [takeNext_replied (((storedState_frame s op).trans (rowFrame_closed.settle _)).handler)] at frame
    rw [linesOf_storedState s lt] at lines
    refine ⟨ended, fun unbound => ?_, Nat.add_sub_of_le (wantedLines_length_le s op), _, evs, ended, ?_, events, ?_,
      fun g q page mem id => ?_, frame⟩
    · rw [settle_unbound (storedState_unbound unbound)] at ended
      exact ended
    · rw [movedOn_eq, replied, sent]
      rfl
    · rw [movedOn_eq]
      exact lines
    · rw [movedOn_eq] at mem
      obtain ⟨p, inside, same, -, -, -, -, arrival, -⟩ := pages q mem
      rw [← arrival]
      exact storedState_arrival lt page inside (same.trans id)
  · refine congrArg Host.Outcome.next ?_
    unfold storingEnd
    split
    · exact absurd ‹_› (none _)
    · rfl

end Sys2Proof.Machine
end

