-- ==== Sys2Proof/Proofs/Bands.lean ====
section
/-! SUPPORT. BAND: its body (R165), its five checks one after another (R55 to R58), the consumers of a line (R59), and the
storing that begins (R60). -/

namespace Sys2Proof.Machine

/-! ### Consumers (R59) -/

theorem consumerCount_absent {s : State} {page : Nat} (absent : pageById s page = none) (plane n : Nat) :
    consumerCount s page plane n = 0 := by
  rw [consumerCount, absent]

/-- Counting the entries of a list by their places. -/
theorem countP_range_getElem? (test : Nat → Bool) (l : List Nat) :
    (List.range l.length).countP (fun i => l[i]?.any test) = l.countP test := by
  induction l with
  | nil => rfl
  | cons x xs ih =>
    rw [List.length_cons, List.range_succ_eq_map, List.countP_cons, List.countP_map, List.countP_cons, ← ih]
    rfl

/-- The consumers of a line are rows of the plane's heads that have not passed it. -/
theorem consumerCount_rows {s : State} {page : Nat} {g : Page} (found : pageById s page = some g) (plane n : Nat) :
    consumerCount s page plane n
      = (((List.range 24).flatMap fun h => (List.range (look g.passed h []).length).map fun r => (h, r)).countP
          fun x => headPlane s x.1 = some plane && (g.nextLine x.1 x.2).any fun k => k ≤ n) := by
  rw [consumerCount, found, List.countP_flatMap]
  refine congrArg List.sum (List.map_congr_left fun h _ => ?_)
  rw [Function.comp, List.countP_map]
  by_cases on : headPlane s h = some plane
  · simp only [on, if_true, Function.comp_def, decide_true, Bool.true_and, Page.nextLine]
    exact (countP_range_getElem? _ _).symm
  · simp [on, Function.comp_def]

theorem slotsNeeded_eq (s : State) (page plane count first : Nat) : slotsNeeded s ⟨page, plane, count, first⟩
    = (List.range count).countP fun i => consumerCount s page plane (first + i) ≠ 0 := by
  simp only [slotsNeeded, Nat.pos_iff_ne_zero]

/-! ### The body (R165) -/

/-- The body of a BAND. -/
def bandFields (id plane count first : Nat) (data : List Byte) : List Byte :=
  leBytes 2 id ++ leBytes 1 plane ++ leBytes 1 count ++ leBytes 4 first ++ data

theorem bandFields_length (id plane count first : Nat) (data : List Byte) :
    (bandFields id plane count first data).length = 8 + data.length := by
  simp [bandFields]
  omega

theorem bandHead_bandFields {id plane count first : Nat} (data : List Byte) (b1 : id < 65536) (b2 : plane < 256)
    (b3 : count < 256) (b4 : first < 4294967296) :
    bandHead (bandFields id plane count first data) = ⟨id, plane, count, first⟩ := by
  simp [bandFields, bandHead, bandByte, leBytes]
  omega

/-- The bytes of a line, past the header and the lines before it. -/
theorem bandFields_drop (id plane count first : Nat) (data : List Byte) (k : Nat) :
    (bandFields id plane count first data).drop (8 + k) = data.drop k := by
  have header : (leBytes 2 id ++ leBytes 1 plane ++ leBytes 1 count ++ leBytes 4 first).length = 8 := by
    simp [leBytes_length]
  rw [bandFields, ← header, List.drop_length_add_append]

theorem bandLine_length (body : List Byte) (w i : Nat) : (bandLine body w i).length = w := by simp [bandLine]

theorem bandLines_row {body : List Byte} {w count i : Nat} {row : List Level}
    (at_ : ((List.range count).map (bandLine body w))[i]? = some row) : bandLine body w i = row := by
  rw [List.getElem?_map] at at_
  obtain ⟨k, inside, read⟩ := Option.map_eq_some_iff.mp at_
  obtain ⟨lt, rfl⟩ := List.getElem?_eq_some_iff.mp inside
  rwa [List.getElem_range] at read

/-- The columns of a line, four to a byte (R165). -/
theorem bandLine_level (id plane count first : Nat) (data : List Byte) (w i : Nat) {c : Nat} {l : Level}
    (at_ : (bandLine (bandFields id plane count first data) w i)[c]? = some l) :
    l.val = ((data.getD (i * ((w + 3) / 4) + c / 4) 0).toNat / 4 ^ (c % 4)) % 4 := by
  rw [bandLine, bandFields_drop, List.getElem?_map] at at_
  obtain ⟨k, inside, rfl⟩ := Option.map_eq_some_iff.mp at_
  obtain ⟨lt, rfl⟩ := List.getElem?_eq_some_iff.mp inside
  rw [List.length_range] at lt
  have byte : c / 4 < lineBytes w := by rw [lineBytes]; omega
  rw [List.getElem_range, levelAt, List.getElem?_take_of_lt byte, List.getElem?_drop]
  simp [lineBytes, Fin.ofNat]

/-! ### The checks (R55 to R58) -/

/-- The page that makes check 3 fail on its second condition stands ahead of the BAND's (R56). -/
theorem blockingPage_eq {id : Nat} (plane : Nat) {pre : List Page} (apart : ∀ q ∈ pre, q.id ≠ id) {g : Page}
    (same : g.id = id) (post : List Page) : blockingPage id plane (pre ++ g :: post)
      = pre.find? fun q => q.mask.getLsbD plane && look q.arrival plane 0 ≠ q.length := by
  induction pre with
  | nil => exact if_pos same
  | cons q qs ih =>
    rw [List.cons_append, blockingPage, if_neg (apart q List.mem_cons_self), ih fun x hx => apart x (.tail _ hx),
      List.find?_cons]
    simp only [Page.holdsPlane, Page.fullyReceived, ne_eq, decide_not]
    split <;> rename_i h <;> simp [h]

theorem checkBand_absent {s : State} {b : BandHead} (absent : pageById s b.page = none) (n : Nat) :
    checkBand s b n = .noSuchPage := by
  rw [checkBand, absent]

section
variable {s : State} {b : BandHead} {g : Page} (found : pageById s b.page = some g) (n : Nat)
include found

theorem checkBand_badPlane (bad : 7 < b.plane ∨ g.mask.getLsbD b.plane = false) : checkBand s b n = .badArgument := by
  rw [checkBand, found]
  refine if_pos ?_
  rcases bad with high | unheld
  · simp [Nat.not_le.mpr high]
  · simp [Page.holdsPlane, unheld]

/-- The checks that follow the plane's. -/
theorem checkBand_held (low : b.plane ≤ 7) (held : g.mask.getLsbD b.plane = true) : checkBand s b n =
    if b.first ≠ look g.arrival b.plane 0 ∨ (blockingPage b.page b.plane s.pages).isSome then
      .order (look g.arrival b.plane 0) ((blockingPage b.page b.plane s.pages).map Page.id)
    else if 1 ≤ b.count ∧ b.count ≤ 64 ∧ b.first + b.count ≤ g.length
        ∧ n = 8 + b.count * ((planeWidth s b.plane + 3) / 4) then
      if slotsNeeded s b ≤ freeSlots s b.plane then .accepted (slotsNeeded s b)
      else .noSpace (freeSlots s b.plane) (slotsNeeded s b)
    else .badArgument := by
  rw [checkBand, found]
  simp only [low, Page.holdsPlane, held, lineBytes, Option.isSome_map]
  rfl

section
variable (low : b.plane ≤ 7) (held : g.mask.getLsbD b.plane = true)
include low held

theorem checkBand_outOfOrder (early : b.first ≠ look g.arrival b.plane 0)
    (unblocked : blockingPage b.page b.plane s.pages = none) :
    checkBand s b n = .order (look g.arrival b.plane 0) none := by
  rw [checkBand_held found n low held, if_pos (.inl early), unblocked]
  rfl

theorem checkBand_blocked {q : Page} (blocked : blockingPage b.page b.plane s.pages = some q) :
    checkBand s b n = .order (look g.arrival b.plane 0) (some q.id) := by
  rw [checkBand_held found n low held, blocked, if_pos (.inr rfl)]
  rfl

section
variable (next : b.first = look g.arrival b.plane 0) (unblocked : blockingPage b.page b.plane s.pages = none)
include next unblocked

/-- The checks that follow that of the arrival order. -/
theorem checkBand_inOrder : checkBand s b n =
    if 1 ≤ b.count ∧ b.count ≤ 64 ∧ b.first + b.count ≤ g.length
        ∧ n = 8 + b.count * ((planeWidth s b.plane + 3) / 4) then
      if slotsNeeded s b ≤ freeSlots s b.plane then .accepted (slotsNeeded s b)
      else .noSpace (freeSlots s b.plane) (slotsNeeded s b)
    else .badArgument := by
  rw [checkBand_held found n low held, if_neg]
  simp [next, unblocked]

theorem checkBand_unfit (unfit : ¬ (1 ≤ b.count ∧ b.count ≤ 64 ∧ b.first + b.count ≤ g.length
    ∧ n = 8 + b.count * ((planeWidth s b.plane + 3) / 4))) : checkBand s b n = .badArgument := by
  rw [checkBand_inOrder found n low held next unblocked, if_neg unfit]

variable (fits : 1 ≤ b.count ∧ b.count ≤ 64 ∧ b.first + b.count ≤ g.length
  ∧ n = 8 + b.count * ((planeWidth s b.plane + 3) / 4))
include fits

theorem checkBand_noSpace (short : freeSlots s b.plane < slotsNeeded s b) :
    checkBand s b n = .noSpace (freeSlots s b.plane) (slotsNeeded s b) := by
  rw [checkBand_inOrder found n low held next unblocked, if_pos fits, if_neg (Nat.not_le.mpr short)]

theorem checkBand_accepted (room : slotsNeeded s b ≤ freeSlots s b.plane) :
    checkBand s b n = .accepted (slotsNeeded s b) := by
  rw [checkBand_inOrder found n low held next unblocked, if_pos fits, if_pos room]

end
end
end

/-- The frame at the handler reserves no slots, so the checks do not depend on it. -/
theorem checkBand_taken {s : State} {f : HostFrame} (taken : s.handler = .taken f) (b : BandHead) (n : Nat) :
    checkBand { s with handler := .free } b n = checkBand s b n := by
  have free : freeSlots { s with handler := .free } b.plane = freeSlots s b.plane := by
    simp only [freeSlots, reservedOn, taken]
    rfl
  unfold checkBand
  rw [free]
  rfl

/-! ### What the Line Store makes of each verdict -/

section
variable {s : State} {f : HostFrame} {b : BandHead} (read : bandHead f.body = b)
include read

theorem band_noSuchPage (verdict : checkBand s b f.body.length = .noSuchPage) : band f s = answer f .noSuchPage [] s := by
  simp only [band, read, verdict]

theorem band_badArgument (verdict : checkBand s b f.body.length = .badArgument) :
    band f s = answer f .badArgument [] s := by
  simp only [band, read, verdict]

/-- Refused for the arrival order alone, the reply names no page. -/
theorem band_outOfOrder {ptr : Nat} (verdict : checkBand s b f.body.length = .order ptr none) :
    band f s = answer f .order (leBytes 4 ptr ++ [0, 0, 0]) s := by
  simp only [band, read, verdict, List.append_assoc]
  rfl

/-- Refused for a page ahead, the reply names it (log 31). -/
theorem band_blocked {ptr id : Nat} (verdict : checkBand s b f.body.length = .order ptr (some id)) :
    band f s = answer f .order (leBytes 4 ptr ++ [1] ++ leBytes 2 id) s := by
  simp only [band, read, verdict]
  rfl

theorem band_noSpace {free needed : Nat} (verdict : checkBand s b f.body.length = .noSpace free needed) :
    band f s = answer f .noSpace (leBytes 2 free ++ leBytes 1 needed) (bumpPlane b.plane .noSpace 1 s) := by
  simp only [band, read, verdict]

theorem band_accepted {needed : Nat} (verdict : checkBand s b f.body.length = .accepted needed) :
    band f s = { s with handler := .storing ⟨f.tag, b.page, b.plane, b.first,
      (List.range b.count).map (bandLine f.body (planeWidth s b.plane)), needed⟩ } := by
  simp only [band, read, verdict]

end

/-! ### The request -/

section
variable {s s1 : State} {tag : BitVec 16} {body : List Byte} (run : s.engine = .run)
  (taken : TakesData s 0x80#8 tag body s1)
include run taken

theorem band_ruled : exec .band s = .next (takeNext (band ⟨.data, 0x80#8, tag, body⟩ { s with handler := .free })) := by
  refine congrArg Host.Outcome.next ?_
  rw [handleRequest_taken taken.1 (q := .band) rfl, handleFrame, if_neg (by simp [run, Req.handledIn]),
    if_neg (by simp [Req.lengthOk])]

/-- A BAND refused whole. -/
theorem band_refused {status : Status} {reply : List Byte}
    (refused : band ⟨.data, 0x80#8, tag, body⟩ { s with handler := .free }
      = answer ⟨.data, 0x80#8, tag, body⟩ status reply { s with handler := .free }) :
    exec .band s = .next (replied .data 0x80#8 tag status reply s1) := by
  rw [band_ruled run taken, refused, takeNext_answer, taken.2]

end

/-- What the storing reserves is no longer free (R51, R60). -/
theorem freeSlots_reserved {s : State} {f : HostFrame} (taken : s.handler = .taken f) (op : Storing)
    (room : op.reserved ≤ freeSlots s op.plane) :
    freeSlots { s with handler := .storing op } op.plane + op.reserved = freeSlots s op.plane := by
  have before : freeSlots s op.plane
      = ((look s.regions op.plane none).map Region.slots).getD 0 - occupancy s op.plane := by
    simp [freeSlots, reservedOn, taken]
  have after : freeSlots { s with handler := .storing op } op.plane = freeSlots s op.plane - op.reserved := by
    rw [before]
    simp [freeSlots, reservedOn, occupancy, linesOf]
  rw [after, Nat.sub_add_cancel room]

/-- Settles O36: the checks one after another, each with what the Line Store makes of its verdict. -/
theorem bandIsCheckedThenStored : Obligations.BandIsCheckedThenStored := by
  refine ⟨fun s page plane n => ⟨fun absent => consumerCount_absent absent plane n,
    fun g found => consumerCount_rows found plane n⟩, slotsNeeded_eq, ?_⟩
  intro s s1 tag id plane count first data b1 b2 b3 b4 run taken
  have read := bandHead_bandFields data b1 b2 b3 b4
  have checked := checkBand_taken taken.1 ⟨id, plane, count, first⟩ (bandFields id plane count first data).length
  refine ⟨fun absent => ?_, ?_⟩
  · refine band_refused run taken (band_noSuchPage read (checked.trans (checkBand_absent ?_ _)))
    simpa [pageById] using absent
  rintro pre g post queue rfl ids
  have found : pageById s g.id = some g := pageById_of_mem ids (by simp [queue])
  have apart : ∀ q ∈ pre, q.id ≠ g.id := by
    rw [queue, List.map_append, List.map_cons, List.nodup_append] at ids
    exact fun q inside => ids.2.2 _ (List.mem_map_of_mem inside) _ List.mem_cons_self
  have ahead := blockingPage_eq plane apart rfl post
  rw [← queue] at ahead
  have length (k : Nat) : (bandFields g.id plane count first data).length = 8 + k ↔ data.length = k := by
    rw [bandFields_length, Nat.add_left_cancel_iff]
  refine ⟨fun bad => ?_, fun low has early unblocked => ?_, fun q low has blocked => ?_,
    fun low has next unblocked unfit => ?_, fun low has next unblocked fits short => ?_,
    fun low has next unblocked fits room => ?_⟩
  · exact band_refused run taken (band_badArgument read (checked.trans (checkBand_badPlane found _ bad)))
  · exact band_refused run taken (band_outOfOrder read (checked.trans
      (checkBand_outOfOrder found _ low has early (ahead.trans unblocked))))
  · exact band_refused run taken (band_blocked read (checked.trans
      (checkBand_blocked found _ low has (ahead.trans blocked))))
  · rw [← length] at unfit
    exact band_refused run taken (band_badArgument read (checked.trans
      (checkBand_unfit found _ low has next (ahead.trans unblocked) unfit)))
  · rw [← length] at fits
    have verdict := checked.trans (checkBand_noSpace found _ low has next (ahead.trans unblocked) fits short)
    rw [band_ruled run taken, band_noSpace read verdict, taken.2]
    exact congrArg _ ((takeNext_answer _ _ _ (bumpPlane plane .noSpace 1 s)).trans (by rw [movedOn_eq, movedOn_eq]; rfl))
  · rw [← length] at fits
    have verdict := checked.trans (checkBand_accepted found _ low has next (ahead.trans unblocked) fits room)
    have begun : exec .band s = .next { s with handler := .storing ⟨tag, g.id, plane, first,
          (List.range count).map (bandLine (bandFields g.id plane count first data) (planeWidth s plane)),
          slotsNeeded s ⟨g.id, plane, count, first⟩⟩ } := by
      rw [band_ruled run taken, band_accepted read verdict, takeNext_busy (by simp)]
      rfl
    refine ⟨_, begun, by simp, fun i row at_ => ?_, freeSlots_reserved taken.1 _ room⟩
    obtain rfl := bandLines_row at_
    exact ⟨bandLine_length .., fun c l => bandLine_level g.id plane count first data _ i⟩

end Sys2Proof.Machine
end

