-- ==== Sys2Proof/Proofs/PrintTables.lean ====
section
/-! SUPPORT. SET_PLANE (R70) and SET_HEAD (R72, R143): their bodies read back, and what the handler makes of each. -/

namespace Sys2Proof.Machine

/-! ### Frames that the handler has taken -/

section
variable {s s1 : State} {code : Byte} {tag : BitVec 16} {body : List Byte} {q : Req} {act : HostFrame → State → State}
  (taken : TakesControl s code tag body s1) (row : reqOf ⟨.control, code, tag, body⟩ = q)
  (handled : q.handledIn s.engine = true)
include taken row handled

/-- A body of a length that the layout does not give (R158). -/
theorem handleRequest_badLength (length : q.lengthOk body = false) : handleRequest q act s
    = replied .control code tag .badArgument (q.lengthRefusalBody { s with handler := .free }) s1 := by
  obtain ⟨holds, rfl⟩ := taken
  rw [handleRequest_taken holds row, handleFrame, if_neg (by simp [handled]), if_pos length, takeNext_answer]

/-- An owning rule that answers after it has made `u` of the state (R158). -/
theorem handleRequest_answered {u : State} {status : Status} {reply : List Byte} (length : q.lengthOk body = true)
    (rule : act ⟨.control, code, tag, body⟩ { s with handler := .free }
      = answer ⟨.control, code, tag, body⟩ status reply { u with handler := .free }) :
    handleRequest q act s = replied .control code tag status reply (movedOn u) := by
  rw [handleRequest_ruled taken row handled length, rule, takeNext_answer]

/-- An owning rule that refuses (R158). -/
theorem handleRequest_refused {status : Status} (length : q.lengthOk body = true)
    (rule : act ⟨.control, code, tag, body⟩ { s with handler := .free }
      = answer ⟨.control, code, tag, body⟩ status [] { s with handler := .free }) :
    handleRequest q act s = replied .control code tag status [] s1 := by
  rw [handleRequest_answered taken row handled length rule, taken.2]

end

theorem movedOn_planes (s : State) (t) : movedOn { s with planes := t } = { movedOn s with planes := t } := by
  rw [movedOn_eq, movedOn_eq]

theorem movedOn_heads_health (s : State) (t u) :
    movedOn { s with heads := t, health := u } = { movedOn s with heads := t, health := u } := by
  rw [movedOn_eq, movedOn_eq]

/-- The row of a SET_PLANE is the one that its operation names (log 22). -/
theorem reqOf_setPlane (tag : BitVec 16) (body : List Byte) : reqOf ⟨.control, 0x10#8, tag, body⟩
    = if byteAt body 1 = 1 then .setPlaneRemove else .setPlaneSet := rfl

theorem reqOf_setPlane_instr (tag : BitVec 16) (body : List Byte) : (reqOf ⟨.control, 0x10#8, tag, body⟩).instr
    = if byteAt body 1 = 1 then .setPlaneRemove else .setPlaneSet := apply_ite ..

/-- The row of a SET_HEAD is the one that its operation names (log 22). -/
theorem reqOf_setHead (tag : BitVec 16) (body : List Byte) : reqOf ⟨.control, 0x11#8, tag, body⟩
    = if byteAt body 1 = 1 then .setHeadRemove else .setHeadSet := rfl

theorem reqOf_setHead_instr (tag : BitVec 16) (body : List Byte) : (reqOf ⟨.control, 0x11#8, tag, body⟩).instr
    = if byteAt body 1 = 1 then .setHeadRemove else .setHeadSet := apply_ite ..

/-! ### SET_PLANE (R70) -/

/-- The body of SET_PLANE (R166). -/
def planeFields (plane op width cap : Nat) : List Byte := leBytes 1 plane ++ leBytes 1 op ++ leBytes 2 width ++ leBytes 2 cap

/-- The values that R70 accepts with SET. -/
abbrev planeGood (plane op width cap : Nat) : Prop :=
  plane ≤ 7 ∧ op = 0 ∧ 1 ≤ width ∧ width ≤ 32768 ∧ 2 ≤ cap ∧ cap ≤ 16384

section
variable {plane op width cap : Nat} (b1 : plane < 256) (b2 : op < 256) (b3 : width < 65536) (b4 : cap < 65536)
include b1 b2 b3 b4

/-- The body read back field by field. -/
theorem planeFields_read :
    let body := planeFields plane op width cap
    byteAt body 0 = plane ∧ byteAt body 1 = op ∧ field body 2 2 = width ∧ field body 4 2 = cap := by
  simp [planeFields, byteAt, field_append, field_zero, field_only, Nat.mod_eq_of_lt b1, Nat.mod_eq_of_lt b2,
    Nat.mod_eq_of_lt b3, Nat.mod_eq_of_lt b4]

/-- What SET makes of its body: the values accepted or refused whole. -/
theorem parsePlaneSet_planeFields : parsePlaneSet (planeFields plane op width cap)
    = if planeGood plane op width cap then some (plane, ⟨width, cap⟩) else none := by
  obtain ⟨f1, f2, f3, f4⟩ := planeFields_read b1 b2 b3 b4
  simp only [parsePlaneSet, f1, f2, f3, f4]

/-- REMOVE does not examine width and capacity. -/
theorem parsePlaneRemove_planeFields :
    parsePlaneRemove (planeFields plane op width cap) = if plane ≤ 7 then some plane else none := by
  rw [parsePlaneRemove, (planeFields_read b1 b2 b3 b4).1]

end

/-- Settles O15: of the row that the operation names, the values are accepted or refused whole, and in RUN they are not
read. -/
theorem setPlaneWritesThePlaneTable : Obligations.SetPlaneWritesThePlaneTable := by
  intro s s1 tag plane op width cap b1 b2 b3 b4 taken
  change TakesControl s _ tag (planeFields plane op width cap) s1 at taken
  have length : (planeFields plane op width cap).length = 6 := by simp [planeFields]
  have operation : byteAt (planeFields plane op width cap) 1 = op := (planeFields_read b1 b2 b3 b4).2.1
  have set (other : op ≠ 1) : reqOf ⟨.control, 0x10#8, tag, planeFields plane op width cap⟩ = .setPlaneSet := by
    rw [reqOf_setPlane, operation, if_neg other]
  have remove (one : op = 1) : reqOf ⟨.control, 0x10#8, tag, planeFields plane op width cap⟩ = .setPlaneRemove := by
    rw [reqOf_setPlane, operation, if_pos one]
  refine ⟨fun setup zero p1 w1 w2 c1 c2 => congrArg Host.Outcome.next ?_,
    fun setup one p1 => congrArg Host.Outcome.next ?_, fun setup bad => ?_, fun run => ?_⟩
  · rw [taken.2, ← movedOn_planes]
    refine handleRequest_answered taken (set (by omega)) (by rw [setup]; rfl) (decide_eq_true length) ?_
    rw [setPlaneSet, parsePlaneSet_planeFields b1 b2 b3 b4, if_pos ⟨p1, zero, w1, w2, c1, c2⟩]
  · rw [taken.2, ← movedOn_planes]
    refine handleRequest_answered taken (remove one) (by rw [setup]; rfl) (decide_eq_true length) ?_
    rw [setPlaneRemove, parsePlaneRemove_planeFields b1 b2 b3 b4, if_pos p1]
  · split
    · next one =>
      refine congrArg Host.Outcome.next
        (handleRequest_refused taken (remove one) (by rw [setup]; rfl) (decide_eq_true length) ?_)
      rw [setPlaneRemove, parsePlaneRemove_planeFields b1 b2 b3 b4, if_neg (by omega)]
    · next other =>
      refine congrArg Host.Outcome.next
        (handleRequest_refused taken (set other) (by rw [setup]; rfl) (decide_eq_true length) ?_)
      rw [setPlaneSet, parsePlaneSet_planeFields b1 b2 b3 b4, if_neg (by omega)]
  · rw [← operation, ← reqOf_setPlane_instr tag]
    exact refusedInTheWrongEngineState.1 _ _ _ _ _ taken (by rw [run]; decide)

/-! ### SET_HEAD (R72) -/

/-- The 13 bytes of SET_HEAD with SET ahead of its `k` row offsets (R166). -/
def headHeader (head plane x n r d k : Nat) : List Byte :=
  leBytes 1 head ++ leBytes 1 0 ++ leBytes 1 plane ++ leBytes 2 x ++ leBytes 2 n ++ leBytes 1 r ++ leBytes 4 d
    ++ leBytes 1 k

/-- The body of SET_HEAD with SET (R166). -/
def headFields (head plane x n r d rate timeout : Nat) (offs : List Nat) : List Byte :=
  headHeader head plane x n r d offs.length ++ offs.flatMap (leBytes 2) ++ leBytes 2 rate ++ leBytes 2 timeout

/-- The values that R72 accepts with SET. -/
abbrev headGood (head plane x n r d rate timeout : Nat) (offs : List Nat) : Prop :=
  head ≤ 23 ∧ plane ≤ 7 ∧ x ≤ 32767 ∧ 64 ≤ n ∧ n ≤ 2048 ∧ (r = 1 ∨ r = 2 ∨ r = 4)
    ∧ d ≤ 16777215 ∧ 1 ≤ offs.length ∧ offs.length ≤ 4 ∧ (∀ o ∈ offs, o ≤ 4095)
    ∧ (rate = 400 ∨ rate = 800 ∨ rate = 1200 ∨ rate = 1600) ∧ timeout ≤ 255

theorem offsetBytes_length (offs : List Nat) : (offs.flatMap (leBytes 2)).length = 2 * offs.length := by
  simp [List.length_flatMap, Nat.mul_comm]

/-- Offsets of 16 bits one behind the other, read back. -/
theorem offsetBytes_read {offs : List Nat} (small : ∀ o ∈ offs, o < 65536) (rest : List Byte) :
    (List.range offs.length).map (fun i => field (offs.flatMap (leBytes 2) ++ rest) (2 * i) 2) = offs := by
  induction offs with
  | nil => rfl
  | cons o offs ih =>
    have first : o % 256 ^ 2 = o := Nat.mod_eq_of_lt (small o List.mem_cons_self)
    have later (i : Nat) : field (leBytes 2 o ++ (offs.flatMap (leBytes 2) ++ rest)) (2 * (i + 1)) 2
        = field (offs.flatMap (leBytes 2) ++ rest) (2 * i) 2 := by
      rw [field_append _ _ _ _ (by rw [leBytes_length]; omega), leBytes_length, Nat.mul_succ, Nat.add_sub_cancel]
    rw [List.length_cons, List.range_succ_eq_map, List.map_cons, List.map_map, List.flatMap_cons, List.append_assoc,
      Nat.mul_zero, field_zero, first]
    simp only [Function.comp_def, later]
    rw [ih fun o inside => small o (List.mem_cons_of_mem _ inside)]

section
variable {head plane x n r d k : Nat} (b1 : head < 256) (b2 : plane < 256) (b3 : x < 65536) (b4 : n < 65536)
  (b5 : r < 256) (b6 : d < 4294967296) (b7 : k < 256)
include b1 b2 b3 b4 b5 b6 b7

/-- The header read back field by field. -/
theorem headHeader_read (rest : List Byte) :
    let body := headHeader head plane x n r d k ++ rest
    byteAt body 0 = head ∧ byteAt body 1 = 0 ∧ byteAt body 2 = plane ∧ field body 3 2 = x ∧ field body 5 2 = n
      ∧ byteAt body 7 = r ∧ field body 8 4 = d ∧ byteAt body 12 = k := by
  simp [headHeader, byteAt, field_append, field_zero, Nat.mod_eq_of_lt b1, Nat.mod_eq_of_lt b2, Nat.mod_eq_of_lt b3,
    Nat.mod_eq_of_lt b4, Nat.mod_eq_of_lt b5, Nat.mod_eq_of_lt b6, Nat.mod_eq_of_lt b7]

end

section
variable {head plane x n r d rate timeout : Nat} {offs : List Nat}

theorem headFields_length :
    (headFields head plane x n r d rate timeout offs).length = 17 + 2 * offs.length := by
  simp only [headFields, headHeader, List.length_append, leBytes_length, offsetBytes_length]
  omega

theorem headFields_eq : headFields head plane x n r d rate timeout offs
    = headHeader head plane x n r d offs.length ++ (offs.flatMap (leBytes 2) ++ (leBytes 2 rate ++ leBytes 2 timeout)) := by
  simp only [headFields, List.append_assoc]

/-- Past the header stand the row offsets. -/
theorem headFields_past (i : Nat) : field (headFields head plane x n r d rate timeout offs) (13 + i) 2
    = field (offs.flatMap (leBytes 2) ++ (leBytes 2 rate ++ leBytes 2 timeout)) i 2 := by
  have header : (headHeader head plane x n r d offs.length).length = 13 := by simp [headHeader]
  rw [headFields_eq, field_append _ _ _ _ (by omega), header, Nat.add_sub_cancel_left]

theorem headFields_rate (small : rate < 65536) :
    field (headFields head plane x n r d rate timeout offs) (13 + 2 * offs.length) 2 = rate := by
  rw [headFields_past, field_append _ _ _ _ (offsetBytes_length offs).le, offsetBytes_length, Nat.sub_self, field_zero]
  exact Nat.mod_eq_of_lt small

theorem headFields_timeout (small : timeout < 65536) :
    field (headFields head plane x n r d rate timeout offs) (15 + 2 * offs.length) 2 = timeout := by
  rw [show 15 + 2 * offs.length = 13 + (2 * offs.length + 2) by omega, headFields_past,
    field_append _ _ _ _ (by rw [offsetBytes_length]; omega), offsetBytes_length, Nat.add_sub_cancel_left,
    field_append _ _ _ _ (leBytes_length 2 rate).le, leBytes_length, Nat.sub_self, field_only]
  exact Nat.mod_eq_of_lt small

variable (b1 : head < 256) (b2 : plane < 256) (b3 : x < 65536) (b4 : n < 65536) (b5 : r < 256) (b6 : d < 4294967296)
  (b7 : rate < 65536) (b8 : timeout < 65536) (b9 : offs.length < 256) (b10 : ∀ o ∈ offs, o < 65536)
include b1 b2 b3 b4 b5 b6 b9

/-- A body of SET_HEAD with SET is of the SET row and has the length that its `k` gives. -/
theorem headFields_setRow (tag : BitVec 16) :
    reqOf ⟨.control, 0x11#8, tag, headFields head plane x n r d rate timeout offs⟩ = .setHeadSet
      ∧ Req.setHeadSet.lengthOk (headFields head plane x n r d rate timeout offs) = true := by
  obtain ⟨-, operation, -, -, -, -, -, count⟩ := headHeader_read b1 b2 b3 b4 b5 b6 b9
    (offs.flatMap (leBytes 2) ++ (leBytes 2 rate ++ leBytes 2 timeout))
  rw [← headFields_eq] at operation count
  refine ⟨by rw [reqOf_setHead, operation]; rfl, ?_⟩
  simp [Req.lengthOk, operation, count, headFields_length]

include b7 b8 b10

/-- What SET makes of its body: the values accepted or refused whole. -/
theorem parseHeadSet_headFields : parseHeadSet (headFields head plane x n r d rate timeout offs)
    = if headGood head plane x n r d rate timeout offs then
        some (head, ⟨plane, x, n, r, d, offs, rate, if timeout = 0 then 20 else timeout⟩)
      else none := by
  obtain ⟨f1, -, f3, f4, f5, f6, f7, f8⟩ := headHeader_read b1 b2 b3 b4 b5 b6 b9
    (offs.flatMap (leBytes 2) ++ (leBytes 2 rate ++ leBytes 2 timeout))
  rw [← headFields_eq] at f1 f3 f4 f5 f6 f7 f8
  have offsets : headOffsets (headFields head plane x n r d rate timeout offs) = offs := by
    simp only [headOffsets, f8, headFields_past]
    exact offsetBytes_read b10 _
  simp only [parseHeadSet, f1, f3, f4, f5, f6, f7, f8, offsets, headFields_rate b7, headFields_timeout b8]

end

/-- The body of SET_HEAD with REMOVE read back. -/
theorem removeFields_read {head : Nat} (small : head < 256) :
    byteAt (leBytes 1 head ++ leBytes 1 1) 0 = head ∧ byteAt (leBytes 1 head ++ leBytes 1 1) 1 = 1 := by
  simp [byteAt, field_append, field_zero, field_only, Nat.mod_eq_of_lt small]

/-- A SET_HEAD body of no operation, of another than SET and REMOVE, or of a length that its operation and its `k` do
not give (R72, R166). -/
abbrev headMisfit (body : List Byte) : Prop :=
  body.length < 2 ∨ 1 < byteAt body 1 ∨ (byteAt body 1 = 0 ∧ body.length ≠ 17 + 2 * byteAt body 12)
    ∨ (byteAt body 1 = 1 ∧ body.length ≠ 2)

theorem setHeadRemove_lengthOk_of_misfit {body : List Byte} (misfit : headMisfit body) (one : byteAt body 1 = 1) :
    Req.setHeadRemove.lengthOk body = false := decide_eq_false (by omega)

theorem setHeadSet_lengthOk_of_misfit {body : List Byte} (misfit : headMisfit body) (other : byteAt body 1 ≠ 1) :
    Req.setHeadSet.lengthOk body = false := by
  have unfit : ¬ (byteAt body 1 = 0 ∧ body.length = 17 + 2 * byteAt body 12) := by omega
  simpa [Req.lengthOk] using unfit

/-- Settles O16: SET and REMOVE each accepted or refused whole, and a body that fits neither refused by its length. -/
theorem setHeadWritesTheHeadTable : Obligations.SetHeadWritesTheHeadTable := by
  refine ⟨fun s s1 tag head plane x n r d rate timeout offs b1 b2 b3 b4 b5 b6 b7 b8 b9 b10 setup taken => ?_,
    fun s s1 tag head b1 setup taken => ?_, fun s s1 tag body taken => ⟨fun run => ?_, fun setup misfit => ?_⟩⟩
  · change TakesControl s _ tag (headFields head plane x n r d rate timeout offs) s1 at taken
    obtain ⟨row, length⟩ := headFields_setRow (rate := rate) (timeout := timeout) b1 b2 b3 b4 b5 b6 b9 tag
    have read := parseHeadSet_headFields b1 b2 b3 b4 b5 b6 b7 b8 b9 b10
    refine ⟨fun good => congrArg Host.Outcome.next ?_, fun bad => congrArg Host.Outcome.next ?_⟩
    · rw [taken.2, ← movedOn_heads_health]
      refine handleRequest_answered taken row (by rw [setup]; rfl) length ?_
      rw [setHeadSet, read, if_pos good]
    · refine handleRequest_refused taken row (by rw [setup]; rfl) length ?_
      rw [setHeadSet, read, if_neg bad]
  · obtain ⟨headRead, operation⟩ := removeFields_read b1
    have row : reqOf ⟨.control, 0x11#8, tag, leBytes 1 head ++ leBytes 1 1⟩ = .setHeadRemove := by
      rw [reqOf_setHead, if_pos operation]
    refine ⟨fun low => congrArg Host.Outcome.next ?_, fun high => congrArg Host.Outcome.next ?_⟩
    · rw [taken.2, ← movedOn_heads_health]
      refine handleRequest_answered taken row (by rw [setup]; rfl) rfl ?_
      rw [setHeadRemove, parseHeadRemove, headRead, if_pos low]
    · refine handleRequest_refused taken row (by rw [setup]; rfl) rfl ?_
      rw [setHeadRemove, parseHeadRemove, headRead, if_neg (by omega)]
  · rw [← reqOf_setHead_instr tag]
    exact refusedInTheWrongEngineState.1 _ _ _ _ _ taken (by rw [run]; decide)
  · split
    · next one => exact congrArg Host.Outcome.next (handleRequest_badLength taken (by rw [reqOf_setHead, if_pos one])
        (by rw [setup]; rfl) (setHeadRemove_lengthOk_of_misfit misfit one))
    · next other => exact congrArg Host.Outcome.next (handleRequest_badLength taken
        (by rw [reqOf_setHead, if_neg other]) (by rw [setup]; rfl) (setHeadSet_lengthOk_of_misfit misfit other))

end Sys2Proof.Machine
end

