-- ==== Sys2Proof/Proofs/NozzleMap.lean ====
section
/-! SUPPORT. The nozzle map (R97): a head's list of marks read and written, NOZZLE_MARK pair by pair (R98) and
NOZZLE_CLEAR (R99), and the commands that leave the map as it stands. -/

namespace Sys2Proof.Machine

/-! ### A head's marks -/

/-- The entry of nozzle `i` in a head's list. -/
def statusIn (marks : List (Nat × NozzleStatus)) (i : Nat) : NozzleStatus :=
  match marks.find? fun m => m.1 = i with
  | some m => m.2
  | none => .good

theorem nozzleStatus_eq (s : State) (h i : Nat) : nozzleStatus s h i = statusIn (look s.nozzles h []) i := rfl

theorem statusIn_cons (m : Nat × NozzleStatus) (ms : List (Nat × NozzleStatus)) (i : Nat) :
    statusIn (m :: ms) i = if m.1 = i then m.2 else statusIn ms i := by
  by_cases own : m.1 = i <;> simp [statusIn, own]

theorem statusIn_unlisted {ms : List (Nat × NozzleStatus)} {i : Nat} (unlisted : ∀ m ∈ ms, m.1 ≠ i) :
    statusIn ms i = .good := by
  have none : ms.find? (fun m => m.1 = i) = none := by simpa using fun a b inside => unlisted (a, b) inside
  simp [statusIn, none]

/-- The canonical form of a head's list (R97). -/
def marksWf (ms : List (Nat × NozzleStatus)) : Prop :=
  ms.Pairwise (fun a b => a.1 < b.1) ∧ ∀ m ∈ ms, m.1 < 2048 ∧ m.2 ≠ .good

theorem marksWf_nil : marksWf [] := ⟨.nil, by simp⟩

theorem nozzlesWf.marks {s : State} (wf : nozzlesWf s) (h : Nat) : marksWf (look s.nozzles h []) := by
  by_cases lt : h < 24
  · rw [look, Vector.getElem?_eq_getElem lt]
    exact wf _ (by simp)
  · rw [look, Vector.getElem?_eq_none (Nat.not_lt.mp lt)]
    exact marksWf_nil

theorem nozzlesWf.put {s : State} (wf : nozzlesWf s) (h : Nat) {ms : List (Nat × NozzleStatus)} (own : marksWf ms) :
    nozzlesWf { s with nozzles := put s.nozzles h ms } := by
  intro m inside
  have inside : m ∈ s.nozzles.toList.set h ms := by simpa [Sys2Proof.put] using inside
  rcases List.mem_or_eq_of_mem_set inside with old | rfl
  · exact wf m old
  · exact own

/-- Everything listed after a write is the new mark or was listed before. -/
theorem mem_putMark {i : Nat} {st : NozzleStatus} {ms : List (Nat × NozzleStatus)} {m : Nat × NozzleStatus}
    (inside : m ∈ putMark i st ms) : (m = (i, st) ∧ st ≠ .good) ∨ m ∈ ms := by
  induction ms with
  | nil =>
    unfold putMark at inside
    split at inside
    · cases inside
    · next ne => exact .inl ⟨List.mem_singleton.mp inside, ne⟩
  | cons e es ih =>
    unfold putMark at inside
    split at inside
    · rcases List.mem_cons.mp inside with rfl | later
      · exact .inr List.mem_cons_self
      · exact (ih later).imp_right (List.mem_cons_of_mem _)
    · split at inside
      · split at inside
        · exact .inr (List.mem_cons_of_mem _ inside)
        · next ne =>
          rcases List.mem_cons.mp inside with rfl | later
          · exact .inl ⟨rfl, ne⟩
          · exact .inr (List.mem_cons_of_mem _ later)
      · split at inside
        · exact .inr inside
        · next ne =>
          rcases List.mem_cons.mp inside with rfl | later
          · exact .inl ⟨rfl, ne⟩
          · exact .inr later

/-- A write is read back at its nozzle and nowhere else. -/
theorem statusIn_putMark (i : Nat) (st : NozzleStatus) {ms : List (Nat × NozzleStatus)}
    (rising : ms.Pairwise fun a b => a.1 < b.1) (j : Nat) :
    statusIn (putMark i st ms) j = if j = i then st else statusIn ms j := by
  induction ms with
  | nil =>
    by_cases good : st = .good
    · simp [putMark, good, statusIn]
    · simp [putMark, good, statusIn_cons, eq_comm]
  | cons e es ih =>
    obtain ⟨above, rising⟩ := List.pairwise_cons.mp rising
    have beyond {k : Nat} (below : k ≤ e.1) : statusIn es k = .good :=
      statusIn_unlisted fun m inside => by have := above m inside; omega
    rcases Nat.lt_trichotomy e.1 i with less | same | more
    · rw [putMark, if_pos less, statusIn_cons, statusIn_cons, ih rising]
      by_cases own : e.1 = j
      · rw [if_pos own, if_neg (by omega), if_pos own]
      · rw [if_neg own, if_neg own]
    · rw [putMark, if_neg (by omega), if_pos same, statusIn_cons]
      by_cases good : st = .good <;> by_cases own : j = i
      · rw [if_pos good, if_pos own, beyond (by omega), good]
      · rw [if_pos good, if_neg own, if_neg (by omega)]
      · rw [if_neg good, statusIn_cons, if_pos own.symm, if_pos own]
      · rw [if_neg good, statusIn_cons, if_neg (Ne.symm own), if_neg own, if_neg (by omega)]
    · rw [putMark, if_neg (by omega), if_neg (by omega)]
      by_cases good : st = .good <;> by_cases own : j = i
      · rw [if_pos good, if_pos own, statusIn_cons, if_neg (by omega), beyond (by omega), good]
      · rw [if_pos good, if_neg own]
      · rw [if_neg good, statusIn_cons, if_pos own.symm, if_pos own]
      · rw [if_neg good, statusIn_cons, if_neg (Ne.symm own), if_neg own]

theorem marksWf.putMark {ms : List (Nat × NozzleStatus)} (wf : marksWf ms) {i : Nat} (lt : i < 2048)
    (st : NozzleStatus) : marksWf (putMark i st ms) := by
  obtain ⟨rising, entries⟩ := wf
  refine ⟨?_, fun m inside => ?_⟩
  · clear entries
    induction ms with
    | nil => unfold Machine.putMark; split <;> simp
    | cons e es ih =>
      obtain ⟨above, later⟩ := List.pairwise_cons.mp rising
      unfold Machine.putMark
      split
      · next less =>
        refine List.pairwise_cons.mpr ⟨fun m inside => ?_, ih later⟩
        rcases mem_putMark inside with ⟨rfl, -⟩ | old
        · exact less
        · exact above m old
      · next notLess =>
        split
        · next same =>
          split
          · exact later
          · exact List.pairwise_cons.mpr ⟨fun m inside => same ▸ above m inside, later⟩
        · next other =>
          have less : i < e.1 := by omega
          split
          · exact rising
          · refine List.pairwise_cons.mpr ⟨fun m inside => ?_, rising⟩
            rcases List.mem_cons.mp inside with rfl | old
            · exact less
            · exact Nat.lt_trans less (above m old)
  · rcases mem_putMark inside with ⟨rfl, ne⟩ | old
    · exact ⟨lt, ne⟩
    · exact entries m old

/-! ### One pair, and all pairs, of NOZZLE_MARK (R98) -/

theorem worse_code (a b : NozzleStatus) : (a.worse b).code = max a.code b.code := by
  cases a <;> cases b <;> rfl

/-- A pair sets its own entry to the worse of it and the request, and no other. -/
theorem nozzleStatus_markNozzle {s : State} (wf : nozzlesWf s) {h : Nat} (head : h < 24) (pair : Nat × NozzleStatus)
    (k i : Nat) : nozzleStatus (markNozzle h pair s) k i
      = if k = h ∧ i = pair.1 then (nozzleStatus s h i).worse pair.2 else nozzleStatus s k i := by
  simp only [nozzleStatus_eq, markNozzle, look_put, head, and_true]
  by_cases own : h = k
  · subst own
    rw [if_pos rfl, statusIn_putMark _ _ (wf.marks h).1]
    by_cases named : i = pair.1
    · rw [if_pos named, if_pos ⟨rfl, named⟩, named]
    · rw [if_neg named, if_neg fun both => named both.2]
  · rw [if_neg own, if_neg fun both => own both.1.symm]

theorem nozzlesWf.markNozzle {s : State} (wf : nozzlesWf s) (h : Nat) {pair : Nat × NozzleStatus} (lt : pair.1 < 2048) :
    nozzlesWf (markNozzle h pair s) := wf.put h ((wf.marks h).putMark lt _)

theorem nozzlesWf.markAll {h : Nat} {pairs : List (Nat × NozzleStatus)} (inRange : ∀ p ∈ pairs, p.1 < 2048) {s : State}
    (wf : nozzlesWf s) : nozzlesWf (markAll h pairs s).1 := by
  induction pairs generalizing s with
  | nil => exact wf
  | cons pair rest ih =>
    exact ih (fun p inside => inRange p (List.mem_cons_of_mem _ inside))
      (wf.markNozzle h (inRange pair List.mem_cons_self))

/-- The worst, by code, of an entry and of all statuses that pairs request of nozzle `i`. -/
def worstCode (i : Nat) (pairs : List (Nat × NozzleStatus)) (code : Nat) : Nat :=
  ((pairs.filter fun p => p.1 = i).map fun p => p.2.code).foldl max code

theorem worstCode_cons (i : Nat) (pair : Nat × NozzleStatus) (rest : List (Nat × NozzleStatus)) (code : Nat) :
    worstCode i (pair :: rest) code = worstCode i rest (if pair.1 = i then max code pair.2.code else code) := by
  by_cases own : pair.1 = i <;> simp [worstCode, own]

theorem le_worstCode (i : Nat) (pairs : List (Nat × NozzleStatus)) (code : Nat) : code ≤ worstCode i pairs code := by
  induction pairs generalizing code with
  | nil => exact le_rfl
  | cons pair rest ih =>
    rw [worstCode_cons]
    refine le_trans ?_ (ih _)
    split
    · exact le_max_left ..
    · exact le_rfl

section
variable {h : Nat} (head : h < 24) {pairs : List (Nat × NozzleStatus)} (inRange : ∀ p ∈ pairs, p.1 < 2048) {s : State}
  (wf : nozzlesWf s)
include head inRange wf

/-- After all pairs every entry is the worst of itself and what was requested of it. -/
theorem nozzleStatus_markAll (k i : Nat) : (nozzleStatus (markAll h pairs s).1 k i).code
    = if k = h then worstCode i pairs (nozzleStatus s k i).code else (nozzleStatus s k i).code := by
  induction pairs generalizing s with
  | nil => exact (ite_self _).symm
  | cons pair rest ih =>
    rw [markAll, ih (fun p inside => inRange p (List.mem_cons_of_mem _ inside))
      (wf.markNozzle h (inRange pair List.mem_cons_self)), nozzleStatus_markNozzle wf head]
    by_cases own : k = h
    · subst own
      by_cases named : pair.1 = i
      · simp [worstCode_cons, named, worse_code]
      · simp [worstCode_cons, named, Ne.symm named]
    · simp [own]

/-- The status reported for a pair is its entry as it stood after that pair. -/
theorem markAll_reports {j : Nat} {p : Nat × NozzleStatus} (named : pairs[j]? = some p) :
    (markAll h pairs s).2[j]?.map NozzleStatus.code
      = some (worstCode p.1 (pairs.take (j + 1)) (nozzleStatus s h p.1).code) := by
  induction pairs generalizing s j with
  | nil => cases named
  | cons pair rest ih =>
    have marked := nozzleStatus_markNozzle wf head pair h p.1
    rw [markAll, List.take_succ_cons, worstCode_cons]
    cases j with
    | zero =>
      obtain rfl := Option.some.inj named
      rw [if_pos ⟨rfl, rfl⟩] at marked
      simp [marked, worse_code, worstCode]
    | succ j =>
      refine (ih (fun q inside => inRange q (List.mem_cons_of_mem _ inside))
        (wf.markNozzle h (inRange pair List.mem_cons_self)) named).trans ?_
      rw [marked]
      by_cases own : pair.1 = p.1
      · simp [own, worse_code]
      · simp [own, Ne.symm own]

end

theorem markAll_length (h : Nat) (pairs : List (Nat × NozzleStatus)) (s : State) :
    (markAll h pairs s).2.length = pairs.length := by
  induction pairs generalizing s with
  | nil => rfl
  | cons pair rest ih => simp [markAll, ih]

/-- The pairs set nothing but the map. -/
theorem markAll_eq (h : Nat) (pairs : List (Nat × NozzleStatus)) (s : State) :
    (markAll h pairs s).1 = { s with nozzles := (markAll h pairs s).1.nozzles } := by
  induction pairs generalizing s with
  | nil => rfl
  | cons pair rest ih => exact ih (markNozzle h pair s)

/-! ### The commands that leave the map alone -/

/-- What one step of the request handler makes of the map: it stands, or the owning rule has set it (R158). -/
theorem handleRequest_nozzles {q : Req} {act : HostFrame → State → State}
    {P : Vector (List (Nat × NozzleStatus)) 24 → Prop} {s : State} (holds : P s.nozzles)
    (rule : ∀ f, P (act f { s with handler := .free }).nozzles) : P (handleRequest q act s).nozzles := by
  rcases handleRequest_cases q act s with h | ⟨f, -, -, ⟨-, h⟩ | ⟨-, -, h⟩ | ⟨-, -, h⟩⟩ <;> rw [h]
  · exact holds
  · rw [takeNext_nozzles]; exact holds
  · rw [takeNext_nozzles]; exact holds
  · rw [takeNext_nozzles]; exact rule f

/-- The nozzle map stands. -/
def MapKept (s t : State) : Prop := t.nozzles = s.nozzles

theorem mapKept_closed : PageClosed MapKept where
  refl _ := rfl
  trans a b := Eq.trans b a
  raise e s := raise_nozzles s e
  planeCtr _ _ _ _ _ := rfl
  bumpHead _ _ _ _ := rfl
  rows _ _ := rfl
  report _ _ _ _ _ _ _ _ := rfl
  dropPage _ _ := rfl
  pages _ _ _ _ := rfl
  lines _ _ _ _ := rfl
  loaders _ _ := rfl
  sched _ _ := rfl

namespace MapKept

theorem trans {s t u : State} (a : MapKept s t) (b : MapKept t u) : MapKept s u := Eq.trans b a

/-- A reply to what an act has made of the state. -/
theorem answered {s t : State} (act : MapKept s t) (f : HostFrame) (st : Status) (b : List Byte) :
    MapKept s (answer f st b t) := act

/-! #### The Link Port -/

theorem refuseArrival (f : HostFrame) (st : Status) (c : LinkCtr) (s : State) : MapKept s (refuseArrival f st c s) :=
  RowClosed.ite rfl rfl

theorem acceptFrame (f : HostFrame) (s : State) : MapKept s (acceptFrame f s) := by
  unfold Machine.acceptFrame
  split
  · exact RowClosed.ite (takeNext_nozzles _) (refuseArrival ..)
  · exact RowClosed.ite (takeNext_nozzles _) (refuseArrival ..)

theorem frameArrived (covered check : List Byte) (s : State) : MapKept s (frameArrived covered check s) := by
  unfold Machine.frameArrived
  refine RowClosed.ite rfl ?_
  dsimp only
  split
  · rfl
  · exact acceptFrame _ { s with rx := .expecting }

theorem huntByte (skipped sync1 : Bool) (b : Byte) (s : State) : MapKept s (huntByte skipped sync1 b s) :=
  RowClosed.ite (RowClosed.ite rfl rfl) (RowClosed.ite rfl rfl)

theorem rxByte (b : Byte) (s : State) : MapKept s (rxByte b s) := by
  unfold Machine.rxByte
  split
  case h_1 => exact huntByte ..
  case h_2 => exact RowClosed.ite rfl (huntByte ..)
  case h_3 => exact RowClosed.ite rfl (huntByte ..)
  case h_4 => exact RowClosed.ite rfl (RowClosed.ite rfl rfl)
  case h_5 => exact RowClosed.ite (frameArrived ..) rfl

theorem frameSent (s : State) : MapKept s (beginSending (finishSending s)) := by
  have finished : MapKept s (finishSending s) := by unfold finishSending; split <;> rfl
  have begun (u : State) : MapKept u (beginSending u) := by
    unfold beginSending
    refine RowClosed.ite rfl ?_
    split <;> rfl
  exact finished.trans (begun _)

/-! #### Requests -/

/-- A request's row as a whole, by what its owning rule does to the map. -/
theorem ofRule {q : Req} {act : HostFrame → State → State} (keeps : ∀ f s, MapKept s (act f s)) (s : State) :
    MapKept s (handleRequest q act s) :=
  handleRequest_nozzles (P := (· = s.nozzles)) rfl fun f => keeps f { s with handler := .free }

theorem statsRead (f : HostFrame) (s : State) : MapKept s (statsRead f s) := by
  have cleared (g : Group) : MapKept s (clearGroup g s) := by cases g <;> rfl
  unfold Machine.statsRead
  split
  · rfl
  · exact answered (RowClosed.ite (cleared _) rfl) ..

theorem setPlaneSet (f : HostFrame) (s : State) : MapKept s (setPlaneSet f s) := by
  unfold Machine.setPlaneSet; split <;> rfl

theorem setPlaneRemove (f : HostFrame) (s : State) : MapKept s (setPlaneRemove f s) := by
  unfold Machine.setPlaneRemove; split <;> rfl

theorem setHeadSet (f : HostFrame) (s : State) : MapKept s (setHeadSet f s) := by
  unfold Machine.setHeadSet; split <;> rfl

theorem setHeadRemove (f : HostFrame) (s : State) : MapKept s (setHeadRemove f s) := by
  unfold Machine.setHeadRemove; split <;> rfl

theorem setLane (f : HostFrame) (s : State) : MapKept s (setLane f s) := by
  unfold Machine.setLane; split <;> rfl

theorem setMotion (f : HostFrame) (s : State) : MapKept s (setMotion f s) := by
  unfold Machine.setMotion; split <;> rfl

theorem setCue (f : HostFrame) (s : State) : MapKept s (setCue f s) := by
  unfold Machine.setCue; split <;> rfl

theorem engineStart (f : HostFrame) (s : State) : MapKept s (engineStart f s) := by
  unfold Machine.engineStart; split <;> rfl

theorem engineStop (f : HostFrame) (s : State) : MapKept s (engineStop f s) := RowClosed.ite rfl rfl

theorem engineHalt (f : HostFrame) (s : State) : MapKept s (engineHalt f s) := by
  have cut : MapKept s (Machine.mapBufs LoadBuf.cut (s.pages.foldl Machine.haltPage s)) :=
    trans (mapKept_closed.foldl mapKept_closed.haltPage s.pages s) (mapKept_closed.mapBufs ..)
  unfold Machine.engineHalt
  dsimp only
  generalize Machine.mapBufs LoadBuf.cut (s.pages.foldl Machine.haltPage s) = t at cut
  exact cut

theorem pageOpen (f : HostFrame) (s : State) : MapKept s (pageOpen f s) := by
  unfold Machine.pageOpen
  split
  · rfl
  · exact RowClosed.ite rfl (RowClosed.ite rfl
      (answered (trans (mapKept_closed.pages ..) (mapKept_closed.bindFollows ..)) ..))

theorem pageCancel (f : HostFrame) (s : State) : MapKept s (pageCancel f s) := by
  unfold Machine.pageCancel
  split
  · rfl
  · exact RowClosed.ite (answered (mapKept_closed.cancelQueued ..) ..) (answered (mapKept_closed.cancelBound ..) ..)

theorem waveErase (f : HostFrame) (s : State) : MapKept s (waveErase f s) := by
  unfold Machine.waveErase
  split
  · rfl
  · exact RowClosed.ite rfl rfl

theorem waveLoad (f : HostFrame) (s : State) : MapKept s (waveLoad f s) := by
  unfold Machine.waveLoad
  split
  · rfl
  · exact RowClosed.ite rfl (RowClosed.ite rfl rfl)

theorem waveSelect (f : HostFrame) (s : State) : MapKept s (waveSelect f s) := by
  unfold Machine.waveSelect
  split
  · rfl
  · exact RowClosed.ite rfl (RowClosed.ite rfl rfl)

theorem changeHealth (h : Nat) (old new : Health) (s : State) : MapKept s (changeHealth h old new s) :=
  (changeHealth_frame h old new s).nozzles

theorem headRestore (f : HostFrame) (s : State) : MapKept s (headRestore f s) := by
  unfold Machine.headRestore
  dsimp only
  split
  · exact RowClosed.ite (answered (trans (changeHealth ..) (mapKept_closed.beginProbe ..)) ..) rfl
  · rfl

theorem band (f : HostFrame) (s : State) : MapKept s (band f s) := by
  unfold Machine.band
  dsimp only
  split <;> rfl

/-! #### The ends of storings and transfers -/

theorem joinLines (op : Storing) (joined : List StoredLine) (s : State) : MapKept s (joinLines op joined s) := by
  have peak (u : State) : MapKept u (updatePeak op.plane u) := rfl
  have placed : MapKept s (bumpPlane op.plane .discardedLate (op.lines.length - joined.length)
      (bumpPlane op.plane .linesStored joined.length (setLines op.plane (linesOf s op.plane ++ joined) s))) := rfl
  exact trans placed (trans (mapKept_closed.advancePointer op _) (peak _))

theorem storingEnd (s : State) : MapKept s (storingEnd s) := by
  unfold Machine.storingEnd
  split
  · next op _ =>
    have ended := trans (joinLines op (joiningLines s op) { s with handler := .free }) (mapKept_closed.settle _)
    exact trans (answered ended ..) (takeNext_nozzles _)
  · rfl

theorem countHealth (h : Nat) (acked : Bool) (s : State) : MapKept s (countHealth h acked s) := by
  unfold Machine.countHealth
  split
  · exact changeHealth ..
  · rfl

theorem loadAcked (h r : Nat) (seq : BitVec 8) (s : State) : MapKept s (loadAcked h r seq s) :=
  trans (mapKept_closed.bufferAcked h r seq (bumpHead h .transfers 1 s)) (trans (mapKept_closed.rowTurn ..)
    (trans (countHealth ..) (mapKept_closed.settle _)))

theorem loadFailed (h r : Nat) (s : State) : MapKept s (loadFailed h r s) := by
  have lost := trans (mapKept_closed.bufferFailed h r (bumpHead h .failures 1 (bumpHead h .transfers 1 s)))
    (countHealth h false _)
  exact trans (RowClosed.ite (trans lost (mapKept_closed.enterOffline ..)) lost) (mapKept_closed.settle _)

theorem probeAcked (h : Nat) (s : State) : MapKept s (probeAcked h s) := by
  unfold Machine.probeAcked
  split
  · next k _ =>
    exact RowClosed.ite (trans (changeHealth ..) (mapKept_closed.settle _))
      (mapKept_closed.beginProbe h (k.probes + 1) (setHealth h { k with probes := k.probes + 1 } s))
  · rfl

theorem probeFailed (h : Nat) (s : State) : MapKept s (probeFailed h s) := by
  unfold Machine.probeFailed
  split
  · exact changeHealth ..
  · rfl

theorem endTransfer (h : Nat) (t : Transfer) (acked : Bool) (s : State) : MapKept s (endTransfer h t acked s) := by
  unfold Machine.endTransfer
  split
  · rfl
  · next l _ =>
    have idle : MapKept s (setLoader h ⟨l.seq, none⟩ s) := rfl
    refine trans idle ?_
    dsimp only
    split
    · exact RowClosed.ite (loadAcked ..) (loadFailed ..)
    · have counted : MapKept (setLoader h ⟨l.seq, none⟩ s) (bumpHead h .probes 1 (setLoader h ⟨l.seq, none⟩ s)) := rfl
      exact trans counted (RowClosed.ite (probeAcked ..) (probeFailed ..))

theorem headAnswer (lane : Nat) (bits : BitVec 32) (s : State) : MapKept s (headAnswer lane bits s) := by
  unfold Machine.headAnswer
  split
  · split
    · dsimp only
      split
      · rfl
      · exact endTransfer ..
      · exact endTransfer ..
    · rfl
  · rfl

theorem ackTimeout (h : Nat) (s : State) : MapKept s (ackTimeout h s) := by
  unfold Machine.ackTimeout
  split
  · exact endTransfer ..
  · rfl

end MapKept

/-- The commands that set the nozzle map. -/
def setsNozzles : Instr → Bool
  | .powerOn | .nozzleMark | .nozzleClear => true
  | _ => false

theorem exec_mapKept {c : Instr} (other : setsNozzles c = false) (s : State) :
    ∃ t, exec c s = .next t ∧ MapKept s t := by
  have ruled {act : HostFrame → State → State} (q : Req) (keeps : ∀ f s, MapKept s (act f s)) :
      MapKept s (handleRequest q act s) := MapKept.ofRule keeps s
  cases c with
  | powerOn | nozzleMark | nozzleClear => cases other
  | softReset => exact ⟨_, rfl, RowClosed.ite rfl rfl⟩
  | hostFrameArrival bytes => exact ⟨_, rfl, mapKept_closed.foldl (fun s b => MapKept.rxByte b s) bytes s⟩
  | frameSent => exact ⟨_, rfl, MapKept.frameSent s⟩
  | identify => exact ⟨_, rfl, ruled _ fun _ _ => rfl⟩
  | statusQuery => exact ⟨_, rfl, ruled _ fun _ _ => rfl⟩
  | statsRead => exact ⟨_, rfl, ruled _ MapKept.statsRead⟩
  | reset => exact ⟨_, rfl, ruled _ fun _ _ => rfl⟩
  | setPlaneSet => exact ⟨_, rfl, ruled _ MapKept.setPlaneSet⟩
  | setPlaneRemove => exact ⟨_, rfl, ruled _ MapKept.setPlaneRemove⟩
  | setHeadSet => exact ⟨_, rfl, ruled _ MapKept.setHeadSet⟩
  | setHeadRemove => exact ⟨_, rfl, ruled _ MapKept.setHeadRemove⟩
  | setLane => exact ⟨_, rfl, ruled _ MapKept.setLane⟩
  | setMotion => exact ⟨_, rfl, ruled _ MapKept.setMotion⟩
  | setCue => exact ⟨_, rfl, ruled _ MapKept.setCue⟩
  | engineStart => exact ⟨_, rfl, ruled _ MapKept.engineStart⟩
  | engineStop => exact ⟨_, rfl, ruled _ MapKept.engineStop⟩
  | engineHalt => exact ⟨_, rfl, ruled _ MapKept.engineHalt⟩
  | pageOpen => exact ⟨_, rfl, ruled _ MapKept.pageOpen⟩
  | pageCancel => exact ⟨_, rfl, ruled _ MapKept.pageCancel⟩
  | waveErase => exact ⟨_, rfl, ruled _ MapKept.waveErase⟩
  | waveLoad => exact ⟨_, rfl, ruled _ MapKept.waveLoad⟩
  | waveSelect => exact ⟨_, rfl, ruled _ MapKept.waveSelect⟩
  | headRestore => exact ⟨_, rfl, ruled _ MapKept.headRestore⟩
  | band => exact ⟨_, rfl, ruled _ MapKept.band⟩
  | unknownCode => exact ⟨_, rfl, ruled _ fun _ _ => rfl⟩
  | storingEnd => exact ⟨_, rfl, MapKept.storingEnd s⟩
  | sendingEnd h => exact ⟨_, rfl, mapKept_closed.sendingEnd h s⟩
  | headAnswer lane bits => exact ⟨_, rfl, MapKept.headAnswer lane bits s⟩
  | ackTimeout h => exact ⟨_, rfl, MapKept.ackTimeout h s⟩
  | windowEnd h r => exact ⟨_, rfl, mapKept_closed.windowEnd h r s⟩
  | encoderChange a b =>
    obtain ⟨t, ran, core⟩ := exec_coreFrame (.inl ⟨a, b, rfl⟩) s
    exact ⟨t, ran, core.nozzles⟩
  | paceExpiry =>
    obtain ⟨t, ran, core⟩ := exec_coreFrame (.inr rfl) s
    exact ⟨t, ran, core.nozzles⟩
  | cueEdge =>
    obtain ⟨t, ran, core⟩ := exec_cueEdge_coreFrame s
    exact ⟨t, ran, core.nozzles⟩

/-! ### Every command -/

/-- The values of NOZZLE_MARK that R98 accepts. -/
theorem parseMark_some {body : List Byte} {h : Nat} {pairs : List (Nat × NozzleStatus)}
    (parsed : parseMark body = some (h, pairs)) : h < 24 ∧ ∀ p ∈ pairs, p.1 < 2048 := by
  unfold parseMark at parsed
  dsimp only at parsed
  split at parsed
  · next good =>
    obtain ⟨rfl, rfl⟩ := Prod.mk.inj (Option.some.inj parsed)
    refine ⟨good.1, fun p inside => ?_⟩
    obtain ⟨q, -, checked⟩ := List.mem_filterMap.mp inside
    unfold checkPair at checked
    split at checked
    · next lt =>
      obtain ⟨st, -, rfl⟩ := Option.map_eq_some_iff.mp checked
      exact lt
    · cases checked
  · cases parsed

/-- NOZZLE_MARK keeps the map's form and makes no entry better. -/
theorem nozzleMark_worsens (f : HostFrame) {s : State} (wf : nozzlesWf s) :
    nozzlesWf (nozzleMark f s) ∧ ∀ h i, (nozzleStatus s h i).code ≤ (nozzleStatus (nozzleMark f s) h i).code := by
  unfold nozzleMark
  split
  · next h pairs parsed =>
    obtain ⟨head, inRange⟩ := parseMark_some parsed
    refine ⟨wf.markAll (h := h) inRange, fun k i => ?_⟩
    have marked := nozzleStatus_markAll head inRange wf k i
    refine le_of_le_of_eq ?_ marked.symm
    split
    · exact le_worstCode ..
    · exact le_rfl
  · exact ⟨wf, fun _ _ => le_rfl⟩

theorem nozzleClear_wf (f : HostFrame) {s : State} (wf : nozzlesWf s) : nozzlesWf (nozzleClear f s) := by
  unfold nozzleClear
  split
  · exact wf.put _ marksWf_nil
  · exact wf

theorem exec_nozzleMark_worsens {s : State} (wf : nozzlesWf s) : ∃ t, exec .nozzleMark s = .next t ∧ nozzlesWf t
    ∧ ∀ h i, (nozzleStatus s h i).code ≤ (nozzleStatus t h i).code :=
  ⟨_, rfl, handleRequest_nozzles (P := fun map => nozzlesWf { s with nozzles := map }
      ∧ ∀ h i, (nozzleStatus s h i).code ≤ (nozzleStatus { s with nozzles := map } h i).code)
    ⟨wf, fun _ _ => le_rfl⟩ fun f => nozzleMark_worsens f (s := { s with handler := .free }) wf⟩

/-- After power-on every head's list is empty (R97). -/
theorem powerOn_nozzlesWf (s : State) : nozzlesWf (powerOn s) := fun ms inside => by
  obtain ⟨-, rfl⟩ : 24 ≠ 0 ∧ ms = [] := by simpa [powerOn, State.reset] using inside
  exact marksWf_nil

theorem exec_nozzlesWf (c : Instr) {s : State} (wf : nozzlesWf s) : ∃ t, exec c s = .next t ∧ nozzlesWf t := by
  cases sets : setsNozzles c with
  | false =>
    obtain ⟨t, ran, same⟩ := exec_mapKept sets s
    exact ⟨t, ran, fun ms inside => wf ms (same ▸ inside)⟩
  | true =>
    cases c with
    | powerOn => exact ⟨_, rfl, powerOn_nozzlesWf s⟩
    | nozzleMark =>
      obtain ⟨t, ran, wf', -⟩ := exec_nozzleMark_worsens wf
      exact ⟨t, ran, wf'⟩
    | nozzleClear =>
      exact ⟨_, rfl, handleRequest_nozzles (P := fun map => nozzlesWf { s with nozzles := map }) wf
        fun f => nozzleClear_wf f (s := { s with handler := .free }) wf⟩
    | _ => cases sets

/-- Settles O58: all commands but three leave the map alone, POWER_ON and NOZZLE_CLEAR keep its form, and NOZZLE_MARK
keeps it and only worsens entries. -/
theorem nozzleMapOnlyWorsens : Obligations.NozzleMapOnlyWorsens := by
  refine ⟨fun s t wf run => ?_, fun c s t h i wf notPower notClear ran => ?_⟩
  · unfold Machine.step at run
    split at run
    · obtain rfl := Host.Outcome.next.inj run
      exact wf
    · next c rest _ =>
      obtain ⟨u, ran, wf'⟩ := exec_nozzlesWf c (s := { s with pending := rest }) wf
      obtain rfl := Host.Outcome.next.inj (run.symm.trans ran)
      exact wf'
  · by_cases mark : c = .nozzleMark
    · subst mark
      obtain ⟨u, ranU, -, worse⟩ := exec_nozzleMark_worsens wf
      obtain rfl := Host.Outcome.next.inj (ran.symm.trans ranU)
      exact worse h i
    · have aside : setsNozzles c = false := by
        cases c with
        | powerOn => exact absurd rfl notPower
        | nozzleMark => exact absurd rfl mark
        | nozzleClear => exact absurd rfl notClear
        | _ => rfl
      obtain ⟨u, ranU, same⟩ := exec_mapKept aside s
      obtain rfl := Host.Outcome.next.inj (ran.symm.trans ranU)
      rw [nozzleStatus_eq, nozzleStatus_eq, same]

end Sys2Proof.Machine
end

