-- ==== Sys2Proof/Proofs/NozzleRequests.lean ====
section
/-! SUPPORT. NOZZLE_MARK (R98) and NOZZLE_CLEAR (R99): their bodies read back, and what the handler makes of each. -/

namespace Sys2Proof.Machine

theorem movedOn_nozzles (s : State) (t) : movedOn { s with nozzles := t } = { movedOn s with nozzles := t } := by
  rw [movedOn_eq, movedOn_eq]

/-! ### The body of NOZZLE_MARK -/

/-- The pairs of NOZZLE_MARK one behind the other (R166). -/
def pairBytes (pairs : List (Nat × Nat)) : List Byte := pairs.flatMap fun p => leBytes 2 p.1 ++ leBytes 1 p.2

/-- The body of NOZZLE_MARK (R166). -/
def markFields (head : Nat) (pairs : List (Nat × Nat)) : List Byte :=
  leBytes 1 head ++ leBytes 2 pairs.length ++ pairBytes pairs

theorem pairBytes_cons (p : Nat × Nat) (pairs : List (Nat × Nat)) :
    pairBytes (p :: pairs) = leBytes 2 p.1 ++ (leBytes 1 p.2 ++ pairBytes pairs) := by
  rw [pairBytes, List.flatMap_cons, List.append_assoc, pairBytes]

theorem pairBytes_length (pairs : List (Nat × Nat)) : (pairBytes pairs).length = 3 * pairs.length := by
  simp [pairBytes, List.length_flatMap, Nat.mul_comm]

theorem markFields_length (head : Nat) (pairs : List (Nat × Nat)) :
    (markFields head pairs).length = 3 + 3 * pairs.length := by
  rw [markFields, List.length_append, pairBytes_length, List.length_append, leBytes_length, leBytes_length]

/-- Pairs one behind the other, read back. -/
theorem pairBytes_read {pairs : List (Nat × Nat)} (small : ∀ p ∈ pairs, p.1 < 65536 ∧ p.2 < 256) :
    (List.range pairs.length).map (fun i => (field (pairBytes pairs) (3 * i) 2, field (pairBytes pairs) (3 * i + 2) 1))
      = pairs := by
  induction pairs with
  | nil => rfl
  | cons p pairs ih =>
    obtain ⟨nozzle, status⟩ := small p List.mem_cons_self
    have later (i k n : Nat) :
        field (pairBytes (p :: pairs)) (3 * (i + 1) + k) n = field (pairBytes pairs) (3 * i + k) n := by
      rw [pairBytes_cons, field_append _ _ _ _ (by rw [leBytes_length]; omega), leBytes_length,
        field_append _ _ _ _ (by rw [leBytes_length]; omega), leBytes_length]
      exact congrArg (field _ · n) (by omega)
    have first : field (pairBytes (p :: pairs)) (3 * 0) 2 = p.1 := by
      rw [pairBytes_cons, Nat.mul_zero, field_zero]
      exact Nat.mod_eq_of_lt nozzle
    have second : field (pairBytes (p :: pairs)) (3 * 0 + 2) 1 = p.2 := by
      rw [pairBytes_cons, field_append _ _ _ _ (leBytes_length 2 p.1).le, leBytes_length, Nat.sub_self,
        field_zero]
      exact Nat.mod_eq_of_lt status
    rw [List.length_cons, List.range_succ_eq_map, List.map_cons, List.map_map, first, second]
    refine congrArg _ (Eq.trans (List.map_congr_left fun i _ => ?_)
      (ih fun q inside => small q (List.mem_cons_of_mem _ inside)))
    exact Prod.ext (later i 0 2) (later i 2 1)

section
variable {head : Nat} {pairs : List (Nat × Nat)} (b1 : head < 256) (b2 : pairs.length < 65536)
include b1 b2

theorem markFields_header (off n : Nat) : byteAt (markFields head pairs) 0 = head
    ∧ field (markFields head pairs) 1 2 = pairs.length
    ∧ field (markFields head pairs) (3 + off) n = field (pairBytes pairs) off n := by
  refine ⟨?_, ?_, ?_⟩
  · simp [markFields, byteAt, field_zero, Nat.mod_eq_of_lt b1]
  · simp [markFields, field_append, field_zero, Nat.mod_eq_of_lt b2]
  · rw [markFields, field_append _ _ _ _ (by simp), List.length_append, leBytes_length, leBytes_length,
      Nat.add_sub_cancel_left]

theorem markFields_lengthOk : Req.nozzleMark.lengthOk (markFields head pairs) = true := by
  simp [Req.lengthOk, markFields_length, (markFields_header b1 b2 0 0).2.1]

variable (b3 : ∀ p ∈ pairs, p.1 < 65536 ∧ p.2 < 256)
include b3

theorem markPairs_markFields : markPairs (markFields head pairs) = pairs := by
  rw [markPairs, (markFields_header b1 b2 0 0).2.1]
  refine Eq.trans (List.map_congr_left fun i _ => Prod.ext (markFields_header b1 b2 (3 * i) 2).2.2 ?_)
    (pairBytes_read b3)
  show field _ (5 + 3 * i) 1 = _
  rw [show 5 + 3 * i = 3 + (3 * i + 2) by omega]
  exact (markFields_header b1 b2 _ 1).2.2

/-- What NOZZLE_MARK makes of its body: the values accepted or refused whole. -/
theorem parseMark_markFields : parseMark (markFields head pairs)
    = if head < 24 ∧ 1 ≤ pairs.length ∧ pairs.length ≤ 256 ∧ (pairs.all fun p => (checkPair p).isSome) then
        some (head, pairs.filterMap checkPair)
      else none := by
  rw [parseMark, markPairs_markFields b1 b2 b3, (markFields_header b1 b2 0 0).1]

end

theorem checkPair_code {p : Nat × NozzleStatus} (inRange : p.1 < 2048) : checkPair (p.1, p.2.code) = some p := by
  obtain ⟨i, st⟩ := p
  cases st <;> simp [checkPair, inRange, NozzleStatus.ofCode, NozzleStatus.code]

theorem checkPair_none {p : Nat × Nat} (out : 2048 ≤ p.1 ∨ 2 < p.2) : checkPair p = none := by
  unfold checkPair
  rcases out with nozzle | status
  · exact if_neg (by omega)
  · obtain ⟨i, code⟩ := p
    obtain ⟨k, rfl⟩ : ∃ k, code = k + 3 := ⟨code - 3, by omega⟩
    exact ite_self _

theorem NozzleStatus.code_lt (st : NozzleStatus) : st.code < 3 := by cases st <;> decide

/-- The pairs as NOZZLE_MARK sends them. -/
def codedPairs (pairs : List (Nat × NozzleStatus)) : List (Nat × Nat) := pairs.map fun p => (p.1, p.2.code)

theorem codedPairs_small {pairs : List (Nat × NozzleStatus)} (inRange : ∀ p ∈ pairs, p.1 < 2048) :
    ∀ p ∈ codedPairs pairs, p.1 < 65536 ∧ p.2 < 256 := by
  intro q inside
  obtain ⟨p, hp, rfl⟩ := List.mem_map.mp inside
  exact ⟨Nat.lt_trans (inRange p hp) (by decide), Nat.lt_trans (NozzleStatus.code_lt p.2) (by decide)⟩

/-- Pairs with their values in range are read as they are (R98). -/
theorem parseMark_good {head : Nat} {pairs : List (Nat × NozzleStatus)} (b1 : head < 24) (b2 : 1 ≤ pairs.length)
    (b3 : pairs.length ≤ 256) (inRange : ∀ p ∈ pairs, p.1 < 2048) :
    parseMark (markFields head (codedPairs pairs)) = some (head, pairs) := by
  have length : (codedPairs pairs).length = pairs.length := List.length_map _
  have all : ((codedPairs pairs).all fun p => (checkPair p).isSome) = true := by
    refine List.all_eq_true.mpr fun q inside => ?_
    obtain ⟨p, hp, rfl⟩ := List.mem_map.mp inside
    rw [checkPair_code (inRange p hp)]
    rfl
  have read : (codedPairs pairs).filterMap checkPair = pairs := by
    rw [codedPairs, List.filterMap_map]
    refine (List.filterMap_congr fun p hp => ?_).trans List.filterMap_some
    exact checkPair_code (inRange p hp)
  rw [parseMark_markFields (by omega) (by omega) (codedPairs_small inRange), length, if_pos ⟨b1, b2, b3, all⟩, read]

/-- Settles O41: accepted pairs mark one after the other, each reported as it then stands; a body out of range or of the
wrong length is refused whole; and NOZZLE_CLEAR empties its head's list. -/
theorem nozzleMarkWorsensAndClearRestores : Obligations.NozzleMarkWorsensAndClearRestores := by
  refine ⟨fun s s1 tag head pairs b1 b2 b3 inRange wf taken => ?_, fun s s1 tag head pairs b1 b2 small bad taken => ?_,
    fun s s1 tag body taken misfit => ?_, fun s s1 tag head b1 taken => ⟨fun low => ?_, fun high => ?_⟩⟩
  · have length : (codedPairs pairs).length = pairs.length := List.length_map _
    have body : leBytes 1 head ++ leBytes 2 pairs.length ++ pairs.flatMap (fun p => leBytes 2 p.1 ++ leBytes 1 p.2.code)
        = markFields head (codedPairs pairs) := by
      rw [markFields, length, pairBytes, codedPairs, List.flatMap_map]
    rw [body] at taken
    refine ⟨(markAll head pairs { s with handler := .free }).1.nozzles,
      (markAll head pairs { s with handler := .free }).2.map NozzleStatus.code, congrArg Host.Outcome.next ?_,
      nozzleStatus_markAll b1 inRange (s := { s with handler := .free }) wf, ?_, fun j p named => ?_⟩
    · rw [taken.2, ← movedOn_nozzles]
      refine handleRequest_answered taken rfl rfl (markFields_lengthOk (by omega) (by omega)) ?_
      rw [nozzleMark, parseMark_good b1 b2 b3 inRange]
      dsimp only
      rw [List.flatMap_map, markAll_eq]
    · rw [List.length_map, markAll_length]
    · rw [List.getElem?_map]
      exact markAll_reports b1 inRange (s := { s with handler := .free }) wf named
  · change TakesControl s _ tag (markFields head pairs) s1 at taken
    refine congrArg Host.Outcome.next (handleRequest_refused taken rfl rfl (markFields_lengthOk b1 b2) ?_)
    have refused : parseMark (markFields head pairs) = none := by
      rw [parseMark_markFields b1 b2 small]
      refine if_neg ?_
      rintro ⟨low, some, few, all⟩
      rcases bad with high | none | many | ⟨p, inside, out⟩
      · omega
      · omega
      · omega
      · have checked := List.all_eq_true.mp all p inside
        rw [checkPair_none out] at checked
        cases checked
    rw [nozzleMark, refused]
  · refine congrArg Host.Outcome.next (handleRequest_badLength taken rfl rfl ?_)
    simp only [Req.lengthOk, Bool.and_eq_false_iff, decide_eq_false_iff_not]
    omega
  · refine ⟨put s.nozzles head [], congrArg Host.Outcome.next ?_, fun h i => ?_⟩
    · rw [taken.2, ← movedOn_nozzles]
      refine handleRequest_answered taken rfl rfl rfl ?_
      have read : byteAt (leBytes 1 head) 0 = head := by simp [byteAt, field_only, Nat.mod_eq_of_lt b1]
      rw [nozzleClear, parseClear, read, if_pos low]
    · rw [nozzleStatus_eq, nozzleStatus_eq]
      simp only [look_put, low, and_true]
      by_cases own : head = h
      · rw [if_pos own, if_pos own.symm]; rfl
      · rw [if_neg own, if_neg (Ne.symm own)]
  · refine congrArg Host.Outcome.next (handleRequest_refused taken rfl rfl rfl ?_)
    have read : byteAt (leBytes 1 head) 0 = head := by simp [byteAt, field_only, Nat.mod_eq_of_lt b1]
    rw [nozzleClear, parseClear, read, if_neg (by omega)]

end Sys2Proof.Machine
end

