-- ==== Sys2Proof/Proofs/Stitch.lean ====
section
/-! SUPPORT. The stitch choice and its share over sixteen lines (R89), and the override (R90). -/

namespace Sys2Proof.Machine

/-! ### The stitch choice (R89) -/

theorem rampValue_pos {w j : Nat} (wide : w ≤ 64) : 1 ≤ rampValue w j :=
  (Nat.le_div_iff_mul_le (by omega)).mpr (by omega)

theorem rampValue_le {w j : Nat} (inside : j < w) : rampValue w j ≤ 255 :=
  Nat.le_of_lt_succ ((Nat.div_lt_iff_lt_mul (by omega)).mpr (by omega))

/-- One position further the ramp has risen by 256 / (w + 1), which is at least 1. -/
theorem rampValue_lt {w j k : Nat} (wide : w ≤ 64) (later : j < k) : rampValue w j < rampValue w k := by
  refine (Nat.le_div_iff_mul_le (by omega)).mpr ?_
  have below : (j + 1) * 256 / (w + 1) * (w + 1) ≤ (j + 1) * 256 := Nat.div_mul_le_self ..
  calc (rampValue w j).succ * (w + 1)
      = (j + 1) * 256 / (w + 1) * (w + 1) + (w + 1) := Nat.succ_mul ..
    _ ≤ (k + 1) * 256 := by omega

/-- The thresholds are the values 8 + 16 t, each once. -/
theorem thresholdTable_perm : thresholdTable.Perm ((List.range 16).map fun t => 8 + 16 * t) := by decide

/-- Sixteen consecutive lines take the thresholds in the table's order from some place on. -/
theorem thresholds_rotate (n j : Nat) :
    ((List.range 16).map fun i => threshold (n + i) j) = thresholdTable.rotate (n + 7 * j) := by
  refine List.ext_getElem (by simp [thresholdTable]) fun i inside _ => ?_
  have reached : (n + i + 7 * j) % 16 = (i + (n + 7 * j)) % 16 := congrArg (· % 16) (by omega)
  have place : (i + (n + 7 * j)) % 16 < thresholdTable.length := Nat.mod_lt _ (by decide)
  rw [List.getElem_map, List.getElem_range, List.getElem_rotate, threshold, reached, List.getD_eq_getElem?_getD,
    List.getElem?_eq_getElem place]
  rfl

theorem countP_below : ∀ q ≤ 16, (List.range 16).countP (fun t => decide (t < q)) = q := by decide

/-- Over any sixteen consecutive lines the choice is the right head on as many as there are thresholds below the ramp. -/
theorem choosesB_share {w j : Nat} (n : Nat) (inside : j < w) :
    (List.range 16).countP (fun i => choosesB (n + i) w j) = (rampValue w j - 8 + 15) / 16 := by
  have top := rampValue_le inside
  calc (List.range 16).countP (fun i => choosesB (n + i) w j)
      = ((List.range 16).map fun i => threshold (n + i) j).countP fun v => v < rampValue w j := by
        rw [List.countP_map]; rfl
    _ = ((List.range 16).map fun t => 8 + 16 * t).countP fun v => v < rampValue w j := by
        rw [thresholds_rotate]
        exact ((List.rotate_perm ..).trans thresholdTable_perm).countP_eq _
    _ = (List.range 16).countP fun t => t < (rampValue w j - 8 + 15) / 16 := by
        rw [List.countP_map]
        refine List.countP_congr fun t _ => ?_
        simp only [Function.comp, decide_eq_true_eq]
        omega
    _ = (rampValue w j - 8 + 15) / 16 := countP_below _ (by omega)

/-- Settles O38: the bounds and the growth of the ramp, and its share over sixteen lines. -/
theorem stitchShareOfTheRightHead : Obligations.StitchShareOfTheRightHead := by
  intro n w j inside wide
  refine ⟨rfl, rampValue_pos wide, rampValue_le inside, fun k later _ => rampValue_lt wide later, ?_⟩
  rw [choosesB_share n inside]
  show (rampValue w j - 8 + 15) / 16 = if rampValue w j ≤ 8 then 0 else (rampValue w j - 8 + 15) / 16
  split
  · omega
  · rfl

/-! ### The override (R90) -/

/-- A pair column goes by the override of the chosen and the other nozzle, whichever of the two was chosen. -/
theorem assignColumn_pair (eff : Nat → Nat → ColStatus) (n a i b k w j : Nat) :
    assignColumn eff n (.pair a i b k w j)
      = let o := overrideChoice (if choosesB n w j then eff b k else eff a i)
          (if choosesB n w j then eff a i else eff b k)
        (o.1.map fun c => if c then (if choosesB n w j then b else a) else (if choosesB n w j then a else b), o.2) := by
  by_cases right : choosesB n w j = true <;> simp [assignColumn, right]

/-- Settles O39: the five rows of the override's table. -/
theorem overrideFollowsItsTable : Obligations.OverrideFollowsItsTable := by
  intro eff n a i b k w j chosen other sc so result
  have table : result = ((overrideChoice sc so).1.map fun c => if c then chosen else other, (overrideChoice sc so).2) :=
    assignColumn_pair ..
  rw [table]
  refine ⟨fun gone there => ?_, fun gone both => ?_, fun weak good => ?_, fun weak notGood => ?_, fun good => ?_⟩
  · rw [gone]
    cases status : so with
    | unavailable => exact absurd status there
    | good => rfl
    | weak => rfl
  · rw [gone, both]; rfl
  · rw [weak, good]; rfl
  · rw [weak]
    cases status : so with
    | good => exact absurd status notGood
    | weak => rfl
    | unavailable => rfl
  · rw [good]; rfl

end Sys2Proof.Machine
end

