-- ==== Sys2Proof/Proofs/Composition.lean ====
section
/-! SUPPORT. Compensation column by column and its conservation of units (R91 to R93), the composition of a stored line
(R84 to R86, R94), and what a composition reads and gives (R85, R88, R95). -/

namespace Sys2Proof.Machine

/-! ### Columns with their neighbours -/

theorem withNeighbours_getElem? {α : Type} (d p : α) (xs : List α) (i : Nat) :
    (withNeighbours d p xs)[i]? = xs[i]?.map fun x =>
      (if 0 < i then xs.getD (i - 1) d else p, x, xs.getD (i + 1) d) := by
  induction xs generalizing p i with
  | nil => rfl
  | cons x xs ih =>
    cases i with
    | zero => cases xs <;> rfl
    | succ i =>
      rw [withNeighbours, List.getElem?_cons_succ, ih, List.getElem?_cons_succ]
      cases i <;> rfl

theorem withNeighbours_length {α : Type} (d p : α) (xs : List α) : (withNeighbours d p xs).length = xs.length := by
  induction xs generalizing p with
  | nil => rfl
  | cons x xs ih => simp [withNeighbours, ih]

/-! ### What each column gives and gets (R91 to R93) -/

/-- What no column gives. -/
def Shares.none : Shares := ⟨0, 0, 0⟩

theorem base_le_raw (c : Column) : c.base ≤ c.raw.val := by
  unfold Column.base
  split
  · exact le_rfl
  · exact min_le_left ..
  · exact Nat.zero_le _

theorem base_add_excess (c : Column) : c.base + c.excess = c.raw.val := Nat.add_sub_of_le (base_le_raw c)

/-- An excess goes out whole: to the left, to the right, or lost. -/
theorem giveExcess_whole (l r : Bool) (e : Nat) :
    (giveExcess l r e).left + (giveExcess l r e).right + (giveExcess l r e).lost = e := by
  cases l <;> cases r <;> simp only [giveExcess] <;> omega

theorem giveExcess_left (l r : Bool) (e : Nat) :
    (giveExcess l r e).left = if l then (if r then (e + 1) / 2 else e) else 0 := by
  cases l <;> cases r <;> rfl

theorem giveExcess_right (l r : Bool) (e : Nat) :
    (giveExcess l r e).right = if r then (if l then e - (e + 1) / 2 else e) else 0 := by
  cases l <;> cases r <;> rfl

theorem giveExcess_right_unusable (l : Bool) (e : Nat) : (giveExcess l false e).right = 0 := by cases l <;> rfl

/-- The shares of columns that stand behind the column `q`. -/
def sharesFrom (q : Column) (cols : List Column) : List Shares :=
  (withNeighbours Column.beyond q cols).map fun t => giveExcess t.1.usable t.2.2.usable t.2.1.excess

theorem allShares_eq (cols : List Column) : allShares cols = sharesFrom Column.beyond cols := rfl

theorem sharesFrom_cons (q c : Column) (cols : List Column) : sharesFrom q (c :: cols)
    = giveExcess q.usable (cols.headD Column.beyond).usable c.excess :: sharesFrom c cols := rfl

/-- The wanted levels of columns that stand behind the column `q`, which gives `p`. -/
def wantedFrom (p : Shares) (q : Column) (cols : List Column) : List Nat :=
  ((withNeighbours Shares.none p (sharesFrom q cols)).zip cols).map fun t => t.2.base + t.1.1.right + t.1.2.2.left

theorem wantedLevels_eq (cols : List Column) : wantedLevels cols = wantedFrom Shares.none Column.beyond cols := rfl

theorem wantedFrom_cons (p : Shares) (q c : Column) (cols : List Column) : wantedFrom p q (c :: cols)
    = (c.base + p.right + ((sharesFrom c cols).headD Shares.none).left)
      :: wantedFrom (giveExcess q.usable (cols.headD Column.beyond).usable c.excess) c cols := rfl

/-- Behind a column that gives `p`, the levels wanted, the units not placed and what the first gives back make up the raw
levels and what `p` hands on. -/
theorem wantedFrom_conserves (cols : List Column) (p : Shares) (q : Column) (edge : cols = [] → p.right = 0) :
    (wantedFrom p q cols).sum + ((sharesFrom q cols).map Shares.lost).sum
        + ((sharesFrom q cols).headD Shares.none).left
      = p.right + (cols.map fun c => c.raw.val).sum := by
  induction cols generalizing p q with
  | nil => rw [edge rfl]; rfl
  | cons c cols ih =>
    have rest := ih (giveExcess q.usable (cols.headD Column.beyond).usable c.excess) c fun last => by
      rw [last]
      exact giveExcess_right_unusable ..
    have whole := giveExcess_whole q.usable (cols.headD Column.beyond).usable c.excess
    have raw := base_add_excess c
    rw [wantedFrom_cons, sharesFrom_cons, List.sum_cons, List.map_cons, List.sum_cons, List.headD_cons, List.map_cons,
      List.sum_cons]
    omega

theorem wantedLevels_conserve (cols : List Column) :
    (wantedLevels cols).sum + ((allShares cols).map Shares.lost).sum = (cols.map fun c => c.raw.val).sum := by
  have all := wantedFrom_conserves cols Shares.none Column.beyond fun _ => rfl
  have edge : ((sharesFrom Column.beyond cols).headD Shares.none).left = 0 := by
    cases cols with
    | nil => rfl
    | cons c cols => exact (giveExcess_left ..).trans rfl
  rw [edge] at all
  rw [wantedLevels_eq, allShares_eq]
  exact all.trans (Nat.zero_add _)

theorem allShares_length (cols : List Column) : (allShares cols).length = cols.length := by
  rw [allShares, List.length_map, withNeighbours_length]

theorem wantedLevels_length (cols : List Column) : (wantedLevels cols).length = cols.length := by
  rw [wantedLevels, List.length_map, List.length_zip, withNeighbours_length, allShares_length, Nat.min_self]

theorem composedRecord_length (cols : List Column) : (composedRecord cols).length = cols.length := by
  rw [composedRecord, List.length_map, List.length_zip, wantedLevels_length, Nat.min_self]

/-- A level put out and what is above 3 make up the level wanted. -/
theorem outLevels_conserve (xs : List Nat) :
    (xs.map fun x => (outLevel x).val).sum + (xs.map fun x => x - 3).sum = xs.sum := by
  induction xs with
  | nil => rfl
  | cons x xs ih =>
    have one : (outLevel x).val + (x - 3) = x := by show min 3 x + (x - 3) = x; omega
    simp only [List.map_cons, List.sum_cons]
    omega

theorem composedRecord_levels (cols : List Column) :
    (composedRecord cols).map (fun c => c.level.val) = (wantedLevels cols).map fun x => (outLevel x).val := by
  rw [composedRecord, List.map_map]
  conv_rhs => rw [← List.map_fst_zip (l₂ := cols) (wantedLevels_length cols).le, List.map_map]
  rfl

/-- Composition conserves units (R93). -/
theorem composedRecord_conserves (cols : List Column) :
    ((composedRecord cols).map fun c => c.level.val).sum + unitsLost cols = (cols.map fun c => c.raw.val).sum := by
  have out := outLevels_conserve (wantedLevels cols)
  have wanted := wantedLevels_conserve cols
  rw [composedRecord_levels, unitsLost]
  omega

/-! ### A column by its index -/

section
variable (cols : List Column)

/-- The share that column `i` gives, none at a place beyond the edges. -/
theorem allShares_getD (i : Nat) : (allShares cols).getD i Shares.none
    = if i < cols.length then
        giveExcess (if 0 < i then cols.getD (i - 1) Column.beyond else Column.beyond).usable
          (cols.getD (i + 1) Column.beyond).usable (cols.getD i Column.beyond).excess
      else Shares.none := by
  rw [List.getD_eq_getElem?_getD, allShares, List.getElem?_map, withNeighbours_getElem?]
  by_cases inside : i < cols.length
  · simp [inside]
  · simp [inside]

/-- Column `i` wants its base and what its neighbours give it. -/
theorem wantedLevels_getElem? {i : Nat} {c : Column} (column : cols[i]? = some c) : (wantedLevels cols)[i]? = some
    (c.base + (if 0 < i then (allShares cols).getD (i - 1) Shares.none else Shares.none).right
      + ((allShares cols).getD (i + 1) Shares.none).left) := by
  have inside : i < (allShares cols).length := by
    rw [allShares_length]; exact (List.getElem?_eq_some_iff.mp column).1
  have shares := withNeighbours_getElem? Shares.none Shares.none (allShares cols) i
  rw [List.getElem?_eq_getElem inside, Option.map_some] at shares
  rw [wantedLevels, List.getElem?_map]
  exact congrArg (Option.map _) (List.getElem?_zip_eq_some (z := (_, _)).mpr ⟨shares, column⟩)

/-- Column `i` of the record: the lesser of 3 and the level wanted, printed by the column's assignee. -/
theorem composedRecord_getElem? {i : Nat} {c : Column} (column : cols[i]? = some c) : (composedRecord cols)[i]? = some
    ⟨outLevel (c.base + (if 0 < i then (allShares cols).getD (i - 1) Shares.none else Shares.none).right
      + ((allShares cols).getD (i + 1) Shares.none).left), c.assignee⟩ := by
  rw [composedRecord, List.getElem?_map]
  exact congrArg (Option.map _) (List.getElem?_zip_eq_some (z := (_, _)).mpr ⟨wantedLevels_getElem? cols column, column⟩)

/-- A column past the last has nothing to give. -/
theorem getD_beyond_excess {i : Nat} (past : ¬ i < cols.length) : (cols.getD i Column.beyond).excess = 0 := by
  rw [List.getD_eq_default _ _ (Nat.not_lt.mp past)]; rfl

theorem allShares_left (i : Nat) : ((allShares cols).getD i Shares.none).left
    = if 0 < i ∧ (cols.getD (i - 1) Column.beyond).status = .good then
        (if (cols.getD (i + 1) Column.beyond).status = .good then ((cols.getD i Column.beyond).excess + 1) / 2
          else (cols.getD i Column.beyond).excess)
      else 0 := by
  rw [allShares_getD]
  by_cases inside : i < cols.length
  · rw [if_pos inside, giveExcess_left]
    by_cases first : 0 < i
    · simp only [Column.usable, decide_eq_true_eq, first, if_true, true_and]
    · simp only [first, false_and, if_false]
      rfl
  · rw [if_neg inside, getD_beyond_excess cols inside]
    exact (ite_eq_right_iff.mpr fun _ => ite_self 0).symm

theorem allShares_right (i : Nat) : ((allShares cols).getD i Shares.none).right
    = if (cols.getD (i + 1) Column.beyond).status = .good then
        (if 0 < i ∧ (cols.getD (i - 1) Column.beyond).status = .good then
          (cols.getD i Column.beyond).excess - ((cols.getD i Column.beyond).excess + 1) / 2
          else (cols.getD i Column.beyond).excess)
      else 0 := by
  rw [allShares_getD]
  by_cases inside : i < cols.length
  · rw [if_pos inside, giveExcess_right]
    by_cases first : 0 < i
    · simp only [Column.usable, decide_eq_true_eq, first, if_true, true_and]
    · simp only [Column.usable, decide_eq_true_eq, first, false_and, if_false]
      rfl
  · rw [if_neg inside, getD_beyond_excess cols inside]
    exact (ite_eq_right_iff.mpr fun _ => ite_self 0).symm

end

/-! ### The composition of a stored line (R84 to R86, R94) -/

/-- The list with the line of entry `e` replaced by another of that entry. -/
theorem find_replacedLine (ls : List StoredLine) {e : Entry} {done : StoredLine} (own : done.is e = true) (f : Entry) :
    (ls.map fun k => if k.is e then done else k).find? (StoredLine.is f)
      = if f = e then (ls.find? (StoredLine.is e)).map fun _ => done else ls.find? (StoredLine.is f) := by
  induction ls with
  | nil => simp
  | cons k ls ih =>
    rw [List.map_cons, List.find?_cons, ih]
    by_cases same : f = e
    · subst same
      cases read : k.is f <;> simp [read, own]
    · cases read : k.is e with
      | true => simp [same, is_unique own same, is_unique read same]
      | false => simp [same, List.find?_cons]

theorem composeLine_done {p : Nat} {l : StoredLine} {s : State} (done : l.composed ≠ none) : composeLine p l s = s := by
  unfold composeLine
  split
  · next undone _ => exact absurd undone done
  · rfl

/-- A line not yet composed takes its record and the plane counts the units lost (R86, R94). -/
theorem composeLine_fresh {p : Nat} {l : StoredLine} {s : State} {d : PlaneDecode} (fresh : l.composed = none)
    (decode : look s.decode p none = some d) :
    composeLine p l s = bumpPlane p .dropsLost (unitsLost (readColumns s d l.line l.raw))
      (setLines p ((linesOf s p).map fun k => if k.is ⟨l.page, l.line⟩ then
        { l with composed := some (composedRecord (readColumns s d l.line l.raw)) } else k) s) := by
  rw [composeLine, fresh, decode]

theorem storedLine_entry {s : State} {p : Nat} {e : Entry} {l : StoredLine} (stored : storedLine s p e = some l) :
    (⟨l.page, l.line⟩ : Entry) = e := by
  have own : l.is e = true := List.find?_some stored
  simp only [StoredLine.is, Bool.and_eq_true, decide_eq_true_eq] at own
  rw [own.1, own.2]

section
variable {s : State} {p : Nat} {e : Entry} {l : StoredLine} {d : PlaneDecode} (lt : p < 8)
  (stored : storedLine s p e = some l) (fresh : l.composed = none) (decode : look s.decode p none = some d)
include lt stored fresh decode

theorem storedLine_composeLine (f : Entry) : storedLine (composeLine p l s) p f
    = if f = e then some { l with composed := some (composedRecord (readColumns s d l.line l.raw)) }
      else storedLine s p f := by
  have own : l.is e = true := List.find?_some stored
  rw [composeLine_fresh fresh decode, storedLine_entry stored]
  show (linesOf (setLines ..) p).find? _ = _
  rw [linesOf_setLines _ _ _ _ lt, if_pos rfl, find_replacedLine _ (done := { l with composed := some _ }) own,
    ← storedLine, stored]
  rfl

omit stored in
theorem composeLine_counts (q i : Nat) : look (planeGroup (composeLine p l s) q) i 0
    = if q = p ∧ i = 6 then satAdd (look (planeGroup s p) 6 0) (unitsLost (readColumns s d l.line l.raw))
      else look (planeGroup s q) i 0 := by
  rw [composeLine_fresh fresh decode, bumpPlane, planeGroup_setPlaneCtr _ _ _ _ _ lt]
  by_cases plane : p = q
  · subst plane
    rw [if_pos rfl]
    by_cases dropsLost : i = 6
    · rw [if_pos ⟨rfl, dropsLost⟩, dropsLost]
      exact look_put_same _ _ _ _ (by decide)
    · rw [if_neg fun both => dropsLost both.2]
      exact look_put_ne _ _ _ _ _ (Ne.symm dropsLost)
  · rw [if_neg plane, if_neg fun both => plane both.1.symm]
    rfl

end

/-! ### What a composition reads and gives -/

theorem readColumns_getElem? (s : State) {d : PlaneDecode} (n : Nat) {i : Nat} {raw : List Level} {l : Level}
    (inside : i < d.width) (level : raw[i]? = some l) : (readColumns s d n raw)[i]?
      = some ⟨l, (assignColumn (effStatus s) n (colForm d.spans i)).2,
          (assignColumn (effStatus s) n (colForm d.spans i)).1⟩ := by
  rw [readColumns, List.getElem?_map]
  exact congrArg (Option.map _) (List.getElem?_zip_eq_some (z := (_, _)).mpr ⟨level, List.getElem?_range inside⟩)

theorem available_iff {s : State} {h : Nat} : available s h = true ↔ ∃ k, look s.health h none = some k
    ∧ (k.state = .active ∨ k.state = .warned ∨ k.state = .degraded) := by
  unfold available
  cases look s.health h none with
  | none => simp
  | some k => cases state : k.state <;> simp [HealthState.inService, state]

theorem effStatus_unavailable_iff {s : State} {h i : Nat} :
    effStatus s h i = .unavailable ↔ available s h = false ∨ nozzleStatus s h i = .dead := by
  unfold effStatus
  cases available s h <;> cases nozzleStatus s h i <;> simp

theorem effStatus_weak_iff {s : State} {h i : Nat} :
    effStatus s h i = .weak ↔ available s h = true ∧ nozzleStatus s h i = .weak := by
  unfold effStatus
  cases available s h <;> cases nozzleStatus s h i <;> simp

theorem assignColumn_single (eff : Nat → Nat → ColStatus) (n h i : Nat) : assignColumn eff n (.single h i)
    = (if eff h i = .unavailable then none else some h, eff h i) := by
  unfold assignColumn
  cases status : eff h i <;> simp [status]

theorem shareOf_getElem? (h r : Nat) (c : HeadCfg) (record : List ComposedCol) {k : Nat} (inside : k < c.n / c.r) :
    (shareOf h c r record)[k]? = some (match record[c.x + (r + c.r * k)]? with
      | some col => if col.assignee = some h then col.level else 0
      | none => 0) := by
  rw [shareOf, List.getElem?_map, List.getElem?_range inside, ← Nat.add_assoc]
  rfl

/-- Settles O40: conservation and each column's level, the composition of a stored line, what it reads of availability,
map and decode, and the shares. -/
theorem compositionConservesUnits : Obligations.CompositionConservesUnits := by
  refine ⟨composedRecord_conserves, fun cols => ⟨composedRecord_length cols, fun i c column => ?_⟩,
    fun s p e l lt stored => ⟨composeLine_done, fun d fresh decode => ?_, fun h r next head => ?_⟩,
    fun s d n i raw l inside level => ⟨_, readColumns_getElem? s n inside level, rfl, rfl⟩,
    fun s h i => ⟨available_iff, effStatus_unavailable_iff, effStatus_weak_iff⟩, assignColumn_single,
    fun h r c record => ⟨by simp [shareOf], fun k inside => shareOf_getElem? h r c record inside⟩⟩
  · refine ⟨_, composedRecord_getElem? cols column, rfl, ?_⟩
    have received : (if 0 < i then (allShares cols).getD (i - 1) Shares.none else Shares.none).right
        = if 0 < i then ((allShares cols).getD (i - 1) Shares.none).right else 0 := apply_ite Shares.right ..
    rw [received, allShares_left, allShares_right]
    rfl
  · have lines := storedLine_composeLine lt stored fresh decode
    have counts := composeLine_counts lt fresh decode
    refine ⟨(lines e).trans (if_pos rfl), fun f other => (lines f).trans (if_neg other), fun q other => ?_,
      (counts p 6).trans ((if_pos ⟨rfl, rfl⟩).trans (satAdd_eq ..)), fun q i other => (counts q i).trans (if_neg ?_), ?_⟩
    · rw [composeLine_fresh fresh decode]
      exact look_put_ne _ _ _ _ _ (Ne.symm other)
    · omega
    · rw [composeLine_fresh fresh decode]
      rfl
  · rw [composeNext, next, head]
    dsimp only
    rw [stored]

end Sys2Proof.Machine
end

