-- ==== Sys2Proof/Proofs/WindowEnds.lean ====
section
/-! SUPPORT. The end of a window (R114): what the turns that follow it do to one row, and that a FULL buffer whose entry
is due comes to its fire start among them, whatever their order (R105, R108, R112, log 8). -/

namespace Sys2Proof.Machine

/-! ### What a turn does to a row -/

theorem rowAt_of_rows {s t : State} (rows : t.rows = s.rows) (h r : Nat) : rowAt t h r = rowAt s h r := by
  simp only [rowAt, rowsOf, rows]

/-- The decisions of a row retire entries and compose lines; they leave every row as it is. -/
theorem decideRow_rows (n h r : Nat) (s : State) : (decideRow n h r s).rows = s.rows := by
  have composed (u : State) : (composeNext h r u).rows = u.rows := (SameRun.composeNext h r u).rows
  induction n generalizing s with
  | zero => exact composed s
  | succ n ih =>
    rw [decideRow_succ]
    split
    · exact composed s
    · split
      · exact composed s
      · rw [ih, retire_rows, composed]

theorem fireStart_notFull {s : State} {h r : Nat} (notFull : ∀ e seq, rowAt s h r ≠ some ⟨.full e seq, .idle⟩) :
    fireStart h r s = s := by
  unfold fireStart
  split
  · next e seq at_ => exact absurd at_ (notFull e seq)
  · rfl

/-- How the fire start of an entry due at `d` leaves the fire state: FIRING with the entry's FIRE frame within the late
limit, IDLE beyond it (R112, R113). -/
def FireOutcome (s : State) (r : Nat) (e : Entry) (seq : BitVec 8) (d : Nat) (fire : FireState) : Prop :=
  (s.hRaw / 4096 - d ≤ s.motionCfg.lateLimit →
    ∃ window, fire = .firing window ⟨seq, r, e.page, e.line, (bankAt s s.activeBank).recs⟩)
  ∧ (s.motionCfg.lateLimit < s.hRaw / 4096 - d → fire = .idle)

theorem RowFrame.fireOutcome {s t : State} (frame : RowFrame s t) {r : Nat} {e : Entry} {seq : BitVec 8} {d : Nat}
    {fire : FireState} (outcome : FireOutcome t r e seq d fire) : FireOutcome s r e seq d fire := by
  unfold FireOutcome at outcome ⊢
  rw [← frame.hRaw, ← frame.motionCfg, ← frame.activeBank]
  simpa only [bankAt, frame.banks] using outcome

section
variable {s : State} {h r : Nat} {e : Entry} {seq : BitVec 8} (full : rowAt s h r = some ⟨.full e seq, .idle⟩)
include full

theorem fireStart_early (early : ∀ d, dueOf s h r e = some d → s.hRaw / 4096 < d) : fireStart h r s = s := by
  unfold fireStart
  rw [full]
  dsimp only
  cases due : dueOf s h r e with
  | none => rfl
  | some d => exact if_pos (early d due)

/-- A due entry's fire start empties the buffer. -/
theorem fireStart_due {d : Nat} (due : dueOf s h r e = some d) (reached : d ≤ s.hRaw / 4096) :
    ∃ fire, rowAt (fireStart h r s) h r = some ⟨.empty, fire⟩ ∧ FireOutcome s r e seq d fire := by
  have notEarly : ¬ s.hInt < d := Nat.not_lt.mpr reached
  have left (k : Kind) (fire : FireState) :
      rowAt (retire k h r e (setRow h r ⟨.empty, fire⟩ s)) h r = some ⟨.empty, fire⟩ :=
    (rowAt_of_rows (retire_rows ..) h r).trans (rowAt_setRow_same _ full)
  unfold fireStart
  rw [full]
  dsimp only
  rw [due]
  dsimp only
  rw [if_neg notEarly]
  by_cases inTime : s.hInt - d ≤ s.motionCfg.lateLimit
  · rw [if_pos inTime]
    exact ⟨_, left .., fun _ => ⟨_, rfl⟩, fun late => absurd inTime (Nat.not_le.mpr late)⟩
  · rw [if_neg inTime]
    exact ⟨_, left .., fun early => absurd early inTime, fun _ => rfl⟩

end

theorem rowAt_fireStart_other {s : State} {h r k q : Nat} (other : ¬ (h = k ∧ r = q)) :
    rowAt (fireStart h r s) k q = rowAt s k q := by
  have set (kind : Kind) (e : Entry) (row : Row) : rowAt (retire kind h r e (setRow h r row s)) k q = rowAt s k q :=
    (rowAt_of_rows (retire_rows ..) k q).trans (rowAt_setRow_other s h r k q row other)
  unfold fireStart
  split
  · split
    · rfl
    · split
      · rfl
      · split
        · exact set ..
        · exact set ..
  · rfl

theorem rowAt_rowTurn (h r k q : Nat) (s : State) : rowAt (rowTurn h r s) k q = rowAt (fireStart h r s) k q :=
  rowAt_of_rows (decideRow_rows ..) k q

theorem rowAt_rowOnce (h r k q : Nat) (s : State) : rowAt (rowOnce h r s) k q = rowAt (fireStart h r s) k q := by
  unfold rowOnce
  split
  · exact rowAt_of_rows (SameRun.composeNext ..).rows k q
  · next notFull =>
    rw [fireStart_notFull fun e seq at_ => notFull e seq .idle at_]
    exact rowAt_of_rows (decideRow_rows ..) k q

/-- A loader leaves a row as it is, or makes its EMPTY buffer LOADING (R109). -/
theorem rowAt_loaderTurn (g h r : Nat) (s : State) : rowAt (loaderTurn g s) h r = rowAt s h r
    ∨ ∃ e fire, rowAt s h r = some ⟨.empty, fire⟩ ∧ rowAt (loaderTurn g s) h r = some ⟨.loading e false, fire⟩ := by
  unfold loaderTurn
  split
  · split
    · split
      · next c chosen =>
        obtain ⟨q, -, eligible⟩ := List.mem_filterMap.mp (leastDue_mem chosen)
        obtain ⟨rfl, -, fire, row⟩ := candidate_some eligible
        have begun (carry : Carry) (l : Loader) (u : State) :
            rowAt (composeNext g c.row (beginTransfer g carry l u)) h r = rowAt u h r :=
          rowAt_of_rows (SameRun.composeNext ..).rows h r
        rw [beginLoad, row]
        dsimp only
        rw [begun]
        by_cases own : g = h ∧ c.row = r
        · obtain ⟨rfl, rfl⟩ := own
          exact .inr ⟨c.entry, fire, row, rowAt_setRow_same _ row⟩
        · exact .inl (rowAt_setRow_other _ _ _ _ _ _ own)
      · exact .inl rfl
    · exact .inl rfl
  · exact .inl rfl

/-- All that a turn can do to a row: nothing, its fire start, or the beginning of a LOAD. -/
theorem rowAt_turn (a : SchedAct) (h r : Nat) (s : State) : rowAt (turn a s) h r = rowAt s h r
    ∨ rowAt (turn a s) h r = rowAt (fireStart h r s) h r
    ∨ ∃ e fire, rowAt s h r = some ⟨.empty, fire⟩ ∧ rowAt (turn a s) h r = some ⟨.loading e false, fire⟩ := by
  have acted {k q : Nat} : rowAt (fireStart k q s) h r = rowAt s h r
      ∨ rowAt (fireStart k q s) h r = rowAt (fireStart h r s) h r := by
    by_cases own : k = h ∧ q = r
    · obtain ⟨rfl, rfl⟩ := own
      exact .inr rfl
    · exact .inl (rowAt_fireStart_other own)
  cases a with
  | cueOnce => exact .inl rfl
  | cue => exact .inl rfl
  | rowOnce k q => exact (acted.imp (rowAt_rowOnce k q h r s).trans (rowAt_rowOnce k q h r s).trans).imp_right .inl
  | row k q => exact (acted.imp (rowAt_rowTurn k q h r s).trans (rowAt_rowTurn k q h r s).trans).imp_right .inl
  | load g => exact (rowAt_loaderTurn g h r s).imp_right .inr

/-! ### Dues while rows and loaders act -/

/-- The origin field of the page of an id, if it is in the queue. -/
def originOf (s : State) (id : Nat) : Option (Option Nat) := (pageById s id).map Page.origin

/-- Each page in the queue was there before with the same origin. -/
def OriginsKept (s t : State) : Prop := ∀ id, originOf t id = none ∨ originOf t id = originOf s id

theorem OriginsKept.of_pages {s t : State} (pages : t.pages = s.pages) : OriginsKept s t :=
  fun id => .inr (by simp only [originOf, pageById, pages])

theorem originsKept_closed : RowClosed OriginsKept where
  refl _ := .of_pages rfl
  trans a b id := by
    rcases b id with gone | same
    · exact .inl gone
    · exact (a id).imp same.trans same.trans
  raise e s := .of_pages (raise_pages s e)
  planeCtr _ _ _ _ _ := .of_pages rfl
  bumpHead _ _ _ _ := .of_pages rfl
  rows _ _ := .of_pages rfl
  report p k h r n plane s page id := by
    obtain ⟨sameId, -, -, -, origin, -⟩ := report_kept p k h r n plane
    right
    by_cases own : p.id = id
    · subst own
      rw [originOf, originOf, pageById_setPage _ page sameId.symm, page, Option.map_some, Option.map_some, origin]
    · rw [originOf, originOf, pageById_setPage_other _ _ _ (sameId ▸ own)]
  dropPage id s k := by
    by_cases own : id = k
    · subst own
      exact .inl (congrArg (Option.map _) (pageById_dropPage ..))
    · exact .inr (congrArg (Option.map _) (pageById_dropPage_other _ _ _ own))
  lines _ _ _ _ := .of_pages rfl
  loaders _ _ := .of_pages rfl
  sched _ _ := .of_pages rfl

theorem originOf_none {s : State} {id : Nat} : originOf s id = none ↔ pageById s id = none := Option.map_eq_none_iff

theorem OriginsKept.gone {s t : State} (kept : OriginsKept s t) {id : Nat} (gone : pageById s id = none) :
    pageById t id = none :=
  originOf_none.mp ((kept id).elim (fun none => none) fun same => same.trans (originOf_none.mpr gone))

/-- A due depends on the page's origin and the head table only (R79). -/
theorem dueOf_originOf (s : State) (h r : Nat) (e : Entry) : dueOf s h r e = (originOf s e.page).bind fun origin =>
    (look s.heads h none).bind fun c => origin.map fun o => o + 32 * e.line + c.offset + c.offsets.getD r 0 := by
  unfold dueOf originOf
  cases pageById s e.page <;> cases look s.heads h none <;> rfl

theorem dueOf_gone {s : State} {e : Entry} (gone : pageById s e.page = none) (h r : Nat) : dueOf s h r e = none := by
  rw [dueOf, gone]

/-- While its page stays, an entry's due stays. -/
theorem dueOf_stays {s t : State} (frame : RowFrame s t) (kept : OriginsKept s t) (h r : Nat) (e : Entry) :
    pageById t e.page = none ∨ dueOf t h r e = dueOf s h r e :=
  (kept e.page).imp originOf_none.mp fun same => by rw [dueOf_originOf, dueOf_originOf, same, frame.heads]

/-! ### A FULL buffer through the turns -/

/-- The row has had the fire start of an entry due at `d`, and its buffer has not become FULL again. -/
def Started (s : State) (h r : Nat) (e : Entry) (seq : BitVec 8) (d : Nat) (t : State) : Prop :=
  ∃ buf fire, rowAt t h r = some ⟨buf, fire⟩ ∧ (∀ f q, buf ≠ .full f q) ∧ FireOutcome s r e seq d fire

theorem Started.turn {s t : State} {h r : Nat} {e : Entry} {seq : BitVec 8} {d : Nat} (a : SchedAct)
    (started : Started s h r e seq d t) : Started s h r e seq d (turn a t) := by
  obtain ⟨buf, fire, at_, notFull, outcome⟩ := started
  rcases rowAt_turn a h r t with same | fired | ⟨f, fire', empty, loading⟩
  · exact ⟨buf, fire, same.trans at_, notFull, outcome⟩
  · have none : fireStart h r t = t := fireStart_notFull fun f q full => by
      rw [at_] at full
      exact notFull f q (congrArg Row.buf (Option.some.inj full))
    exact ⟨buf, fire, fired.trans ((congrArg (rowAt · h r) none).trans at_), notFull, outcome⟩
  · obtain rfl : fire = fire' := congrArg Row.fire (Option.some.inj (at_.symm.trans empty))
    exact ⟨_, fire, loading, nofun, outcome⟩

theorem Started.turns {s t : State} {h r : Nat} {e : Entry} {seq : BitVec 8} {d : Nat} (acts : List SchedAct)
    (started : Started s h r e seq d t) : Started s h r e seq d (acts.foldl (fun u a => Machine.turn a u) t) := by
  induction acts generalizing t with
  | nil => exact started
  | cons a acts ih => exact ih (started.turn a)

section
variable {s : State} {h r d : Nat} {e : Entry} {seq : BitVec 8} (due : dueOf s h r e = some d)
  (reached : d ≤ s.hRaw / 4096)
include due reached

/-- A fire start in a later state comes to the same. -/
theorem started_of_fireStart {t : State} (frame : RowFrame s t) (kept : OriginsKept s t)
    (full : rowAt t h r = some ⟨.full e seq, .idle⟩) (present : pageById t e.page ≠ none) :
    ∃ fire, rowAt (fireStart h r t) h r = some ⟨.empty, fire⟩ ∧ FireOutcome s r e seq d fire := by
  have dueNow := ((dueOf_stays frame kept h r e).resolve_left present).trans due
  obtain ⟨fire, at_, outcome⟩ := fireStart_due full dueNow (frame.hRaw ▸ reached)
  exact ⟨fire, at_, frame.fireOutcome outcome⟩

/-- Turns leave the buffer FULL or bring it to its fire start. -/
theorem turns_started (acts : List SchedAct) {t : State} (frame : RowFrame s t) (kept : OriginsKept s t)
    (sofar : rowAt t h r = some ⟨.full e seq, .idle⟩ ∨ Started s h r e seq d t) :
    let u := acts.foldl (fun u a => turn a u) t
    rowAt u h r = some ⟨.full e seq, .idle⟩ ∨ Started s h r e seq d u := by
  induction acts generalizing t with
  | nil => exact sofar
  | cons a acts ih =>
    refine ih (frame.trans (rowFrame_closed.turn a t)) (originsKept_closed.trans kept (originsKept_closed.turn a t)) ?_
    rcases sofar with full | started
    · rcases rowAt_turn a h r t with same | fired | ⟨f, fire, empty, -⟩
      · exact .inl (same.trans full)
      · by_cases gone : pageById t e.page = none
        · have none : fireStart h r t = t := fireStart_early full fun d' due' => by
            rw [dueOf_gone gone] at due'
            cases due'
          exact .inl (fired.trans ((congrArg (rowAt · h r) none).trans full))
        · obtain ⟨fire, at_, outcome⟩ := started_of_fireStart due reached frame kept full gone
          exact .inr ⟨_, fire, fired.trans at_, nofun, outcome⟩
      · rw [full] at empty
        cases empty
    · exact .inr (started.turn a)

/-- Turns among which the row has its own bring a FULL buffer to its fire start, unless its page is gone. -/
theorem ownTurn_started {acts : List SchedAct} (own : .row h r ∈ acts) {t : State} (frame : RowFrame s t)
    (kept : OriginsKept s t) (full : rowAt t h r = some ⟨.full e seq, .idle⟩) :
    let u := acts.foldl (fun u a => turn a u) t
    (pageById u e.page = none ∧ rowAt u h r = some ⟨.full e seq, .idle⟩) ∨ Started s h r e seq d u := by
  obtain ⟨before, after, rfl⟩ := List.append_of_mem own
  intro u
  have frame1 := frame.trans (rowFrame_closed.foldl (fun u a => rowFrame_closed.turn a u) before t)
  have kept1 := originsKept_closed.trans kept
    (originsKept_closed.foldl (fun u a => originsKept_closed.turn a u) before t)
  have sofar1 := turns_started due reached before frame kept (.inl full)
  have split : u = (.row h r :: after).foldl (fun u a => turn a u) (before.foldl (fun u a => turn a u) t) :=
    List.foldl_append
  rw [split]
  generalize before.foldl (fun u a => turn a u) t = v at *
  by_cases gone : pageById v e.page = none
  · have goneStill := (originsKept_closed.foldl (fun u a => originsKept_closed.turn a u) (.row h r :: after) v).gone gone
    exact (turns_started due reached (.row h r :: after) frame1 kept1 sofar1).imp_left fun full => ⟨goneStill, full⟩
  · have started : Started s h r e seq d (turn (.row h r) v) := by
      rcases sofar1 with full | started
      · obtain ⟨fire, at_, outcome⟩ := started_of_fireStart due reached frame1 kept1 full gone
        exact ⟨_, fire, (rowAt_rowTurn h r h r v).trans at_, nofun, outcome⟩
      · exact started.turn _
    exact .inr (started.turns after)

end

/-! ### What follows an event -/

theorem allRows_of_rows {s t : State} (rows : t.rows = s.rows) : allRows t = allRows s := by
  simp only [allRows, rowsOf, rows]

theorem composeAll_sameRun (s : State) : SameRun s (composeAll s) :=
  SameRun.foldl (fun u (x : Nat × Nat) => SameRun.composeNext x.1 x.2 u) _ s

/-- The parties to what follows an event, and the state that they come to, in terms of the state before. -/
theorem settle_eq (s : State) : settle s = (s.sched.headD [] ++ allTurns s).foldl (fun u a => turn a u)
    (composeAll { s with sched := s.sched.tail }) := by
  have rows : allTurns (composeAll { s with sched := s.sched.tail }) = allTurns s := by
    rw [allTurns, allRows_of_rows (composeAll_sameRun _).rows]
    rfl
  rw [settle, popSched_fst, popSched_snd, rows]

theorem row_mem_allTurns {s : State} {h r : Nat} {row : Row} (at_ : rowAt s h r = some row) : .row h r ∈ allTurns s := by
  obtain ⟨lt, inside⟩ := rowAt_some at_
  refine List.mem_append_left _ (List.mem_map.mpr ⟨(h, r), ?_, rfl⟩)
  exact List.mem_flatMap.mpr ⟨h, List.mem_range.mpr lt, List.mem_map.mpr ⟨r, List.mem_range.mpr inside, rfl⟩⟩

/-- A FULL buffer whose entry is due has its fire start within the event, unless its page has left the queue before. -/
theorem settle_started {s : State} {h r d : Nat} {e : Entry} {seq : BitVec 8}
    (full : rowAt s h r = some ⟨.full e seq, .idle⟩) (due : dueOf s h r e = some d) (reached : d ≤ s.hRaw / 4096) :
    (pageById (settle s) e.page = none ∧ rowAt (settle s) h r = some ⟨.full e seq, .idle⟩)
      ∨ Started s h r e seq d (settle s) := by
  have popped : RowFrame s { s with sched := s.sched.tail } := rowFrame_closed.sched _ s
  rw [settle_eq]
  exact ownTurn_started due reached (List.mem_append_right _ (row_mem_allTurns full))
    (popped.trans (rowFrame_closed.composeAll _))
    (originsKept_closed.trans (originsKept_closed.sched _ s) (originsKept_closed.composeAll _))
    ((rowAt_of_rows (composeAll_sameRun _).rows h r).trans full)

/-! ### WINDOW_END -/

theorem windowEnd_firing {s : State} {h r window : Nat} {buf : LoadBuf} {f : FireFrame}
    (at_ : rowAt s h r = some ⟨buf, .firing window f⟩) : windowEnd h r s = settle (setRow h r ⟨buf, .idle⟩ s) := by
  rw [windowEnd, at_]

theorem windowEnd_idle {s : State} {h r : Nat} (idle : ∀ row, rowAt s h r = some row → row.fire = .idle) :
    windowEnd h r s = s := by
  unfold windowEnd
  split
  · next at_ => cases idle _ at_
  · rfl

/-- Settles O44: the row IDLE with its buffer standing, what follows it act by act, and the fire start of a due entry
whatever the order. -/
theorem windowEndFreesTheRow : Obligations.WindowEndFreesTheRow := by
  refine ⟨fun s h r buf window f at_ => ⟨congrArg Host.Outcome.next (windowEnd_firing at_), rowAt_setRow_same _ at_,
      ⟨_, rfl, rowFrame_closed.windowEnd h r s, eventsOnly_closed.windowEnd h r s⟩, fun empty => ?_⟩,
    fun s h r idle => congrArg Host.Outcome.next (windowEnd_idle idle), fun s => ?_,
    fun s h r d e seq full due reached => settle_started full due reached⟩
  · refine congrArg Host.Outcome.next ((windowEnd_firing at_).trans ?_)
    exact settle_noPages (s := setRow h r ⟨buf, .idle⟩ s) empty
  · have turns : (fun u a => turn a u) = fun (u : State) (a : SchedAct) => match a with
        | .cueOnce => u
        | .cue => u
        | .rowOnce h r => rowOnce h r u
        | .row h r => rowTurn h r u
        | .load h => loaderTurn h u := by
      funext u a
      cases a <;> rfl
    rw [settle_eq, turns, allTurns, ← List.append_assoc]
    rfl

end Sys2Proof.Machine
end

