-- ==== Sys2Proof/Proofs/FireStart.lean ====
section
/-! SUPPORT. The fire start of a due entry within the late limit and beyond it (R112, R113), the window length of a share
(R131), and the bits of a FIRE frame read back (R137). -/

namespace Sys2Proof.Machine

/-! ### The fire start -/

/-- The levels that a fire start finds in the buffered entry's share. -/
def firedShare (s : State) (h r : Nat) (e : Entry) : List Level :=
  (((headPlane s h).bind fun p => storedLine s p e).bind (lineShare s h r)).getD []

/-- The row after a fire start within the late limit: its window running, its FIRE frame sent (R113, R132). -/
def firedRow (s : State) (h r : Nat) (e : Entry) (seq : BitVec 8) : Row :=
  ⟨.empty, .firing (windowLength (bankAt s s.activeBank) (firedShare s h r e))
    ⟨seq, r, e.page, e.line, (bankAt s s.activeBank).recs⟩⟩

theorem firedShare_eq {s : State} {h r plane : Nat} {e : Entry} {l : StoredLine} {share : List Level}
    (head : headPlane s h = some plane) (stored : storedLine s plane e = some l)
    (composed : lineShare s h r l = some share) : firedShare s h r e = share := by
  simp [firedShare, head, stored, composed]

section
variable {s : State} {h r d : Nat} {e : Entry} {seq : BitVec 8} (full : rowAt s h r = some ⟨.full e seq, .idle⟩)
  (due : dueOf s h r e = some d) (reached : d ≤ s.hRaw / 4096)
include full due reached

theorem fireStart_inTime (inTime : s.hRaw / 4096 - d ≤ s.motionCfg.lateLimit) :
    fireStart h r s = retire .fired h r e (setRow h r (firedRow s h r e seq) s) := by
  have notEarly : ¬ s.hInt < d := Nat.not_lt.mpr reached
  have inTime : s.hInt - d ≤ s.motionCfg.lateLimit := inTime
  rw [fireStart, full]
  dsimp only
  rw [due]
  dsimp only
  rw [if_neg notEarly, if_pos inTime]
  rfl

theorem fireStart_late (late : s.motionCfg.lateLimit < s.hRaw / 4096 - d) :
    fireStart h r s = retire .overspeed h r e (setRow h r ⟨.empty, .idle⟩ s) := by
  have notEarly : ¬ s.hInt < d := Nat.not_lt.mpr reached
  have late : ¬ s.hInt - d ≤ s.motionCfg.lateLimit := Nat.not_le.mpr late
  rw [fireStart, full]
  dsimp only
  rw [due]
  dsimp only
  rw [if_neg notEarly, if_neg late]

end

/-- The retirement of a buffered entry leaves the row as it was set, and counts for the head (R116). -/
theorem retire_setRow {s : State} {h r plane : Nat} {e : Entry} {p : Page} {old : Row} (at_ : rowAt s h r = some old)
    (page : pageById s e.page = some p) (head : headPlane s h = some plane) (k : Kind) (row : Row) :
    rowAt (retire k h r e (setRow h r row s)) h r = some row
      ∧ look (headGroup (retire k h r e (setRow h r row s)) h) k.code 0
        = min 4294967295 (look (headGroup s h) k.code 0 + 1) := by
  refine ⟨(rowAt_of_rows (retire_rows ..) h r).trans (rowAt_setRow_same row at_), ?_⟩
  rw [retire_headCounter (s := setRow h r row s) k r (rowAt_some at_).1 page head, satAdd_eq]
  rfl

/-! ### The window length -/

/-- The greatest of a list is in it or 0, and nothing in it is above. -/
theorem foldl_max_zero (l : List Nat) : (l.foldl max 0 = 0 ∨ l.foldl max 0 ∈ l) ∧ ∀ x ∈ l, x ≤ l.foldl max 0 := by
  obtain ⟨mem, above⟩ := List.max?_eq_some_iff.mp (List.max?_cons' (x := 0) (xs := l))
  exact ⟨List.mem_cons.mp mem, fun x hx => above x (List.mem_cons_of_mem _ hx)⟩

/-- The level lengths that a window is long enough for. -/
def presentLengths (b : Bank) (share : List Level) : List Nat :=
  (share.filter (· ≠ 0)).map fun l => ((look b.recs (l.val - 1) none).map LevelRec.length).getD 0

theorem windowLength_eq (b : Bank) (share : List Level) :
    windowLength b share = b.settle + (presentLengths b share).foldl max 0 := rfl

section
variable {b : Bank} {len : Level → Nat} (lengths : ∀ l : Level, l ≠ 0 → ∃ x, look b.recs (l.val - 1) none = some x
  ∧ len l = if x.pre = 0 then x.main else x.pre + x.gap + x.main)
include lengths

theorem mem_presentLengths {share : List Level} {n : Nat} :
    n ∈ presentLengths b share ↔ ∃ l ∈ share, l ≠ 0 ∧ len l = n := by
  have read (l : Level) (ne : l ≠ 0) : ((look b.recs (l.val - 1) none).map LevelRec.length).getD 0 = len l := by
    obtain ⟨x, written, length⟩ := lengths l ne
    rw [written, length]
    rfl
  simp only [presentLengths, List.mem_map, List.mem_filter, decide_eq_true_eq, and_assoc]
  exact exists_congr fun l => and_congr_right fun _ => and_congr_right fun ne => by rw [read l ne]

/-- No window is shorter than the settle and the level length of a level present (R131). -/
theorem le_windowLength {share : List Level} {l : Level} (present : l ∈ share) (ne : l ≠ 0) :
    b.settle + len l ≤ windowLength b share :=
  Nat.add_le_add_left ((foldl_max_zero _).2 _ ((mem_presentLengths lengths).mpr ⟨l, present, ne, rfl⟩)) _

/-- A share with drops has a level of which the window is as long as it takes (R131). -/
theorem windowLength_attained {share : List Level} (drops : ∃ l ∈ share, l ≠ 0) :
    ∃ l ∈ share, l ≠ 0 ∧ windowLength b share = b.settle + len l := by
  obtain ⟨greatest, above⟩ := foldl_max_zero (presentLengths b share)
  have inShare : (presentLengths b share).foldl max 0 ∈ presentLengths b share := by
    refine greatest.elim (fun zero => ?_) id
    obtain ⟨l, present, ne⟩ := drops
    have mem := (mem_presentLengths lengths).mpr ⟨l, present, ne, rfl⟩
    rwa [zero, ← Nat.le_zero.mp (zero ▸ above _ mem)]
  obtain ⟨l, present, ne, length⟩ := (mem_presentLengths lengths).mp inShare
  exact ⟨l, present, ne, by rw [windowLength_eq, length]⟩

end

/-! ### Fields read back from a frame's bits -/

theorem msbBits_length (n x : Nat) : (msbBits n x).length = n := by simp [msbBits]

theorem bitsNat_msbBits {n x : Nat} (fits : x < 2 ^ n) : bitsNat (msbBits n x) = x := by
  induction n generalizing x with
  | zero => exact (Nat.lt_one_iff.mp fits).symm
  | succ n ih =>
    have last : msbBits 1 (x % 2) = [x.testBit 0] := by simp [msbBits]
    have split := msbBits_append (x / 2) (x % 2) n 1 (Nat.mod_lt x (by decide))
    rw [pow_one, Nat.div_add_mod', last] at split
    have front : (msbBits n (x / 2)).foldl (fun n b => 2 * n + b.toNat) 0 = x / 2 := ih (by omega)
    rw [split, bitsNat, List.foldl_append, front]
    rcases Nat.mod_two_eq_zero_or_one x with bit | bit
    · simp [Nat.testBit_zero, bit]; omega
    · simp [Nat.testBit_zero, bit]; omega

/-- A field is read back at the place where it begins. -/
theorem bitsNat_field {bits rest : List Bool} {i n x : Nat} (begins : bits.drop i = msbBits n x ++ rest)
    (fits : x < 2 ^ n) : bitsNat ((bits.drop i).take n) = x := by
  rw [begins, List.take_left' (msbBits_length n x), bitsNat_msbBits fits]

/-- The next field begins where one ends. -/
theorem drop_field {bits part rest : List Bool} {i j : Nat} (begins : bits.drop i = part ++ rest)
    (next : j = i + part.length) : bits.drop j = rest := by
  rw [next, ← List.drop_drop, begins, List.drop_left]

theorem laneHeader_length (kind : Nat) (seq : BitVec 8) (row page line : Nat) :
    (laneHeader kind seq row page line).length = 64 := by
  simp [laneHeader, msbBits_length]

/-- The header fields of LOAD, FIRE and PROBE at their places (R137). -/
theorem laneHeader_fields {bits rest : List Bool} {kind row page line : Nat} {seq : BitVec 8}
    (place : bits = laneHeader kind seq row page line ++ rest) (kind_ : kind < 2 ^ 8) (row_ : row < 2 ^ 8)
    (page_ : page < 2 ^ 16) (line_ : line < 2 ^ 24) :
    bitsNat ((bits.drop 0).take 8) = kind ∧ bitsNat ((bits.drop 8).take 8) = seq.toNat
      ∧ bitsNat ((bits.drop 16).take 8) = row ∧ bitsNat ((bits.drop 24).take 16) = page
      ∧ bitsNat ((bits.drop 40).take 24) = line := by
  simp only [laneHeader, List.append_assoc] at place
  have atSeq := drop_field (i := 0) (j := 8) place (by rw [msbBits_length])
  have atRow := drop_field (j := 16) atSeq (by rw [msbBits_length])
  have atPage := drop_field (j := 24) atRow (by rw [msbBits_length])
  have atLine := drop_field (j := 40) atPage (by rw [msbBits_length])
  exact ⟨bitsNat_field (i := 0) place kind_, bitsNat_field atSeq seq.isLt, bitsNat_field atRow row_,
    bitsNat_field atPage page_, bitsNat_field atLine line_⟩

/-- The check at a frame's end, over all bits before it (R137). -/
theorem withCheck_check {fields : List Bool} {n : Nat} (length : fields.length = n) :
    (withCheck fields).length = n + 32
      ∧ bitsNat (((withCheck fields).drop n).take 32) = (laneCrc32 ((withCheck fields).take n)).toNat := by
  refine ⟨by simp [withCheck, length, msbBits_length], ?_⟩
  rw [withCheck, List.take_left' length]
  exact bitsNat_field (rest := []) (by rw [List.drop_left' length, List.append_nil]) (laneCrc32 fields).isLt

/-- Among fields of one width, the field of each number stands at its multiple of the width. -/
theorem flatMap_place {α : Type} {l : List α} {g : α → List Bool} {w i : Nat} {x : α} (width : ∀ a, (g a).length = w)
    (at_ : l[i]? = some x) : ∃ pre post, l.flatMap g = pre ++ (g x ++ post) ∧ pre.length = w * i := by
  obtain ⟨lt, rfl⟩ := List.getElem?_eq_some_iff.mp at_
  refine ⟨(l.take i).flatMap g, (l.drop (i + 1)).flatMap g, ?_, ?_⟩
  · rw [← List.flatMap_cons, ← List.flatMap_append, ← List.drop_eq_getElem_cons lt, List.take_append_drop]
  · simp [List.length_flatMap, width, Nat.min_eq_left lt.le, Nat.mul_comm]

theorem recBits_length (x : Option LevelRec) : (recBits x).length = 24 := by
  cases x <;> simp [recBits, msbBits_length]

theorem recordBits_length (recs : Vector (Option LevelRec) 3) : (recs.toList.flatMap recBits).length = 72 := by
  simp [List.length_flatMap, recBits_length]

/-- The fields of a FIRE frame before its check. -/
def FireFrame.fields (f : FireFrame) : List Bool :=
  laneHeader 2 f.seq f.row f.page f.line ++ f.recs.toList.flatMap recBits

theorem FireFrame.fields_length (f : FireFrame) : f.fields.length = 136 := by
  rw [FireFrame.fields, List.length_append, laneHeader_length, recordBits_length]

/-- A FIRE frame carries each WRITTEN record's three bytes at its place (R132, R137). -/
theorem FireFrame.record_bits (f : FireFrame) {i : Nat} {x : LevelRec} (written : look f.recs i none = some x)
    (pre_ : x.pre < 2 ^ 8) (gap_ : x.gap < 2 ^ 8) (main_ : x.main < 2 ^ 8) :
    bitsNat ((f.bits.drop (64 + 24 * i)).take 8) = x.pre ∧ bitsNat ((f.bits.drop (72 + 24 * i)).take 8) = x.gap
      ∧ bitsNat ((f.bits.drop (80 + 24 * i)).take 8) = x.main := by
  have at_ : f.recs.toList[i]? = some (some x) := by
    have inside : f.recs[i]? = some (some x) := by
      cases read : f.recs[i]? with
      | none => simp [look, read] at written
      | some y => rw [look, read] at written; exact congrArg some written
    simpa using inside
  obtain ⟨before, after, records, length⟩ := flatMap_place recBits_length at_
  have atPre : f.bits.drop (64 + 24 * i) = msbBits 8 x.pre ++ (msbBits 8 x.gap ++ (msbBits 8 x.main ++
      (after ++ msbBits 32 (laneCrc32 f.fields).toNat))) := by
    have place : f.bits.drop 0 = laneHeader 2 f.seq f.row f.page f.line ++ before ++ (recBits (some x) ++
        (after ++ msbBits 32 (laneCrc32 f.fields).toNat)) := by
      rw [List.drop_zero, FireFrame.bits, withCheck, ← FireFrame.fields, FireFrame.fields, records]
      simp only [List.append_assoc]
    rw [drop_field place (by rw [List.length_append, laneHeader_length, length, Nat.zero_add])]
    simp only [recBits, List.append_assoc]
  have atGap := drop_field (j := 72 + 24 * i) atPre (by rw [msbBits_length]; omega)
  have atMain := drop_field (j := 80 + 24 * i) atGap (by rw [msbBits_length]; omega)
  exact ⟨bitsNat_field atPre pre_, bitsNat_field atGap gap_, bitsNat_field atMain main_⟩

/-! ### The statement -/

/-- Settles O42: the two outcomes of a fire start, when there is none, the window length, and the FIRE frame's bits. -/
theorem fireStartFiresOrOverspeeds : Obligations.FireStartFiresOrOverspeeds := by
  refine ⟨fun s h r e seq p plane d _ full page head due reached => ⟨fun inTime => ?_, fun late => ?_,
      rowFrame_closed.fireStart h r s⟩, fun s h r early => ?_, fun b share len lengths =>
      ⟨fun _ present ne => le_windowLength lengths present ne, windowLength_attained lengths⟩,
    fun f row page line => ?_⟩
  · have fired := fireStart_inTime full due reached inTime
    obtain ⟨at_, counted⟩ := retire_setRow full page head .fired (firedRow s h r e seq)
    rw [← fired] at at_ counted
    exact ⟨⟨_, at_, fired, fun l share stored composed => by rw [firedShare_eq head stored composed]⟩, counted⟩
  · have lost := fireStart_late full due reached late
    obtain ⟨at_, counted⟩ := retire_setRow full page head .overspeed ⟨.empty, .idle⟩
    rw [← lost] at at_ counted
    exact ⟨at_, lost, counted⟩
  · by_cases full : ∃ e seq, rowAt s h r = some ⟨.full e seq, .idle⟩
    · obtain ⟨e, seq, full⟩ := full
      exact fireStart_early full fun d due => early e seq d full due
    · exact fireStart_notFull fun e seq at_ => full ⟨e, seq, at_⟩
  · have bits : f.bits = laneHeader 2 f.seq f.row f.page f.line
        ++ (f.recs.toList.flatMap recBits ++ msbBits 32 (laneCrc32 f.fields).toNat) := by
      rw [← List.append_assoc]
      rfl
    obtain ⟨length, check⟩ := withCheck_check f.fields_length
    obtain ⟨kind, seq, row, page, line⟩ := laneHeader_fields bits (by decide) row page line
    exact ⟨length, kind, seq, row, page, line, fun i x written => f.record_bits written, check⟩

end Sys2Proof.Machine
end

