-- ==== Sys2Proof/Proofs/LoadEnds.lean ====
section
/-! SUPPORT. The end of a LOAD (R110, R111, R140, R144, R145, R151): how it counts toward health, what becomes of the
buffers, and which LOAD an idle loader begins (R108, R109). -/

namespace Sys2Proof.Machine

/-! ### Health (R143, R144) -/

theorem countHealth_eq {s : State} {h : Nat} {k : Health} (acked : Bool) (health : look s.health h none = some k) :
    countHealth h acked s = changeHealth h k (k.afterLoad acked) s := by
  rw [countHealth, health]

/-- A change of health is offered as HEAD_STATE when it is one of state (R144). -/
theorem changeHealth_offers (h : Nat) (old new : Health) (s : State) : changeHealth h old new s
    = if old.state = new.state then setHealth h new s
      else offered (.headState h old.state new.state new.counter) (setHealth h new s) := by
  rw [changeHealth, raise_offered]

/-- The end of a LOAD changes health and what `RowFrame` leaves open, no more. -/
theorem RowFrame.countHealth {s u : State} {h : Nat} {k : Health} (frame : RowFrame s u) (acked : Bool)
    (health : look s.health h none = some k) :
    RowFrame { s with health := put s.health h (some (k.afterLoad acked)) } (countHealth h acked u) := by
  have healthNow : look u.health h none = some k := by rw [frame.health, health]
  have moved : RowFrame { s with health := put s.health h (some (k.afterLoad acked)) }
      { u with health := put u.health h (some (k.afterLoad acked)) } :=
    { frame with health := congrArg (put · h (some (k.afterLoad acked))) frame.health }
  rw [countHealth_eq acked healthNow]
  exact moved.trans (changeHealth_frame ..)

theorem changeHealth_headCtrs (h : Nat) (old new : Health) (s : State) :
    (changeHealth h old new s).headCtrs = s.headCtrs := by
  unfold changeHealth
  split
  · rfl
  · exact raise_headCtrs ..

theorem TransfersKept.countHealth {s t : State} (kept : TransfersKept s t) (h : Nat) (acked : Bool) :
    TransfersKept s (countHealth h acked t) := by
  refine transfersKept_closed.trans kept (.of_ctrs ?_)
  unfold Machine.countHealth
  split
  · exact changeHealth_headCtrs ..
  · rfl

theorem healthBand_offline_iff {c : Nat} : healthBand c = .offline ↔ 255 < c := by
  unfold healthBand
  split
  · simp; omega
  · split
    · simp; omega
    · split <;> simp <;> omega

/-- A failed LOAD takes a head OFFLINE from a counter of 248 on (R143, R144). -/
theorem afterLoad_offline (k : Health) : (k.afterLoad false).state = .offline ↔ 248 ≤ k.counter := by
  refine healthBand_offline_iff.trans ?_
  show 255 < min 256 (k.counter + 8) ↔ _
  omega

theorem isOffline_countHealth {s u : State} {h : Nat} {k : Health} (frame : RowFrame s u) (lt : h < 24)
    (health : look s.health h none = some k) : isOffline (countHealth h false u) h = true ↔ 248 ≤ k.counter := by
  rw [isOffline, (frame.countHealth false health).health, look_put_same _ _ _ _ lt, Option.any_some, decide_eq_true_iff,
    afterLoad_offline]

/-! ### The end of a LOAD -/

section
variable {s u : State} {h : Nat} {k : Health} (frame : RowFrame s u) (health : look s.health h none = some k)
include frame health

theorem RowFrame.loadAcked (r : Nat) (seq : BitVec 8) :
    RowFrame { s with health := put s.health h (some (k.afterLoad true)) } (loadAcked h r seq u) := by
  have counted : RowFrame s (bumpHead h .transfers 1 u) := frame.trans (by constructor <;> rfl)
  have turned := (counted.trans (rowFrame_closed.bufferAcked h r seq _)).trans (rowFrame_closed.rowTurn h r _)
  exact (turned.countHealth true health).trans (rowFrame_closed.settle _)

theorem RowFrame.loadFailed (r : Nat) :
    RowFrame { s with health := put s.health h (some (k.afterLoad false)) } (loadFailed h r u) := by
  have counted : RowFrame s (bumpHead h .failures 1 (bumpHead h .transfers 1 u)) :=
    frame.trans (by constructor <;> rfl)
  have lost := (counted.trans (rowFrame_closed.bufferFailed h r _)).countHealth false health
  exact (RowClosed.ite (lost.trans (rowFrame_closed.enterOffline h _)) lost).trans (rowFrame_closed.settle _)

end

theorem loadAcked_transfers (h r : Nat) (seq : BitVec 8) (s : State) :
    TransfersKept (bumpHead h .transfers 1 s) (loadAcked h r seq s) :=
  transfersKept_closed.trans
    ((transfersKept_closed.trans (transfersKept_closed.bufferAcked h r seq _)
      (transfersKept_closed.rowTurn h r _)).countHealth h true)
    (transfersKept_closed.settle _)

theorem loadFailed_transfers (h r : Nat) (s : State) :
    TransfersKept (bumpHead h .failures 1 (bumpHead h .transfers 1 s)) (loadFailed h r s) := by
  have lost := (transfersKept_closed.bufferFailed h r (bumpHead h .failures 1 (bumpHead h .transfers 1 s))).countHealth
    h false
  exact transfersKept_closed.trans (RowClosed.ite (transfersKept_closed.trans lost
    (transfersKept_closed.enterOffline h _)) lost) (transfersKept_closed.settle _)

theorem HeadCtr.pos_lt (c : HeadCtr) : c.pos < 11 := by
  cases c with
  | retired k => exact Nat.lt_trans k.code_lt (by decide)
  | transfers => decide
  | failures => decide
  | probes => decide

theorem look_bumpHead_same {h : Nat} (lt : h < 24) (c : HeadCtr) (n : Nat) (s : State) :
    look (headGroup (bumpHead h c n s) h) c.pos 0 = min 4294967295 (look (headGroup s h) c.pos 0 + n) := by
  rw [headGroup_bumpHead _ _ _ _ _ lt, if_pos rfl, look_put_same _ _ _ _ c.pos_lt, satAdd_eq]

theorem look_bumpHead_other {h i : Nat} (lt : h < 24) {c : HeadCtr} (other : c.pos ≠ i) (n : Nat) (s : State) :
    look (headGroup (bumpHead h c n s) h) i 0 = look (headGroup s h) i 0 := by
  rw [headGroup_bumpHead _ _ _ _ _ lt, if_pos rfl, look_put_ne _ _ _ _ _ other]

/-- An acknowledged LOAD counts among the transfers only (R151). -/
theorem loadAcked_counters {h : Nat} (lt : h < 24) (r : Nat) (seq : BitVec 8) (s : State) :
    look (headGroup (loadAcked h r seq s) h) 8 0 = min 4294967295 (look (headGroup s h) 8 0 + 1)
      ∧ look (headGroup (loadAcked h r seq s) h) 9 0 = look (headGroup s h) 9 0 := by
  have kept := loadAcked_transfers h r seq s
  exact ⟨(kept h 8 (by decide)).trans (look_bumpHead_same lt .transfers 1 s),
    (kept h 9 (by decide)).trans (look_bumpHead_other lt (c := .transfers) (by decide) 1 s)⟩

/-- A failed LOAD counts among the transfers and the failures (R151). -/
theorem loadFailed_counters {h : Nat} (lt : h < 24) (r : Nat) (s : State) :
    look (headGroup (loadFailed h r s) h) 8 0 = min 4294967295 (look (headGroup s h) 8 0 + 1)
      ∧ look (headGroup (loadFailed h r s) h) 9 0 = min 4294967295 (look (headGroup s h) 9 0 + 1) := by
  have kept := loadFailed_transfers h r s
  refine ⟨(kept h 8 (by decide)).trans ?_, (kept h 9 (by decide)).trans ?_⟩
  · exact (look_bumpHead_other lt (c := .failures) (by decide) 1 _).trans (look_bumpHead_same lt .transfers 1 s)
  · refine (look_bumpHead_same lt .failures 1 _).trans ?_
    exact congrArg (fun x => min 4294967295 (x + 1)) (look_bumpHead_other lt (c := .transfers) (by decide) 1 s)

theorem headCounter_le {s : State} (ctrs : countersInv s) (h i : Nat) : look (headGroup s h) i 0 ≤ 4294967295 := by
  obtain ⟨-, -, -, heads, -⟩ := ctrs
  by_cases lt : h < 24
  · by_cases inside : i < 11
    · have := heads (s.headCtrs[h]) (by simp) (s.headCtrs[h][i]) (by simp)
      simpa [headGroup, look, lt, inside] using this
    · simp [look, inside]
  · have absent : headGroup s h = Vector.replicate 11 0 := by simp [headGroup, look, lt]
    rw [absent, look_replicate]
    exact Nat.zero_le _

/-- What follows a failed LOAD's buffer: health, then the FULL buffers of a head gone OFFLINE (R111, R145). -/
theorem loadFailed_settles {s : State} {h r : Nat} {k : Health} (lt : h < 24) (health : look s.health h none = some k) :
    let counted := countHealth h false (bufferFailed h r (bumpHead h .failures 1 (bumpHead h .transfers 1 s)))
    loadFailed h r s = settle (if 248 ≤ k.counter then enterOffline h counted else counted) := by
  have counted : RowFrame s (bumpHead h .failures 1 (bumpHead h .transfers 1 s)) := by constructor <;> rfl
  exact congrArg settle
    (if_congr (isOffline_countHealth (counted.trans (rowFrame_closed.bufferFailed h r _)) lt health) rfl rfl)

section
variable {s : State} {h r : Nat} {e : Entry} {spent : Bool} {fire : FireState}
  (loading : rowAt s h r = some ⟨.loading e spent, fire⟩)
include loading

/-- The buffer of an acknowledged LOAD: FULL, or EMPTY when it is spent (R110). -/
theorem loadAcked_eq (seq : BitVec 8) : loadAcked h r seq s = settle (countHealth h true (rowTurn h r
    (setRow h r ⟨if spent then .empty else .full e seq, fire⟩ (bumpHead h .transfers 1 s)))) := by
  have loading : rowAt (bumpHead h .transfers 1 s) h r = some ⟨.loading e spent, fire⟩ := loading
  rw [loadAcked, bufferAcked, loading]

/-- The buffer of a failed LOAD: EMPTY, its entry lost unless it is spent (R110). -/
theorem bufferFailed_eq : bufferFailed h r s
    = if spent then setRow h r ⟨.empty, fire⟩ s else retire .linkLoss h r e (setRow h r ⟨.empty, fire⟩ s) := by
  rw [bufferFailed, loading]

/-- A failed LOAD: its buffer, then health, then the FULL buffers of a head gone OFFLINE (R110, R111, R145). -/
theorem loadFailed_eq {k : Health} (lt : h < 24) (health : look s.health h none = some k) :
    let empty := setRow h r ⟨.empty, fire⟩ (bumpHead h .failures 1 (bumpHead h .transfers 1 s))
    let counted := countHealth h false (if spent then empty else retire .linkLoss h r e empty)
    loadFailed h r s = settle (if 248 ≤ k.counter then enterOffline h counted else counted) := by
  have loading : rowAt (bumpHead h .failures 1 (bumpHead h .transfers 1 s)) h r = some ⟨.loading e spent, fire⟩ :=
    loading
  rw [loadFailed_settles lt health, bufferFailed_eq loading]

end

/-! ### Answers and the timeout of a WAITING LOAD (R140) -/

theorem judge_acknowledged (t : Transfer) (load : t.carry.kindCode = 0x01#8) :
    judge t (0xA5#8 ++ t.seq ++ 0x01#8
      ++ laneCrc8 (msbBits 8 0xA5 ++ msbBits 8 t.seq.toNat ++ msbBits 8 1)) = .acknowledged := by
  refine (judge_wellFormed t 0xA5#8 t.seq 0x01#8 (.inl rfl)).trans ?_
  rw [if_neg (not_not.mpr rfl), if_neg (not_not.mpr load.symm), if_neg (by decide)]

theorem judge_failed {t : Transfer} {bits : BitVec 32} (fails : answerFails t.seq t.carry.kindCode bits) :
    judge t bits = .failed := by
  unfold answerFails at fails
  unfold judge
  dsimp only at fails ⊢
  by_cases check : laneCrc8 (msbBits 24 (bits.extractLsb' 8 24).toNat) ≠ bits.extractLsb' 0 8
  · rw [if_pos check]
  rw [if_neg check]
  by_cases code : bits.extractLsb' 24 8 ≠ 0xA5#8 ∧ bits.extractLsb' 24 8 ≠ 0x5A#8
  · rw [if_pos code]
  rw [if_neg code]
  obtain notFormed | ⟨own, wrong⟩ := fails
  · exact absurd ⟨not_not.mp check, by tauto⟩ notFormed
  · rw [if_neg (not_not.mpr own)]
    by_cases kind : bits.extractLsb' 8 8 ≠ t.carry.kindCode
    · rw [if_pos kind]
    · rw [if_neg kind, if_pos (wrong.resolve_left kind)]

/-- What ends a WAITING LOAD of sequence `seq` as failed: the timeout, or an answer that fails it. -/
def LoadFails (h lane : Nat) (seq : BitVec 8) (c : Instr) : Prop :=
  c = .ackTimeout h ∨ ∃ bits, answerFails seq 0x01#8 bits ∧ c = .headAnswer lane bits

section
variable {s : State} {h lane row timeout : Nat} {next seq : BitVec 8} {e : Entry} {share : List Level} {dl : List Nat}
  (run : s.engine = .run) (ret : look s.lanes lane ⟨.off, 0⟩ = ⟨.ret, h⟩)
  (link : look s.links h none = some ⟨dl, lane⟩)
  (waiting : look s.loaders h none = some ⟨next, some ⟨seq, .load row e share, .waiting timeout⟩⟩)
include waiting

theorem transferOf_waiting : transferOf s h = some ⟨seq, .load row e share, .waiting timeout⟩ := by
  rw [transferOf, waiting]
  rfl

theorem endTransfer_load (acked : Bool) :
    endTransfer h ⟨seq, .load row e share, .waiting timeout⟩ acked s
      = if acked then loadAcked h row seq (setLoader h ⟨next, none⟩ s)
        else loadFailed h row (setLoader h ⟨next, none⟩ s) := by
  rw [endTransfer, waiting]

include run ret link

theorem headAnswer_waiting (bits : BitVec 32) : headAnswer lane bits s
    = match judge ⟨seq, .load row e share, .waiting timeout⟩ bits with
      | .stale => s
      | .acknowledged => loadAcked h row seq (setLoader h ⟨next, none⟩ s)
      | .failed => loadFailed h row (setLoader h ⟨next, none⟩ s) := by
  rw [headAnswer, run, answeringHead_lane ret link]
  dsimp only
  rw [transferOf_waiting waiting]
  dsimp only
  rw [endTransfer_load waiting, endTransfer_load waiting]
  rfl

theorem exec_loadAcked : exec (.headAnswer lane (0xA5#8 ++ seq ++ 0x01#8
      ++ laneCrc8 (msbBits 8 0xA5 ++ msbBits 8 seq.toNat ++ msbBits 8 1))) s
    = .next (loadAcked h row seq (setLoader h ⟨next, none⟩ s)) := by
  refine congrArg Host.Outcome.next ((headAnswer_waiting run ret link waiting _).trans ?_)
  rw [judge_acknowledged ⟨seq, .load row e share, .waiting timeout⟩ rfl]

theorem exec_loadFails {c : Instr} (fails : LoadFails h lane seq c) :
    exec c s = .next (loadFailed h row (setLoader h ⟨next, none⟩ s)) := by
  obtain rfl | ⟨bits, failed, rfl⟩ := fails
  · refine congrArg Host.Outcome.next ?_
    rw [ackTimeout, transferOf_waiting waiting]
    exact endTransfer_load waiting false
  · refine congrArg Host.Outcome.next ((headAnswer_waiting run ret link waiting _).trans ?_)
    rw [judge_failed (t := ⟨seq, .load row e share, .waiting timeout⟩) failed]

end

/-! ### The FULL buffers of a head gone OFFLINE (R111) -/

/-- What a head gone OFFLINE leaves of a buffer. -/
def LoadBuf.afterOffline : LoadBuf → LoadBuf
  | .full _ _ => .empty
  | .empty => .empty
  | .loading e spent => .loading e spent

theorem rowAt_loseFull_same {s : State} {h r : Nat} {row : Row} (at_ : rowAt s h r = some row) :
    rowAt (loseFull h r s) h r = some ⟨row.buf.afterOffline, row.fire⟩ := by
  obtain ⟨buf, fire⟩ := row
  rw [loseFull, at_]
  cases buf with
  | full e seq => exact (rowAt_of_rows (retire_rows ..) h r).trans (rowAt_setRow_same _ at_)
  | empty => exact at_
  | loading e spent => exact at_

theorem rowAt_loseFull_other {h q r : Nat} (s : State) (other : q ≠ r) : rowAt (loseFull h q s) h r = rowAt s h r := by
  unfold loseFull
  split
  · exact (rowAt_of_rows (retire_rows ..) h r).trans (rowAt_setRow_other _ _ _ _ _ _ fun own => other own.2)
  · rfl

theorem rowAt_loseAll_other {h r : Nat} {rows : List Nat} (others : r ∉ rows) (s : State) :
    rowAt (rows.foldl (fun s q => loseFull h q s) s) h r = rowAt s h r := by
  induction rows generalizing s with
  | nil => rfl
  | cons q rows ih =>
    obtain ⟨ne, others⟩ := List.ne_and_not_mem_of_not_mem_cons others
    exact (ih others _).trans (rowAt_loseFull_other s ne.symm)

theorem rowAt_enterOffline {s : State} {h r : Nat} {row : Row} (at_ : rowAt s h r = some row) :
    rowAt (enterOffline h s) h r = some ⟨row.buf.afterOffline, row.fire⟩ := by
  obtain ⟨-, inside⟩ := rowAt_some at_
  obtain ⟨before, after, rows⟩ := List.append_of_mem (List.mem_range.mpr inside)
  have apart : (before ++ r :: after).Nodup := rows ▸ List.nodup_range
  obtain ⟨notBefore, notAfter⟩ : r ∉ before ∧ r ∉ after := by
    simpa [not_or] using (List.nodup_middle.mp apart).notMem
  rw [enterOffline, rows, List.foldl_append, List.foldl_cons, rowAt_loseAll_other notAfter,
    rowAt_loseFull_same ((rowAt_loseAll_other notBefore s).trans at_)]

/-- A row as a FULL buffer's loss finds it: the state `s` that the head went OFFLINE in still says what it holds. -/
def loseFullOf (s : State) (h : Nat) (u : State) (r : Nat) : State :=
  match rowAt s h r with
  | some ⟨.full e _, fire⟩ => retire .linkLoss h r e (setRow h r ⟨.empty, fire⟩ u)
  | _ => u

theorem loseFull_of_same {s u : State} {h r : Nat} (same : rowAt u h r = rowAt s h r) :
    loseFull h r u = loseFullOf s h u r := by
  rw [loseFull, same]
  rfl

theorem loseAll_eq {s : State} {h : Nat} {rows : List Nat} (apart : rows.Nodup) {u : State}
    (same : ∀ r ∈ rows, rowAt u h r = rowAt s h r) :
    rows.foldl (fun u r => loseFull h r u) u = rows.foldl (loseFullOf s h) u := by
  induction rows generalizing u with
  | nil => rfl
  | cons q rows ih =>
    obtain ⟨notIn, apart⟩ := List.nodup_cons.mp apart
    rw [List.foldl_cons, List.foldl_cons, ← loseFull_of_same (same q List.mem_cons_self)]
    refine ih apart fun r hr => ?_
    have ne : q ≠ r := fun eq => notIn (eq ▸ hr)
    exact (rowAt_loseFull_other u ne).trans (same r (List.mem_cons_of_mem _ hr))

/-! ### The loader's choice (R108, R109) -/

/-- The entry `e` of row `r` with due `d` and a share that is not empty can be loaded (R108). -/
def Eligible (s : State) (h r d : Nat) (e : Entry) (share : List Level) : Prop :=
  ∃ fire plane l, rowAt s h r = some ⟨.empty, fire⟩ ∧ nextEntry s h r = some e ∧ dueOf s h r e = some d
    ∧ headPlane s h = some plane ∧ storedLine s plane e = some l ∧ lineShare s h r l = some share ∧ ∃ x ∈ share, x ≠ 0

theorem shareEmpty_eq_false_iff {share : List Level} : shareEmpty share = false ↔ ∃ x ∈ share, x ≠ 0 := by
  rw [Bool.eq_false_iff, ne_eq, shareEmpty_iff]
  push Not
  rfl

theorem candidate_of_eligible {s : State} {h r d : Nat} {e : Entry} {share : List Level}
    (eligible : Eligible s h r d e share) : candidate s h r = some ⟨d, r, e, share⟩ := by
  obtain ⟨fire, plane, l, at_, next, due, head, stored, composed, drops⟩ := eligible
  simp [candidate, at_, next, due, head, stored, composed, shareEmpty_eq_false_iff.mpr drops]

theorem eligible_of_candidate {s : State} {h r : Nat} {c : Candidate} (chosen : candidate s h r = some c) :
    c.row = r ∧ Eligible s h r c.due c.entry c.share := by
  unfold candidate at chosen
  split at chosen
  · next fire e at_ next =>
    split at chosen
    · next d share due stored =>
      split at chosen
      · cases chosen
      · next drops =>
        obtain rfl := Option.some.inj chosen
        obtain ⟨l, stored, composed⟩ := Option.bind_eq_some_iff.mp stored
        obtain ⟨plane, head, stored⟩ := Option.bind_eq_some_iff.mp stored
        exact ⟨rfl, fire, plane, l, at_, next, due, head, stored, composed,
          shareEmpty_eq_false_iff.mp (Bool.eq_false_iff.mpr drops)⟩
    · cases chosen
  · cases chosen

/-- Of candidates in rising rows, the one of least due, and of equal dues in the lowest row, is chosen. -/
theorem leastDue_eq {cs : List Candidate} {c : Candidate} (rising : cs.Pairwise fun a b => a.row < b.row) (mem : c ∈ cs)
    (least : ∀ a ∈ cs, c.due < a.due ∨ (c.due = a.due ∧ c.row ≤ a.row)) : leastDue cs = some c := by
  induction cs with
  | nil => cases mem
  | cons a cs ih =>
    obtain ⟨above, rising⟩ := List.pairwise_cons.mp rising
    unfold leastDue
    rcases List.mem_cons.mp mem with rfl | mem
    · split
      · next b chosen =>
        have := least b (List.mem_cons_of_mem _ (leastDue_mem chosen))
        rw [if_neg (by omega)]
      · rfl
    · rw [ih rising mem fun b hb => least b (List.mem_cons_of_mem _ hb)]
      have := least a List.mem_cons_self
      have := above c mem
      exact if_pos (by omega)

/-- The candidates that a loader chooses among. -/
def candidates (s : State) (h : Nat) : List Candidate := (List.range (rowsOf s h).length).filterMap (candidate s h)

theorem mem_candidates {s : State} {h : Nat} {c : Candidate} :
    c ∈ candidates s h ↔ Eligible s h c.row c.due c.entry c.share := by
  refine ⟨fun mem => ?_, fun eligible => ?_⟩
  · obtain ⟨r, -, chosen⟩ := List.mem_filterMap.mp mem
    obtain ⟨rfl, eligible⟩ := eligible_of_candidate chosen
    exact eligible
  · have chosen := candidate_of_eligible eligible
    obtain ⟨fire, -, -, at_, -⟩ := eligible
    exact List.mem_filterMap.mpr ⟨c.row, List.mem_range.mpr (rowAt_some at_).2, chosen⟩

theorem candidates_rising (s : State) (h : Nat) : (candidates s h).Pairwise fun a b => a.row < b.row := by
  refine List.pairwise_filterMap.mpr (List.pairwise_lt_range.imp fun {q r} lt a ha b hb => ?_)
  rwa [(eligible_of_candidate ha).1, (eligible_of_candidate hb).1]

theorem composeNext_loaders (h r : Nat) (s : State) : (composeNext h r s).loaders = s.loaders := by
  have composed (p : Nat) (l : StoredLine) : (composeLine p l s).loaders = s.loaders := by
    unfold composeLine
    split <;> rfl
  unfold composeNext
  split
  · split
    · exact composed ..
    · rfl
  · rfl

section
variable {s : State} {h : Nat} {seq : BitVec 8} (idle : look s.loaders h none = some ⟨seq, none⟩)
include idle

/-- Out of service or with nothing eligible a loader begins nothing. -/
theorem loaderTurn_none (nothing : available s h = false ∨ ∀ r d e share, ¬ Eligible s h r d e share) :
    loaderTurn h s = s := by
  rw [loaderTurn, idle]
  rcases nothing with out | nothing
  · simp [out]
  · have empty : candidates s h = [] := List.eq_nil_iff_forall_not_mem.mpr fun c mem =>
      nothing _ _ _ _ (mem_candidates.mp mem)
    rw [candidates] at empty
    rw [empty]
    exact ite_self s

/-- In service a loader begins the LOAD of the eligible entry of least due, of equal dues that of the lowest row. -/
theorem loaderTurn_least {c : Candidate} (serves : available s h = true) (eligible : c ∈ candidates s h)
    (least : ∀ a ∈ candidates s h, c.due < a.due ∨ (c.due = a.due ∧ c.row ≤ a.row)) :
    loaderTurn h s = beginLoad h c ⟨seq, none⟩ s := by
  have chosen := leastDue_eq (candidates_rising s h) eligible least
  rw [candidates] at chosen
  rw [loaderTurn, idle]
  dsimp only
  rw [if_pos serves, chosen]

end

theorem loaderTurn_busy {s : State} {h : Nat} {t : Transfer} (busy : transferOf s h = some t) : loaderTurn h s = s := by
  unfold loaderTurn
  split
  · next idle => simp [transferOf, idle] at busy
  · rfl

/-- The loader at the beginning of a transfer: the sequence number taken, the transfer SENDING for its time (R138,
R139). -/
theorem beginTransfer_loader {s : State} {h lane : Nat} {l : Loader} {dl : List Nat} {cfg : HeadCfg} (lt : h < 24)
    (carry : Carry) (link : look s.links h none = some ⟨dl, lane⟩) (head : look s.heads h none = some cfg) :
    look (beginTransfer h carry l s).loaders h none = some ⟨l.seq + 1, some ⟨l.seq, carry,
      .sending (transferTime carry.frameBits dl.length cfg.rate
        (decide ((look s.health h none).map Health.state = some .degraded)))⟩⟩ := by
  have degraded : isDegraded s h = decide ((look s.health h none).map Health.state = some .degraded) := by
    rw [isDegraded]
    cases look s.health h none <;> simp
  simp only [beginTransfer, loader_setLoader _ _ _ _ lt, if_true, link, head, degraded, Option.map_some,
    Option.getD_some]

/-- A LOAD begun: the row's buffer LOADING, every other row as it was, the loader busy with it (R109, R138). -/
theorem beginLoad_spec {s : State} {h lane : Nat} {c : Candidate} {l : Loader} {row : Row} {dl : List Nat}
    {cfg : HeadCfg} (at_ : rowAt s h c.row = some row) (link : look s.links h none = some ⟨dl, lane⟩)
    (head : look s.heads h none = some cfg) :
    rowAt (beginLoad h c l s) h c.row = some ⟨.loading c.entry false, row.fire⟩
      ∧ look (beginLoad h c l s).loaders h none = some ⟨l.seq + 1, some ⟨l.seq, .load c.row c.entry c.share,
          .sending (transferTime (64 + 2 * c.share.length + 32) dl.length cfg.rate
            (decide ((look s.health h none).map Health.state = some .degraded)))⟩⟩
      ∧ ∀ h' r', (h', r') ≠ (h, c.row) → rowAt (beginLoad h c l s) h' r' = rowAt s h' r' := by
  have begun : beginLoad h c l s = composeNext h c.row (beginTransfer h (.load c.row c.entry c.share) l
      (setRow h c.row { row with buf := .loading c.entry false } s)) := by rw [beginLoad, at_]
  have rows (h' r' : Nat) : rowAt (beginLoad h c l s) h' r'
      = rowAt (setRow h c.row { row with buf := .loading c.entry false } s) h' r' := by
    rw [begun]
    exact rowAt_of_rows (SameRun.composeNext ..).rows h' r'
  refine ⟨(rows h c.row).trans (rowAt_setRow_same _ at_), ?_, fun h' r' other => (rows h' r').trans ?_⟩
  · rw [begun, composeNext_loaders]
    exact beginTransfer_loader (s := setRow h c.row { row with buf := .loading c.entry false } s) (rowAt_some at_).1
      _ link head
  · exact rowAt_setRow_other _ _ _ _ _ _ fun own => other (by rw [own.1, own.2])

/-! ### The statement -/

/-- Settles O48: health and counters at the end of a LOAD, what it does act by act, the FULL buffers of a head gone
OFFLINE, and the loader's choice. -/
theorem loadEndsCountTowardHealth : Obligations.LoadEndsCountTowardHealth := by
  refine ⟨fun s h lane row next seq e share timeout k dl lt run ret link waiting health => ⟨fun _ _ ctrs => ?_,
      fun entry spent fire loading => ?_⟩, fun s h acked k health => ⟨rfl, ?_⟩, fun s h => ?_, fun s h r row at_ => ?_,
    fun s h seq idle => ⟨loaderTurn_none idle, fun r d e share row dl lane c serves eligible least at_ link head => ?_⟩,
    fun s h t busy => loaderTurn_busy busy⟩
  · have idle : RowFrame s (setLoader h ⟨next, none⟩ s) := rowFrame_closed.setLoader ..
    obtain ⟨ackTransfers, ackFailures⟩ := loadAcked_counters lt row seq (setLoader h ⟨next, none⟩ s)
    obtain ⟨transfers, failures⟩ := loadFailed_counters lt row (setLoader h ⟨next, none⟩ s)
    refine ⟨⟨_, exec_loadAcked run ret link waiting, idle.loadAcked health row seq, ackTransfers, ackFailures.trans ?_⟩,
      fun c fails => ⟨_, exec_loadFails run ret link waiting fails, idle.loadFailed health row, transfers, failures⟩⟩
    exact (Nat.min_eq_right (headCounter_le ctrs h 9)).symm
  · exact ⟨(exec_loadAcked run ret link waiting).trans
        (congrArg Host.Outcome.next (loadAcked_eq (s := setLoader h ⟨next, none⟩ s) loading seq)),
      fun c fails => (exec_loadFails run ret link waiting fails).trans
        (congrArg Host.Outcome.next (loadFailed_eq (s := setLoader h ⟨next, none⟩ s) loading lt health))⟩
  · rw [countHealth_eq acked health, changeHealth_offers]
    rfl
  · exact loseAll_eq List.nodup_range fun _ _ => rfl
  · rw [rowAt_enterOffline at_]
    rfl
  · have chosen : loaderTurn h s = beginLoad h ⟨d, r, e, share⟩ ⟨seq, none⟩ s :=
      loaderTurn_least idle serves (mem_candidates.mpr eligible) fun a mem => least _ _ _ _ (mem_candidates.mp mem)
    obtain ⟨own, loader, others⟩ := beginLoad_spec (c := ⟨d, r, e, share⟩) (l := ⟨seq, none⟩) at_ link head
    exact ⟨by rw [chosen, own], by rw [chosen, loader], fun h' r' other => by rw [chosen, others h' r' other],
      rowFrame_closed.loaderTurn h s⟩

end Sys2Proof.Machine
end

