-- ==== Sys2Proof/Proofs/SettingsFrame.lean ====
section
/-! SUPPORT. What the Link Port, page requests, storings, transfers and fire windows leave alone, in one relation: engine
state, configuration, position, tracker, nozzle map and waveform banks. -/

namespace Sys2Proof.Machine

/-- `RowFrame` but for the Link Port's own registers and the health of heads: what a command that sets none of engine
state, configuration, position, tracker, nozzle map, banks and MOTION counters leaves alone. -/
abbrev SettingsFrame (s t : State) : Prop :=
  RowFrame { s with rx := t.rx, ctlWaiting := t.ctlWaiting, dataWaiting := t.dataWaiting, handler := t.handler
                    sending := t.sending, resetSent := t.resetSent, health := t.health } t

namespace SettingsFrame

theorem of_row {s t : State} (a : RowFrame s t) : SettingsFrame s t :=
  { a with rx := rfl, ctlWaiting := rfl, dataWaiting := rfl, handler := rfl, sending := rfl, resetSent := rfl
           health := rfl }

theorem refl (s : State) : SettingsFrame s s := .of_row (.refl s)

theorem trans {s t u : State} (a : SettingsFrame s t) (b : SettingsFrame t u) : SettingsFrame s u :=
  RowFrame.trans (t := { t with rx := u.rx, ctlWaiting := u.ctlWaiting, dataWaiting := u.dataWaiting
                                handler := u.handler, sending := u.sending, resetSent := u.resetSent
                                health := u.health })
    { a with rx := rfl, ctlWaiting := rfl, dataWaiting := rfl, handler := rfl, sending := rfl, resetSent := rfl
             health := rfl } b

/-- Any update of the Link Port's registers, its counters and the outgoing order. -/
theorem link (rx ctl data handler out sending sent ctrs) (s : State) : SettingsFrame s { s with
    rx := rx, ctlWaiting := ctl, dataWaiting := data, handler := handler, outgoing := out, sending := sending
    resetSent := sent, linkCtrs := ctrs } := by constructor <;> rfl

end SettingsFrame

theorem settingsFrame_closed : PageClosed SettingsFrame where
  refl := .refl
  trans := .trans
  raise e s := .of_row (rowFrame_closed.raise e s)
  planeCtr p c x s h := .of_row (rowFrame_closed.planeCtr p c x s h)
  bumpHead h c n s := .of_row (rowFrame_closed.bumpHead h c n s)
  rows rs s := .of_row (rowFrame_closed.rows rs s)
  report p k h r n pl s hp := .of_row (rowFrame_closed.report p k h r n pl s hp)
  dropPage id s := .of_row (rowFrame_closed.dropPage id s)
  lines p ls s h := .of_row (rowFrame_closed.lines p ls s h)
  loaders ls s := .of_row (rowFrame_closed.loaders ls s)
  sched l s := .of_row (rowFrame_closed.sched l s)
  pages ps te tp s := .of_row (rowFrame_closed.pages ps te tp s)

namespace SettingsFrame

/-- A reply to what an act has made of the state. -/
theorem answered {s t : State} (act : SettingsFrame s t) (f : HostFrame) (st : Status) (b : List Byte) :
    SettingsFrame s (answer f st b t) := act.trans (link ..)

/-! ### The Link Port -/

theorem takeNext (s : State) : SettingsFrame s (takeNext s) := by
  rcases takeNext_cases s with h | ⟨f, rest, h⟩ | ⟨f, rest, h⟩ <;> rw [h]
  · exact refl s
  · exact link ..
  · exact link ..

theorem acceptFrame (f : HostFrame) (s : State) : SettingsFrame s (acceptFrame f s) := by
  have accepted (ctl data : List HostFrame) :
      SettingsFrame s (bumpLink .goodFrames 1 (Machine.takeNext { s with ctlWaiting := ctl, dataWaiting := data })) :=
    trans (link ..) (trans (takeNext _) (link ..))
  have refused (st : Status) (c : LinkCtr) : SettingsFrame s (refuseArrival f st c s) :=
    RowClosed.ite (link ..) (link ..)
  unfold Machine.acceptFrame
  split
  · exact RowClosed.ite (accepted _ _) (refused ..)
  · exact RowClosed.ite (accepted _ _) (refused ..)

theorem frameArrived (covered check : List Byte) (s : State) : SettingsFrame s (frameArrived covered check s) := by
  unfold Machine.frameArrived
  refine RowClosed.ite (link ..) ?_
  dsimp only
  split
  · exact link ..
  · exact trans (link ..) (acceptFrame _ { s with rx := .expecting })

theorem rxByte (b : Byte) (s : State) : SettingsFrame s (rxByte b s) := by
  have hunted (skipped sync1 : Bool) : SettingsFrame s (huntByte skipped sync1 b s) :=
    RowClosed.ite (RowClosed.ite (link ..) (link ..)) (RowClosed.ite (link ..) (link ..))
  unfold Machine.rxByte
  split
  case h_1 => exact hunted ..
  case h_2 => exact RowClosed.ite (link ..) (hunted ..)
  case h_3 => exact RowClosed.ite (link ..) (hunted ..)
  case h_4 => exact RowClosed.ite (link ..) (RowClosed.ite (link ..) (link ..))
  case h_5 => exact RowClosed.ite (frameArrived ..) (link ..)

theorem frameSent (s : State) : SettingsFrame s (beginSending (finishSending s)) := by
  have finished : SettingsFrame s (finishSending s) := by unfold finishSending; split <;> exact link ..
  refine finished.trans ?_
  unfold beginSending
  refine RowClosed.ite (refl _) ?_
  split
  · exact refl _
  · exact link ..
  · exact link ..

/-! ### Requests -/

/-- A request's row as a whole, by what its owning rule leaves alone. -/
theorem ofRule {q : Req} {act : HostFrame → State → State} (keeps : ∀ f s, SettingsFrame s (act f s)) (s : State) :
    SettingsFrame s (handleRequest q act s) := by
  have freed : SettingsFrame s { s with handler := .free } := link ..
  rcases handleRequest_cases q act s with h | ⟨f, -, -, ⟨-, h⟩ | ⟨-, -, h⟩ | ⟨-, -, h⟩⟩ <;> rw [h]
  · exact refl s
  · exact (freed.answered ..).trans (takeNext _)
  · exact (freed.answered ..).trans (takeNext _)
  · exact (freed.trans (keeps f _)).trans (takeNext _)

theorem engineHalt (f : HostFrame) (s : State) : SettingsFrame s (engineHalt f s) := by
  have cut : SettingsFrame s (mapBufs LoadBuf.cut (s.pages.foldl haltPage s)) :=
    trans (settingsFrame_closed.foldl settingsFrame_closed.haltPage s.pages s) (settingsFrame_closed.mapBufs ..)
  unfold Machine.engineHalt
  dsimp only
  generalize mapBufs LoadBuf.cut (s.pages.foldl haltPage s) = t at cut
  exact cut.trans (by constructor <;> rfl)

theorem pageOpen (f : HostFrame) (s : State) : SettingsFrame s (pageOpen f s) := by
  have refused (st : Status) (b : List Byte) : SettingsFrame s (answer f st b s) := link ..
  unfold Machine.pageOpen
  split
  · exact refused ..
  · exact RowClosed.ite (refused ..) (RowClosed.ite (refused ..)
      (answered (trans (settingsFrame_closed.pages ..) (settingsFrame_closed.bindFollows ..)) ..))

theorem pageCancel (f : HostFrame) (s : State) : SettingsFrame s (pageCancel f s) := by
  unfold Machine.pageCancel
  split
  · exact link ..
  · exact RowClosed.ite (answered (settingsFrame_closed.cancelQueued ..) ..)
      (answered (settingsFrame_closed.cancelBound ..) ..)

theorem setHealth (h : Nat) (k : Health) (s : State) : SettingsFrame s (setHealth h k s) := by constructor <;> rfl

theorem changeHealth (h : Nat) (old new : Health) (s : State) : SettingsFrame s (changeHealth h old new s) :=
  trans (setHealth h new s) (of_row (changeHealth_frame ..))

theorem headRestore (f : HostFrame) (s : State) : SettingsFrame s (headRestore f s) := by
  unfold Machine.headRestore
  dsimp only
  split
  · exact RowClosed.ite (answered (trans (changeHealth ..) (settingsFrame_closed.beginProbe ..)) ..) (link ..)
  · exact link ..

theorem band (f : HostFrame) (s : State) : SettingsFrame s (band f s) := by
  unfold Machine.band
  dsimp only
  split
  case h_4 => exact answered (settingsFrame_closed.bumpPlane ..) ..
  all_goals exact link ..

/-! ### The ends of storings and transfers -/

theorem joinLines (op : Storing) (joined : List StoredLine) (s : State) : SettingsFrame s (joinLines op joined s) := by
  have peak (u : State) : SettingsFrame u (updatePeak op.plane u) := by constructor <;> rfl
  have placed : SettingsFrame s (bumpPlane op.plane .discardedLate (op.lines.length - joined.length)
      (bumpPlane op.plane .linesStored joined.length (setLines op.plane (linesOf s op.plane ++ joined) s))) := by
    constructor <;> rfl
  exact placed.trans (trans (settingsFrame_closed.advancePointer op _) (peak _))

theorem storingEnd (s : State) : SettingsFrame s (storingEnd s) := by
  unfold Machine.storingEnd
  split
  · next op _ =>
    have freed : SettingsFrame s { s with handler := .free } := link ..
    have ended := freed.trans (trans (joinLines op (joiningLines s op) _) (settingsFrame_closed.settle _))
    exact trans (answered ended ..) (takeNext _)
  · exact refl s

theorem countHealth (h : Nat) (acked : Bool) (s : State) : SettingsFrame s (countHealth h acked s) := by
  unfold Machine.countHealth
  split
  · exact changeHealth ..
  · exact refl s

theorem bumpHead (h : Nat) (c : HeadCtr) (n : Nat) (s : State) : SettingsFrame s (bumpHead h c n s) := by
  constructor <;> rfl

theorem loadAcked (h r : Nat) (seq : BitVec 8) (s : State) : SettingsFrame s (loadAcked h r seq s) :=
  trans (bumpHead ..) (trans (settingsFrame_closed.bufferAcked ..) (trans (settingsFrame_closed.rowTurn ..)
    (trans (countHealth ..) (settingsFrame_closed.settle _))))

theorem loadFailed (h r : Nat) (s : State) : SettingsFrame s (loadFailed h r s) := by
  have lost := trans (bumpHead h .transfers 1 s) (trans (bumpHead h .failures 1 _)
    (trans (settingsFrame_closed.bufferFailed h r _) (countHealth h false _)))
  exact trans (RowClosed.ite (lost.trans (settingsFrame_closed.enterOffline ..)) lost) (settingsFrame_closed.settle _)

theorem probeAcked (h : Nat) (s : State) : SettingsFrame s (probeAcked h s) := by
  unfold Machine.probeAcked
  split
  · exact RowClosed.ite (trans (changeHealth ..) (settingsFrame_closed.settle _))
      (trans (setHealth ..) (settingsFrame_closed.beginProbe ..))
  · exact refl s

theorem probeFailed (h : Nat) (s : State) : SettingsFrame s (probeFailed h s) := by
  unfold Machine.probeFailed
  split
  · exact changeHealth ..
  · exact refl s

theorem endTransfer (h : Nat) (t : Transfer) (acked : Bool) (s : State) :
    SettingsFrame s (endTransfer h t acked s) := by
  unfold Machine.endTransfer
  split
  · exact refl s
  · next l _ =>
    refine trans (settingsFrame_closed.setLoader h ⟨l.seq, none⟩ s) ?_
    dsimp only
    split
    · exact RowClosed.ite (loadAcked ..) (loadFailed ..)
    · exact trans (bumpHead ..) (RowClosed.ite (probeAcked ..) (probeFailed ..))

theorem headAnswer (lane : Nat) (bits : BitVec 32) (s : State) : SettingsFrame s (headAnswer lane bits s) := by
  unfold Machine.headAnswer
  split
  · split
    · dsimp only
      split
      · exact refl s
      · exact endTransfer ..
      · exact endTransfer ..
    · exact refl s
  · exact refl s

theorem ackTimeout (h : Nat) (s : State) : SettingsFrame s (ackTimeout h s) := by
  unfold Machine.ackTimeout
  split
  · exact endTransfer ..
  · exact refl s

end SettingsFrame

/-- The commands that set engine state, configuration, position, tracker, nozzle map, banks or MOTION counters. -/
def setsSettings : Instr → Bool
  | .powerOn | .softReset | .statsRead | .setPlaneSet | .setPlaneRemove | .setHeadSet | .setHeadRemove | .setLane
  | .setMotion | .setCue | .engineStart | .engineStop | .nozzleMark | .nozzleClear | .waveErase | .waveLoad
  | .waveSelect | .encoderChange _ _ | .paceExpiry | .cueEdge => true
  | _ => false

/-- Every other command leaves them all alone. -/
theorem exec_settingsFrame {c : Instr} (aside : setsSettings c = false) (s : State) :
    ∃ t, exec c s = .next t ∧ SettingsFrame s t := by
  have ruled {act : HostFrame → State → State} (q : Req) (keeps : ∀ f s, SettingsFrame s (act f s)) :
      SettingsFrame s (handleRequest q act s) := SettingsFrame.ofRule keeps s
  cases c with
  | hostFrameArrival bytes => exact ⟨_, rfl, settingsFrame_closed.foldl (fun s b => SettingsFrame.rxByte b s) bytes s⟩
  | frameSent => exact ⟨_, rfl, SettingsFrame.frameSent s⟩
  | identify => exact ⟨_, rfl, ruled _ fun _ _ => SettingsFrame.link ..⟩
  | statusQuery => exact ⟨_, rfl, ruled _ fun _ _ => SettingsFrame.link ..⟩
  | reset => exact ⟨_, rfl, ruled _ fun _ _ => SettingsFrame.link ..⟩
  | engineHalt => exact ⟨_, rfl, ruled _ SettingsFrame.engineHalt⟩
  | pageOpen => exact ⟨_, rfl, ruled _ SettingsFrame.pageOpen⟩
  | pageCancel => exact ⟨_, rfl, ruled _ SettingsFrame.pageCancel⟩
  | headRestore => exact ⟨_, rfl, ruled _ SettingsFrame.headRestore⟩
  | band => exact ⟨_, rfl, ruled _ SettingsFrame.band⟩
  | unknownCode => exact ⟨_, rfl, ruled _ fun _ _ => SettingsFrame.link ..⟩
  | storingEnd => exact ⟨_, rfl, SettingsFrame.storingEnd s⟩
  | sendingEnd h => exact ⟨_, rfl, settingsFrame_closed.sendingEnd h s⟩
  | headAnswer lane bits => exact ⟨_, rfl, SettingsFrame.headAnswer lane bits s⟩
  | ackTimeout h => exact ⟨_, rfl, SettingsFrame.ackTimeout h s⟩
  | windowEnd h r => exact ⟨_, rfl, settingsFrame_closed.windowEnd h r s⟩
  | _ => cases aside

end Sys2Proof.Machine
end

