-- ==== Sys2Proof/Proofs/ActiveBank.lean ====
section
/-! SUPPORT. The active bank is complete in RUN (R128): the requests of chapter 8 never take its completeness away, a run
starts with a complete bank (R34), and no other command touches the banks. -/

namespace Sys2Proof.Machine

/-! ### The invariant as completeness of the active bank -/

theorem runBankInv_iff {s : State} : runBankInv s ↔ (s.engine = .run → (activeBankOf s).complete = true) := by
  simp only [runBankInv, activeBankOf, complete_iff, Option.isSome_iff_ne_none]

theorem runBankInv_of_setup {s : State} (setup : s.engine = .setup) : runBankInv s := fun run => by
  rw [setup] at run
  cases run

/-- A state with the banks of one that has the invariant, in RUN only if that one was. -/
theorem runBankInv_of_same {s t : State} (inv : runBankInv s) (banks : t.banks = s.banks)
    (active : t.activeBank = s.activeBank) (engine : t.engine = .run → s.engine = .run) : runBankInv t := by
  intro run
  simp only [bankAt, banks, active]
  exact inv (engine run)

theorem SettingsFrame.runBankInv {s t : State} (a : SettingsFrame s t) (inv : runBankInv s) : runBankInv t :=
  runBankInv_of_same inv a.banks a.activeBank fun run => a.engine.symm.trans run

theorem CoreFrame.runBankInv {s t : State} (a : CoreFrame s t) (inv : runBankInv s) : runBankInv t :=
  runBankInv_of_same inv a.banks a.activeBank fun run => a.engine.symm.trans run

/-! ### Requests -/

/-- A request's row as a whole, by what its owning rule does to the invariant. -/
theorem handleRequest_runBankInv {q : Req} {act : HostFrame → State → State} {s : State} (inv : runBankInv s)
    (rule : ∀ f s, runBankInv s → runBankInv (act f s)) : runBankInv (handleRequest q act s) := by
  have moved {u : State} (inv : runBankInv u) : runBankInv (takeNext u) := (SettingsFrame.takeNext u).runBankInv inv
  rcases handleRequest_cases q act s with h | ⟨f, -, -, ⟨-, h⟩ | ⟨-, -, h⟩ | ⟨-, -, h⟩⟩ <;> rw [h]
  · exact inv
  · exact moved (u := answer f .wrongState [] { s with handler := .free }) inv
  · exact moved (u := answer f .badArgument (q.lengthRefusalBody s) { s with handler := .free }) inv
  · exact moved (rule f { s with handler := .free } inv)

/-- A bank is protected exactly when it is active and complete (R128). -/
theorem isProtectedBank_iff {s : State} {b : Nat} :
    isProtectedBank s b = true ↔ b = s.activeBank ∧ (bankAt s b).complete = true := by
  rw [isProtectedBank, Bool.and_eq_true, decide_eq_true_eq]

/-- A protected bank is not written: in RUN that is every write of the active bank (R126, R127). -/
theorem runBankInv_put {s : State} (inv : runBankInv s) {b : Nat} (writable : ¬ isProtectedBank s b = true) (bank : Bank) :
    runBankInv { s with banks := put s.banks b bank } := by
  refine runBankInv_iff.mpr fun run => ?_
  have complete : (bankAt s s.activeBank).complete = true := runBankInv_iff.mp inv run
  have other : b ≠ s.activeBank := fun own => writable (isProtectedBank_iff.mpr ⟨own, own ▸ complete⟩)
  simpa only [activeBankOf, bankAt, look_put_ne _ _ _ _ _ other] using complete

theorem waveErase_runBankInv (f : HostFrame) (s : State) (inv : runBankInv s) : runBankInv (waveErase f s) := by
  unfold waveErase
  split
  · exact inv
  · split
    · exact inv
    · next writable => exact runBankInv_put inv writable _

theorem waveLoad_runBankInv (f : HostFrame) (s : State) (inv : runBankInv s) : runBankInv (waveLoad f s) := by
  unfold waveLoad
  split
  · exact inv
  · dsimp only
    split
    · exact inv
    · next writable =>
      split
      · exact inv
      · exact runBankInv_put inv writable _

/-- Only a complete bank becomes active (R129). -/
theorem waveSelect_runBankInv (f : HostFrame) (s : State) (inv : runBankInv s) : runBankInv (waveSelect f s) := by
  unfold waveSelect
  split
  · exact inv
  · next b _ =>
    split
    · exact inv
    · next complete =>
      split
      · exact inv
      · have selected : runBankInv { s with activeBank := b } :=
          runBankInv_iff.mpr fun _ => Bool.eq_true_of_not_eq_false complete
        exact selected

/-- The sixth check lets a run start only with a complete active bank (R34). -/
theorem complete_of_clear {s : State} (clear : startFault s = none) : (activeBankOf s).complete = true := by
  have checked : checkBank s = none := by
    simp only [startFault, Option.or_eq_none_iff] at clear
    obtain ⟨-, -, -, -, -, -, -, bank⟩ := clear
    exact bank
  by_contra incomplete
  simp [checkBank, incomplete] at checked

theorem engineStart_runBankInv (f : HostFrame) (s : State) (inv : runBankInv s) : runBankInv (engineStart f s) := by
  unfold engineStart
  split
  · exact inv
  · next clear =>
    have started : runBankInv (startRun s) := runBankInv_iff.mpr fun _ => complete_of_clear clear
    exact started

theorem engineStop_runBankInv (f : HostFrame) (s : State) (inv : runBankInv s) : runBankInv (engineStop f s) := by
  unfold engineStop
  split
  · exact runBankInv_of_setup rfl
  · exact inv

theorem statsRead_runBankInv (f : HostFrame) (s : State) (inv : runBankInv s) : runBankInv (statsRead f s) := by
  unfold statsRead
  split
  · exact inv
  · next g clear _ =>
    have cleared : runBankInv (if clear then clearGroup g s else s) := by
      split
      · cases g <;> exact inv
      · exact inv
    exact cleared

theorem nozzleMark_runBankInv (f : HostFrame) (s : State) (inv : runBankInv s) : runBankInv (nozzleMark f s) := by
  unfold nozzleMark
  split
  · dsimp only
    rw [markAll_eq]
    exact inv
  · exact inv

/-! ### Every command -/

theorem exec_runBankInv (c : Instr) {s : State} (inv : runBankInv s) : ∃ t, exec c s = .next t ∧ runBankInv t := by
  have ruled {act : HostFrame → State → State} (q : Req) (rule : ∀ f s, runBankInv s → runBankInv (act f s)) :
      runBankInv (handleRequest q act s) := handleRequest_runBankInv inv rule
  cases sets : setsSettings c with
  | false =>
    obtain ⟨t, ran, frame⟩ := exec_settingsFrame sets s
    exact ⟨t, ran, frame.runBankInv inv⟩
  | true =>
    cases c with
    | powerOn => exact ⟨_, rfl, runBankInv_of_setup rfl⟩
    | softReset =>
      refine ⟨_, rfl, ?_⟩
      split
      · exact runBankInv_of_setup rfl
      · exact inv
    | engineStart => exact ⟨_, rfl, ruled _ engineStart_runBankInv⟩
    | engineStop => exact ⟨_, rfl, ruled _ engineStop_runBankInv⟩
    | waveErase => exact ⟨_, rfl, ruled _ waveErase_runBankInv⟩
    | waveLoad => exact ⟨_, rfl, ruled _ waveLoad_runBankInv⟩
    | waveSelect => exact ⟨_, rfl, ruled _ waveSelect_runBankInv⟩
    | statsRead => exact ⟨_, rfl, ruled _ statsRead_runBankInv⟩
    | setPlaneSet => exact ⟨_, rfl, ruled _ fun f s inv => by unfold setPlaneSet; split <;> exact inv⟩
    | setPlaneRemove => exact ⟨_, rfl, ruled _ fun f s inv => by unfold setPlaneRemove; split <;> exact inv⟩
    | setHeadSet => exact ⟨_, rfl, ruled _ fun f s inv => by unfold setHeadSet; split <;> exact inv⟩
    | setHeadRemove => exact ⟨_, rfl, ruled _ fun f s inv => by unfold setHeadRemove; split <;> exact inv⟩
    | setLane => exact ⟨_, rfl, ruled _ fun f s inv => by unfold setLane; split <;> exact inv⟩
    | setMotion => exact ⟨_, rfl, ruled _ fun f s inv => by unfold setMotion; split <;> exact inv⟩
    | setCue => exact ⟨_, rfl, ruled _ fun f s inv => by unfold setCue; split <;> exact inv⟩
    | nozzleMark => exact ⟨_, rfl, ruled _ nozzleMark_runBankInv⟩
    | nozzleClear => exact ⟨_, rfl, ruled _ fun f s inv => by unfold nozzleClear; split <;> exact inv⟩
    | encoderChange a b =>
      obtain ⟨t, ran, core⟩ := exec_coreFrame (.inl ⟨a, b, rfl⟩) s
      exact ⟨t, ran, core.runBankInv inv⟩
    | paceExpiry =>
      obtain ⟨t, ran, core⟩ := exec_coreFrame (.inr rfl) s
      exact ⟨t, ran, core.runBankInv inv⟩
    | cueEdge =>
      obtain ⟨t, ran, core⟩ := exec_cueEdge_coreFrame s
      exact ⟨t, ran, core.runBankInv inv⟩
    | _ => cases sets

/-- Settles O55: every command keeps the invariant, and taking it from the queue does not touch it. -/
theorem activeBankCompleteInRun : Obligations.ActiveBankCompleteInRun := by
  intro s t inv run
  unfold Machine.step at run
  split at run
  · obtain rfl := Host.Outcome.next.inj run
    exact inv
  · next c rest _ =>
    obtain ⟨u, ran, keeps⟩ := exec_runBankInv c (s := { s with pending := rest }) inv
    obtain rfl := Host.Outcome.next.inj (run.symm.trans ran)
    exact keeps

end Sys2Proof.Machine
end

