-- ==== Sys2Proof/Proofs/BodyLength.lean ====
section
/-! SUPPORT. Requests handled in the present engine state whose body is of a length that the layout does not give (R33,
R125, R158, R166). -/

namespace Sys2Proof.Machine

/-- A request that R33 does not refuse in an engine state is handled in it. -/
theorem handledIn_of_not_refused {e : EngineState} {code : Byte} (served : code.toNat ∉ refusedCodes e) (tag : BitVec 16)
    (body : List Byte) : (reqOf ⟨.control, code, tag, body⟩).handledIn e = true := by
  simp only [reqOf]
  generalize code.toNat = k at served
  cases e with
  | run =>
    split
    case h_5 | h_6 | h_7 | h_8 | h_9 | h_10 => exact absurd (by decide) served
    all_goals rfl
  | setup =>
    split
    case h_11 | h_12 | h_13 | h_14 | h_20 => exact absurd (by decide) served
    case h_5 | h_6 => split <;> rfl
    all_goals rfl

/-- The length test of a request whose body holds no list (R166). -/
theorem lengthOk_of_requestLength {code : Byte} {n : Nat} (fixed : requestLength code.toNat = some n) (tag : BitVec 16)
    (body : List Byte) : (reqOf ⟨.control, code, tag, body⟩).lengthOk body = decide (body.length = n) := by
  simp only [reqOf]
  generalize code.toNat = k at fixed
  unfold requestLength at fixed
  split at fixed
  case h_10 =>
    obtain rfl := Option.some.inj fixed
    change Req.lengthOk (if byteAt body 1 = 1 then _ else _) body = _
    split <;> rfl
  case h_19 => cases fixed
  all_goals
    obtain rfl := Option.some.inj fixed
    rfl

/-- The body of a refusal for the length: the bank summary for the requests of chapter 8 (R125). -/
theorem lengthRefusalBody_reqOf (code : Byte) (tag : BitVec 16) (body : List Byte) (s : State) :
    (reqOf ⟨.control, code, tag, body⟩).lengthRefusalBody s
      = if code.toNat = 0x50 ∨ code.toNat = 0x51 ∨ code.toNat = 0x52 then bankSummary s else [] := by
  simp only [reqOf]
  generalize code.toNat = k
  split
  case h_5 | h_6 => split <;> rfl
  case h_21 not50 not51 not52 _ =>
    have other : ¬ (k = 0x50 ∨ k = 0x51 ∨ k = 0x52) := fun wave => wave.elim not50 fun wave => wave.elim not51 not52
    exact (if_neg other).symm
  all_goals rfl

/-- Settles O9: a fixed-length request that is handled fails the length step, and the handler then moves on. -/
theorem wrongBodyLengthIsRefused : Obligations.WrongBodyLengthIsRefused := by
  intro s s1 code tag body n taken served fixed misfit
  obtain ⟨act, ran⟩ := exec_instr (reqOf ⟨.control, code, tag, body⟩)
  have unfit : (reqOf ⟨.control, code, tag, body⟩).lengthOk body = false := by
    rw [lengthOk_of_requestLength fixed]
    exact decide_eq_false misfit
  rw [ran, handleRequest_badLength taken rfl (handledIn_of_not_refused served tag body) unfit, lengthRefusalBody_reqOf]
  rfl

end Sys2Proof.Machine
end

