-- ==== Sys2Proof/Proofs/WaveRequests.lean ====
section
/-! SUPPORT. WAVE_ERASE (R126), WAVE_LOAD (R127) and WAVE_SELECT (R129): their bodies read back, and what the handler makes
of each. -/

namespace Sys2Proof.Machine

/-! ### What the three replies have in common -/

/-- Moving on touches neither banks nor the active bank. -/
theorem bankSummary_movedOn (s : State) : bankSummary (movedOn s) = bankSummary s := by
  rw [movedOn_eq]
  rfl

theorem movedOn_banks (s : State) (t) : movedOn { s with banks := t } = { movedOn s with banks := t } := by
  rw [movedOn_eq, movedOn_eq]

theorem movedOn_activeBank (s : State) (b) : movedOn { s with activeBank := b } = { movedOn s with activeBank := b } := by
  rw [movedOn_eq, movedOn_eq]

theorem not_isProtectedBank {s : State} {b : Nat} (writable : b ≠ s.activeBank ∨ (bankAt s b).complete = false) :
    ¬ isProtectedBank s b = true := by
  rw [isProtectedBank_iff]
  rintro ⟨own, complete⟩
  rcases writable with other | incomplete
  · exact other own
  · rw [complete] at incomplete
    cases incomplete

theorem anyBound_iff {s : State} : anyBound s = true ↔ ∃ p ∈ s.pages, p.pstate ≠ .queued := by
  simp only [anyBound, List.any_eq_true, decide_eq_true_eq]

section
variable {s s1 : State} {code : Byte} {tag : BitVec 16} {body : List Byte} {q : Req} {act : HostFrame → State → State}
  (taken : TakesControl s code tag body s1) (row : reqOf ⟨.control, code, tag, body⟩ = q)
  (handled : q.handledIn s.engine = true) (length : q.lengthOk body = true)
include taken row handled length

/-- A request of chapter 8 answered after its rule has made `u` of the state: the bank summary is that of `u` (R125). -/
theorem handleRequest_answeredBanks {u : State} {status : Status}
    (rule : act ⟨.control, code, tag, body⟩ { s with handler := .free }
      = answerBanks ⟨.control, code, tag, body⟩ status { u with handler := .free }) :
    handleRequest q act s = replied .control code tag status (bankSummary (movedOn u)) (movedOn u) := by
  rw [handleRequest_answered taken row handled length rule, bankSummary_movedOn]
  rfl

/-- A request of chapter 8 refused by its rule (R125). -/
theorem handleRequest_refusedBanks {status : Status}
    (rule : act ⟨.control, code, tag, body⟩ { s with handler := .free }
      = answerBanks ⟨.control, code, tag, body⟩ status { s with handler := .free }) :
    handleRequest q act s = replied .control code tag status (bankSummary s1) s1 := by
  rw [handleRequest_answeredBanks taken row handled length rule, taken.2]

end

/-! ### WAVE_ERASE (R126) -/

/-- The body of WAVE_ERASE (R166). -/
def eraseFields (bank settle : Nat) : List Byte := leBytes 1 bank ++ leBytes 2 settle

/-- What WAVE_ERASE makes of its body: the values accepted or refused whole. -/
theorem parseErase_eraseFields {bank settle : Nat} (b1 : bank < 256) (b2 : settle < 65536) :
    parseErase (eraseFields bank settle) = if bank ≤ 1 ∧ settle ≤ 255 then some (bank, settle) else none := by
  have bankRead : byteAt (eraseFields bank settle) 0 = bank := by
    simp [eraseFields, byteAt, field_zero, Nat.mod_eq_of_lt b1]
  have settleRead : field (eraseFields bank settle) 1 2 = settle := by
    simp [eraseFields, field_append, field_only, Nat.mod_eq_of_lt b2]
  rw [parseErase, bankRead, settleRead]

theorem waveErase_answers {s s1 : State} {tag : BitVec 16} {bank settle : Nat} (b1 : bank < 256) (b2 : settle < 65536)
    (taken : TakesControl s 0x50#8 tag (eraseFields bank settle) s1) :
    let answer := fun status t => exec .waveErase s = .next (replied .control 0x50#8 tag status (bankSummary t) t)
    ((1 < bank ∨ 255 < settle) → answer .badArgument s1) ∧
    (bank ≤ 1 → settle ≤ 255 → bank = s.activeBank → (bankAt s bank).complete = true → answer .isProtected s1) ∧
    (bank ≤ 1 → settle ≤ 255 → (bank ≠ s.activeBank ∨ (bankAt s bank).complete = false) →
      answer .ok { s1 with banks := put s.banks bank ⟨settle, Vector.replicate 3 none⟩ }) := by
  have read := parseErase_eraseFields b1 b2
  refine ⟨fun bad => congrArg Host.Outcome.next ?_, fun low short own complete => congrArg Host.Outcome.next ?_,
    fun low short writable => congrArg Host.Outcome.next ?_⟩
  · refine handleRequest_refusedBanks taken rfl rfl rfl ?_
    rw [waveErase, read, if_neg (by omega)]
  · refine handleRequest_refusedBanks taken rfl rfl rfl ?_
    rw [waveErase, read, if_pos ⟨low, short⟩]
    exact if_pos (isProtectedBank_iff.mpr ⟨own, complete⟩)
  · rw [taken.2, ← movedOn_banks]
    refine handleRequest_answeredBanks taken rfl rfl rfl ?_
    rw [waveErase, read, if_pos ⟨low, short⟩]
    exact if_neg (not_isProtectedBank writable)

/-! ### WAVE_LOAD (R127) -/

/-- The body of WAVE_LOAD (R166). -/
def loadFields (bank level pre gap main : Nat) : List Byte :=
  leBytes 1 bank ++ leBytes 1 level ++ leBytes 1 pre ++ leBytes 1 gap ++ leBytes 1 main

/-- The values that the first check of R127 accepts. -/
abbrev loadGood (bank level pre gap main : Nat) : Prop :=
  bank ≤ 1 ∧ 1 ≤ level ∧ level ≤ 3 ∧ pre ≤ 63 ∧ gap ≤ 63 ∧ 1 ≤ main

section
variable {bank level pre gap main : Nat} (b1 : bank < 256) (b2 : level < 256) (b3 : pre < 256) (b4 : gap < 256)
  (b5 : main < 256)
include b1 b2 b3 b4 b5

/-- The body read back field by field. -/
theorem loadFields_read :
    let body := loadFields bank level pre gap main
    byteAt body 0 = bank ∧ byteAt body 1 = level ∧ byteAt body 2 = pre ∧ byteAt body 3 = gap ∧ byteAt body 4 = main := by
  simp [loadFields, byteAt, field_append, field_zero, field_only, Nat.mod_eq_of_lt b1, Nat.mod_eq_of_lt b2,
    Nat.mod_eq_of_lt b3, Nat.mod_eq_of_lt b4, Nat.mod_eq_of_lt b5]

/-- What WAVE_LOAD makes of its body: the values accepted or refused whole. -/
theorem parseLoad_loadFields : parseLoad (loadFields bank level pre gap main)
    = if loadGood bank level pre gap main then some (bank, level, ⟨pre, gap, main⟩) else none := by
  obtain ⟨f1, f2, f3, f4, f5⟩ := loadFields_read b1 b2 b3 b4 b5
  simp only [parseLoad, f1, f2, f3, f4, f5]

theorem waveLoad_answers {s s1 : State} {tag : BitVec 16}
    (taken : TakesControl s 0x51#8 tag (loadFields bank level pre gap main) s1) :
    let answer := fun status t => exec .waveLoad s = .next (replied .control 0x51#8 tag status (bankSummary t) t)
    let good := loadGood bank level pre gap main
    (¬ good → answer .badArgument s1) ∧
    (good → bank = s.activeBank → (bankAt s bank).complete = true → answer .isProtected s1) ∧
    (good → (bank ≠ s.activeBank ∨ (bankAt s bank).complete = false) →
      look (bankAt s bank).recs (level - 1) none ≠ none → answer .notErased s1) ∧
    (good → (bank ≠ s.activeBank ∨ (bankAt s bank).complete = false) →
      look (bankAt s bank).recs (level - 1) none = none →
      answer .ok { s1 with banks := put s.banks bank ⟨(bankAt s bank).settle,
        put (bankAt s bank).recs (level - 1) (some ⟨pre, gap, main⟩)⟩ }) := by
  have read := parseLoad_loadFields b1 b2 b3 b4 b5
  refine ⟨fun bad => congrArg Host.Outcome.next ?_, fun good own complete => congrArg Host.Outcome.next ?_,
    fun good writable written => congrArg Host.Outcome.next ?_,
    fun good writable erased => congrArg Host.Outcome.next ?_⟩
  · refine handleRequest_refusedBanks taken rfl rfl rfl ?_
    rw [waveLoad, read, if_neg bad]
  · refine handleRequest_refusedBanks taken rfl rfl rfl ?_
    rw [waveLoad, read, if_pos good]
    exact if_pos (isProtectedBank_iff.mpr ⟨own, complete⟩)
  · refine handleRequest_refusedBanks taken rfl rfl rfl ?_
    rw [waveLoad, read, if_pos good]
    exact (if_neg (not_isProtectedBank writable)).trans (if_pos (Option.isSome_iff_ne_none.mpr written))
  · rw [taken.2, ← movedOn_banks]
    refine handleRequest_answeredBanks taken rfl rfl rfl ?_
    rw [waveLoad, read, if_pos good]
    exact (if_neg (not_isProtectedBank writable)).trans (if_neg fun some => Option.isSome_iff_ne_none.mp some erased)

end

/-! ### WAVE_SELECT (R129) -/

theorem parseSelect_byte {bank : Nat} (b1 : bank < 256) :
    parseSelect (leBytes 1 bank) = if bank ≤ 1 then some bank else none := by
  have read : byteAt (leBytes 1 bank) 0 = bank := by simp [byteAt, field_only, Nat.mod_eq_of_lt b1]
  rw [parseSelect, read]

theorem waveSelect_answers {s s1 : State} {tag : BitVec 16} {bank : Nat} (b1 : bank < 256)
    (taken : TakesControl s 0x52#8 tag (leBytes 1 bank) s1) :
    let answer := fun status t => exec .waveSelect s = .next (replied .control 0x52#8 tag status (bankSummary t) t)
    let held := s.engine = .run ∧ ∃ p ∈ s.pages, p.pstate ≠ .queued
    (1 < bank → answer .badArgument s1) ∧
    (bank ≤ 1 → (bankAt s bank).complete = false → answer .incomplete s1) ∧
    (bank ≤ 1 → (bankAt s bank).complete = true → held → answer .busy s1) ∧
    (bank ≤ 1 → (bankAt s bank).complete = true → ¬ held → answer .ok { s1 with activeBank := bank }) := by
  have read := parseSelect_byte b1
  have whole (complete : (bankAt s bank).complete = true) : ¬ (bankAt s bank).complete = false := by simp [complete]
  refine ⟨fun high => congrArg Host.Outcome.next ?_, fun low incomplete => congrArg Host.Outcome.next ?_,
    fun low complete held => congrArg Host.Outcome.next ?_, fun low complete clear => congrArg Host.Outcome.next ?_⟩
  · refine handleRequest_refusedBanks taken rfl rfl rfl ?_
    rw [waveSelect, read, if_neg (by omega)]
  · refine handleRequest_refusedBanks taken rfl rfl rfl ?_
    rw [waveSelect, read, if_pos low]
    exact if_pos incomplete
  · refine handleRequest_refusedBanks taken rfl rfl rfl ?_
    rw [waveSelect, read, if_pos low]
    exact (if_neg (whole complete)).trans (if_pos (held.imp_right anyBound_iff.mpr))
  · rw [taken.2, ← movedOn_activeBank]
    refine handleRequest_answeredBanks taken rfl rfl rfl ?_
    rw [waveSelect, read, if_pos low]
    exact (if_neg (whole complete)).trans (if_neg fun held => clear (held.imp_right anyBound_iff.mp))

/-- Settles O45: each request's checks in the order of its rule, and the change that follows when all pass. -/
theorem waveRequestsAreCheckedInOrder : Obligations.WaveRequestsAreCheckedInOrder :=
  ⟨fun _ _ _ _ _ b1 b2 taken => waveErase_answers b1 b2 taken,
    fun _ _ _ _ _ _ _ _ b1 b2 b3 b4 b5 taken => waveLoad_answers b1 b2 b3 b4 b5 taken,
    fun _ _ _ _ b1 taken => waveSelect_answers b1 taken⟩

end Sys2Proof.Machine
end

