-- ==== Sys2Proof/Proofs/HealthInvariant.lean ====
section
/-! SUPPORT. A head's health state follows from its counter (R143): the values that requests, the ends of LOADs and probe
runs give health agree with it, and no other command touches health. -/

namespace Sys2Proof.Machine

/-! ### One head's health (R143) -/

/-- A health whose state follows from its counter, the counter 256 exactly when the head is OFFLINE or PROBING. -/
def Health.Lawful (k : Health) : Prop :=
  k.counter ≤ 256 ∧ k.probes ≤ 16
    ∧ (k.state = .active ↔ k.counter ≤ 95)
    ∧ (k.state = .warned ↔ 96 ≤ k.counter ∧ k.counter ≤ 127)
    ∧ (k.state = .degraded ↔ 128 ≤ k.counter ∧ k.counter ≤ 255)
    ∧ (k.state = .offline ∨ k.state = .probing ↔ k.counter = 256)

theorem healthInv_iff {s : State} : healthInv s ↔ ∀ h k, look s.health h none = some k → k.Lawful := Iff.rfl

theorem lawful_active : Health.Lawful ⟨.active, 0, 0⟩ := by simp [Health.Lawful]

/-- A head out of service holds its counter at 256 (R143, R147, R149). -/
theorem lawful_outOfService {state : HealthState} (out : state = .offline ∨ state = .probing) :
    Health.Lawful ⟨state, 256, 0⟩ := by
  rcases out with rfl | rfl <;> simp [Health.Lawful]

/-- The band of a counter within its range is lawful with it (R143). -/
theorem lawful_healthBand {counter probes : Nat} (within : counter ≤ 256) (run : probes ≤ 16) :
    Health.Lawful ⟨healthBand counter, counter, probes⟩ := by
  refine ⟨within, run, ?_⟩
  dsimp only
  unfold healthBand
  split
  · simp; omega
  · split
    · simp; omega
    · split
      · simp; omega
      · simp; omega

/-- The end of a LOAD keeps the counter within its range and takes the state from it (R144). -/
theorem Health.Lawful.afterLoad {k : Health} (lawful : k.Lawful) (acked : Bool) : (k.afterLoad acked).Lawful := by
  obtain ⟨within, run, -⟩ := lawful
  refine lawful_healthBand ?_ run
  cases acked with
  | false => exact Nat.min_le_left ..
  | true => exact (Nat.sub_le ..).trans within

theorem Health.Lawful.countProbe {k : Health} (lawful : k.Lawful) {probes : Nat} (run : probes ≤ 16) :
    Health.Lawful { k with probes := probes } := by
  obtain ⟨within, -, bands⟩ := lawful
  exact ⟨within, run, bands⟩

/-! ### Every head's health -/

theorem healthInv_of_same {s t : State} (same : t.health = s.health) (inv : healthInv s) : healthInv t := by
  unfold healthInv
  rwa [same]

theorem healthInv_of_fresh {s : State} (fresh : s.health = Vector.replicate 24 none) : healthInv s := by
  intro h k health
  rw [fresh, look_replicate] at health
  cases health

/-- A head's entry of the health table written, or discarded with the head. -/
theorem healthInv_put {s : State} (inv : healthInv s) (h : Nat) {entry : Option Health}
    (lawful : ∀ k, entry = some k → k.Lawful) : healthInv { s with health := put s.health h entry } := by
  intro g k health
  rw [look_put] at health
  split at health
  · exact lawful k health
  · exact inv g k health

theorem healthInv_setHealth {s : State} (inv : healthInv s) (h : Nat) {k : Health} (lawful : k.Lawful) :
    healthInv (setHealth h k s) :=
  healthInv_put inv h fun _ same => Option.some.inj same ▸ lawful

theorem healthInv_changeHealth {s : State} (inv : healthInv s) (h : Nat) (old : Health) {new : Health}
    (lawful : new.Lawful) : healthInv (changeHealth h old new s) :=
  healthInv_of_same (changeHealth_frame h old new s).health (healthInv_setHealth inv h lawful)

theorem RowFrame.healthInv {s t : State} (a : RowFrame s t) (inv : healthInv s) : healthInv t :=
  healthInv_of_same a.health inv

theorem CoreFrame.healthInv {s t : State} (a : CoreFrame s t) (inv : healthInv s) : healthInv t :=
  healthInv_of_same a.health inv

/-! ### The Link Port -/

/-- Nothing but the Link Port's own registers, the outgoing order and the LINK counters has changed. -/
def LinkFrame (s t : State) : Prop :=
  t = { s with rx := t.rx, ctlWaiting := t.ctlWaiting, dataWaiting := t.dataWaiting, handler := t.handler
               outgoing := t.outgoing, sending := t.sending, resetSent := t.resetSent, linkCtrs := t.linkCtrs }

namespace LinkFrame

theorem trans {s t u : State} (a : LinkFrame s t) (b : LinkFrame t u) : LinkFrame s u := by
  unfold LinkFrame at *
  rw [a] at b
  exact b

theorem health {s t : State} (a : LinkFrame s t) : t.health = s.health := by rw [a]

theorem healthInv {s t : State} (a : LinkFrame s t) (inv : healthInv s) : healthInv t := healthInv_of_same a.health inv

theorem takeNext (s : State) : LinkFrame s (takeNext s) := by
  rcases takeNext_cases s with h | ⟨f, rest, h⟩ | ⟨f, rest, h⟩ <;> rw [h] <;> rfl

theorem acceptFrame (f : HostFrame) (s : State) : LinkFrame s (acceptFrame f s) := by
  have accepted (ctl data : List HostFrame) :
      LinkFrame s (bumpLink .goodFrames 1 (Machine.takeNext { s with ctlWaiting := ctl, dataWaiting := data })) := by
    have queued : LinkFrame s { s with ctlWaiting := ctl, dataWaiting := data } := rfl
    have counted (u : State) : LinkFrame u (bumpLink .goodFrames 1 u) := rfl
    exact trans queued (trans (takeNext _) (counted _))
  have refused (st : Status) (c : LinkCtr) : LinkFrame s (refuseArrival f st c s) := RowClosed.ite rfl rfl
  unfold Machine.acceptFrame
  split
  · exact RowClosed.ite (accepted _ _) (refused ..)
  · exact RowClosed.ite (accepted _ _) (refused ..)

theorem frameArrived (covered check : List Byte) (s : State) : LinkFrame s (frameArrived covered check s) := by
  have expecting : LinkFrame s { s with rx := .expecting } := rfl
  unfold Machine.frameArrived
  refine RowClosed.ite rfl ?_
  dsimp only
  split
  · rfl
  · exact trans expecting (acceptFrame ..)

theorem rxByte (b : Byte) (s : State) : LinkFrame s (rxByte b s) := by
  have hunted (skipped sync1 : Bool) : LinkFrame s (huntByte skipped sync1 b s) :=
    RowClosed.ite (RowClosed.ite rfl rfl) (RowClosed.ite rfl rfl)
  unfold Machine.rxByte
  split
  case h_1 => exact hunted ..
  case h_2 => exact RowClosed.ite rfl (hunted ..)
  case h_3 => exact RowClosed.ite rfl (hunted ..)
  case h_4 => exact RowClosed.ite rfl (RowClosed.ite rfl rfl)
  case h_5 => exact RowClosed.ite (frameArrived ..) rfl

theorem rxBytes (bytes : List Byte) (s : State) : LinkFrame s (bytes.foldl (fun s b => Machine.rxByte b s) s) := by
  induction bytes generalizing s with
  | nil => rfl
  | cons b bytes ih => exact trans (rxByte b s) (ih _)

theorem frameSent (s : State) : LinkFrame s (beginSending (finishSending s)) := by
  have finished : LinkFrame s (finishSending s) := by unfold finishSending; split <;> rfl
  refine trans finished ?_
  unfold beginSending
  refine RowClosed.ite rfl ?_
  split <;> rfl

end LinkFrame

/-! ### Requests -/

/-- A request's row as a whole, by what its owning rule does to the invariant. -/
theorem handleRequest_healthInv {q : Req} {act : HostFrame → State → State} {s : State} (inv : healthInv s)
    (rule : ∀ f s, healthInv s → healthInv (act f s)) : healthInv (handleRequest q act s) := by
  have moved {u : State} (inv : healthInv u) : healthInv (takeNext u) := (LinkFrame.takeNext u).healthInv inv
  rcases handleRequest_cases q act s with h | ⟨f, -, -, ⟨-, h⟩ | ⟨-, -, h⟩ | ⟨-, -, h⟩⟩ <;> rw [h]
  · exact inv
  · exact moved (u := answer f .wrongState [] { s with handler := .free }) inv
  · exact moved (u := answer f .badArgument (q.lengthRefusalBody s) { s with handler := .free }) inv
  · exact moved (rule f { s with handler := .free } inv)

/-- A configured head begins ACTIVE (R72). -/
theorem setHeadSet_healthInv (f : HostFrame) (s : State) (inv : healthInv s) : healthInv (setHeadSet f s) := by
  unfold setHeadSet
  split
  · next h c _ =>
    exact healthInv_put (s := { s with heads := put s.heads h (some c) }) inv h
      fun k fresh => Option.some.inj fresh ▸ lawful_active
  · exact inv

theorem setHeadRemove_healthInv (f : HostFrame) (s : State) (inv : healthInv s) : healthInv (setHeadRemove f s) := by
  unfold setHeadRemove
  split
  · next h _ => exact healthInv_put (s := { s with heads := put s.heads h none }) inv h fun k removed => by cases removed
  · exact inv

/-- A run begins with every head ACTIVE (R143). -/
theorem startRun_healthInv (s : State) : healthInv (startRun s) := by
  intro h k health
  have lt := lt_of_look_some health
  rw [startRun, look_mapTable _ _ _ none _ lt] at health
  obtain ⟨c, -, rfl⟩ := Option.map_eq_some_iff.mp health
  exact lawful_active

theorem engineStart_healthInv (f : HostFrame) (s : State) (inv : healthInv s) : healthInv (engineStart f s) := by
  unfold engineStart
  split
  · exact inv
  · exact startRun_healthInv s

theorem engineHalt_healthInv (f : HostFrame) (s : State) (inv : healthInv s) : healthInv (engineHalt f s) := by
  have dropped : RowFrame s (s.pages.foldl haltPage s) := rowFrame_closed.foldl rowFrame_closed.haltPage s.pages s
  have cut : healthInv (mapBufs LoadBuf.cut (s.pages.foldl haltPage s)) :=
    (dropped.trans (rowFrame_closed.mapBufs ..)).healthInv inv
  unfold engineHalt
  dsimp only
  generalize mapBufs LoadBuf.cut (s.pages.foldl haltPage s) = t at cut
  exact cut

theorem pageOpen_healthInv (f : HostFrame) (s : State) (inv : healthInv s) : healthInv (pageOpen f s) := by
  unfold pageOpen
  split
  · exact inv
  · next a _ =>
    split
    · exact inv
    · split
      · exact inv
      · have opened : RowFrame s { s with pages := s.pages ++ [newPage a s] } := rowFrame_closed.pages ..
        exact (opened.trans (rowFrame_closed.bindFollows ..)).healthInv inv

theorem pageCancel_healthInv (f : HostFrame) (s : State) (inv : healthInv s) : healthInv (pageCancel f s) := by
  unfold pageCancel
  split
  · exact inv
  · split
    · exact (rowFrame_closed.cancelQueued ..).healthInv inv
    · exact (rowFrame_closed.cancelBound ..).healthInv inv

theorem statsRead_healthInv (f : HostFrame) (s : State) (inv : healthInv s) : healthInv (statsRead f s) := by
  unfold statsRead
  split
  · exact inv
  · next g clear _ =>
    have cleared : healthInv (if clear then clearGroup g s else s) := by
      split
      · cases g <;> exact inv
      · exact inv
    exact cleared

theorem nozzleMark_healthInv (f : HostFrame) (s : State) (inv : healthInv s) : healthInv (nozzleMark f s) := by
  unfold nozzleMark
  split
  · dsimp only
    rw [markAll_eq]
    exact inv
  · exact inv

theorem waveErase_healthInv (f : HostFrame) (s : State) (inv : healthInv s) : healthInv (waveErase f s) := by
  unfold waveErase
  split
  · exact inv
  · split <;> exact inv

theorem waveLoad_healthInv (f : HostFrame) (s : State) (inv : healthInv s) : healthInv (waveLoad f s) := by
  unfold waveLoad
  split
  · exact inv
  · dsimp only
    split
    · exact inv
    · split <;> exact inv

theorem waveSelect_healthInv (f : HostFrame) (s : State) (inv : healthInv s) : healthInv (waveSelect f s) := by
  unfold waveSelect
  split
  · exact inv
  · split
    · exact inv
    · split <;> exact inv

/-- An OFFLINE head restored is PROBING with its counter held at 256 (R147). -/
theorem headRestore_healthInv (f : HostFrame) (s : State) (inv : healthInv s) : healthInv (headRestore f s) := by
  unfold headRestore
  dsimp only
  split
  · next k _ _ =>
    split
    · have probing := healthInv_changeHealth inv (byteAt f.body 0) k (lawful_outOfService (.inr rfl))
      exact (rowFrame_closed.beginProbe ..).healthInv probing
    · exact inv
  · exact inv

theorem band_healthInv (f : HostFrame) (s : State) (inv : healthInv s) : healthInv (band f s) := by
  unfold band
  dsimp only
  split <;> exact inv

/-! ### The ends of storings and transfers -/

theorem storingEnd_healthInv {s : State} (inv : healthInv s) : healthInv (storingEnd s) := by
  unfold storingEnd
  split
  · next op _ =>
    have placed : healthInv (bumpPlane op.plane .discardedLate (op.lines.length - (joiningLines s op).length)
        (bumpPlane op.plane .linesStored (joiningLines s op).length
          (setLines op.plane (linesOf s op.plane ++ joiningLines s op) { s with handler := .free }))) := inv
    have joined : healthInv (joinLines op (joiningLines s op) { s with handler := .free }) :=
      (rowFrame_closed.advancePointer ..).healthInv placed
    have settled := (rowFrame_closed.settle _).healthInv joined
    exact (LinkFrame.takeNext _).healthInv settled
  · exact inv

theorem countHealth_healthInv {s : State} (inv : healthInv s) (h : Nat) (acked : Bool) :
    healthInv (countHealth h acked s) := by
  unfold countHealth
  split
  · next k health => exact healthInv_changeHealth inv h k ((healthInv_iff.mp inv h k health).afterLoad acked)
  · exact inv

theorem loadAcked_healthInv {s : State} (inv : healthInv s) (h r : Nat) (seq : BitVec 8) :
    healthInv (loadAcked h r seq s) := by
  have counted : healthInv (bumpHead h .transfers 1 s) := inv
  have turned := ((rowFrame_closed.bufferAcked h r seq _).trans (rowFrame_closed.rowTurn h r _)).healthInv counted
  exact (rowFrame_closed.settle _).healthInv (countHealth_healthInv turned h true)

theorem loadFailed_healthInv {s : State} (inv : healthInv s) (h r : Nat) : healthInv (loadFailed h r s) := by
  have counted : healthInv (bumpHead h .failures 1 (bumpHead h .transfers 1 s)) := inv
  have lost := countHealth_healthInv ((rowFrame_closed.bufferFailed h r _).healthInv counted) h false
  unfold loadFailed
  refine (rowFrame_closed.settle _).healthInv ?_
  split
  · exact (rowFrame_closed.enterOffline h _).healthInv lost
  · exact lost

/-- Short of the sixteenth acknowledgement the probe count rises within its range, and the sixteenth brings the head back
(R148, R149). -/
theorem probeAcked_healthInv {s : State} (inv : healthInv s) (h : Nat) : healthInv (probeAcked h s) := by
  unfold probeAcked
  split
  · next k health =>
    split
    · exact (rowFrame_closed.settle _).healthInv (healthInv_changeHealth inv h k lawful_active)
    · next short =>
      have run : k.probes + 1 ≤ 16 := (Nat.not_le.mp short).le
      exact (rowFrame_closed.beginProbe ..).healthInv
        (healthInv_setHealth inv h ((healthInv_iff.mp inv h k health).countProbe run))
  · exact inv

theorem probeFailed_healthInv {s : State} (inv : healthInv s) (h : Nat) : healthInv (probeFailed h s) := by
  unfold probeFailed
  split
  · exact healthInv_changeHealth inv h _ (lawful_outOfService (.inl rfl))
  · exact inv

theorem endTransfer_healthInv {s : State} (inv : healthInv s) (h : Nat) (t : Transfer) (acked : Bool) :
    healthInv (endTransfer h t acked s) := by
  unfold endTransfer
  split
  · exact inv
  · next l _ =>
    have idle : healthInv (setLoader h ⟨l.seq, none⟩ s) := inv
    dsimp only
    split
    · split
      · exact loadAcked_healthInv idle h _ t.seq
      · exact loadFailed_healthInv idle h _
    · have counted : healthInv (bumpHead h .probes 1 (setLoader h ⟨l.seq, none⟩ s)) := inv
      split
      · exact probeAcked_healthInv counted h
      · exact probeFailed_healthInv counted h

theorem headAnswer_healthInv {s : State} (inv : healthInv s) (lane : Nat) (bits : BitVec 32) :
    healthInv (headAnswer lane bits s) := by
  unfold headAnswer
  split
  · split
    · dsimp only
      split
      · exact inv
      · exact endTransfer_healthInv inv _ _ _
      · exact endTransfer_healthInv inv _ _ _
    · exact inv
  · exact inv

theorem ackTimeout_healthInv {s : State} (inv : healthInv s) (h : Nat) : healthInv (ackTimeout h s) := by
  unfold ackTimeout
  split
  · exact endTransfer_healthInv inv _ _ _
  · exact inv

/-! ### Every command -/

theorem powerOn_healthInv (s : State) : healthInv (powerOn s) := healthInv_of_fresh rfl

theorem exec_healthInv (c : Instr) {s : State} (inv : healthInv s) : ∃ t, exec c s = .next t ∧ healthInv t := by
  have ruled {act : HostFrame → State → State} (q : Req) (rule : ∀ f s, healthInv s → healthInv (act f s)) :
      healthInv (handleRequest q act s) := handleRequest_healthInv inv rule
  cases c with
  | powerOn => exact ⟨_, rfl, powerOn_healthInv s⟩
  | softReset =>
    refine ⟨_, rfl, ?_⟩
    split
    · exact healthInv_of_fresh rfl
    · exact inv
  | hostFrameArrival bytes => exact ⟨_, rfl, (LinkFrame.rxBytes bytes s).healthInv inv⟩
  | frameSent => exact ⟨_, rfl, (LinkFrame.frameSent s).healthInv inv⟩
  | identify => exact ⟨_, rfl, ruled _ fun _ _ inv => inv⟩
  | statusQuery => exact ⟨_, rfl, ruled _ fun _ _ inv => inv⟩
  | statsRead => exact ⟨_, rfl, ruled _ statsRead_healthInv⟩
  | reset => exact ⟨_, rfl, ruled _ fun _ _ inv => inv⟩
  | setPlaneSet => exact ⟨_, rfl, ruled _ fun f s inv => by unfold setPlaneSet; split <;> exact inv⟩
  | setPlaneRemove => exact ⟨_, rfl, ruled _ fun f s inv => by unfold setPlaneRemove; split <;> exact inv⟩
  | setHeadSet => exact ⟨_, rfl, ruled _ setHeadSet_healthInv⟩
  | setHeadRemove => exact ⟨_, rfl, ruled _ setHeadRemove_healthInv⟩
  | setLane => exact ⟨_, rfl, ruled _ fun f s inv => by unfold setLane; split <;> exact inv⟩
  | setMotion => exact ⟨_, rfl, ruled _ fun f s inv => by unfold setMotion; split <;> exact inv⟩
  | setCue => exact ⟨_, rfl, ruled _ fun f s inv => by unfold setCue; split <;> exact inv⟩
  | engineStart => exact ⟨_, rfl, ruled _ engineStart_healthInv⟩
  | engineStop => exact ⟨_, rfl, ruled _ fun f s inv => by unfold engineStop; split <;> exact inv⟩
  | engineHalt => exact ⟨_, rfl, ruled _ engineHalt_healthInv⟩
  | pageOpen => exact ⟨_, rfl, ruled _ pageOpen_healthInv⟩
  | pageCancel => exact ⟨_, rfl, ruled _ pageCancel_healthInv⟩
  | nozzleMark => exact ⟨_, rfl, ruled _ nozzleMark_healthInv⟩
  | nozzleClear => exact ⟨_, rfl, ruled _ fun f s inv => by unfold nozzleClear; split <;> exact inv⟩
  | waveErase => exact ⟨_, rfl, ruled _ waveErase_healthInv⟩
  | waveLoad => exact ⟨_, rfl, ruled _ waveLoad_healthInv⟩
  | waveSelect => exact ⟨_, rfl, ruled _ waveSelect_healthInv⟩
  | headRestore => exact ⟨_, rfl, ruled _ headRestore_healthInv⟩
  | band => exact ⟨_, rfl, ruled _ band_healthInv⟩
  | unknownCode => exact ⟨_, rfl, ruled _ fun _ _ inv => inv⟩
  | storingEnd => exact ⟨_, rfl, storingEnd_healthInv inv⟩
  | sendingEnd h => exact ⟨_, rfl, (rowFrame_closed.sendingEnd h s).healthInv inv⟩
  | headAnswer lane bits => exact ⟨_, rfl, headAnswer_healthInv inv lane bits⟩
  | ackTimeout h => exact ⟨_, rfl, ackTimeout_healthInv inv h⟩
  | windowEnd h r => exact ⟨_, rfl, (rowFrame_closed.windowEnd h r s).healthInv inv⟩
  | encoderChange a b =>
    obtain ⟨t, ran, core⟩ := exec_coreFrame (.inl ⟨a, b, rfl⟩) s
    exact ⟨t, ran, core.healthInv inv⟩
  | paceExpiry =>
    obtain ⟨t, ran, core⟩ := exec_coreFrame (.inr rfl) s
    exact ⟨t, ran, core.healthInv inv⟩
  | cueEdge =>
    obtain ⟨t, ran, core⟩ := exec_cueEdge_coreFrame s
    exact ⟨t, ran, core.healthInv inv⟩

/-- Settles O54: every command keeps the invariant, and taking it from the queue does not touch it. -/
theorem healthFollowsTheCounter : Obligations.HealthFollowsTheCounter := by
  intro s t inv run
  unfold Machine.step at run
  split at run
  · obtain rfl := Host.Outcome.next.inj run
    exact inv
  · next c rest _ =>
    obtain ⟨u, ran, keeps⟩ := exec_healthInv c (s := { s with pending := rest }) inv
    obtain rfl := Host.Outcome.next.inj (run.symm.trans ran)
    exact keeps

end Sys2Proof.Machine
end

