-- ==== Sys2Proof/Proofs/Answers.lean ====
section
/-! SUPPORT. An answer arriving on a lane (R136, R140): which answers are discarded, and what one does that reaches a
WAITING transfer. -/

namespace Sys2Proof.Machine

/-- Only a RETURN lane has a head that answers on it (R136). -/
theorem answeringHead_function {s : State} {lane h : Nat} (answers : answeringHead s lane = some h) :
    (look s.lanes lane ⟨.off, 0⟩).function = .ret := by
  unfold answeringHead at answers
  dsimp only at answers
  split at answers
  · assumption
  · cases answers

/-- What the table of R140 makes of an answer that ends the transfer. -/
def endVerdict (acked : Bool) : Verdict := if acked then .acknowledged else .failed

/-- Everything an arriving answer can do: nothing, or, in RUN on the RETURN lane of a head whose transfer is WAITING, to
end that transfer by the table of R140. -/
theorem headAnswer_cases (lane : Nat) (bits : BitVec 32) (s : State) : headAnswer lane bits s = s ∨
    ∃ h t timeout acked, s.engine = .run ∧ answeringHead s lane = some h ∧ transferOf s h = some t
      ∧ t.phase = .waiting timeout ∧ judge t bits = endVerdict acked
      ∧ headAnswer lane bits s = endTransfer h t acked s := by
  unfold headAnswer
  split
  · next h run answers =>
    split
    · next seq carry timeout waiting =>
      dsimp only
      split
      · exact .inl rfl
      · next judged => exact .inr ⟨h, _, timeout, true, run, answers, waiting, rfl, judged, rfl⟩
      · next judged => exact .inr ⟨h, _, timeout, false, run, answers, waiting, rfl, judged, rfl⟩
    · exact .inl rfl
  · exact .inl rfl

/-- An answer that the table of R140 has end the WAITING transfer of the lane's head. -/
theorem headAnswer_ends {s : State} {lane h timeout : Nat} {bits : BitVec 32} {seq : BitVec 8} {carry : Carry}
    {acked : Bool} (run : s.engine = .run) (answers : answeringHead s lane = some h)
    (waiting : transferOf s h = some ⟨seq, carry, .waiting timeout⟩)
    (judged : judge ⟨seq, carry, .waiting timeout⟩ bits = endVerdict acked) :
    headAnswer lane bits s = endTransfer h ⟨seq, carry, .waiting timeout⟩ acked s := by
  unfold headAnswer
  rw [run, answers]
  dsimp only
  rw [waiting]
  dsimp only
  rw [judged]
  cases acked <;> rfl

theorem ackTimeout_ends {s : State} {h timeout : Nat} {seq : BitVec 8} {carry : Carry}
    (waiting : transferOf s h = some ⟨seq, carry, .waiting timeout⟩) :
    ackTimeout h s = endTransfer h ⟨seq, carry, .waiting timeout⟩ false s := by
  unfold ackTimeout
  rw [waiting]

/-- Settles O46: an answer that does anything arrives in RUN on a RETURN lane, finds its transfer WAITING, and is not
stale. -/
theorem discardedAnswers : Obligations.DiscardedAnswers := by
  intro s lane bits
  rcases headAnswer_cases lane bits s with same | ⟨h, t, timeout, acked, run, answers, transfer, waiting, judged, -⟩
  · have same : exec (.headAnswer lane bits) s = .next s := congrArg Host.Outcome.next same
    exact ⟨fun _ => same, fun _ => same, fun _ => same, fun _ _ _ _ _ _ _ _ => same⟩
  · rw [answeringHead_owner answers]
    refine ⟨fun setup => ?_, fun other => ?_, fun notWaiting => ?_, fun u code seq kind found stale ok formed => ?_⟩
    · rw [setup] at run
      cases run
    · exact absurd (answeringHead_function answers) other
    · obtain ⟨ns, sending⟩ := notWaiting t transfer
      rw [sending] at waiting
      cases waiting
    · obtain rfl : t = u := Option.some.inj (transfer.symm.trans found)
      rw [formed, judge_wellFormed t code seq kind ok, if_pos stale] at judged
      cases acked <;> cases judged

end Sys2Proof.Machine
end

