-- ==== Sys2Proof/Proofs/HeadFrames.lean ====
section
/-! SUPPORT. The end of SENDING (R138, R140), the transfer time (R139), the bits of LOAD and PROBE (R137), and how a
frame's bits are dealt over two DATA lanes (R136). -/

namespace Sys2Proof.Machine

/-! ### The end of SENDING (R140) -/

theorem sendingEnd_sending {s : State} {h ns : Nat} {next seq : BitVec 8} {carry : Carry} {c : HeadCfg}
    (sending : look s.loaders h none = some ⟨next, some ⟨seq, carry, .sending ns⟩⟩)
    (head : look s.heads h none = some c) :
    sendingEnd h s = setLoader h ⟨next, some ⟨seq, carry, .waiting c.timeout⟩⟩ s := by
  rw [sendingEnd, sending, head]
  rfl

theorem sendingEnd_none {s : State} {h : Nat}
    (none : ∀ t, transferOf s h = some t → ∃ timeout, t.phase = .waiting timeout) : sendingEnd h s = s := by
  unfold sendingEnd
  split
  · next sending =>
    obtain ⟨timeout, waiting⟩ := none _ (by rw [transferOf, sending]; rfl)
    cases waiting
  · rfl

/-! ### The transfer time (R139) -/

/-- A quotient rounded up is the least number that multiplies to the dividend or beyond. -/
theorem roundUp_least (n : Nat) {d : Nat} (positive : 0 < d) :
    n ≤ (n + (d - 1)) / d * d ∧ (n + (d - 1)) / d * d < n + d := by
  have whole := Nat.div_add_mod' (n + (d - 1)) d
  have rest := Nat.mod_lt (n + (d - 1)) positive
  omega

theorem laneRate_pos {lanes rate : Nat} {degraded : Bool} (some : 0 < lanes) (fast : 2 ≤ rate) :
    0 < lanes * (if degraded then rate / 2 else rate) := by
  refine Nat.mul_pos some ?_
  split <;> omega

/-! ### The bits of LOAD and PROBE (R137) -/

/-- The fields of a LOAD before its check. -/
def loadBits (seq : BitVec 8) (row : Nat) (e : Entry) (share : List Level) : List Bool :=
  laneHeader 1 seq row e.page e.line ++ share.flatMap fun l => msbBits 2 l.val

theorem load_bits (seq : BitVec 8) (row : Nat) (e : Entry) (share : List Level) (phase : Phase) :
    Transfer.bits ⟨seq, .load row e share, phase⟩ = withCheck (loadBits seq row e share) := rfl

theorem probe_bits (seq : BitVec 8) (count : Nat) (phase : Phase) :
    Transfer.bits ⟨seq, .probe count, phase⟩ = withCheck (laneHeader 3 seq 0 0 count) := rfl

theorem loadBits_length (seq : BitVec 8) (row : Nat) (e : Entry) (share : List Level) :
    (loadBits seq row e share).length = 64 + 2 * share.length := by
  simp [loadBits, laneHeader_length, List.length_flatMap, msbBits_length, Nat.mul_comm]

/-- A LOAD is its header, the levels and the check, in that order. -/
theorem load_parts (seq : BitVec 8) (row : Nat) (e : Entry) (share : List Level) :
    withCheck (loadBits seq row e share) = laneHeader 1 seq row e.page e.line
      ++ (share.flatMap (fun l => msbBits 2 l.val) ++ msbBits 32 (laneCrc32 (loadBits seq row e share)).toNat) :=
  List.append_assoc ..

/-- A LOAD carries each column's level at its place. -/
theorem loadBits_level (seq : BitVec 8) (row : Nat) (e : Entry) {share : List Level} {i : Nat} {l : Level}
    (at_ : share[i]? = some l) :
    bitsNat (((withCheck (loadBits seq row e share)).drop (64 + 2 * i)).take 2) = l.val := by
  obtain ⟨before, after, levels, length⟩ := flatMap_place (fun l : Level => msbBits_length 2 l.val) at_
  have place : (withCheck (loadBits seq row e share)).drop 0 = laneHeader 1 seq row e.page e.line ++ before
      ++ (msbBits 2 l.val ++ (after ++ msbBits 32 (laneCrc32 (loadBits seq row e share)).toNat)) := by
    rw [List.drop_zero, load_parts, levels]
    simp only [List.append_assoc]
  have begins := drop_field (j := 64 + 2 * i) place
    (by rw [List.length_append, laneHeader_length, length, Nat.zero_add])
  exact bitsNat_field begins l.isLt

/-! ### Two DATA lanes (R136) -/

/-- Dealt in turn, the bits at even places go to the first lane and those at odd places to the second. -/
theorem dealTwo_places (bits : List Bool) (i : Nat) :
    (dealTwo bits).1[i]? = bits[2 * i]? ∧ (dealTwo bits).2[i]? = bits[2 * i + 1]? := by
  induction bits generalizing i with
  | nil => exact ⟨rfl, rfl⟩
  | cons b bits ih =>
    refine ⟨?_, (ih i).1⟩
    cases i with
    | zero => rfl
    | succ i => exact (ih i).2

/-! ### The statement -/

/-- Settles O47: the phase, the time rounded up, the fields of both frames, and the dealing over the lanes. -/
theorem sendingEndsInWaiting : Obligations.SendingEndsInWaiting := by
  refine ⟨fun s h next seq carry ns c sending head => congrArg Host.Outcome.next (sendingEnd_sending sending head),
    fun s h none => congrArg Host.Outcome.next (sendingEnd_none none),
    fun bits lanes rate degraded some fast => roundUp_least _ (laneRate_pos some fast),
    fun seq row e share phase row_ page_ line_ => ?_, fun seq count phase count_ => ?_,
    fun a b bits => ⟨rfl, _, _, rfl, dealTwo_places bits⟩⟩
  · rw [load_bits]
    obtain ⟨length, check⟩ := withCheck_check (loadBits_length seq row e share)
    obtain ⟨kind, seqField, row_, page_, line_⟩ := laneHeader_fields (load_parts seq row e share) (by decide) row_ page_ line_
    exact ⟨length, kind, seqField, row_, page_, line_, fun i l at_ => loadBits_level seq row e at_, check⟩
  · rw [probe_bits]
    obtain ⟨length, check⟩ := withCheck_check (laneHeader_length 3 seq 0 0 count)
    obtain ⟨kind, seqField, row_, page_, line_⟩ :=
      laneHeader_fields (bits := withCheck (laneHeader 3 seq 0 0 count)) rfl (by decide) (by decide) (by decide) count_
    exact ⟨length, kind, seqField, row_, page_, line_, check⟩

end Sys2Proof.Machine
end

