-- ==== Sys2Proof/Proofs/ProbeRuns.lean ====
section
/-! SUPPORT. Probe runs (R148, R149): the PROBE that begins at the full rate, and what the end of one makes of the head's
health, its loader and its counters (R140, R151). -/

namespace Sys2Proof.Machine

/-! ### A change of health state (R144) -/

theorem changeHealth_moved {old new : Health} (moved : old.state ≠ new.state) (h : Nat) (s : State) :
    changeHealth h old new s = offered (.headState h old.state new.state new.counter) (setHealth h new s) := by
  rw [changeHealth_offers, if_neg moved]

/-! ### The next PROBE (R148) -/

/-- A PROBE of a PROBING head takes the next sequence number and goes out at the full rate (R138, R139). -/
theorem beginProbe_idle {s : State} {h lane : Nat} {seq : BitVec 8} {dl : List Nat} {c : HeadCfg} {k : Health}
    (idle : look s.loaders h none = some ⟨seq, none⟩) (link : look s.links h none = some ⟨dl, lane⟩)
    (head : look s.heads h none = some c) (health : look s.health h none = some k) (probing : k.state = .probing)
    (count : Nat) : beginProbe h count s = setLoader h ⟨seq + 1,
      some ⟨seq, .probe count, .sending (transferTime 96 dl.length c.rate false)⟩⟩ s := by
  have full : isDegraded s h = false := by simp [isDegraded, health, probing]
  rw [beginProbe, idle]
  dsimp only
  rw [beginTransfer, link, head, full]
  rfl

/-! ### The end of a PROBE (R140, R149, R151) -/

/-- A PROBE has ended: the loader is idle and the PROBE is counted. -/
abbrev probeEnded (h : Nat) (next : BitVec 8) (s : State) : State := bumpHead h .probes 1 (setLoader h ⟨next, none⟩ s)

theorem endTransfer_probe {s : State} {h count : Nat} {next seq : BitVec 8} {phase : Phase}
    (busy : look s.loaders h none = some ⟨next, some ⟨seq, .probe count, phase⟩⟩) (acked : Bool) :
    endTransfer h ⟨seq, .probe count, phase⟩ acked s
      = if acked then probeAcked h (probeEnded h next s) else probeFailed h (probeEnded h next s) := by
  rw [endTransfer, busy]

section
variable {s : State} {h : Nat} {k : Health} (health : look s.health h none = some k)
include health

theorem probeAcked_short (short : k.probes < 15) : probeAcked h s
    = beginProbe h (k.probes + 1) (setHealth h { k with probes := k.probes + 1 } s) := by
  rw [probeAcked, health]
  exact if_neg (by simp only [Config.probesToPass]; omega)

theorem probeAcked_sixteenth (sixteenth : k.probes = 15) :
    probeAcked h s = settle (changeHealth h k ⟨.active, 0, 0⟩ s) := by
  rw [probeAcked, health]
  exact if_pos (by simp only [Config.probesToPass]; omega)

theorem probeFailed_eq : probeFailed h s = changeHealth h k ⟨.offline, 256, 0⟩ s := by
  rw [probeFailed, health]

end

/-- What a failed PROBE makes of a PROBING head (R149). -/
theorem probeFailed_probing {s : State} {h probes : Nat} (health : look s.health h none = some ⟨.probing, 256, probes⟩) :
    probeFailed h s = offered (.headState h .probing .offline 256) (setHealth h ⟨.offline, 256, 0⟩ s) := by
  rw [probeFailed_eq health, changeHealth_moved (by simp)]

/-! ### Answers and the timeout of a WAITING PROBE (R140) -/

/-- An ACK of the transfer's sequence and kind acknowledges it. -/
theorem judge_ack {t : Transfer} {kind : BitVec 8} (own : t.carry.kindCode = kind) :
    judge t (0xA5#8 ++ t.seq ++ kind
      ++ laneCrc8 (msbBits 8 0xA5 ++ msbBits 8 t.seq.toNat ++ msbBits 8 kind.toNat)) = .acknowledged := by
  refine (judge_wellFormed t 0xA5#8 t.seq kind (.inl rfl)).trans ?_
  rw [if_neg (not_not.mpr rfl), if_neg (not_not.mpr own.symm), if_neg (by decide)]

/-- What ends a WAITING PROBE of sequence `seq` as failed: the timeout, or an answer that fails it. -/
def ProbeFails (h lane : Nat) (seq : BitVec 8) (c : Instr) : Prop :=
  c = .ackTimeout h ∨ ∃ bits, answerFails seq 0x03#8 bits ∧ c = .headAnswer lane bits

section
variable {s : State} {h lane count timeout : Nat} {next seq : BitVec 8} {dl : List Nat}
  (run : s.engine = .run) (ret : look s.lanes lane ⟨.off, 0⟩ = ⟨.ret, h⟩)
  (link : look s.links h none = some ⟨dl, lane⟩)
  (waiting : look s.loaders h none = some ⟨next, some ⟨seq, .probe count, .waiting timeout⟩⟩)
include run ret link waiting

theorem exec_probeAcked : exec (.headAnswer lane (0xA5#8 ++ seq ++ 0x03#8
      ++ laneCrc8 (msbBits 8 0xA5 ++ msbBits 8 seq.toNat ++ msbBits 8 3))) s
    = .next (probeAcked h (probeEnded h next s)) := by
  have transfer : transferOf s h = some ⟨seq, .probe count, .waiting timeout⟩ := by rw [transferOf, waiting]; rfl
  have judged := judge_ack (t := ⟨seq, .probe count, .waiting timeout⟩) rfl
  exact congrArg Host.Outcome.next ((headAnswer_ends run (answeringHead_lane ret link) transfer
    (acked := true) judged).trans (endTransfer_probe waiting true))

theorem exec_probeFails {c : Instr} (fails : ProbeFails h lane seq c) :
    exec c s = .next (probeFailed h (probeEnded h next s)) := by
  have transfer : transferOf s h = some ⟨seq, .probe count, .waiting timeout⟩ := by rw [transferOf, waiting]; rfl
  have ended := endTransfer_probe waiting false
  obtain rfl | ⟨bits, failed, rfl⟩ := fails
  · exact congrArg Host.Outcome.next ((ackTimeout_ends transfer).trans ended)
  · have judged := judge_failed (t := ⟨seq, .probe count, .waiting timeout⟩) failed
    exact congrArg Host.Outcome.next ((headAnswer_ends run (answeringHead_lane ret link) transfer
      (acked := false) judged).trans ended)

end

/-! ### The sixteenth acknowledgement (R149) -/

section
variable (h probes : Nat) (next : BitVec 8) (s : State)

/-- A probe run passed: the head ACTIVE again, and what rows and loaders make of it. -/
def probePassed : State := settle (changeHealth h ⟨.probing, 256, probes⟩ ⟨.active, 0, 0⟩ (probeEnded h next s))

theorem probePassed_frame :
    RowFrame { s with health := put s.health h (some ⟨.active, 0, 0⟩) } (probePassed h probes next s) := by
  have moved : RowFrame { s with health := put s.health h (some ⟨.active, 0, 0⟩) }
      { probeEnded h next s with health := put (probeEnded h next s).health h (some ⟨.active, 0, 0⟩) } := by
    constructor <;> rfl
  exact (moved.trans (changeHealth_frame ..)).trans (rowFrame_closed.settle _)

/-- HEAD_STATE comes first, and only events after it. -/
theorem probePassed_events : ∃ evs, (probePassed h probes next s).outgoing
      = (offered (.headState h .probing .active 0) s).outgoing ++ evs ∧ ∀ o ∈ evs, o.isEvent = true := by
  have ended : SameQueue s (setHealth h ⟨.active, 0, 0⟩ (probeEnded h next s)) := ⟨rfl, rfl, rfl, rfl⟩
  have raised : changeHealth h ⟨.probing, 256, probes⟩ ⟨.active, 0, 0⟩ (probeEnded h next s)
      = offered (.headState h .probing .active 0) (setHealth h ⟨.active, 0, 0⟩ (probeEnded h next s)) :=
    changeHealth_moved (by simp) ..
  obtain ⟨out, -⟩ := ended.offered (.headState h .probing .active 0)
  obtain ⟨⟨evs, sent, events⟩, -⟩ := eventsOnly_closed.settle
    (changeHealth h ⟨.probing, 256, probes⟩ ⟨.active, 0, 0⟩ (probeEnded h next s))
  rw [raised, out] at sent
  exact ⟨evs, by rw [probePassed, raised, sent], events⟩

theorem probePassed_counters (lt : h < 24) :
    look (headGroup (probePassed h probes next s) h) 10 0 = min 4294967295 (look (headGroup s h) 10 0 + 1)
      ∧ look (headGroup (probePassed h probes next s) h) 8 0 = look (headGroup s h) 8 0
      ∧ look (headGroup (probePassed h probes next s) h) 9 0 = look (headGroup s h) 9 0 := by
  have kept : TransfersKept (probeEnded h next s) (probePassed h probes next s) :=
    transfersKept_closed.trans (.of_ctrs (changeHealth_headCtrs ..)) (transfersKept_closed.settle _)
  exact ⟨(kept h 10 (by decide)).trans (look_bumpHead_same lt .probes 1 _),
    (kept h 8 (by decide)).trans (look_bumpHead_other lt (c := .probes) (by decide) 1 _),
    (kept h 9 (by decide)).trans (look_bumpHead_other lt (c := .probes) (by decide) 1 _)⟩

end

/-! ### The statement -/

/-- Settles O50: an acknowledgement short of the sixteenth, the sixteenth, and what fails a PROBE. -/
theorem probeRunNeedsSixteenAnswers : Obligations.ProbeRunNeedsSixteenAnswers := by
  intro s h lane next seq count timeout probes dl c lt run ret link head waiting health
  have ended : look (probeEnded h next s).health h none = some ⟨.probing, 256, probes⟩ := health
  refine ⟨fun short => ?_, fun sixteenth => ?_, fun cmd fails => ?_⟩
  · rw [exec_probeAcked run ret link waiting, probeAcked_short ended short]
    have idle : look (setHealth h ⟨.probing, 256, probes + 1⟩ (probeEnded h next s)).loaders h none
        = some ⟨next, none⟩ := look_put_same _ _ _ _ lt
    rw [beginProbe_idle idle link head (look_put_same _ _ _ _ lt) rfl, setLoader]
    exact congrArg (fun loaders => Host.Outcome.next { setHealth h ⟨.probing, 256, probes + 1⟩ (probeEnded h next s) with
      loaders := loaders }) (put_put ..)
  · obtain ⟨evs, sent, events⟩ := probePassed_events h probes next s
    obtain ⟨counted, transfers, failures⟩ := probePassed_counters h probes next s lt
    refine ⟨probePassed h probes next s, evs, ?_, probePassed_frame .., sent, events, counted, transfers, failures⟩
    rw [exec_probeAcked run ret link waiting, probeAcked_sixteenth ended sixteenth]
    rfl
  · rw [exec_probeFails run ret link waiting fails, probeFailed_probing ended]
    rfl

end Sys2Proof.Machine
end

