-- ==== Sys2Proof/Proofs/LaneRequests.lean ====
section
/-! SUPPORT. SET_LANE (R135) and HEAD_RESTORE (R147): their bodies read back, and what the handler makes of each. -/

namespace Sys2Proof.Machine

/-! ### SET_LANE (R135) -/

theorem movedOn_lanes (s : State) (t) : movedOn { s with lanes := t } = { movedOn s with lanes := t } := by
  rw [movedOn_eq, movedOn_eq]

/-- The body of SET_LANE (R166). -/
def laneFields (lane fn owner : Nat) : List Byte := leBytes 1 lane ++ leBytes 1 fn ++ leBytes 1 owner

/-- The lane's entry that a function and an owner make, if R135 accepts them. -/
def laneEntry (fn owner : Nat) : Option Lane :=
  match LaneFunction.ofCode fn with
  | none => none
  | some .off => some ⟨.off, if owner ≤ 23 then owner else 0⟩
  | some function => if owner ≤ 23 then some ⟨function, owner⟩ else none

theorem laneEntry_eq_none {fn owner : Nat} (bad : 2 < fn ∨ (1 ≤ fn ∧ 23 < owner)) : laneEntry fn owner = none := by
  match fn with
  | 0 => omega
  | 1 => exact if_neg (by omega)
  | 2 => exact if_neg (by omega)
  | fn + 3 => rfl

section
variable {lane fn owner : Nat} (b1 : lane < 256) (b2 : fn < 256) (b3 : owner < 256)
include b1 b2 b3

/-- The body read back field by field. -/
theorem laneFields_read :
    let body := laneFields lane fn owner
    byteAt body 0 = lane ∧ byteAt body 1 = fn ∧ byteAt body 2 = owner := by
  simp [laneFields, byteAt, field_append, field_zero, field_only, Nat.mod_eq_of_lt b1, Nat.mod_eq_of_lt b2,
    Nat.mod_eq_of_lt b3]

/-- What SET_LANE makes of its body: the values accepted or refused whole. -/
theorem parseLane_laneFields : parseLane (laneFields lane fn owner)
    = if lane ≤ 71 then (laneEntry fn owner).map (lane, ·) else none := by
  obtain ⟨f1, f2, f3⟩ := laneFields_read b1 b2 b3
  simp only [parseLane, f1, f2, f3, laneEntry]
  cases LaneFunction.ofCode fn with
  | none => simp
  | some function =>
    cases function with
    | off => by_cases low : lane ≤ 71 <;> simp [low]
    | data => by_cases low : lane ≤ 71 <;> by_cases head : owner ≤ 23 <;> simp [low, head]
    | ret => by_cases low : lane ≤ 71 <;> by_cases head : owner ≤ 23 <;> simp [low, head]

end

/-- Settles O17: the body is accepted or refused whole, and in RUN it is not read. -/
theorem setLaneWritesTheLaneTable : Obligations.SetLaneWritesTheLaneTable := by
  intro s s1 tag lane fn owner b1 b2 b3 taken
  change TakesControl s _ tag (laneFields lane fn owner) s1 at taken
  have read := parseLane_laneFields b1 b2 b3
  have length : Req.setLane.lengthOk (laneFields lane fn owner) = true := by simp [Req.lengthOk, laneFields]
  have accepted {entry : Lane} (setup : s.engine = .setup) (low : lane ≤ 71) (made : laneEntry fn owner = some entry) :
      exec .setLane s = .next (replied .control 0x12#8 tag .ok [] { s1 with lanes := put s.lanes lane entry }) := by
    refine congrArg Host.Outcome.next ?_
    rw [taken.2, ← movedOn_lanes]
    refine handleRequest_answered taken rfl (by rw [setup]; rfl) length ?_
    rw [setLane, read, if_pos low, made]
    rfl
  refine ⟨fun setup low off => accepted setup low (by rw [off]; rfl),
    fun setup low data head => accepted setup low (by rw [data]; exact if_pos head),
    fun setup low ret head => accepted setup low (by rw [ret]; exact if_pos head), fun setup bad => ?_, fun run => ?_⟩
  · have refused : parseLane (laneFields lane fn owner) = none := by
      rw [read]
      rcases bad with high | bad
      · exact if_neg (by omega)
      · rw [laneEntry_eq_none bad]
        exact ite_self none
    refine congrArg Host.Outcome.next (handleRequest_refused taken rfl (by rw [setup]; rfl) length ?_)
    rw [setLane, refused]
  · exact congrArg Host.Outcome.next (handleRequest_wrongState taken rfl (by rw [run]; rfl))

/-! ### HEAD_RESTORE (R147) -/

/-- A reply behind an event, of an act that leaves the handler free and sets a loader, the handler then moving on. -/
theorem takeNext_answer_offered (f : HostFrame) (st : Status) (b : List Byte) (h : Nat) (l : Loader) (e : Event)
    (s : State) : takeNext (answer f st b (setLoader h l (offered e { s with handler := .free })))
      = replied f.kind f.code f.tag st b (offered e (setLoader h l (movedOn s))) := by
  have before : ({ s with handler := .free } : State).eventCount = s.eventCount := rfl
  have after : (setLoader h l (movedOn s)).eventCount = s.eventCount := by rw [movedOn_eq]; rfl
  unfold offered
  rw [before, after]
  rw [takeNext_eq, movedOn_eq, movedOn_eq]
  split
  · exact if_pos rfl
  · exact if_pos rfl

section
variable {s : State} {f : HostFrame} {h : Nat} (named : byteAt f.body 0 = h)
include named

theorem headRestore_noHead (none : look s.heads h none = .none) : headRestore f s = answer f .badArgument [] s := by
  rw [headRestore, named, none]

variable {c : HeadCfg} {k : Health} (head : look s.heads h none = some c) (health : look s.health h none = some k)
include head health

theorem headRestore_inService (inService : k.state ≠ .offline) : headRestore f s = answer f .notOffline [] s := by
  rw [headRestore, named, head, health]
  exact if_neg inService

/-- An OFFLINE head goes PROBING, with HEAD_STATE, and its first PROBE begins (R147, R148). -/
theorem headRestore_offline {dl : List Nat} {ret : Nat} {seq : BitVec 8} (offline : k.state = .offline)
    (link : look s.links h none = some ⟨dl, ret⟩) (idle : look s.loaders h none = some ⟨seq, none⟩) :
    headRestore f s = answer f .ok [] (setLoader h
      ⟨seq + 1, some ⟨seq, .probe 0, .sending (transferTime 96 dl.length c.rate false)⟩⟩
      (offered (.headState h .offline .probing 256) (setHealth h ⟨.probing, 256, 0⟩ s))) := by
  have moved : changeHealth h k ⟨.probing, 256, 0⟩ s
      = offered (.headState h .offline .probing 256) (setHealth h ⟨.probing, 256, 0⟩ s) := by
    rw [changeHealth_moved (by simp [offline]), offline]
  have frame := changeHealth_frame h k ⟨.probing, 256, 0⟩ s
  have loaders : (changeHealth h k ⟨.probing, 256, 0⟩ s).loaders = s.loaders := by
    rw [moved, ← raise_offered, raise_loaders]
    rfl
  have probing : look (changeHealth h k ⟨.probing, 256, 0⟩ s).health h none = some ⟨.probing, 256, 0⟩ := by
    rw [frame.health]
    exact look_put_same _ _ _ _ (lt_of_look_some health)
  rw [headRestore, named, head, health]
  dsimp only
  rw [if_pos offline, beginProbe_idle (loaders ▸ idle) (frame.links ▸ link) (frame.heads ▸ head) probing rfl, moved]

end

/-- Settles O49: the refusals in their order, and the probe run of an OFFLINE head. -/
theorem headRestoreStartsAProbeRun : Obligations.HeadRestoreStartsAProbeRun := by
  intro s s1 tag h small taken
  have named : byteAt (leBytes 1 h) 0 = h := by simp [byteAt, field_only, Nat.mod_eq_of_lt small]
  have refused {status : Status} (run : s.engine = .run)
      (rule : headRestore ⟨.control, 0x60#8, tag, leBytes 1 h⟩ { s with handler := .free }
        = answer ⟨.control, 0x60#8, tag, leBytes 1 h⟩ status [] { s with handler := .free }) :
      exec .headRestore s = .next (replied .control 0x60#8 tag status [] s1) :=
    congrArg Host.Outcome.next (handleRequest_refused taken rfl (by rw [run]; rfl) rfl rule)
  refine ⟨fun setup => ?_, fun run absent => refused run (headRestore_noHead named ?_),
    fun c k run head health inService => refused run (headRestore_inService named head health inService),
    fun c k dl ret seq run head health offline link idle => ?_⟩
  · exact congrArg Host.Outcome.next (handleRequest_wrongState taken rfl (by rw [setup]; rfl))
  · refine absent.elim (fun high => Option.eq_none_iff_forall_ne_some.mpr fun c head => ?_) id
    have := lt_of_look_some head
    omega
  · have ruled := handleRequest_ruled (act := headRestore) taken rfl (by rw [run]; rfl) rfl
    have restored := headRestore_offline (s := { s with handler := .free }) (f := ⟨.control, 0x60#8, tag, leBytes 1 h⟩)
      named head health offline link idle
    refine congrArg Host.Outcome.next ((ruled.trans (congrArg takeNext restored)).trans
      ((takeNext_answer_offered _ _ _ _ _ _ (setHealth h ⟨.probing, 256, 0⟩ s)).trans ?_))
    rw [taken.2, movedOn_eq, movedOn_eq]
    rfl

end Sys2Proof.Machine
end

