-- ==== Sys2Proof/Proofs/ResetInvariants.lean ====
section
/-! SUPPORT. The state after power-on meets the invariants that every command keeps. -/

namespace Sys2Proof.Machine

theorem reset_slotsInv : slotsInv State.reset := by
  refine ⟨by decide, by decide, by decide, by decide, ?_, ?_⟩
  · exact fun f waiting => absurd waiting List.not_mem_nil
  · exact fun f waiting => absurd waiting List.not_mem_nil

theorem reset_positionInv : positionInv State.reset := ⟨le_rfl, Nat.zero_le _⟩

/-- Every counter is 0 after power-on (R173). -/
theorem reset_countersInv : countersInv State.reset := by
  have zero {n : Nat} : ∀ c ∈ (Vector.replicate n 0).toList, c ≤ 4294967295 := by simp
  have zeros {m n : Nat} : ∀ g ∈ (Vector.replicate m (Vector.replicate n 0)).toList, ∀ c ∈ g.toList, c ≤ 4294967295 := by
    intro g group
    rw [Vector.toList_replicate] at group
    rw [List.eq_of_mem_replicate group]
    exact zero
  exact ⟨zero, zero, zeros, zeros, Nat.zero_le _⟩

/-- Settles O51: SETUP, an empty queue, and every table and counter at its power-on value. -/
theorem invariantsHoldAtReset : Obligations.InvariantsHoldAtReset := by
  obtain ⟨queue, entries⟩ := accounted_iff.mpr (powerOn_inOrder (t := State.reset) rfl rfl)
  exact ⟨reset_slotsInv, fun _ => ⟨rfl, rfl⟩, reset_positionInv, powerOn_healthInv State.reset, runBankInv_of_setup rfl,
    flywheelInv_of_setup rfl, reset_countersInv, powerOn_nozzlesWf State.reset, queue, entries⟩

end Sys2Proof.Machine
end

