-- ==== Sys2Proof/Proofs/SubstrateEdges.lean ====
section
/-! SUPPORT. What ENCODER_CHANGE, PACE_EXPIRY and CUE_EDGE can do (R4 to R13, R20, R28), once for every relation that the
updates of position, tracker, rows and pages keep. -/

namespace Sys2Proof.Machine

/-- A relation that the Motion Unit's own updates keep as well, and the use of a value of `cueWith`. -/
structure MotionClosed (R : State → State → Prop) : Prop extends TrackClosed R where
  motion : ∀ p h ref pins pace rev s, R s { s with
    pRaw := p, hRaw := h, decRef := ref, encPins := pins, pace := pace, revCond := rev }
  cueWith : ∀ l s, R s { s with cueWith := l }

namespace MotionClosed

variable {R : State → State → Prop} (hR : MotionClosed R)
include hR

theorem testDeficit (s : State) : R s (testDeficit s) := by
  unfold Machine.testDeficit
  split
  · exact RowClosed.ite (hR.trans (t := { s with revCond := .raised }) (hR.motion _ _ _ _ _ _ s) (hR.raise _ _))
      (hR.refl s)
  · exact RowClosed.ite (hR.motion _ _ _ _ _ _ s) (hR.refl s)

theorem moveTo (p : Nat) (s : State) : R s (moveTo p s) :=
  hR.trans (hR.motion _ _ _ _ _ _ s) (hR.testDeficit _)

theorem takeEdge (c : EdgeClass) (s : State) : R s (takeEdge c s) := by
  cases c with
  | same => exact hR.refl s
  | forward => exact hR.moveTo _ s
  | reverse => exact hR.moveTo _ s
  | glitch => exact hR.bumpMotion _ _ s

theorem encoderStep (new : EncPair) (s : State) : R s (encoderStep new s) := by
  unfold Machine.encoderStep
  refine RowClosed.ite (hR.refl s) ?_
  dsimp only
  split
  · exact hR.motion _ _ _ _ _ _ s
  · exact hR.motion _ _ _ _ _ _ s
  · exact hR.trans (hR.motion _ _ _ _ _ _ s) (hR.takeEdge _ _)

theorem paceStep (s : State) : R s (paceStep s) := by
  unfold Machine.paceStep
  split
  · exact hR.refl s
  · exact hR.trans (t := { s with pace := .running s.motionCfg.paceInterval }) (hR.motion _ _ _ _ _ _ s)
      (hR.moveTo _ _)

theorem stepTogether (together : CueWith) (s : State) : R s (stepTogether together s) := by
  cases together with
  | nothing => exact hR.refl s
  | encoder a b => exact hR.encoderStep _ s
  | pace => exact hR.paceStep s

theorem present {s moved : State} (step : R s moved) : R s (present s moved) :=
  hR.trans step (RowClosed.ite (hR.arrival moved) (hR.refl moved))

theorem rowsFirst (s : State) : R s (rowsFirst s) :=
  hR.trans (hR.popSched s) (hR.foldl (fun s a => hR.turn a s) _ _)

theorem cueThenArrival (s moved : State) : R moved (cueThenArrival s moved) :=
  RowClosed.ite (hR.trans (hR.rowsFirst moved) (hR.trans (hR.cueEdge _) (hR.arrival _))) (hR.cueEdge moved)

/-- The edge of the substrate that `cueWith` names, and the cue edge it comes with. -/
theorem cueEdgeTogether (s : State) :
    R s (Machine.cueThenArrival (popCueWith s).2 (Machine.stepTogether (popCueWith s).1 (popCueWith s).2)) :=
  hR.trans (hR.cueWith _ s) (hR.trans (hR.stepTogether _ _) (hR.cueThenArrival _ _))

end MotionClosed

end Sys2Proof.Machine
end

