-- ==== Sys2Proof/Proofs/StepInvariant.lean ====
section
/-! SUPPORT. An invariant of every command that does not speak of the queue of commands is one of every step. -/

namespace Sys2Proof.Machine

theorem step_keeps {P : State → Prop} (queue : ∀ l s, P s → P { s with pending := l })
    (command : ∀ c s, P s → ∃ t, exec c s = .next t ∧ P t) {s t : State} (holds : P s)
    (run : Machine.step s = .next t) : P t := by
  unfold Machine.step at run
  split at run
  · obtain rfl := Host.Outcome.next.inj run
    exact holds
  · next c rest _ =>
    obtain ⟨u, ran, keeps⟩ := command c { s with pending := rest } (queue rest s holds)
    obtain rfl := Host.Outcome.next.inj (run.symm.trans ran)
    exact keeps

end Sys2Proof.Machine
end

