-- ==== Sys2Proof/Proofs/Counters.lean ====
section
/-! SUPPORT. Every counter saturates (R163, R173): a rise never takes one above its saturation value, and nothing else but
the peak occupancy, a clearing and the reset occasions writes one. -/

namespace Sys2Proof.Machine

/-! ### Tables of counters -/

/-- What holds of every entry of a table holds after a write of such a value. -/
theorem forall_mem_put {α : Type} {n : Nat} {t : Vector α n} {P : α → Prop} (all : ∀ y ∈ t.toList, P y) (i : Nat) {x : α}
    (new : P x) : ∀ y ∈ (put t i x).toList, P y := by
  intro y mem
  rw [put, Vector.toList_setIfInBounds] at mem
  rcases List.mem_or_eq_of_mem_set mem with old | rfl
  · exact all y old
  · exact new

/-- What holds of every entry of a table holds of one read from it. -/
theorem look_of_forall {α : Type} {n : Nat} {t : Vector α n} {P : α → Prop} (all : ∀ y ∈ t.toList, P y) (i : Nat) {d : α}
    (outside : P d) : P (look t i d) := by
  by_cases lt : i < n
  · simpa [look, lt] using all t[i] (by simp)
  · simpa [look, lt] using outside

/-- No counter of a group is above the saturation value (R173). -/
def Saturated {n : Nat} (g : Vector Nat n) : Prop := ∀ c ∈ g.toList, c ≤ 4294967295

theorem saturated_zero (n : Nat) : Saturated (Vector.replicate n 0) := by simp [Saturated]

theorem satAdd_le (c n : Nat) : satAdd c n ≤ 4294967295 := Nat.min_le_right ..

theorem Saturated.rise {n : Nat} {g : Vector Nat n} (sat : Saturated g) (i k : Nat) :
    Saturated (put g i (satAdd (look g i 0) k)) := forall_mem_put sat i (satAdd_le ..)

theorem countersInv_iff {s : State} : countersInv s ↔ Saturated s.linkCtrs ∧ Saturated s.motionCtrs
    ∧ (∀ g ∈ s.planeCtrs.toList, Saturated g) ∧ (∀ g ∈ s.headCtrs.toList, Saturated g)
    ∧ s.lostCount ≤ 4294967295 := Iff.rfl

theorem planeGroup_saturated {s : State} (inv : countersInv s) (p : Nat) : Saturated (planeGroup s p) := by
  obtain ⟨-, -, planes, -, -⟩ := countersInv_iff.mp inv
  exact look_of_forall planes p (saturated_zero 7)

theorem headGroup_saturated {s : State} (inv : countersInv s) (h : Nat) : Saturated (headGroup s h) := by
  obtain ⟨-, -, -, heads, -⟩ := countersInv_iff.mp inv
  exact look_of_forall heads h (saturated_zero 11)

/-! ### What writes a counter -/

theorem bumpLink_countersInv (c : LinkCtr) (n : Nat) {s : State} (inv : countersInv s) : countersInv (bumpLink c n s) := by
  obtain ⟨link, rest⟩ := countersInv_iff.mp inv
  exact ⟨link.rise c.pos n, rest⟩

theorem bumpMotion_countersInv (c : MotionCtr) (n : Nat) {s : State} (inv : countersInv s) :
    countersInv (bumpMotion c n s) := by
  obtain ⟨link, motion, rest⟩ := countersInv_iff.mp inv
  exact ⟨link, motion.rise c.pos n, rest⟩

theorem setPlaneCtr_countersInv (p : Nat) (c : PlaneCtr) {x : Nat} (le : x ≤ 4294967295) {s : State}
    (inv : countersInv s) : countersInv (setPlaneCtr p c x s) := by
  have group : Saturated (put (planeGroup s p) c.pos x) := forall_mem_put (planeGroup_saturated inv p) _ le
  obtain ⟨link, motion, planes, rest⟩ := countersInv_iff.mp inv
  exact ⟨link, motion, forall_mem_put planes p group, rest⟩

theorem bumpHead_countersInv (h : Nat) (c : HeadCtr) (n : Nat) {s : State} (inv : countersInv s) :
    countersInv (bumpHead h c n s) := by
  have group := (headGroup_saturated inv h).rise c.pos n
  obtain ⟨link, motion, planes, heads, lost⟩ := countersInv_iff.mp inv
  exact ⟨link, motion, planes, forall_mem_put heads h group, lost⟩

/-- Peak occupancy is the greater of what it was and a saturated occupancy (R68). -/
theorem updatePeak_countersInv (p : Nat) {s : State} (inv : countersInv s) : countersInv (updatePeak p s) :=
  setPlaneCtr_countersInv p _
    (Nat.max_le.mpr ⟨look_of_forall (planeGroup_saturated inv p) _ (Nat.zero_le _), Nat.min_le_right ..⟩) inv

/-- An event joins with the lost count falling to 0, or is lost and counted twice over (R163). -/
theorem raise_countersInv (e : Event) {s : State} (inv : countersInv s) : countersInv (raise e s) := by
  obtain ⟨link, motion, planes, heads, -⟩ := countersInv_iff.mp inv
  rcases raise_cases s e with ⟨-, h⟩ | ⟨-, h⟩ <;> rw [h]
  · exact ⟨link, motion, planes, heads, Nat.zero_le _⟩
  · exact bumpLink_countersInv .eventsLost 1 (s := { s with lostCount := satAdd s.lostCount 1 })
      ⟨link, motion, planes, heads, satAdd_le ..⟩

theorem clearGroup_countersInv (g : Group) {s : State} (inv : countersInv s) : countersInv (clearGroup g s) := by
  obtain ⟨link, motion, planes, heads, lost⟩ := countersInv_iff.mp inv
  cases g with
  | link => exact ⟨saturated_zero 5, motion, planes, heads, lost⟩
  | motion => exact ⟨link, saturated_zero 8, planes, heads, lost⟩
  | plane p => exact ⟨link, motion, forall_mem_put planes p (saturated_zero 7), heads, lost⟩
  | head h => exact ⟨link, motion, planes, forall_mem_put heads h (saturated_zero 11), lost⟩

/-! ### Every command -/

/-- The counters' invariant carries over from a state to a later one. -/
def CountersKept (s t : State) : Prop := countersInv s → countersInv t

theorem countersKept_closed : CommandClosed CountersKept where
  refl _ := id
  trans a b := b ∘ a
  raise e _ := raise_countersInv e
  planeCtr p c _ _ le := setPlaneCtr_countersInv p c le
  bumpHead h k n _ := bumpHead_countersInv h (.retired k) n
  rows _ _ := id
  report _ _ _ _ _ _ _ _ := id
  dropPage _ _ := id
  pages _ _ _ _ := id
  lines _ _ _ _ := id
  loaders _ _ := id
  sched _ _ := id
  registers _ _ _ _ _ _ _ _ _ _ _ _ _ _ _ _ := id
  bumpLink c n _ := bumpLink_countersInv c n
  countHead h c n _ := bumpHead_countersInv h c n
  peak p _ := updatePeak_countersInv p
  clearGroup g _ := clearGroup_countersInv g
  join _ _ := id
  emptyLines _ := id

theorem countersKept_motion : MotionClosed CountersKept where
  toPageClosed := countersKept_closed.toPageClosed
  bumpMotion c n _ := bumpMotion_countersInv c n
  tracker _ _ _ _ _ _ := id
  motion _ _ _ _ _ _ _ := id
  cueWith _ _ := id

theorem powerOn_countersInv (s : State) : countersInv (powerOn s) := reset_countersInv

theorem setCue_countersKept (f : HostFrame) (s : State) : CountersKept s (setCue f s) := by
  unfold setCue; split <;> exact id

theorem engineStart_countersKept (f : HostFrame) (s : State) : CountersKept s (engineStart f s) := by
  unfold engineStart; split <;> exact id

theorem engineStop_countersKept (f : HostFrame) (s : State) : CountersKept s (engineStop f s) := RowClosed.ite id id

theorem exec_countersKept (c : Instr) (s : State) : ∃ t, exec c s = .next t ∧ CountersKept s t := by
  have ruled {act : HostFrame → State → State} (q : Req) (keeps : ∀ f s, CountersKept s (act f s)) :
      CountersKept s (handleRequest q act s) := countersKept_closed.handleRequest (fun f s _ => keeps f s) s
  cases own : setsRun c with
  | false => exact countersKept_closed.exec own s
  | true =>
    cases c with
    | powerOn => exact ⟨_, rfl, fun _ => powerOn_countersInv s⟩
    | softReset => exact ⟨_, rfl, RowClosed.ite (fun _ => powerOn_countersInv s) id⟩
    | setCue => exact ⟨_, rfl, ruled _ setCue_countersKept⟩
    | engineStart => exact ⟨_, rfl, ruled _ engineStart_countersKept⟩
    | engineStop => exact ⟨_, rfl, ruled _ engineStop_countersKept⟩
    | encoderChange a b => exact ⟨_, rfl, countersKept_motion.present (countersKept_motion.encoderStep ⟨a, b⟩ s)⟩
    | paceExpiry => exact ⟨_, rfl, countersKept_motion.present (countersKept_motion.paceStep s)⟩
    | cueEdge => exact ⟨_, rfl, countersKept_motion.cueEdgeTogether s⟩
    | _ => cases own

/-- Settles O57: every command keeps the invariant, and taking it from the queue does not touch it. -/
theorem countersSaturate : Obligations.CountersSaturate := by
  intro s t
  refine step_keeps (fun _ _ inv => inv) fun c u inv => ?_
  obtain ⟨v, ran, keeps⟩ := exec_countersKept c u
  exact ⟨v, ran, keeps inv⟩

end Sys2Proof.Machine
end

