-- ==== Sys2Proof/Proofs/HandlerPort.lean ====
section
/-! SUPPORT. What every command makes of the request handler, the arrival queues and the outgoing order (R154, R157, R162):
events of the part only add events, a request's row adds one reply and lets the handler move on, and the Link Port accepts,
refuses and sends. -/

namespace Sys2Proof.Machine

/-! ### Leaving the handler and its queues alone -/

/-- The handler and the arrival queues stand, and nothing joins the outgoing order but events (R162). -/
structure PortKept (s t : State) : Prop where
  ctlWaiting : t.ctlWaiting = s.ctlWaiting
  dataWaiting : t.dataWaiting = s.dataWaiting
  handler : t.handler = s.handler
  events : EventsOnly s t

namespace PortKept

theorem of_same {s t : State} (ctl : t.ctlWaiting = s.ctlWaiting) (data : t.dataWaiting = s.dataWaiting)
    (handler : t.handler = s.handler) (out : t.outgoing = s.outgoing) : PortKept s t :=
  ⟨ctl, data, handler, ⟨[], by simp [out], by simp⟩, by simp [State.eventCount, out]⟩

theorem refl (s : State) : PortKept s s := .of_same rfl rfl rfl rfl

theorem trans {s t u : State} (a : PortKept s t) (b : PortKept t u) : PortKept s u :=
  ⟨b.ctlWaiting.trans a.ctlWaiting, b.dataWaiting.trans a.dataWaiting, b.handler.trans a.handler,
    a.events.trans b.events⟩

end PortKept

theorem portKept_closed : MotionClosed PortKept where
  refl := .refl
  trans := .trans
  raise e s := ⟨raise_ctlWaiting s e, raise_dataWaiting s e, raise_handler s e, raise_eventsOnly e s⟩
  planeCtr _ _ _ _ _ := .of_same rfl rfl rfl rfl
  bumpHead _ _ _ _ := .of_same rfl rfl rfl rfl
  rows _ _ := .of_same rfl rfl rfl rfl
  report _ _ _ _ _ _ _ _ := .of_same rfl rfl rfl rfl
  dropPage _ _ := .of_same rfl rfl rfl rfl
  pages _ _ _ _ := .of_same rfl rfl rfl rfl
  lines _ _ _ _ := .of_same rfl rfl rfl rfl
  loaders _ _ := .of_same rfl rfl rfl rfl
  sched _ _ := .of_same rfl rfl rfl rfl
  bumpMotion _ _ _ := .of_same rfl rfl rfl rfl
  tracker _ _ _ _ _ _ := .of_same rfl rfl rfl rfl
  motion _ _ _ _ _ _ _ := .of_same rfl rfl rfl rfl
  cueWith _ _ := .of_same rfl rfl rfl rfl

namespace PortKept

/-! ### The ends of storings and transfers -/

theorem joinLines (op : Storing) (joined : List StoredLine) (s : State) : PortKept s (joinLines op joined s) := by
  have placed : PortKept s (bumpPlane op.plane .discardedLate (op.lines.length - joined.length)
      (bumpPlane op.plane .linesStored joined.length (setLines op.plane (linesOf s op.plane ++ joined) s))) :=
    .of_same rfl rfl rfl rfl
  have peak (u : State) : PortKept u (updatePeak op.plane u) := .of_same rfl rfl rfl rfl
  exact placed.trans (trans (portKept_closed.advancePointer op _) (peak _))

theorem setHealth (h : Nat) (k : Health) (s : State) : PortKept s (setHealth h k s) := .of_same rfl rfl rfl rfl

theorem changeHealth (h : Nat) (old new : Health) (s : State) : PortKept s (changeHealth h old new s) :=
  RowClosed.ite (setHealth ..) (trans (setHealth ..) (portKept_closed.raise ..))

theorem countHealth (h : Nat) (acked : Bool) (s : State) : PortKept s (countHealth h acked s) := by
  unfold Machine.countHealth
  split
  · exact changeHealth ..
  · exact refl s

theorem bumpHead (h : Nat) (c : HeadCtr) (n : Nat) (s : State) : PortKept s (bumpHead h c n s) :=
  .of_same rfl rfl rfl rfl

theorem loadAcked (h r : Nat) (seq : BitVec 8) (s : State) : PortKept s (loadAcked h r seq s) :=
  trans (bumpHead ..) (trans (portKept_closed.bufferAcked ..) (trans (portKept_closed.rowTurn ..)
    (trans (countHealth ..) (portKept_closed.settle _))))

theorem loadFailed (h r : Nat) (s : State) : PortKept s (loadFailed h r s) := by
  have lost := trans (bumpHead h .transfers 1 s) (trans (bumpHead h .failures 1 _)
    (trans (portKept_closed.bufferFailed h r _) (countHealth h false _)))
  exact trans (RowClosed.ite (lost.trans (portKept_closed.enterOffline ..)) lost) (portKept_closed.settle _)

theorem probeAcked (h : Nat) (s : State) : PortKept s (probeAcked h s) := by
  unfold Machine.probeAcked
  split
  · exact RowClosed.ite (trans (changeHealth ..) (portKept_closed.settle _))
      (trans (setHealth ..) (portKept_closed.beginProbe ..))
  · exact refl s

theorem probeFailed (h : Nat) (s : State) : PortKept s (probeFailed h s) := by
  unfold Machine.probeFailed
  split
  · exact changeHealth ..
  · exact refl s

theorem endTransfer (h : Nat) (t : Transfer) (acked : Bool) (s : State) : PortKept s (endTransfer h t acked s) := by
  unfold Machine.endTransfer
  split
  · exact refl s
  · next l _ =>
    refine trans (portKept_closed.setLoader h ⟨l.seq, none⟩ s) ?_
    dsimp only
    split
    · exact RowClosed.ite (loadAcked ..) (loadFailed ..)
    · exact trans (bumpHead ..) (RowClosed.ite (probeAcked ..) (probeFailed ..))

theorem headAnswer (lane : Nat) (bits : BitVec 32) (s : State) : PortKept s (headAnswer lane bits s) := by
  unfold Machine.headAnswer
  split
  · split
    · dsimp only
      split
      · exact refl s
      · exact endTransfer ..
      · exact endTransfer ..
    · exact refl s
  · exact refl s

theorem ackTimeout (h : Nat) (s : State) : PortKept s (ackTimeout h s) := by
  unfold Machine.ackTimeout
  split
  · exact endTransfer ..
  · exact refl s

end PortKept

/-! ### The commands by what they do to the Link Port -/

/-- The commands that are neither requests nor resets nor the Link Port's own, nor the end of a storing: what happens to
the substrate, the heads and the fire windows. -/
def offLink : Instr → Bool
  | .encoderChange _ _ | .paceExpiry | .cueEdge | .sendingEnd _ | .headAnswer _ _ | .ackTimeout _ | .windowEnd _ _ => true
  | _ => false

theorem exec_portKept {c : Instr} (off : offLink c = true) (s : State) : ∃ t, exec c s = .next t ∧ PortKept s t := by
  cases c with
  | encoderChange a b => exact ⟨_, rfl, portKept_closed.present (portKept_closed.encoderStep ⟨a, b⟩ s)⟩
  | paceExpiry => exact ⟨_, rfl, portKept_closed.present (portKept_closed.paceStep s)⟩
  | cueEdge => exact ⟨_, rfl, portKept_closed.cueEdgeTogether s⟩
  | sendingEnd h => exact ⟨_, rfl, portKept_closed.sendingEnd h s⟩
  | headAnswer lane bits => exact ⟨_, rfl, PortKept.headAnswer lane bits s⟩
  | ackTimeout h => exact ⟨_, rfl, PortKept.ackTimeout h s⟩
  | windowEnd h r => exact ⟨_, rfl, portKept_closed.windowEnd h r s⟩
  | _ => cases off

/-- The commands, sorted. -/
inductive CommandSort : Instr → Prop
  | request (q : Req) : CommandSort q.instr
  | arrival (bytes : List Byte) : CommandSort (.hostFrameArrival bytes)
  | sent : CommandSort .frameSent
  | stored : CommandSort .storingEnd
  | powerOn : CommandSort .powerOn
  | softReset : CommandSort .softReset
  | off {c : Instr} (off : offLink c = true) : CommandSort c

theorem commandSort (c : Instr) : CommandSort c := by
  cases c with
  | powerOn => exact .powerOn
  | softReset => exact .softReset
  | hostFrameArrival bytes => exact .arrival bytes
  | frameSent => exact .sent
  | storingEnd => exact .stored
  | identify => exact .request .identify
  | statusQuery => exact .request .statusQuery
  | statsRead => exact .request .statsRead
  | reset => exact .request .reset
  | setPlaneSet => exact .request .setPlaneSet
  | setPlaneRemove => exact .request .setPlaneRemove
  | setHeadSet => exact .request .setHeadSet
  | setHeadRemove => exact .request .setHeadRemove
  | setLane => exact .request .setLane
  | setMotion => exact .request .setMotion
  | setCue => exact .request .setCue
  | engineStart => exact .request .engineStart
  | engineStop => exact .request .engineStop
  | engineHalt => exact .request .engineHalt
  | pageOpen => exact .request .pageOpen
  | pageCancel => exact .request .pageCancel
  | nozzleMark => exact .request .nozzleMark
  | nozzleClear => exact .request .nozzleClear
  | waveErase => exact .request .waveErase
  | waveLoad => exact .request .waveLoad
  | waveSelect => exact .request .waveSelect
  | headRestore => exact .request .headRestore
  | band => exact .request .band
  | unknownCode => exact .request .unknownCode
  | _ => exact .off rfl

/-! ### What a request's rule answers -/

/-- The frame is answered after an act that leaves handler and queues alone: the reply joins behind the act's events
(R162). -/
def Answered (f : HostFrame) (s t : State) : Prop := ∃ st b u, PortKept s u ∧ t = answer f st b u

namespace Answered

theorem of {s u : State} {f : HostFrame} {st : Status} {b : List Byte} (act : PortKept s u) :
    Answered f s (answer f st b u) := ⟨st, b, u, act, rfl⟩

/-- A reply to what has changed none of handler, queues and outgoing order. -/
theorem beside {s u : State} {f : HostFrame} {st : Status} {b : List Byte} (ctl : u.ctlWaiting = s.ctlWaiting)
    (data : u.dataWaiting = s.dataWaiting) (handler : u.handler = s.handler) (out : u.outgoing = s.outgoing) :
    Answered f s (answer f st b u) := of (.of_same ctl data handler out)

variable (f : HostFrame) (s : State)

theorem statsRead : Answered f s (statsRead f s) := by
  have cleared (g : Group) : PortKept s (clearGroup g s) := by cases g <;> exact .of_same rfl rfl rfl rfl
  unfold Machine.statsRead
  split
  · exact of (.refl s)
  · exact of (RowClosed.ite (cleared _) (.refl s))

theorem setPlaneSet : Answered f s (setPlaneSet f s) := by
  unfold Machine.setPlaneSet; split <;> exact beside rfl rfl rfl rfl

theorem setPlaneRemove : Answered f s (setPlaneRemove f s) := by
  unfold Machine.setPlaneRemove; split <;> exact beside rfl rfl rfl rfl

theorem setHeadSet : Answered f s (setHeadSet f s) := by
  unfold Machine.setHeadSet; split <;> exact beside rfl rfl rfl rfl

theorem setHeadRemove : Answered f s (setHeadRemove f s) := by
  unfold Machine.setHeadRemove; split <;> exact beside rfl rfl rfl rfl

theorem setLane : Answered f s (setLane f s) := by
  unfold Machine.setLane; split <;> exact beside rfl rfl rfl rfl

theorem setMotion : Answered f s (setMotion f s) := by
  unfold Machine.setMotion; split <;> exact beside rfl rfl rfl rfl

theorem setCue : Answered f s (setCue f s) := by
  unfold Machine.setCue; split <;> exact beside rfl rfl rfl rfl

theorem engineStart : Answered f s (engineStart f s) := by
  unfold Machine.engineStart; split <;> exact beside rfl rfl rfl rfl

theorem engineStop : Answered f s (engineStop f s) :=
  RowClosed.ite (beside rfl rfl rfl rfl) (beside rfl rfl rfl rfl)

theorem engineHalt : Answered f s (engineHalt f s) := by
  have cut : PortKept s (mapBufs LoadBuf.cut (s.pages.foldl haltPage s)) :=
    .trans (portKept_closed.foldl portKept_closed.haltPage s.pages s) (portKept_closed.mapBufs ..)
  unfold Machine.engineHalt
  dsimp only
  generalize mapBufs LoadBuf.cut (s.pages.foldl haltPage s) = t at cut
  exact of (.trans cut (.of_same rfl rfl rfl rfl))

theorem pageOpen : Answered f s (pageOpen f s) := by
  unfold Machine.pageOpen
  split
  · exact of (.refl s)
  · exact RowClosed.ite (of (.refl s)) (RowClosed.ite (of (.refl s))
      (of (.trans (portKept_closed.pages ..) (portKept_closed.bindFollows ..))))

theorem pageCancel : Answered f s (pageCancel f s) := by
  unfold Machine.pageCancel
  split
  · exact of (.refl s)
  · exact RowClosed.ite (of (portKept_closed.cancelQueued ..)) (of (portKept_closed.cancelBound ..))

theorem markAll (h : Nat) (pairs : List (Nat × NozzleStatus)) (s : State) : PortKept s (markAll h pairs s).1 := by
  induction pairs generalizing s with
  | nil => exact .refl s
  | cons pair rest ih => exact .trans (t := markNozzle h pair s) (.of_same rfl rfl rfl rfl) (ih _)

theorem nozzleMark : Answered f s (nozzleMark f s) := by
  unfold Machine.nozzleMark
  split
  · exact of (markAll ..)
  · exact of (.refl s)

theorem nozzleClear : Answered f s (nozzleClear f s) := by
  unfold Machine.nozzleClear; split <;> exact beside rfl rfl rfl rfl

theorem waveErase : Answered f s (waveErase f s) := by
  unfold Machine.waveErase
  split
  · exact of (.refl s)
  · exact RowClosed.ite (of (.refl s)) (beside rfl rfl rfl rfl)

theorem waveLoad : Answered f s (waveLoad f s) := by
  unfold Machine.waveLoad
  split
  · exact of (.refl s)
  · exact RowClosed.ite (of (.refl s)) (RowClosed.ite (of (.refl s)) (beside rfl rfl rfl rfl))

theorem waveSelect : Answered f s (waveSelect f s) := by
  unfold Machine.waveSelect
  split
  · exact of (.refl s)
  · exact RowClosed.ite (of (.refl s)) (RowClosed.ite (of (.refl s)) (beside rfl rfl rfl rfl))

theorem headRestore : Answered f s (headRestore f s) := by
  unfold Machine.headRestore
  dsimp only
  split
  · exact RowClosed.ite (of (.trans (PortKept.changeHealth ..) (portKept_closed.beginProbe ..))) (of (.refl s))
  · exact of (.refl s)

/-- A BAND is answered at once or begins its storing (R58, R60). -/
theorem band_or_storing : Answered f s (band f s) ∨ ∃ op, band f s = { s with handler := .storing op } := by
  unfold Machine.band
  dsimp only
  split
  case h_4 => exact .inl (beside rfl rfl rfl rfl)
  case h_5 => exact .inr ⟨_, rfl⟩
  all_goals exact .inl (of (.refl s))

end Answered

/-! ### The request handler -/

/-- What the rule of a row makes of a frame that the handler, free again, has given it: an answer; or a BAND begins its
storing; or a RESET stops the handler (R60, R158, R168). -/
def Dealt (q : Req) (f : HostFrame) (s t : State) : Prop :=
  Answered f s t ∨ (q = .band ∧ ∃ op, t = { s with handler := .storing op })
    ∨ (q = .reset ∧ t = answer f .ok [] { s with handler := .stopped })

theorem rule_dealt (q : Req) : ∃ act, (∀ s, exec q.instr s = .next (handleRequest q act s))
    ∧ ∀ f s, Dealt q f s (act f s) := by
  cases q with
  | identify => exact ⟨_, fun _ => rfl, fun f s => .inl (.of (.refl s))⟩
  | statusQuery => exact ⟨_, fun _ => rfl, fun f s => .inl (.of (.refl s))⟩
  | statsRead => exact ⟨_, fun _ => rfl, fun f s => .inl (.statsRead f s)⟩
  | reset => exact ⟨_, fun _ => rfl, fun f s => .inr (.inr ⟨rfl, rfl⟩)⟩
  | setPlaneSet => exact ⟨_, fun _ => rfl, fun f s => .inl (.setPlaneSet f s)⟩
  | setPlaneRemove => exact ⟨_, fun _ => rfl, fun f s => .inl (.setPlaneRemove f s)⟩
  | setHeadSet => exact ⟨_, fun _ => rfl, fun f s => .inl (.setHeadSet f s)⟩
  | setHeadRemove => exact ⟨_, fun _ => rfl, fun f s => .inl (.setHeadRemove f s)⟩
  | setLane => exact ⟨_, fun _ => rfl, fun f s => .inl (.setLane f s)⟩
  | setMotion => exact ⟨_, fun _ => rfl, fun f s => .inl (.setMotion f s)⟩
  | setCue => exact ⟨_, fun _ => rfl, fun f s => .inl (.setCue f s)⟩
  | engineStart => exact ⟨_, fun _ => rfl, fun f s => .inl (.engineStart f s)⟩
  | engineStop => exact ⟨_, fun _ => rfl, fun f s => .inl (.engineStop f s)⟩
  | engineHalt => exact ⟨_, fun _ => rfl, fun f s => .inl (.engineHalt f s)⟩
  | pageOpen => exact ⟨_, fun _ => rfl, fun f s => .inl (.pageOpen f s)⟩
  | pageCancel => exact ⟨_, fun _ => rfl, fun f s => .inl (.pageCancel f s)⟩
  | nozzleMark => exact ⟨_, fun _ => rfl, fun f s => .inl (.nozzleMark f s)⟩
  | nozzleClear => exact ⟨_, fun _ => rfl, fun f s => .inl (.nozzleClear f s)⟩
  | waveErase => exact ⟨_, fun _ => rfl, fun f s => .inl (.waveErase f s)⟩
  | waveLoad => exact ⟨_, fun _ => rfl, fun f s => .inl (.waveLoad f s)⟩
  | waveSelect => exact ⟨_, fun _ => rfl, fun f s => .inl (.waveSelect f s)⟩
  | headRestore => exact ⟨_, fun _ => rfl, fun f s => .inl (.headRestore f s)⟩
  | band =>
    exact ⟨_, fun _ => rfl, fun f s => (Answered.band_or_storing f s).imp_right fun storing => .inl ⟨rfl, storing⟩⟩
  | unknownCode => exact ⟨_, fun _ => rfl, fun f s => .inl (.of (.refl s))⟩

/-- A request's row: either its turn has not come, or it deals with the frame taken and the handler, if free, moves on
(R157, R158). -/
theorem exec_request (q : Req) (s : State) : ∃ t, exec q.instr s = .next t ∧
    (((∀ f, s.handler = .taken f → reqOf f ≠ q) ∧ t = s) ∨
      ∃ f u, s.handler = .taken f ∧ reqOf f = q ∧ Dealt q f { s with handler := .free } u ∧ t = takeNext u) := by
  obtain ⟨act, ran, deals⟩ := rule_dealt q
  refine ⟨_, ran s, ?_⟩
  by_cases turn : ∃ f, s.handler = .taken f ∧ reqOf f = q
  · obtain ⟨f, taken, row⟩ := turn
    refine .inr ⟨f, _, taken, row, ?_, handleRequest_taken taken row⟩
    have refused (st : Status) (b : List Byte) :
        Dealt q f { s with handler := .free } (answer f st b { s with handler := .free }) := .inl (.of (.refl _))
    exact RowClosed.ite (refused ..) (RowClosed.ite (refused ..) (deals f _))
  · have other : ∀ f, s.handler = .taken f → reqOf f ≠ q := fun f taken row => turn ⟨f, taken, row⟩
    exact .inl ⟨other, handleRequest_other other⟩

/-- The end of a storing answers its BAND, and the handler moves on (R60, R157). -/
theorem storingEnd_answered {s : State} {op : Storing} (storing : s.handler = .storing op) :
    ∃ u, Answered op.frame { s with handler := .free } u ∧ storingEnd s = takeNext u := by
  unfold storingEnd
  rw [storing]
  exact ⟨_, .of (.trans (.joinLines op _ _) (portKept_closed.settle _)), rfl⟩

theorem storingEnd_idle {s : State} (idle : ∀ op, s.handler ≠ .storing op) : storingEnd s = s := by
  unfold storingEnd
  split
  · next op storing => exact absurd storing (idle op)
  · rfl

/-! ### The receiver and the transmit path -/

/-- A byte leaves handler, queues and outgoing order alone, or completes a good request (R153, R155). -/
theorem rxByte_port (b : Byte) (s : State) :
    PortKept s (rxByte b s) ∨ ∃ f, rxByte b s = acceptFrame f { s with rx := .expecting } := by
  have hunted (skipped sync1 : Bool) : PortKept s (huntByte skipped sync1 b s) :=
    RowClosed.ite (RowClosed.ite (.of_same rfl rfl rfl rfl) (.of_same rfl rfl rfl rfl))
      (RowClosed.ite (.of_same rfl rfl rfl rfl) (.of_same rfl rfl rfl rfl))
  have arrived (covered check : List Byte) : PortKept s (frameArrived covered check s)
      ∨ ∃ f, frameArrived covered check s = acceptFrame f { s with rx := .expecting } := by
    unfold frameArrived
    dsimp only
    split
    · exact .inl (.of_same rfl rfl rfl rfl)
    · split
      · exact .inl (.of_same rfl rfl rfl rfl)
      · exact .inr ⟨_, rfl⟩
  unfold rxByte
  split
  case h_1 => exact .inl (hunted ..)
  case h_2 => exact .inl (RowClosed.ite (.of_same rfl rfl rfl rfl) (hunted ..))
  case h_3 => exact .inl (RowClosed.ite (.of_same rfl rfl rfl rfl) (hunted ..))
  case h_4 =>
    exact .inl (RowClosed.ite (.of_same rfl rfl rfl rfl)
      (RowClosed.ite (.of_same rfl rfl rfl rfl) (.of_same rfl rfl rfl rfl)))
  case h_5 =>
    dsimp only
    split
    · exact arrived ..
    · exact .inl (.of_same rfl rfl rfl rfl)

/-- What every byte keeps, a burst keeps. -/
theorem rxBytes_keep {P : State → Prop} (byte : ∀ b s, P s → P (rxByte b s)) (bytes : List Byte) {s : State}
    (holds : P s) : P (bytes.foldl (fun s b => rxByte b s) s) := by
  induction bytes generalizing s with
  | nil => exact holds
  | cons b bytes ih => exact ih (byte b s holds)

/-- The two kinds of acceptance and the refusal at arrival as one case distinction (R155, R157). -/
theorem acceptFrame_cases (f : HostFrame) (s : State) :
    (f.kind = .control ∧ s.controlHeld < 4
      ∧ acceptFrame f s = bumpLink .goodFrames 1 (takeNext { s with ctlWaiting := s.ctlWaiting ++ [f] })) ∨
    (f.kind = .data ∧ s.dataHeld < 28
      ∧ acceptFrame f s = bumpLink .goodFrames 1 (takeNext { s with dataWaiting := s.dataWaiting ++ [f] })) ∨
    ∃ st c, acceptFrame f s = refuseArrival f st c s := by
  unfold acceptFrame
  cases kind : f.kind with
  | control =>
    by_cases room : s.controlHeld < Config.controlSlots
    · exact .inl ⟨rfl, room, if_pos room⟩
    · exact .inr (.inr ⟨_, _, if_neg room⟩)
  | data =>
    by_cases room : s.dataHeld < Config.dataSlots
    · exact .inr (.inl ⟨rfl, room, if_pos room⟩)
    · exact .inr (.inr ⟨_, _, if_neg room⟩)

/-- FRAME_SENT takes at most the head off the outgoing order (R162). -/
theorem frameSent_port (s : State) : (beginSending (finishSending s)).ctlWaiting = s.ctlWaiting
    ∧ (beginSending (finishSending s)).dataWaiting = s.dataWaiting
    ∧ (beginSending (finishSending s)).handler = s.handler
    ∧ (beginSending (finishSending s)).outgoing.Sublist s.outgoing := by
  have finished (u : State) : (finishSending u).ctlWaiting = u.ctlWaiting ∧ (finishSending u).dataWaiting = u.dataWaiting
      ∧ (finishSending u).handler = u.handler ∧ (finishSending u).outgoing = u.outgoing := by
    unfold finishSending; split <;> exact ⟨rfl, rfl, rfl, rfl⟩
  have begun (u : State) : (beginSending u).ctlWaiting = u.ctlWaiting ∧ (beginSending u).dataWaiting = u.dataWaiting
      ∧ (beginSending u).handler = u.handler ∧ (beginSending u).outgoing.Sublist u.outgoing := by
    unfold beginSending
    split
    · exact ⟨rfl, rfl, rfl, .refl _⟩
    · split
      · exact ⟨rfl, rfl, rfl, .refl _⟩
      · next out => exact ⟨rfl, rfl, rfl, by rw [out]; exact List.sublist_cons_self ..⟩
      · next out => exact ⟨rfl, rfl, rfl, by rw [out]; exact List.sublist_cons_self ..⟩
  obtain ⟨f1, f2, f3, f4⟩ := finished s
  obtain ⟨b1, b2, b3, b4⟩ := begun (finishSending s)
  exact ⟨b1.trans f1, b2.trans f2, b3.trans f3, f4 ▸ b4⟩

end Sys2Proof.Machine
end

