-- ==== Sys2Proof/Proofs/HandlerOrder.lean ====
section
/-! SUPPORT. The request handler takes control before data, each kind oldest first, and is never free while a frame waits
(R157, R168). -/

namespace Sys2Proof.Machine

/-- The handler and the two arrival queues of `t` are those of `u`. -/
def SameQueues (u t : State) : Prop :=
  t.handler = u.handler ∧ t.ctlWaiting = u.ctlWaiting ∧ t.dataWaiting = u.dataWaiting

/-- What moving on makes of handler and queues depends on the queues alone. -/
theorem movedOn_queues {s u : State} (ctl : u.ctlWaiting = s.ctlWaiting) (data : u.dataWaiting = s.dataWaiting) :
    SameQueues (movedOn s) (movedOn u) := by
  rw [movedOn_eq s, movedOn_eq u]
  simp [SameQueues, ctl, data]

/-- The handler, left free by an answer, moves on. -/
theorem Answered.movesOn {f : HostFrame} {s u : State} (answered : Answered f { s with handler := .free } u) :
    SameQueues (movedOn s) (takeNext u) := by
  obtain ⟨st, b, v, kept, rfl⟩ := answered
  rw [takeNext_eq, if_pos (by exact kept.handler)]
  exact movedOn_queues kept.ctlWaiting kept.dataWaiting

/-! ### Never free while a frame waits -/

theorem handlerInv_movedOn (s : State) : handlerInv (movedOn s) := by
  unfold movedOn
  split
  · intro free; cases free
  · intro free; cases free
  · next ctl data => exact fun _ => ⟨ctl, data⟩

theorem handlerInv_takeNext (s : State) : handlerInv (takeNext s) := by
  rw [takeNext_eq]
  split
  · exact handlerInv_movedOn s
  · next busy => exact fun free => absurd free busy

theorem handlerInv_of_same {s t : State} (inv : handlerInv s) (handler : t.handler = s.handler)
    (ctl : t.ctlWaiting = s.ctlWaiting) (data : t.dataWaiting = s.dataWaiting) : handlerInv t := fun free => by
  rw [ctl, data]
  exact inv (handler ▸ free)

theorem PortKept.handlerInv {s t : State} (kept : PortKept s t) (inv : handlerInv s) : handlerInv t :=
  handlerInv_of_same inv kept.handler kept.ctlWaiting kept.dataWaiting

theorem acceptFrame_handlerInv (f : HostFrame) {s : State} (inv : handlerInv s) : handlerInv (acceptFrame f s) := by
  rcases acceptFrame_cases f s with ⟨-, -, h⟩ | ⟨-, -, h⟩ | ⟨st, c, h⟩ <;> rw [h]
  · exact handlerInv_takeNext _
  · exact handlerInv_takeNext _
  · unfold refuseArrival
    split <;> exact inv

theorem rxByte_handlerInv (b : Byte) {s : State} (inv : handlerInv s) : handlerInv (rxByte b s) := by
  rcases rxByte_port b s with kept | ⟨f, h⟩
  · exact kept.handlerInv inv
  · rw [h]
    exact acceptFrame_handlerInv f (s := { s with rx := .expecting }) inv

theorem exec_handlerInv (c : Instr) {s : State} (inv : handlerInv s) : ∃ t, exec c s = .next t ∧ handlerInv t := by
  cases commandSort c with
  | request q =>
    obtain ⟨t, ran, ⟨-, rfl⟩ | ⟨f, u, -, -, -, rfl⟩⟩ := exec_request q s
    · exact ⟨_, ran, inv⟩
    · exact ⟨_, ran, handlerInv_takeNext u⟩
  | arrival bytes => exact ⟨_, rfl, rxBytes_keep (fun b _ => rxByte_handlerInv b) bytes inv⟩
  | sent =>
    obtain ⟨ctl, data, handler, -⟩ := frameSent_port s
    exact ⟨_, rfl, handlerInv_of_same inv handler ctl data⟩
  | stored =>
    refine ⟨_, rfl, ?_⟩
    unfold storingEnd
    split
    · exact handlerInv_takeNext _
    · exact inv
  | powerOn => exact ⟨_, rfl, fun _ => ⟨rfl, rfl⟩⟩
  | softReset =>
    refine ⟨_, rfl, ?_⟩
    split
    · exact fun _ => ⟨rfl, rfl⟩
    · exact inv
  | off off =>
    obtain ⟨t, ran, kept⟩ := exec_portKept off s
    exact ⟨t, ran, kept.handlerInv inv⟩

/-! ### A frame taken stays taken -/

theorem rxByte_taken (f : HostFrame) (b : Byte) (s : State) (taken : s.handler = .taken f) :
    (rxByte b s).handler = .taken f := by
  have busy {u : State} (same : u.handler = s.handler) : (takeNext u).handler = .taken f := by
    rw [takeNext_busy (by rw [same, taken]; exact fun free => by cases free), same, taken]
  rcases rxByte_port b s with kept | ⟨g, h⟩
  · exact kept.handler.trans taken
  · rw [h]
    rcases acceptFrame_cases g { s with rx := .expecting } with ⟨-, -, h⟩ | ⟨-, -, h⟩ | ⟨st, c, h⟩ <;> rw [h]
    · exact busy rfl
    · exact busy rfl
    · unfold refuseArrival
      split <;> exact taken

/-- Until its own row comes, nothing but the resets takes the frame from the handler (R157). -/
theorem exec_taken {c : Instr} {f : HostFrame} {s : State} (taken : s.handler = .taken f) (other : c ≠ (reqOf f).instr)
    (notPower : c ≠ .powerOn) (notReset : c ≠ .softReset) : ∃ t, exec c s = .next t ∧ t.handler = .taken f := by
  cases commandSort c with
  | request q =>
    obtain ⟨t, ran, ⟨-, rfl⟩ | ⟨g, u, holds, row, -⟩⟩ := exec_request q s
    · exact ⟨_, ran, taken⟩
    · obtain rfl : g = f := Handler.taken.inj (holds.symm.trans taken)
      exact absurd (congrArg Req.instr row).symm other
  | arrival bytes => exact ⟨_, rfl, rxBytes_keep (P := fun s => s.handler = .taken f) (rxByte_taken f) bytes taken⟩
  | sent =>
    obtain ⟨-, -, handler, -⟩ := frameSent_port s
    exact ⟨_, rfl, handler.trans taken⟩
  | stored =>
    refine ⟨_, rfl, ?_⟩
    rw [storingEnd_idle fun op storing => by rw [taken] at storing; cases storing]
    exact taken
  | powerOn => exact absurd rfl notPower
  | softReset => exact absurd rfl notReset
  | off off =>
    obtain ⟨t, ran, kept⟩ := exec_portKept off s
    exact ⟨t, ran, kept.handler.trans taken⟩

/-- Settles O11: a row in turn answers and moves on, begins its storing or stops the handler; any other command leaves the
frame taken. -/
theorem handlerTakesControlFirst : Obligations.HandlerTakesControlFirst := by
  refine ⟨fun f s t taken ran => ?_, fun op s t storing ran => ?_, fun s t inv ran => ?_,
    fun c f s t taken other notPower notReset ran => ?_, fun q s other => ?_⟩
  · obtain ⟨v, ranV, ⟨never, -⟩ | ⟨g, u, holds, -, dealt, rfl⟩⟩ := exec_request (reqOf f) s
    · exact absurd rfl (never f taken)
    obtain rfl := Host.Outcome.next.inj (ran.symm.trans ranV)
    obtain rfl : g = f := Handler.taken.inj (holds.symm.trans taken)
    rcases dealt with answered | ⟨row, op, rfl⟩ | ⟨row, rfl⟩
    · exact .inl answered.movesOn
    · exact .inr ⟨.inl ⟨row, op, rfl⟩, rfl, rfl⟩
    · exact .inr ⟨.inr ⟨row, rfl⟩, rfl, rfl⟩
  · obtain ⟨u, answered, ended⟩ := storingEnd_answered storing
    obtain rfl := Host.Outcome.next.inj ran
    rw [ended]
    exact answered.movesOn
  · exact step_keeps (fun _ _ inv => inv) (fun c _ => exec_handlerInv c) inv ran
  · obtain ⟨u, ranU, holds⟩ := exec_taken taken other notPower notReset
    obtain rfl := Host.Outcome.next.inj (ran.symm.trans ranU)
    exact holds
  · obtain ⟨t, ran, ⟨-, rfl⟩ | ⟨f, u, taken, row, -⟩⟩ := exec_request q s
    · exact ran
    · exact absurd row (other f taken)

end Sys2Proof.Machine
end

