-- ==== Sys2Proof/Proofs/ReceiveSlots.lean ====
section
/-! SUPPORT. Receive slots, refusals at arrival and the event queue never hold more than their room (R154, R155, R163): a
frame keeps its one slot from its acceptance to the beginning of its reply. -/

namespace Sys2Proof.Machine

/-! ### What a state holds -/

/-- The frames of a kind that hold a slot: waiting, at the handler, or with a reply not yet begun (R154). -/
def heldOf (k : FrameKind) (s : State) : Nat :=
  (match k with | .control => s.ctlWaiting | .data => s.dataWaiting).length + s.handler.held k
    + s.outgoing.countP fun o => o.slot = some k

/-- The room for frames of a kind (R154). -/
def roomOf : FrameKind → Nat
  | .control => 4
  | .data => 28

/-- The frames that wait are each in the queue of their kind. -/
def QueuedByKind (s : State) : Prop := (∀ f ∈ s.ctlWaiting, f.kind = .control) ∧ ∀ f ∈ s.dataWaiting, f.kind = .data

theorem slotsInv_iff {s : State} : slotsInv s ↔
    (∀ k, heldOf k s ≤ roomOf k) ∧ s.refusalsWaiting ≤ 8 ∧ s.eventCount ≤ 64 ∧ QueuedByKind s := by
  constructor
  · rintro ⟨data, control, rest⟩
    exact ⟨fun k => by cases k <;> assumption, rest⟩
  · rintro ⟨held, rest⟩
    exact ⟨held .data, held .control, rest⟩

/-- An event holds no slot and is no refusal. -/
theorem counts_of_events {evs : List OutFrame} (events : ∀ o ∈ evs, o.isEvent = true) (k : FrameKind) :
    (evs.countP fun o => o.slot = some k) = 0 ∧ evs.countP OutFrame.isRefusal = 0 := by
  rw [List.countP_eq_zero, List.countP_eq_zero]
  constructor <;>
  · intro o mem
    cases o with
    | event seq lost e => simp [OutFrame.slot, OutFrame.isRefusal]
    | reply r => cases events _ mem

/-! ### The part's own events -/

theorem PortKept.heldOf {s t : State} (kept : PortKept s t) (k : FrameKind) : heldOf k t = heldOf k s := by
  obtain ⟨evs, out, events⟩ := kept.events.1
  simp only [Machine.heldOf, kept.ctlWaiting, kept.dataWaiting, kept.handler, out, List.countP_append,
    (counts_of_events events k).1, Nat.add_zero]

theorem PortKept.refusalsWaiting {s t : State} (kept : PortKept s t) : t.refusalsWaiting = s.refusalsWaiting := by
  obtain ⟨evs, out, events⟩ := kept.events.1
  simp only [State.refusalsWaiting, out, List.countP_append, (counts_of_events events .data).2, Nat.add_zero]

theorem PortKept.slotsInv {s t : State} (kept : PortKept s t) (inv : slotsInv s) : slotsInv t := by
  obtain ⟨held, refusals, events, sorted⟩ := slotsInv_iff.mp inv
  refine slotsInv_iff.mpr ⟨fun k => by rw [kept.heldOf]; exact held k, by rw [kept.refusalsWaiting]; exact refusals,
    kept.events.2 events, ?_⟩
  unfold QueuedByKind
  rwa [kept.ctlWaiting, kept.dataWaiting]

/-! ### The handler -/

/-- A frame that the handler takes out of its queue keeps its slot (R154). -/
theorem heldOf_takeNext {s : State} (sorted : QueuedByKind s) (k : FrameKind) : heldOf k (takeNext s) = heldOf k s := by
  obtain ⟨control, data⟩ := sorted
  unfold takeNext
  split
  · next f rest free ctl =>
    have kind : f.kind = .control := control f (ctl ▸ List.mem_cons_self)
    cases k <;> simp [heldOf, Handler.held, free, ctl, kind]
  · next f rest free ctl waiting =>
    have kind : f.kind = .data := data f (waiting ▸ List.mem_cons_self)
    cases k <;> simp [heldOf, Handler.held, free, ctl, waiting, kind]
  · rfl

theorem queuedByKind_takeNext {s : State} (sorted : QueuedByKind s) : QueuedByKind (takeNext s) := by
  obtain ⟨control, data⟩ := sorted
  unfold takeNext
  split
  · next ctl => exact ⟨fun f mem => control f (ctl ▸ List.mem_cons_of_mem _ mem), data⟩
  · next waiting => exact ⟨control, fun f mem => data f (waiting ▸ List.mem_cons_of_mem _ mem)⟩
  · exact ⟨control, data⟩

theorem slotsInv_takeNext {s : State} (inv : slotsInv s) : slotsInv (takeNext s) := by
  obtain ⟨held, refusals, events, sorted⟩ := slotsInv_iff.mp inv
  refine slotsInv_iff.mpr ⟨fun k => by rw [heldOf_takeNext sorted]; exact held k, ?_, ?_, queuedByKind_takeNext sorted⟩
  · rw [State.refusalsWaiting, takeNext_outgoing]; exact refusals
  · rw [State.eventCount, takeNext_outgoing]; exact events

/-- A reply holds the slot of the frame that the handler gives up for it, and is neither a refusal nor an event (R160). -/
theorem slotsInv_answer {f : HostFrame} {s : State} (inv : slotsInv s)
    (holds : ∀ k, s.handler.held k = if f.kind = k then 1 else 0) {h : Handler} (gone : ∀ k, h.held k = 0) (st : Status)
    (b : List Byte) : slotsInv (answer f st b { s with handler := h }) := by
  obtain ⟨held, refusals, events, sorted⟩ := slotsInv_iff.mp inv
  refine slotsInv_iff.mpr ⟨fun k => ?_, ?_, ?_, sorted⟩
  · have same : heldOf k (answer f st b { s with handler := h }) = heldOf k s := by
      simp [heldOf, answer, gone, holds k, OutFrame.slot, List.countP_singleton]; omega
    rw [same]
    exact held k
  · simpa [State.refusalsWaiting, answer, OutFrame.isRefusal] using refusals
  · simpa [State.eventCount, answer, OutFrame.isEvent] using events

/-- An answer to the frame that the handler has been busy with, after an act that leaves handler and queues alone. -/
theorem Answered.slotsInv {f : HostFrame} {s u : State} (answered : Answered f { s with handler := .free } u)
    (inv : slotsInv s) (holds : ∀ k, s.handler.held k = if f.kind = k then 1 else 0) : slotsInv u := by
  obtain ⟨st, b, v, kept, rfl⟩ := answered
  have acted : PortKept s { v with handler := s.handler } := ⟨kept.ctlWaiting, kept.dataWaiting, rfl, kept.events⟩
  have free : v = { { v with handler := s.handler } with handler := .free } := by
    rw [← show v.handler = .free from kept.handler]
  rw [free]
  exact slotsInv_answer (acted.slotsInv inv) holds (fun _ => rfl) st b

theorem kind_of_band {f : HostFrame} (row : reqOf f = .band) : f.kind = .data := by
  cases kind : f.kind with
  | data => rfl
  | control =>
    simp only [reqOf, kind] at row
    split at row
    case h_5 | h_6 => split at row <;> cases row
    all_goals cases row

/-- A frame dealt with keeps its slot: in its reply, or in the BAND's storing. -/
theorem Dealt.slotsInv {q : Req} {f : HostFrame} {s u : State} (dealt : Dealt q f { s with handler := .free } u)
    (inv : slotsInv s) (taken : s.handler = .taken f) (row : reqOf f = q) : slotsInv u := by
  have holds : ∀ k, s.handler.held k = if f.kind = k then 1 else 0 := fun k => by rw [taken]; rfl
  rcases dealt with answered | ⟨rfl, op, rfl⟩ | ⟨-, rfl⟩
  · exact answered.slotsInv inv holds
  · obtain ⟨held, rest⟩ := slotsInv_iff.mp inv
    refine slotsInv_iff.mpr ⟨fun k => ?_, rest⟩
    have busy : (Handler.storing op).held k = s.handler.held k := by
      rw [holds, kind_of_band row]
      simp only [Handler.held, eq_comm]
    have same : heldOf k { s with handler := .storing op } = heldOf k s := by simp only [heldOf, busy]
    exact same.trans_le (held k)
  · exact slotsInv_answer inv holds (fun _ => rfl) _ _

/-! ### Acceptance and sending -/

/-- A good request is accepted only into a free slot of its kind, and refused only while a refusal has room (R155). -/
theorem acceptFrame_slotsInv (f : HostFrame) {s : State} (inv : slotsInv s) : slotsInv (acceptFrame f s) := by
  obtain ⟨held, refusals, events, control, data⟩ := slotsInv_iff.mp inv
  have counted {u : State} (inv : slotsInv u) (c : LinkCtr) : slotsInv (bumpLink c 1 u) := inv
  rcases acceptFrame_cases f s with ⟨kind, room, h⟩ | ⟨kind, room, h⟩ | ⟨st, c, h⟩ <;> rw [h]
  · have queued : slotsInv { s with ctlWaiting := s.ctlWaiting ++ [f] } := by
      have each := List.forall_mem_append.mpr ⟨control, List.forall_mem_singleton.mpr kind⟩
      refine slotsInv_iff.mpr ⟨fun k => ?_, refusals, events, each, data⟩
      cases k with
      | control =>
        have more : heldOf .control { s with ctlWaiting := s.ctlWaiting ++ [f] } = s.controlHeld + 1 := by
          simp [heldOf, State.controlHeld]; omega
        exact more.trans_le room
      | data => exact held .data
    exact counted (slotsInv_takeNext queued) _
  · have queued : slotsInv { s with dataWaiting := s.dataWaiting ++ [f] } := by
      have each := List.forall_mem_append.mpr ⟨data, List.forall_mem_singleton.mpr kind⟩
      refine slotsInv_iff.mpr ⟨fun k => ?_, refusals, events, control, each⟩
      cases k with
      | control => exact held .control
      | data =>
        have more : heldOf .data { s with dataWaiting := s.dataWaiting ++ [f] } = s.dataHeld + 1 := by
          simp [heldOf, State.dataHeld]; omega
        exact more.trans_le room
    exact counted (slotsInv_takeNext queued) _
  · unfold refuseArrival
    split
    · next room =>
      have refused : slotsInv { s with outgoing := s.outgoing ++ [.reply ⟨st, f.code, f.tag, none, []⟩] } := by
        refine slotsInv_iff.mpr ⟨fun k => ?_, ?_, ?_, control, data⟩
        · simpa [heldOf, OutFrame.slot] using held k
        · simpa [State.refusalsWaiting, OutFrame.isRefusal, Nat.succ_le_iff] using room
        · simpa [State.eventCount, OutFrame.isEvent] using events
      exact counted (counted refused _) _
    · exact counted inv _

theorem rxByte_slotsInv (b : Byte) {s : State} (inv : slotsInv s) : slotsInv (rxByte b s) := by
  rcases rxByte_port b s with kept | ⟨f, h⟩
  · exact kept.slotsInv inv
  · rw [h]
    exact acceptFrame_slotsInv f (s := { s with rx := .expecting }) inv

theorem frameSent_slotsInv {s : State} (inv : slotsInv s) : slotsInv (beginSending (finishSending s)) := by
  obtain ⟨ctl, waiting, handler, out⟩ := frameSent_port s
  obtain ⟨held, refusals, events, control, data⟩ := slotsInv_iff.mp inv
  refine slotsInv_iff.mpr ⟨fun k => ?_, (out.countP_le ..).trans refusals, (out.countP_le ..).trans events, ?_, ?_⟩
  · refine Nat.le_trans ?_ (held k)
    simp only [heldOf, ctl, waiting, handler]
    exact Nat.add_le_add_left (out.countP_le ..) _
  · rwa [ctl]
  · rwa [waiting]

/-! ### Every command -/

theorem exec_slotsInv (c : Instr) {s : State} (inv : slotsInv s) : ∃ t, exec c s = .next t ∧ slotsInv t := by
  cases commandSort c with
  | request q =>
    obtain ⟨t, ran, ⟨-, rfl⟩ | ⟨f, u, taken, row, dealt, rfl⟩⟩ := exec_request q s
    · exact ⟨_, ran, inv⟩
    · exact ⟨_, ran, slotsInv_takeNext (dealt.slotsInv inv taken row)⟩
  | arrival bytes => exact ⟨_, rfl, rxBytes_keep (fun b _ => rxByte_slotsInv b) bytes inv⟩
  | sent => exact ⟨_, rfl, frameSent_slotsInv inv⟩
  | stored =>
    refine ⟨_, rfl, ?_⟩
    by_cases busy : ∃ op, s.handler = .storing op
    · obtain ⟨op, storing⟩ := busy
      obtain ⟨u, answered, ended⟩ := storingEnd_answered storing
      rw [ended]
      exact slotsInv_takeNext (answered.slotsInv inv fun k => by
        rw [storing]
        simp only [Handler.held, Storing.frame, eq_comm])
    · rw [storingEnd_idle fun op storing => busy ⟨op, storing⟩]
      exact inv
  | powerOn => exact ⟨_, rfl, reset_slotsInv⟩
  | softReset => exact ⟨_, rfl, iteInduction (fun _ => reset_slotsInv) fun _ => inv⟩
  | off off =>
    obtain ⟨t, ran, kept⟩ := exec_portKept off s
    exact ⟨t, ran, kept.slotsInv inv⟩

/-- Settles O52: every command keeps the invariant, and taking it from the queue does not touch it. -/
theorem slotsNeverOverflow : Obligations.SlotsNeverOverflow := fun _ _ =>
  step_keeps (fun _ _ inv => inv) fun c _ => exec_slotsInv c

end Sys2Proof.Machine
end

