-- ==== Sys2Proof/Proofs/Receiver.lean ====
section
/-! SUPPORT. The receiver (R153) byte by byte: the sync pair, the eight bytes of Kind to Length, body and check; and the
bytes of a request read back (R152). -/

namespace Sys2Proof.Machine

/-- The receiver takes the bytes in order. -/
abbrev receive (bytes : List Byte) (s : State) : State := bytes.foldl (fun s b => rxByte b s) s

theorem receive_append (a b : List Byte) (s : State) : receive (a ++ b) s = receive b (receive a s) := List.foldl_append

/-- The first eight bytes behind the sync bytes are Kind to Length. -/
theorem receive_header {got bytes : List Byte} {s : State} (rx : s.rx = .header got)
    (short : got.length + bytes.length < 8) : receive bytes s = { s with rx := .header (bytes.reverse ++ got) } := by
  induction bytes generalizing got s with
  | nil => cases s; simp_all
  | cons b bytes ih =>
    have lt : (b :: got).length < 8 := by simp only [List.length_cons] at short ⊢; omega
    have step : rxByte b s = { s with rx := .header (b :: got) } := by simp only [rxByte, rx, if_pos lt]
    rw [receive, List.foldl_cons, step]
    have rest := ih (s := { s with rx := .header (b :: got) }) rfl (by simp only [List.length_cons] at short ⊢; omega)
    simpa [receive] using rest

/-- Kind to Length whole: a length above 65,536 is one bad frame and a hunt, any other announces body and check (R153). -/
theorem receive_head {head : List Byte} {s : State} (rx : s.rx = .header []) (eight : head.length = 8) :
    receive head s = if 65536 < field head 4 4 then bumpLink .badFrames 1 { s with rx := .hunting false false }
      else { s with rx := .rest head [] (field head 4 4 + 4) } := by
  obtain ⟨front, last, rfl⟩ : ∃ front last, head = front ++ [last] :=
    ⟨_, _, (List.dropLast_append_getLast (List.ne_nil_of_length_pos (by omega))).symm⟩
  have seven : front.length = 7 := by simpa using eight
  rw [receive_append, receive_header rx (by simp [seven])]
  simp [receive, rxByte, seven]

/-- Body and check. -/
theorem receive_rest {head got bytes : List Byte} {left : Nat} {s : State} (rx : s.rx = .rest head got left)
    (whole : bytes.length = left) (toCome : 0 < left) : receive bytes s
      = frameArrived ((head ++ (got.reverse ++ bytes)).take ((head ++ (got.reverse ++ bytes)).length - 4))
          ((head ++ (got.reverse ++ bytes)).drop ((head ++ (got.reverse ++ bytes)).length - 4)) s := by
  induction bytes generalizing got left s with
  | nil => simp at whole; omega
  | cons b bytes ih =>
    rw [receive, List.foldl_cons]
    rcases bytes with _ | ⟨c, bytes⟩
    · obtain rfl : left = 1 := by simpa using whole.symm
      simp [rxByte, rx]
    · have more : ¬ left ≤ 1 := by simp only [List.length_cons] at whole; omega
      have step : rxByte b s = { s with rx := .rest head (b :: got) (left - 1) } := by
        simp only [rxByte, rx, if_neg more]
      rw [step]
      have rest := ih (s := { s with rx := .rest head (b :: got) (left - 1) }) rfl
        (by simp only [List.length_cons] at whole ⊢; omega) (by omega)
      rw [receive] at rest
      rw [rest]
      simp only [List.reverse_cons, List.append_assoc, List.singleton_append]
      rfl

/-- What a whole frame comes to does not rest on the receiver's state before. -/
theorem frameArrived_rx (covered check : List Byte) (rx : Rx) (s : State) :
    frameArrived covered check { s with rx := rx } = frameArrived covered check s := rfl

/-- A frame of an allowed length arrives whole (R153). -/
theorem receive_frame {head body check : List Byte} {s : State} (rx : s.rx = .header []) (eight : head.length = 8)
    (length : field head 4 4 = body.length) (allowed : body.length ≤ 65536) (four : check.length = 4) :
    receive (head ++ body ++ check) s = frameArrived (head ++ body) check s := by
  have announced : receive head s = { s with rx := .rest head [] (body.length + 4) } := by
    rw [receive_head rx eight, length, if_neg (by omega)]
  have whole : head ++ ([].reverse ++ (body ++ check)) = (head ++ body) ++ check := by simp
  have cut : ((head ++ body) ++ check).length - 4 = (head ++ body).length := by simp only [List.length_append]; omega
  rw [List.append_assoc, receive_append, announced, receive_rest rfl (by simp [four]) (by omega), whole, cut,
    List.take_left, List.drop_left, frameArrived_rx]

/-- The sync pair, where a frame is expected or at the start of a hunt, begins a frame and counts nothing. -/
theorem receive_pair {s : State} (rx : s.rx = .expecting ∨ s.rx = .hunting false false) :
    receive [0xD4#8, 0x2B#8] s = { s with rx := .header [] } := by
  rcases rx with rx | rx <;> simp [receive, rxByte, huntByte, rx]

/-! ### The bytes of a frame -/

/-- Kind to Length (R152). -/
def frameHead (kind code : Nat) (tag : BitVec 16) (length : Nat) : List Byte :=
  leBytes 1 kind ++ leBytes 1 code ++ leBytes 2 tag.toNat ++ leBytes 4 length

theorem frameHead_length (kind code : Nat) (tag : BitVec 16) (length : Nat) :
    (frameHead kind code tag length).length = 8 := by simp [frameHead]

/-- Kind to Length read back, whatever follows them. -/
theorem frameHead_read {kind code length : Nat} (tag : BitVec 16) (hk : kind < 256) (hl : length < 4294967296)
    (rest : List Byte) : field (frameHead kind code tag length ++ rest) 0 1 = kind
      ∧ (frameHead kind code tag length ++ rest).getD 1 0 = BitVec.ofNat 8 code
      ∧ field (frameHead kind code tag length ++ rest) 2 2 = tag.toNat
      ∧ field (frameHead kind code tag length ++ rest) 4 4 = length
      ∧ (frameHead kind code tag length ++ rest).drop 8 = rest := by
  have ht : tag.toNat < 65536 := tag.isLt
  refine ⟨?_, rfl, ?_, ?_, List.drop_left' (frameHead_length ..)⟩
  · simp [frameHead, field_zero, Nat.mod_eq_of_lt hk]
  · simp [frameHead, field_append, field_zero, Nat.mod_eq_of_lt ht]
  · simp [frameHead, field_append, field_zero, Nat.mod_eq_of_lt hl]

/-- A frame with any check arrives whole behind the sync pair (R152, R153). -/
theorem receive_wire {kind : Nat} (code : Nat) (tag : BitVec 16) {body check : List Byte} {s : State}
    (rx : s.rx = .expecting ∨ s.rx = .hunting false false) (hk : kind < 256) (allowed : body.length ≤ 65536)
    (four : check.length = 4) :
    receive ([0xD4#8, 0x2B#8] ++ (frameHead kind code tag body.length ++ body) ++ check) s
      = frameArrived (frameHead kind code tag body.length ++ body) check s := by
  obtain ⟨-, -, -, length, -⟩ := frameHead_read (code := code) tag hk (length := body.length) (by omega) []
  rw [List.append_nil] at length
  rw [List.append_assoc, receive_append, receive_pair rx, receive_frame rfl (frameHead_length ..) length allowed four,
    frameArrived_rx]

/-! ### A frame that has arrived -/

/-- A wrong check, or a kind that the host does not send (R153). -/
theorem frameArrived_bad {covered check : List Byte} {s : State} (bad : leNat check ≠ (hostCrc covered).toNat
      ∨ (field covered 0 1 ≠ 1 ∧ field covered 0 1 ≠ 2)) :
    frameArrived covered check s = bumpLink .badFrames 1 { s with rx := .expecting } := by
  unfold frameArrived
  by_cases wrong : leNat check ≠ (hostCrc covered).toNat
  · exact if_pos wrong
  · obtain ⟨not1, not2⟩ := bad.resolve_left wrong
    dsimp only
    rw [if_neg wrong]
    split
    · rfl
    · next k some =>
      split at some
      · next one => exact absurd one not1
      · next two => exact absurd two not2
      · cases some

/-- The kind byte of a request (R152). -/
def FrameKind.byte : FrameKind → Nat
  | .control => 0x01
  | .data => 0x02

/-- A good request comes to its acceptance bit by bit as it was sent (R153). -/
theorem frameArrived_good {f : HostFrame} (allowed : f.body.length ≤ 65536) (s : State) :
    let covered := frameHead f.kind.byte f.code.toNat f.tag f.body.length ++ f.body
    frameArrived covered (leBytes 4 (hostCrc covered).toNat) s = acceptFrame f { s with rx := .expecting } := by
  intro covered
  obtain ⟨kind, code, tag, body⟩ := f
  have check : leNat (leBytes 4 (hostCrc covered).toNat) = (hostCrc covered).toNat := by
    rw [leNat_leBytes]
    exact Nat.mod_eq_of_lt (hostCrc covered).isLt
  obtain ⟨rKind, rCode, rTag, -, rBody⟩ := frameHead_read (kind := kind.byte) (code := code.toNat) tag
    (by cases kind <;> decide) (length := body.length) (by simp only at allowed; omega) body
  unfold frameArrived
  dsimp only
  rw [if_neg (not_not.mpr check), rKind, rCode, rTag, rBody, BitVec.ofNat_toNat, BitVec.ofNat_toNat]
  cases kind <;> simp [FrameKind.byte]

/-- Settles O4: the sync pair, the eight bytes of the head, body and check, and what they are read as. -/
theorem requestFrameRoundTrip : Obligations.RequestFrameRoundTrip := by
  intro f s allowed rx
  have wire : f.wire = [0xD4#8, 0x2B#8] ++ (frameHead f.kind.byte f.code.toNat f.tag f.body.length ++ f.body)
      ++ leBytes 4 (hostCrc (frameHead f.kind.byte f.code.toNat f.tag f.body.length ++ f.body)).toNat := by
    cases f with | mk kind => cases kind <;> rfl
  refine congrArg Host.Outcome.next ?_
  rw [wire]
  exact (receive_wire _ _ rx (by cases f.kind <;> decide) allowed (leBytes_length ..)).trans (frameArrived_good allowed s)

/-! ### Acceptance -/

/-- Settles O5: what R155 makes of the request that R153 has read. -/
theorem goodRequestAcceptedOrRefused : Obligations.GoodRequestAcceptedOrRefused := by
  intro code tag body s allowed rx taken
  have expecting : { s with rx := .expecting } = s := by rw [← rx]
  have moves (t : State) (same : t.handler = s.handler) : takeNext t = taken t := by
    rw [takeNext_eq, same]
  have arrives (f : HostFrame) (length : f.body.length ≤ 65536) :
      exec (.hostFrameArrival f.wire) s = .next (acceptFrame f s) := by
    rw [requestFrameRoundTrip f s length (.inl rx), expecting]
  refine ⟨(arrives _ allowed).trans (congrArg _ ?_), (arrives _ allowed).trans (congrArg _ ?_)⟩
  · rw [← moves { s with ctlWaiting := s.ctlWaiting ++ [⟨.control, code, tag, body⟩] } rfl]
    rfl
  · rw [← moves { s with dataWaiting := s.dataWaiting ++ [⟨.data, code, tag, body⟩] } rfl]
    rfl

end Sys2Proof.Machine
end

