-- ==== Sys2Proof/Proofs/BadFrames.lean ====
section
/-! SUPPORT. Bad frames (R153): hunting over a run of bytes up to the first sync pair, and what begins a hunt. -/

namespace Sys2Proof.Machine

/-! ### Hunting -/

/-- The receiver over a run without a sync pair (R153): it goes on hunting, knowing whether it has skipped a byte other
than a first sync byte at its end, and whether it ends in one. -/
theorem receive_run {run : List Byte} {skipped sync1 : Bool} {s : State} (rx : s.rx = .hunting skipped sync1)
    (pairless : ¬ [0xD4#8, 0x2B#8] <:+: (if sync1 then [0xD4#8] else []) ++ run) : ∃ skipped' sync1',
      receive run s = { s with rx := .hunting skipped' sync1' }
        ∧ (skipped' || sync1') = (skipped || sync1 || !run.isEmpty) := by
  induction run generalizing skipped sync1 s with
  | nil => exact ⟨skipped, sync1, by cases s; simp_all, by simp⟩
  | cons b run ih =>
    have noPair : ¬ (sync1 && b = 0x2B#8) = true := fun pair => by
      obtain ⟨rfl, rfl⟩ : sync1 = true ∧ b = 0x2B#8 := by simpa using pair
      exact pairless ⟨[], run, rfl⟩
    have shorter (h : ¬ [0xD4#8, 0x2B#8] <:+: b :: run) : ¬ [0xD4#8, 0x2B#8] <:+: run :=
      fun within => h (within.trans (List.suffix_cons b run).isInfix)
    have tail : ¬ [0xD4#8, 0x2B#8] <:+: b :: run := fun within => pairless (within.trans (List.suffix_append ..).isInfix)
    rw [receive, List.foldl_cons]
    by_cases first : b = 0xD4#8
    · have step : rxByte b s = { s with rx := .hunting (skipped || sync1) true } := by
        simp only [rxByte, rx, huntByte, if_neg noPair, if_pos first]
      rw [step]
      obtain ⟨k, y, run, same⟩ := ih (s := { s with rx := .hunting (skipped || sync1) true }) rfl (first ▸ tail)
      exact ⟨k, y, run, by simp [same]⟩
    · have step : rxByte b s = { s with rx := .hunting true false } := by
        simp only [rxByte, rx, huntByte, if_neg noPair, if_neg first]
      rw [step]
      obtain ⟨k, y, run, same⟩ := ih (s := { s with rx := .hunting true false }) rfl (shorter tail)
      exact ⟨k, y, run, by simp [same]⟩

/-- The pair that ends a hunt counts the run skipped before it, if there was one (R153, log 5). -/
theorem receive_pair_hunting {skipped sync1 : Bool} {s : State} (rx : s.rx = .hunting skipped sync1) :
    receive [0xD4#8, 0x2B#8] s = if skipped || sync1 then bumpLink .badFrames 1 { s with rx := .header [] }
      else { s with rx := .header [] } := by
  simp [receive, rxByte, huntByte, rx]

/-! ### What begins a hunt -/

/-! A hunt that begins at a byte is the same as one that has begun before it (R153). -/

theorem rxByte_expecting {b : Byte} {s : State} (rx : s.rx = .expecting) : rxByte b s
    = if b = 0xD4#8 then { s with rx := .second } else rxByte b { s with rx := .hunting false false } := by
  simp only [rxByte, rx]
  rfl

theorem rxByte_second {b : Byte} {s : State} (rx : s.rx = .second) : rxByte b s
    = if b = 0x2B#8 then { s with rx := .header [] } else rxByte b { s with rx := .hunting false false } := by
  simp only [rxByte, rx]
  rfl

/-- Settles O6: the frame, the length, the run and the bytes where a hunt begins, each by what the receiver makes of it. -/
theorem badFramesAreCountedAndDropped : Obligations.BadFramesAreCountedAndDropped := by
  refine ⟨?frame, ?length, ?run, ?begin⟩
  case frame =>
    intro kind code tag body check s hk _ allowed four rx covered bad
    obtain ⟨kindRead, -⟩ := frameHead_read (code := code) tag hk (length := body.length) (by omega) body
    have wrong : leNat check ≠ (hostCrc covered).toNat ∨ (field covered 0 1 ≠ 1 ∧ field covered 0 1 ≠ 2) := by
      rwa [show field covered 0 1 = kind from kindRead]
    have expecting : { s with rx := .expecting } = s := by rw [← rx]
    refine congrArg Host.Outcome.next ((receive_wire code tag (.inl rx) hk allowed four).trans ?_)
    exact (frameArrived_bad wrong).trans (congrArg _ expecting)
  case length =>
    intro kind code tag len s tooLong within rx
    have wire : [0xD4#8, 0x2B#8] ++ leBytes 1 kind ++ leBytes 1 code ++ leBytes 2 tag.toNat ++ leBytes 4 len
        = [0xD4#8, 0x2B#8] ++ frameHead kind code tag len := by simp [frameHead]
    have read : field (frameHead kind code tag len) 4 4 = len := by
      simp [frameHead, field_append, field_only, Nat.mod_eq_of_lt within]
    refine congrArg Host.Outcome.next ?_
    rw [wire]
    refine (receive_append ..).trans ?_
    rw [receive_pair (.inl rx), receive_head rfl (frameHead_length ..), read, if_pos tooLong]
  case run =>
    intro skipped s pairless rx
    obtain ⟨k, y, run, same⟩ := receive_run rx (by simpa using pairless)
    refine ⟨congrArg Host.Outcome.next ((receive_append ..).trans ?_), _, congrArg Host.Outcome.next run⟩
    rw [run, receive_pair_hunting rfl, same]
    cases skipped <;> rfl
  case begin =>
    intro b bytes s rx
    have first : rxByte 0xD4#8 s = { s with rx := .second } := by rw [rxByte_expecting rx, if_pos rfl]
    have notFirst (other : b ≠ 0xD4#8) : rxByte b s = rxByte b { s with rx := .hunting false false } := by
      rw [rxByte_expecting rx, if_neg other]
    have notSecond (other : b ≠ 0x2B#8) :
        rxByte b (rxByte 0xD4#8 s) = rxByte b { s with rx := .hunting false false } := by
      rw [first, rxByte_second rfl, if_neg other]
    have second : rxByte 0x2B#8 (rxByte 0xD4#8 s) = { s with rx := .header [] } := by
      rw [first, rxByte_second rfl, if_pos rfl]
    have rest {t u : State} (same : t = u) :
        Host.Outcome.next (φ := Fault) (ρ := Refusal) (receive bytes t) = .next (receive bytes u) := by rw [same]
    exact ⟨fun other => rest (notFirst other), fun other => rest (notSecond other), rest second⟩

end Sys2Proof.Machine
end

