-- ==== Sys2Proof/Proofs/Transmission.lean ====
section
/-! SUPPORT. FRAME_SENT (R162) with Credits and Control free (R156, R160), and the bytes of the frame being sent (R152, R159,
R164, R170, R175). -/

namespace Sys2Proof.Machine

/-! ### The end of a transmission -/

/-- The frame on the transmit path has been sent, and it is no RESET's reply (R162). -/
theorem finishSending_of_notReset {s : State}
    (notReset : ∀ r c k, s.sending = some (.reply r c k) → r.isReset = false) :
    finishSending s = { s with sending := none } := by
  unfold finishSending
  split
  · next r c k sending => rw [notReset r c k sending, Bool.or_false]
  · rfl

/-- After the RESET's own reply the soft reset is due, and nothing more is begun (R168). -/
theorem frameSent_reset {s : State} {r : Reply} {c k : Nat} (sending : s.sending = some (.reply r c k))
    (reset : r.isReset = true) :
    beginSending (finishSending s) = { s with sending := none, resetSent := true } := by
  have finished : finishSending s = { s with sending := none, resetSent := true } := by
    unfold finishSending
    rw [sending]
    simp only [reset, Bool.or_true]
  rw [finished]
  exact if_pos rfl

/-! ### The beginning of the next -/

section
variable {s : State} {rest : List OutFrame} (notDue : s.resetSent = false)
include notDue

theorem beginSending_idle (out : s.outgoing = []) : beginSending s = s := by
  simp [beginSending, notDue, out]

theorem beginSending_event {seq : BitVec 16} {lost : Nat} {e : Event} (out : s.outgoing = .event seq lost e :: rest) :
    beginSending s = { s with outgoing := rest, sending := some (.event seq lost e) } := by
  simp [beginSending, notDue, out]

/-- Credits and Control free are those of the order without the reply (R156, R160). -/
theorem beginSending_reply {r : Reply} (out : s.outgoing = .reply r :: rest) : beginSending s = { s with
    outgoing := rest
    sending := some (.reply r { s with outgoing := rest }.credits { s with outgoing := rest }.controlFree) } := by
  simp [beginSending, notDue, out]

end

/-- Every slot of a kind is free or held (R154, R156); a reply that has begun to be sent holds none (R160). -/
theorem free_after_reply {k : FrameKind} {room waiting : Nat} {r : Reply} {rest : List OutFrame}
    (within : waiting + (OutFrame.reply r :: rest).countP (fun o => o.slot = some k) ≤ room) :
    room - (waiting + rest.countP fun o => o.slot = some k)
        + (waiting + (OutFrame.reply r :: rest).countP fun o => o.slot = some k)
      = room + if r.slot = some k then 1 else 0 := by
  rw [List.countP_cons, show (OutFrame.reply r).slot = r.slot from rfl] at within ⊢
  simp only [decide_eq_true_eq] at within ⊢
  omega

/-! ### The bytes of the frame being sent -/

/-- A signed quantity of 0 or above (R170). -/
theorem int64Bytes_nonneg {e : Int} (sign : 0 ≤ e) (range : e < 9223372036854775808) :
    int64Bytes e = leBytes 8 e.toNat := by
  rw [int64Bytes, Int.emod_eq_of_lt sign (by omega)]

/-- A signed quantity below 0, in two's complement (R170). -/
theorem int64Bytes_neg {e : Int} (sign : e < 0) (range : -9223372036854775808 ≤ e) :
    int64Bytes e = leBytes 8 (18446744073709551616 - e.natAbs) := by
  rw [int64Bytes]
  congr 1
  omega

/-- Settles O7: a transmission that ends lets the head of the order begin, but for a RESET's reply, and each frame's bytes
are its layout's. -/
theorem frameSentBeginsTheNext : Obligations.FrameSentBeginsTheNext := by
  refine ⟨fun s notDue notReset => ?sends, fun s tag c k sending => ?reset, ?bytes⟩
  case sends =>
    have begins : exec .frameSent s = .next (beginSending { s with sending := none }) := by
      rw [← finishSending_of_notReset notReset]; rfl
    refine ⟨fun out => ?_, fun seq lost e rest out => ?_, fun r rest out data control => ?_⟩
    · rw [begins, beginSending_idle (by exact notDue) (by exact out)]
    · rw [begins, beginSending_event (by exact notDue) (by exact out)]
    · refine ⟨_, _, begins.trans (congrArg _ (beginSending_reply (by exact notDue) (by exact out))), ?_, ?_⟩
      · simp only [State.dataHeld, out] at data ⊢
        exact free_after_reply data
      · simp only [State.controlHeld, out] at control ⊢
        exact free_after_reply control
  case reset => exact congrArg Host.Outcome.next (frameSent_reset sending rfl)
  case bytes =>
    intro byte frame
    have event (seq : BitVec 16) (lost : Nat) (e : Event) :
        SentFrame.wire (.event seq lost e) = frame 0x82 e.code seq (leBytes 4 lost ++ e.body) := rfl
    refine ⟨by decide, fun r credits control => ?_, fun seq lost => ?_⟩
    · have origin : leBytes 1 (if r.slot.isSome then 0 else 1) = [if r.slot = none then 1 else 0] := by
        cases r.slot <;> rfl
      simp only [SentFrame.wire, SentFrame.body, origin]
      rfl
    intro sent health
    have healthByte (k : HealthState) : leBytes 1 k.code = [health k] := by cases k <;> rfl
    refine ⟨fun p h l => rfl, fun a b => rfl, fun pc pr e sign range => ?_, fun pc pr e sign range => ?_, fun a b => rfl,
      fun o => ⟨rfl, rfl⟩, fun g o l => rfl, fun g o => rfl, fun g h r n k p => ?_, fun g pl n h r p => rfl,
      fun g st n c => ?_, fun h a b n => ?_⟩
    · exact (event seq lost _).trans (by simp only [Event.body, int64Bytes_nonneg sign range]; rfl)
    · exact (event seq lost _).trans (by simp only [Event.body, int64Bytes_neg sign range]; rfl)
    · cases k <;> rfl
    · cases st <;> rfl
    · refine (event seq lost _).trans ?_
      rw [Event.body, healthByte a, healthByte b]
      rfl

end Sys2Proof.Machine
end

