-- ==== Sys2Proof/Proofs/LinkRequests.lean ====
section
/-! SUPPORT. Requests that the Link Port answers itself: unknown codes (R158), IDENTIFY (R167) and RESET (R168); and the soft
reset that follows it (R169). -/

namespace Sys2Proof.Machine

/-! ### Unknown codes -/

/-- A control code outside the catalogue names no request (R158). -/
theorem reqOf_unknown_control {code : Byte} (unknown : code.toNat ∉ controlCodes) (tag : BitVec 16) (body : List Byte) :
    reqOf ⟨.control, code, tag, body⟩ = .unknownCode := by
  simp only [reqOf]
  generalize code.toNat = k at unknown
  split
  case h_21 => rfl
  all_goals exact absurd (by decide) unknown

/-- Settles O10: no step of the handler stops a frame of no request before its UNKNOWN. -/
theorem unknownCodesAreAnswered : Obligations.UnknownCodesAreAnswered := by
  refine ⟨fun s s1 code tag body taken unknown => ?_, fun s s1 code tag body ⟨holds, moved⟩ unknown => ?_⟩
  · refine congrArg Host.Outcome.next ?_
    rw [handleRequest_ruled taken (reqOf_unknown_control unknown tag body) rfl rfl, taken.2]
    exact takeNext_answer ..
  · refine congrArg Host.Outcome.next ?_
    rw [handleRequest_taken holds (if_neg unknown), moved]
    exact takeNext_answer ..

/-! ### IDENTIFY and RESET -/

/-- The values of R167's table, byte by byte. -/
theorem identity_bytes : identity = [0x06, 0x7A, 0x68, 0x09, 0x01, 0x00, 8, 24, 72, 4, 28, 4, 64, 64, 2, 0x00, 0x08,
    0x00, 0x00, 0x00, 0x10, 0x00, 0x00, 0x01, 0x00] := by decide

theorem length_ne_zero_of_ne_nil {body : List Byte} (nonempty : body ≠ []) : decide (body.length = 0) = false :=
  decide_eq_false fun empty => nonempty (List.length_eq_zero_iff.mp empty)

/-- Settles O12: either engine state comes to the body's length and the rule, and a stopped handler has no row in turn. -/
theorem identifyAndResetAnswer : Obligations.IdentifyAndResetAnswer := by
  refine ⟨fun s s1 tag taken => congrArg Host.Outcome.next ?_,
    fun s s1 tag body nonempty taken => congrArg Host.Outcome.next ?_,
    fun s s1 tag body nonempty taken => congrArg Host.Outcome.next ?_, fun s s1 tag taken => ?_⟩
  · rw [handleRequest_ruled (q := .identify) taken rfl rfl rfl, taken.2, ← identity_bytes]
    exact takeNext_answer ..
  · exact handleRequest_badLength taken rfl rfl (length_ne_zero_of_ne_nil nonempty)
  · exact handleRequest_badLength taken rfl rfl (length_ne_zero_of_ne_nil nonempty)
  · refine ⟨_, congrArg Host.Outcome.next (handleRequest_ruled taken rfl rfl rfl), rfl, fun q => ?_⟩
    obtain ⟨act, ran⟩ := exec_instr q
    rw [ran]
    exact congrArg Host.Outcome.next (handleRequest_other fun f holds => by cases holds)

/-! ### The soft reset -/

/-- Settles O3: every table of the soft reset's state but the three that are kept is that of the power-on state (R169). -/
theorem softResetSetsThePart : Obligations.SoftResetSetsThePart := by
  intro s sent
  refine ⟨softReset s, congrArg Host.Outcome.next (if_pos sent), rfl, rfl, rfl, rfl, rfl, rfl, rfl, rfl, rfl, rfl, rfl,
    rfl, rfl, rfl, rfl, rfl, rfl, rfl, rfl, rfl, rfl, rfl, rfl, fun p _ => ?_, fun h _ => ?_,
    fun l lt => look_replicate_lt _ _ lt, fun i lt => look_replicate_lt _ _ lt, fun i lt => look_replicate_lt _ _ lt,
    rfl, rfl, rfl⟩
  · refine ⟨look_replicate .., look_replicate .., look_replicate .., fun i _ => ?_⟩
    rw [show planeGroup (softReset s) p = _ from powerOn_planeGroup s p, look_replicate]
  · refine ⟨look_replicate .., look_replicate .., look_replicate .., look_replicate .., fun i _ => ?_⟩
    rw [show headGroup (softReset s) h = _ from powerOn_headGroup s h, look_replicate]

end Sys2Proof.Machine
end

section
/-! SUPPORT. STATUS_QUERY (R171) and STATS_READ (R174): the parts of the one's reply cut out again, and the group and
flag that the other's body names. -/

namespace Sys2Proof.Machine

/-! ### The records of STATUS_QUERY -/

@[simp] theorem pageRecord_length (p : Page) : (pageRecord p).length = 11 := by simp [pageRecord]

@[simp] theorem headRecord_length (s : State) (h : Nat) : (headRecord s h).length = 4 := by simp [headRecord]

@[simp] theorem planeRecord_length (s : State) (t : Nat × PlaneCfg) : (planeRecord s t).length = 5 := by
  simp [planeRecord]

/-- A page record with R170's codes written out. -/
theorem pageRecord_eq (p : Page) : pageRecord p = leBytes 2 p.id
    ++ leBytes 1 (match p.pstate with | .queued => 0 | .bound => 1 | .firing => 2) ++ leBytes 8 (p.origin.getD 0) := by
  rw [pageRecord]
  cases p.pstate <;> rfl

/-- The record of a head that has health, with R170's codes written out. -/
theorem headRecord_eq {s : State} {h : Nat} {k : Health} (health : look s.health h none = some k) :
    headRecord s h = leBytes 1 h ++ leBytes 1 (match k.state with
      | .active => 0 | .warned => 1 | .degraded => 2 | .offline => 3 | .probing => 4) ++ leBytes 2 k.counter := by
  rw [headRecord, health]
  cases held : k.state <;> simp only [Option.getD_some, held, HealthState.code]

/-! ### The body of STATUS_QUERY's reply -/

/-- The fields ahead of the records (R171). -/
def statusHead (s : State) : List Byte :=
  leBytes 1 s.engine.code ++ leBytes 1 s.lock.code ++ leBytes 1 s.pages.length
    ++ leBytes 1 (configuredHeads s).length ++ leBytes 1 (configuredPlanes s).length
    ++ leBytes 8 s.pInt ++ leBytes 8 s.hInt

def pageRecords (s : State) : List Byte := s.pages.flatMap pageRecord

def headRecords (s : State) : List Byte := (configuredHeads s).flatMap fun t => headRecord s t.1

def planeRecords (s : State) : List Byte := (configuredPlanes s).flatMap (planeRecord s)

@[simp] theorem statusHead_length (s : State) : (statusHead s).length = 21 := by simp [statusHead]

@[simp] theorem pageRecords_length (s : State) : (pageRecords s).length = 11 * s.pages.length := by
  simp [pageRecords, List.length_flatMap, Nat.mul_comm]

@[simp] theorem headRecords_length (s : State) : (headRecords s).length = 4 * (configuredHeads s).length := by
  simp [headRecords, List.length_flatMap, Nat.mul_comm]

@[simp] theorem planeRecords_length (s : State) : (planeRecords s).length = 5 * (configuredPlanes s).length := by
  simp [planeRecords, List.length_flatMap, Nat.mul_comm]

/-- The four parts in their order (R171). -/
theorem statusBody_eq (s : State) :
    statusBody s = statusHead s ++ pageRecords s ++ headRecords s ++ planeRecords s := rfl

/-- A part of known length behind another. -/
theorem take_drop_middle {before middle after : List Byte} {i n : Nat} (start : before.length = i)
    (length : middle.length = n) : ((before ++ middle ++ after).drop i).take n = middle := by
  rw [List.append_assoc, List.drop_left' start, List.take_left' length]

/-- With R170's codes written out. -/
theorem statusHead_eq (s : State) : statusHead s = leBytes 1 (match s.engine with | .setup => 0 | .run => 1)
    ++ leBytes 1 (match s.lock with | .unlocked => 0 | .locked => 1) ++ leBytes 1 s.pages.length
    ++ leBytes 1 (configuredHeads s).length ++ leBytes 1 (configuredPlanes s).length
    ++ leBytes 8 (s.pRaw / 4096) ++ leBytes 8 (s.hRaw / 4096) := by
  rw [statusHead]
  cases s.engine <;> cases s.lock <;> rfl

/-- The records of heads that all have health. -/
theorem headRecords_eq {s : State} {health : Nat → Health}
    (known : ∀ h c, look s.heads h none = some c → look s.health h none = some (health h)) :
    headRecords s = (configuredHeads s).flatMap fun t => leBytes 1 t.1
      ++ leBytes 1 (match (health t.1).state with
          | .active => 0 | .warned => 1 | .degraded => 2 | .offline => 3 | .probing => 4)
      ++ leBytes 2 (health t.1).counter :=
  List.flatMap_congr fun t member => headRecord_eq (known t.1 t.2 (mem_configuredHeads.mp member))

/-- Settles O13: the reply's body is its four parts, each of a length that the counts give, and the rule
only answers. -/
theorem statusQueryReportsTheState : Obligations.StatusQueryReportsTheState := by
  refine ⟨fun s s1 tag taken => ⟨statusBody s, congrArg Host.Outcome.next ?_, ?_, ?_, ?_, fun health known => ?_, ?_⟩,
    fun s s1 tag body nonempty taken => congrArg Host.Outcome.next ?_⟩
  · rw [handleRequest_ruled (q := .statusQuery) taken rfl rfl rfl, taken.2]
    exact takeNext_answer ..
  · rw [statusBody_eq, List.append_assoc, List.append_assoc, List.take_left' (statusHead_length s)]
    exact statusHead_eq s
  · simp [statusBody_eq, ← Nat.add_assoc]
  · rw [statusBody_eq, List.append_assoc, take_drop_middle (statusHead_length s) (pageRecords_length s)]
    exact List.flatMap_congr fun p _ => pageRecord_eq p
  · rw [statusBody_eq, take_drop_middle (by simp) (headRecords_length s)]
    exact headRecords_eq known
  · rw [statusBody_eq, List.drop_left' (by simp [← Nat.add_assoc])]
    rfl
  · exact handleRequest_badLength taken rfl rfl (length_ne_zero_of_ne_nil nonempty)

/-! ### The body of STATS_READ -/

/-- The group that a code and an index name (R170, R174). -/
def groupNamed : Nat → Nat → Option Group
  | 0, 0 => some .link
  | 1, 0 => some .motion
  | 2, p => if p ≤ 7 then some (.plane p) else none
  | 3, h => if h ≤ 23 then some (.head h) else none
  | _, _ => none

/-- STATS_READ's body names a group and a flag, each read by itself. -/
theorem parseStats_eq (b : List Byte) : parseStats b = (boolOfCode (byteAt b 2)).bind fun clear =>
    (groupNamed (byteAt b 0) (byteAt b 1)).map (·, clear) := by
  simp only [parseStats]
  generalize byteAt b 0 = group, byteAt b 1 = index
  cases boolOfCode (byteAt b 2) with
  | none => rfl
  | some clear =>
    match group with
    | 0 | 1 => cases index <;> rfl
    | 2 | 3 => simp only [groupNamed, Option.bind_some]; split <;> rfl
    | group + 4 => rfl

theorem groupNamed_plane {p : Nat} (small : p ≤ 7) : groupNamed 2 p = some (.plane p) := if_pos small

theorem groupNamed_head {h : Nat} (small : h ≤ 23) : groupNamed 3 h = some (.head h) := if_pos small

/-- Codes and indices that name no group (R174). -/
theorem groupNamed_eq_none {group index : Nat} (bad : 3 < group ∨ (group ≤ 1 ∧ index ≠ 0)
    ∨ (group = 2 ∧ 7 < index) ∨ (group = 3 ∧ 23 < index)) : groupNamed group index = none := by
  match group, index with
  | 0, 0 | 1, 0 => omega
  | 0, _ + 1 | 1, _ + 1 => rfl
  | 2, p => exact if_neg (by omega)
  | 3, h => exact if_neg (by omega)
  | _ + 4, _ => rfl

theorem boolOfCode_flag {flag : Nat} (small : flag ≤ 1) : boolOfCode flag = some (decide (flag = 1)) := by
  match flag with
  | 0 | 1 => rfl

theorem boolOfCode_eq_none {flag : Nat} (large : 1 < flag) : boolOfCode flag = none := by
  match flag with
  | flag + 2 => rfl

/-- The body of STATS_READ (R166). -/
def statsFields (group index flag : Nat) : List Byte := leBytes 1 group ++ leBytes 1 index ++ leBytes 1 flag

/-- What STATS_READ makes of its three bytes. -/
theorem parseStats_statsFields {group index flag : Nat} (b1 : group < 256) (b2 : index < 256) (b3 : flag < 256) :
    parseStats (statsFields group index flag)
      = (boolOfCode flag).bind fun clear => (groupNamed group index).map (·, clear) := by
  have read : byteAt (statsFields group index flag) 0 = group ∧ byteAt (statsFields group index flag) 1 = index
      ∧ byteAt (statsFields group index flag) 2 = flag := by
    simp [statsFields, byteAt, field_append, field_zero, field_only, Nat.mod_eq_of_lt b1, Nat.mod_eq_of_lt b2,
      Nat.mod_eq_of_lt b3]
  obtain ⟨f1, f2, f3⟩ := read
  rw [parseStats_eq, f1, f2, f3]

/-! ### What STATS_READ does -/

theorem TakesControl.planeCtrs {s s1 : State} {code tag body} (h : TakesControl s code tag body s1) :
    s.planeCtrs = s1.planeCtrs := by
  obtain ⟨-, rfl⟩ := h; rw [movedOn_eq]

theorem TakesControl.headCtrs {s s1 : State} {code tag body} (h : TakesControl s code tag body s1) :
    s.headCtrs = s1.headCtrs := by
  obtain ⟨-, rfl⟩ := h; rw [movedOn_eq]

theorem movedOn_clearGroup (g : Group) (s : State) : movedOn (clearGroup g s) = clearGroup g (movedOn s) := by
  rw [movedOn_eq, movedOn_eq]
  cases g <;> rfl

/-- A group named and a flag: the values as read, then the clear (R174). -/
theorem statsRead_named {f : HostFrame} {g : Group} {clear : Bool} {s : State}
    (named : parseStats f.body = some (g, clear)) : statsRead f { s with handler := .free } = answer f .ok
      (g.bytes ++ leBytes 1 (groupValues s g).length ++ (groupValues s g).flatMap (leBytes 4))
      { (if clear then clearGroup g s else s) with handler := .free } := by
  rw [statsRead, named]
  cases clear <;> cases g <;> rfl

/-- Settles O14: the three bytes name a group and a flag or are refused, and clearing is of that group alone. -/
theorem statsReadReadsAndClears : Obligations.StatsReadReadsAndClears := by
  refine ⟨fun s s1 tag body long taken => congrArg Host.Outcome.next
    (handleRequest_badLength taken rfl rfl (decide_eq_false long)), ?_⟩
  intro s s1 tag group index flag b1 b2 b3 taken
  change TakesControl s _ tag (statsFields group index flag) s1 at taken
  have parsed := parseStats_statsFields b1 b2 b3
  have read {g : Group} (small : flag ≤ 1) (named : groupNamed group index = some g) :
      exec .statsRead s = .next (replied .control 0x03#8 tag .ok
        (g.bytes ++ leBytes 1 (groupValues s g).length ++ (groupValues s g).flatMap (leBytes 4))
        (if flag = 1 then clearGroup g s1 else s1)) := by
    rw [boolOfCode_flag small, named] at parsed
    have moved : movedOn (if decide (flag = 1) then clearGroup g s else s)
        = if flag = 1 then clearGroup g s1 else s1 := by
      simp only [decide_eq_true_eq, apply_ite movedOn, movedOn_clearGroup, taken.2]
    rw [← moved]
    exact congrArg Host.Outcome.next (handleRequest_answered taken rfl rfl rfl (statsRead_named parsed))
  refine ⟨fun small link zero => ?_, fun small motion zero => ?_, fun small plane low => ?_, fun small head low => ?_,
    fun bad => ?_⟩
  · subst link zero
    exact read small rfl
  · subst motion zero
    exact read small rfl
  · subst plane
    rw [taken.planeCtrs]
    exact read small (groupNamed_plane low)
  · subst head
    rw [taken.headCtrs]
    exact read small (groupNamed_head low)
  · have refused : parseStats (statsFields group index flag) = none := by
      rcases bad with large | bad
      · rw [parsed, boolOfCode_eq_none large, Option.bind_none]
      · rw [parsed, groupNamed_eq_none bad]
        exact Option.bind_fun_none _
    refine congrArg Host.Outcome.next (handleRequest_refused taken rfl rfl rfl ?_)
    rw [statsRead, refused]

end Sys2Proof.Machine
end

section
/-! SUPPORT. The queue of commands is the model's own (log 2): only step takes from it, and no command changes it. -/

namespace Sys2Proof.Machine

/-! ### What a step does with the queue -/

theorem step_of_pending {c : Instr} {rest : List Instr} {s : State} (front : s.pending = c :: rest) :
    step s = exec c { s with pending := rest } := by rw [step, front]

theorem step_of_idle {s : State} (idle : s.pending = []) : step s = .next s := by rw [step, idle]

/-! ### Every command -/

/-- The queue of commands stands. -/
def PendingKept (s t : State) : Prop := t.pending = s.pending

theorem pendingKept_closed : CommandClosed PendingKept where
  refl _ := rfl
  trans a b := b.trans a
  raise e s := raise_pending s e
  planeCtr _ _ _ _ _ := rfl
  bumpHead _ _ _ _ := rfl
  rows _ _ := rfl
  report _ _ _ _ _ _ _ _ := rfl
  dropPage _ _ := rfl
  pages _ _ _ _ := rfl
  lines _ _ _ _ := rfl
  loaders _ _ := rfl
  sched _ _ := rfl
  registers _ _ _ _ _ _ _ _ _ _ _ _ _ _ _ _ := rfl
  bumpLink _ _ _ := rfl
  countHead _ _ _ _ := rfl
  peak _ _ := rfl
  clearGroup g _ := by cases g <;> rfl
  join _ _ := rfl
  emptyLines _ := rfl

theorem pendingKept_motion : MotionClosed PendingKept where
  toPageClosed := pendingKept_closed.toPageClosed
  bumpMotion _ _ _ := rfl
  tracker _ _ _ _ _ _ := rfl
  motion _ _ _ _ _ _ _ := rfl
  cueWith _ _ := rfl

theorem setCue_pendingKept (f : HostFrame) (s : State) : PendingKept s (setCue f s) := by
  unfold setCue; split <;> rfl

theorem engineStart_pendingKept (f : HostFrame) (s : State) : PendingKept s (engineStart f s) := by
  unfold engineStart; split <;> rfl

theorem engineStop_pendingKept (f : HostFrame) (s : State) : PendingKept s (engineStop f s) := RowClosed.ite rfl rfl

/-- The commands that set the run are taken one by one; POWER_ON and SOFT_RESET write the waiting commands back into the
power-on state (log 18). -/
theorem exec_pendingKept (c : Instr) (s : State) : ∃ t, exec c s = .next t ∧ PendingKept s t := by
  have ruled {act : HostFrame → State → State} (q : Req) (keeps : ∀ f s, PendingKept s (act f s)) :
      PendingKept s (handleRequest q act s) := pendingKept_closed.handleRequest (fun f s _ => keeps f s) s
  cases own : setsRun c with
  | false => exact pendingKept_closed.exec own s
  | true =>
    cases c with
    | powerOn => exact ⟨_, rfl, rfl⟩
    | softReset => exact ⟨_, rfl, RowClosed.ite rfl rfl⟩
    | setCue => exact ⟨_, rfl, ruled _ setCue_pendingKept⟩
    | engineStart => exact ⟨_, rfl, ruled _ engineStart_pendingKept⟩
    | engineStop => exact ⟨_, rfl, ruled _ engineStop_pendingKept⟩
    | encoderChange a b => exact ⟨_, rfl, pendingKept_motion.present (pendingKept_motion.encoderStep ⟨a, b⟩ s)⟩
    | paceExpiry => exact ⟨_, rfl, pendingKept_motion.present (pendingKept_motion.paceStep s)⟩
    | cueEdge => exact ⟨_, rfl, pendingKept_motion.cueEdgeTogether s⟩
    | _ => cases own

/-- Settles O1: step by its two cases, and the frame of every command. -/
theorem stepRunsTheFrontCommand : Obligations.StepRunsTheFrontCommand := by
  refine ⟨fun _ _ _ => step_of_pending, fun _ => step_of_idle, fun c s t run => ?_⟩
  obtain ⟨u, ran, kept⟩ := exec_pendingKept c s
  obtain rfl := Host.Outcome.next.inj (run.symm.trans ran)
  exact kept

end Sys2Proof.Machine
end
